-- ==== Sys2Proof/Word.lean ====
section
/-! DEFINITION. The word types of TLC (00_scope.md R9: `REG_W = 32`, `SYM_W = 21`, `OPC_W = 4`) and the one arithmetic
function of R13 that Lean does not have. -/

namespace Sys2Proof

/-- A word of the host port and a host-visible register: 32 bits (R9). -/
abbrev Word := BitVec 32

/-- A symbol: 21 bits (R9, R46). -/
abbrev Sym := BitVec 21

/-- An element of `BYTES`: 8 bits (R33). -/
abbrev Byte := BitVec 8

/-- A number as the 32-bit value that a register or a table field holds of it (R9). -/
abbrev wd (n : Nat) : Word := BitVec.ofNat 32 n

/-- `ceil_div(a, b) = (a + b - 1) div b` (R13). -/
def ceilDiv (a b : Nat) : Nat := (a + b - 1) / b

end Sys2Proof
end

