-- ==== Sys2Proof/Syntax.lean ====
section
/-! DEFINITION. The syntax of TLC: the eight commands (30_encoding.md R91), the command word before it is decoded (R90), the
six address spaces of the host port (20_memory.md R61) and the host's operations (30_encoding.md R95). -/

namespace Sys2Proof

/-- The commands: one constructor per row of spec/opcode_table.json. Every operand is implicit (R93), so none has fields. -/
inductive Instr where
  | hufEnc
  | hufDec
  | lzEnc
  | lzDec
  | packBits
  | unpackBits
  | packTok
  | unpackTok
deriving DecidableEq, Repr

/-- A command word split into the two fields of R90, not yet checked. -/
structure CmdFields where
  opcode : BitVec 4
  zero   : BitVec 28
deriving DecidableEq, Repr

/-- The six address spaces (R61). -/
inductive Space where
  | reg
  | text
  | bits
  | bytes
  | tok
  | ct
deriving DecidableEq, Repr

/-- What the host and the platform do to TLC, one indivisible step each (R60, R69, R95, R290). -/
inductive HostOp where
  /-- `RD space[idx]` (R95): `MemRead(space, idx)`. -/
  | read (sp : Space) (idx : Nat)
  /-- `WR space[idx], value` (R95): `MemWrite(space, idx, value)`. -/
  | write (sp : Space) (idx : Nat) (v : Word)
  /-- A read that is not exactly one aligned 32-bit word (R69). -/
  | badRead
  /-- A write that is not exactly one aligned 32-bit word (R69). -/
  | badWrite
  /-- `WAIT` (R96): repeat `RD REG[1]` until bit 0 reads 0. -/
  | wait
  /-- The platform asserts the reset input (R290). -/
  | assertReset
  /-- The platform releases the reset input (R290). -/
  | releaseReset
deriving DecidableEq, Repr

/-- Who takes the next step. The core moves either by the whole command (`core`, R256) or by one visit of the current
phase (`phase`, R7); nothing a host can observe distinguishes the two (R303). -/
inductive Agent where
  | host
  | core
  | phase
deriving DecidableEq, Repr

end Sys2Proof
end

