-- ==== Sys2Proof/Machine/Data.lean ====
section
/-! DEFINITION. The data types that TLC's state is made of: tokens, code-table entries, the hidden tables and the engine
registers (10_state.md R34 to R40), the phases (R39) and the error codes (60_exceptions.md R251). -/

namespace Sys2Proof.Machine

/-- The literal word of a token: `has_next` and `next` (R34, R65). -/
structure Lit where
  hasNext : Bool
  next    : Sym
deriving DecidableEq, Repr

/-- One LZ77 token, an element of `TOK` (R34). -/
structure Token where
  dist    : Word
  len     : Word
  hasNext : Bool
  next    : Sym
deriving DecidableEq, Repr

/-- One code-table entry, an element of `CT` (R35): a code is `(clen, cbits)` as R102 says. `clen` is a 32-bit and `cbits` an
`L_MAX`-bit quantity of the host port; they are numbers here because the pseudocode computes with them as numbers (R13). -/
structure CtEntry where
  sym   : Sym
  clen  : Nat
  cbits : Nat
deriving DecidableEq, Repr

/-- One entry of the frequency table `FT` (R36). -/
structure FtEntry where
  sym : Sym
  cnt : Word
deriving DecidableEq, Repr

/-- One entry of the node arena `NODE` (R37). -/
structure Node where
  leaf  : Bool
  sym   : Sym
  freq  : Word
  left  : Word
  right : Word
  live  : Bool
deriving DecidableEq, Repr

/-- One entry of the walk stack `STK` (R38). `cbits` has `L_MAX` bits, a width that is a parameter: `Engine.fits` bounds it (log 11). -/
structure StkEntry where
  node  : Word
  clen  : Word
  cbits : Nat
deriving DecidableEq, Repr

/-- The hidden engine state other than `OP` and `PHASE` (R36 to R40), every register at its width (R9). `FT_LEN`, `NODE_LEN` and `SP` are the
lengths of the lists `ft`, `node` and `stk`. The table sizes and the `L_MAX` bits of `CAND` and of a stack entry's code depend on the capacities,
which are fields of State, so no type can hold them: `Engine.fits` does (log 11). -/
structure Engine where
  /-- `IN_LEN` sampled at acceptance. -/
  n : Word
  /-- `CT_LEN` sampled at acceptance. -/
  k : Word
  /-- `WINDOW` sampled at acceptance. -/
  w : Word
  p : Word
  i : Word
  j : Word
  off : Word
  mlen : Word
  bestLen : Word
  bestDist : Word
  /-- Count of output elements produced so far. -/
  out : Word
  /-- The two picks of a merge. -/
  a : Word
  b : Word
  /-- The bit-packer's byte accumulator and its fill count. -/
  acc : BitVec 8
  accN : BitVec 4
  ft : List FtEntry
  node : List Node
  live : Word
  /-- Top of the stack first. -/
  stk : List StkEntry
  /-- `CAND`, of `L_MAX` bits. -/
  cand : Nat
  candLen : Word
  candStart : Word
deriving DecidableEq, Repr, Inhabited

/-- `PHASE` (R39): `IDLE`, the phases of R144, R159, R190, R203 and R230, and `illegal`, the model's own name for the
state of an accepted illegal word between acceptance and its error completion (60_exceptions.md R254; log 10). -/
inductive Phase where
  | idle
  | illegal
  | hCount | hLeaves | hMerge | hWalk | hEmit
  | dCheck | dScan | dEnd
  | lInit | lSearch | lCompare | lEmit
  | zInit | zCopy | zLit
  | pbCheck | pbLoop | pbFlush
  | ubCheck | ubLoop
  | ptCheck | ptLoop
  | utCheck | utLoop
deriving DecidableEq, Repr

/-- The error kinds of R251. `invalidBitCharacter` is reserved: no command raises it (43_binary_packing.md R229). -/
inductive ErrCode where
  | invalidInput
  | malformedCodeTable
  | malformedStream
  | encodingOverflow
  | invalidBitCharacter
  | illegalCommand
  | capacityExceeded
  | malformedTokenStream
  | badParameter
deriving DecidableEq, Repr

/-- What `raise E(info)` carries (00_scope.md R15). -/
structure Raise where
  code : ErrCode
  info : Nat
deriving DecidableEq, Repr

end Sys2Proof.Machine
end

