-- ==== Sys2Proof/Config.lean ====
section
/-! DEFINITION. What is fixed for a machine: the capacity parameters (00_scope.md R10, R11), the reference set REF (R12), the
constants of R8, and the free values of what the spec leaves unspecified (10_state.md R44). -/

namespace Sys2Proof.Config

/-- The capacities of R10, which a model takes as arguments: State holds them in a field that nothing changes (log 1). -/
structure Params where
  nMax : Nat
  kMax : Nat
  bMax : Nat
  yMax : Nat
  tMax : Nat
deriving DecidableEq, Repr

/-- `L_MAX = max(1, K_MAX - 1)` (R11). -/
def Params.lMax (p : Params) : Nat := max 1 (p.kMax - 1)

/-- `NODE_MAX = 2 * K_MAX - 1` (R11). -/
def Params.nodeMax (p : Params) : Nat := 2 * p.kMax - 1

/-- `ceil(L_MAX / 32)`: the port words that hold a code (20_memory.md R66). -/
def Params.codeWords (p : Params) : Nat := ceilDiv p.lMax 32

/-- `CT_STRIDE = 2 + ceil(L_MAX / 32)` (R11). -/
def Params.ctStride (p : Params) : Nat := 2 + p.codeWords

/-- The reference parameter set REF (R12). -/
def ref : Params := { nMax := 4096, kMax := 256, bMax := 32768, yMax := 4096, tMax := 4096 }

/-- `DEFAULT_WINDOW = 128` (R8). -/
def defaultWindow : Word := 128#32

/-- The largest distance that fits `PACK_DIST_W = 16` bits (R8). -/
def packDistMax : Nat := 0xFFFF

/-- The largest length that fits `PACK_LEN_W = 8` bits (R8). -/
def packLenMax : Nat := 0xFF

/-- `DELIM = 0x00` (R8). -/
def delim : Byte := 0x00#8

/-- FREE VALUE. The port word an unspecified buffer element shows, one fresh word per index; a narrower element takes the
bits its word layout has (10_state.md R44, 93_implementation_defined.md U2; log 4, log 5). -/
opaque freeWord : Nat → Word

/-- FREE VALUE. The hidden engine state after a soft reset, after the reset input is released, and between commands
(10_state.md R42, R44, 93_implementation_defined.md U1; log 6). -/
opaque freeEngine : Nat → Machine.Engine

end Sys2Proof.Config
end

