-- ==== Sys2Proof/WellFormed.lean ====
section
/-! DEFINITION. The checks on syntax and parameters: the two fields of a command word (30_encoding.md R90 to R92) and the range
of the capacities (00_scope.md R10). -/

namespace Sys2Proof

/-- The opcode is one of the eight of R91. -/
def CmdFields.opcodeOk (f : CmdFields) : Bool := decide (1 ≤ f.opcode.toNat ∧ f.opcode.toNat ≤ 8)

/-- Bits 31:4 are zero (R90). -/
def CmdFields.zeroOk (f : CmdFields) : Bool := f.zero == 0#28

/-- A legal command word (R92): both checks. -/
def CmdFields.wf (f : CmdFields) : Bool := f.opcodeOk && f.zeroOk

/-- The opcode of R91. -/
def Instr.opcode : Instr → BitVec 4
  | .hufEnc => 0x1#4
  | .hufDec => 0x2#4
  | .lzEnc => 0x3#4
  | .lzDec => 0x4#4
  | .packBits => 0x5#4
  | .unpackBits => 0x6#4
  | .packTok => 0x7#4
  | .unpackTok => 0x8#4

/-- The fields of an instruction's command word (R90). -/
def Instr.fields (i : Instr) : CmdFields := { opcode := i.opcode, zero := 0#28 }

/-- An instruction is well formed when its command word is legal; it has no operand field that could be out of range (R93). -/
def Instr.wf (i : Instr) : Bool := i.fields.wf

/-- A capacity is an integer with `1 <= value <= 2^32 - 1` (R10). -/
def Config.capOk (c : Nat) : Bool := decide (1 ≤ c ∧ c ≤ 2 ^ 32 - 1)

/-- Every capacity is in the range of R10. -/
def Config.Params.wf (p : Config.Params) : Bool :=
  Config.capOk p.nMax && Config.capOk p.kMax && Config.capOk p.bMax && Config.capOk p.yMax && Config.capOk p.tMax

end Sys2Proof
end

