-- ==== Sys2Proof/Decode.lean ====
section
/-! DEFINITION. The decoder of command words (30_encoding.md R90 to R92), total on every word and rejecting by name, the encoder
after it, and the host's view of the decoder. -/

namespace Sys2Proof

/-- Why a command word is illegal (R92). -/
inductive Illegal where
  /-- One of bits 31:4 is not zero. -/
  | nonzeroBits
  /-- The opcode is 0 or 9 to 15. -/
  | reservedOpcode
deriving DecidableEq, Repr

/-- The two fields of a command word (R90): `opcode` in bits 3:0, `zero` in bits 31:4. -/
def splitWord (w : Word) : CmdFields := { opcode := w.extractLsb' 0 4, zero := w.extractLsb' 4 28 }

/-- The opcode map of R91. -/
def opcodeInstr (c : BitVec 4) : Option Instr :=
  match c.toNat with
  | 1 => some .hufEnc
  | 2 => some .hufDec
  | 3 => some .lzEnc
  | 4 => some .lzDec
  | 5 => some .packBits
  | 6 => some .unpackBits
  | 7 => some .packTok
  | 8 => some .unpackTok
  | _ => none

/-- The decoder: "every 32-bit word is either one of the eight commands or illegal" (R92). -/
def decode (w : Word) : Except Illegal Instr :=
  if (splitWord w).zero = 0#28 then
    match opcodeInstr (splitWord w).opcode with
    | some i => .ok i
    | none => .error .reservedOpcode
  else .error .nonzeroBits

/-- The decoder's instruction, or none for an illegal word. -/
def decode? (w : Word) : Option Instr :=
  match decode w with
  | .ok i => some i
  | .error _ => none

/-- The encoder: the full word for opcode `c` is `0x0000000c` (R91). -/
def encode (i : Instr) : Word := i.fields.zero ++ i.fields.opcode

/-- The instruction the decoder reads from the command word whose bits are `w` (opcode-table numbering). A command word is one
32-bit word that arrives whole on the port (20_memory.md R69, R77), so no byte order enters. -/
def decodeTableWord (nbits w : Nat) : Option Instr := decode? (BitVec.ofNat 32 (w % 2 ^ nbits))

end Sys2Proof
end

