-- ==== Sys2Proof/Machine/State.lean ====
section
/-! DEFINITION. The whole state of TLC (10_state.md R20) as plain data, the reasons a step can stop (there is no fault, 60_exceptions.md
R250), and the state after power-on reset (10_state.md R44). -/

namespace Sys2Proof.Machine

/-- The five buffers (R31 to R35), each a list of (index, value) pairs of the elements that have a specified value: indices strictly
rising, and an index that is not listed is an unspecified element (R44). `TOK` and `CT` are kept by the port word that writes them
(20_memory.md R65, R66), because the host can write one word of an element and leave the others unspecified. -/
structure Memory where
  text    : List (Nat × Sym)
  bits    : List (Nat × Bool)
  bytes   : List Host.Cell
  tokDist : List (Nat × Word)
  tokLen  : List (Nat × Word)
  tokLit  : List (Nat × Lit)
  ctSym   : List (Nat × Sym)
  ctLen   : List (Nat × Word)
  /-- Word `w` of the code of entry `j` stands at index `j * codeWords + w`. -/
  ctBits  : List (Nat × Word)
deriving DecidableEq, Repr

/-- Buffers of which no element is specified. -/
def Memory.empty : Memory :=
  { text := [], bits := [], bytes := [], tokDist := [], tokLen := [], tokLit := [], ctSym := [], ctLen := [], ctBits := [] }

/-- The state of TLC (R20), of its environment (what the host and the platform do next), and the model's own counter of free values. -/
structure State where
  /-- The capacities (00_scope.md R10); nothing changes them (log 1). -/
  cfg     : Config.Params
  /-- `STATUS` (R23), field by field. -/
  busy    : Bool
  done    : Bool
  err     : Bool
  haz     : Bool
  errcode : BitVec 4
  lastop  : BitVec 4
  /-- `CTRL.IRQ_EN` (R24). -/
  irqEn   : Bool
  window  : Word
  inLen   : Word
  ctLen   : Word
  outLen  : Word
  errInfo : Word
  mem     : Memory
  /-- The hidden registers `OP` and `PHASE` (R39) and the other hidden state (R36 to R40). -/
  op      : BitVec 4
  phase   : Phase
  eng     : Engine
  /-- The reset input is asserted (70_reset_and_hazards.md R290). -/
  rst     : Bool
  /-- The host script that is still to be performed (30_encoding.md R95). -/
  script  : List HostOp
  /-- Who takes the next steps; when empty the core moves while a command runs and the host otherwise (log 3). -/
  sched   : List Agent
  /-- The word the host's last read returned (20_memory.md R60). -/
  rdata   : Word
  /-- The index of the next free value (log 8). -/
  free    : Nat
deriving DecidableEq, Repr

/-- No fault: "host accesses never fault", a command error is a next state (60_exceptions.md R250, R255), and TLC "is never stuck"
(70_reset_and_hazards.md R307). -/
inductive Fault where
deriving DecidableEq, Repr

/-- Why a step is refused. -/
inductive Refusal where
  /-- An instruction without a meaning in this model. Raised by an arm of `exec` only; no arm raises it. Safe: the machine stops. -/
  | notModelled (mnemonic : String)
deriving DecidableEq, Repr

/-- The hidden engine state the model names for reset: the spec gives no values (R44 "unspecified; never read before written");
DESIGN CHOICE, unsafe, log 7. -/
def Engine.zero : Engine :=
  { n := 0#32, k := 0#32, w := 0#32, p := 0#32, i := 0#32, j := 0#32, off := 0#32, mlen := 0#32, bestLen := 0#32, bestDist := 0#32,
    out := 0#32, a := 0#32, b := 0#32, acc := 0#8, accN := 0#4, ft := [], node := [], live := 0#32, stk := [], cand := 0, candLen := 0#32,
    candStart := 0#32 }

/-- The machine right after power-on reset (R44, R291), with the REF capacities (R12; log 1) and an environment that does nothing (log 9). -/
def State.reset : State :=
  { cfg := Config.ref, busy := false, done := false, err := false, haz := false, errcode := 0#4, lastop := 0#4, irqEn := false,
    window := Config.defaultWindow, inLen := 0#32, ctLen := 0#32, outLen := 0#32, errInfo := 0#32, mem := Memory.empty, op := 0#4,
    phase := .idle, eng := Engine.zero, rst := false, script := [], sched := [], rdata := 0#32, free := 0 }

end Sys2Proof.Machine
end

