-- ==== Sys2Proof/Machine/Flags.lean ====
section
/-! DEFINITION. Every flag computation: the error code numbers (60_exceptions.md R251), the words of `STATUS` and `CTRL` (10_state.md R23, R24),
the write-1-to-clear rule, the host-protocol flag `HAZ` (R261) and the interrupt output (R43). -/

namespace Sys2Proof.Machine

/-- The value of `STATUS.ERRCODE` for each error (R251). -/
def ErrCode.toBits : ErrCode → BitVec 4
  | .invalidInput => 1#4
  | .malformedCodeTable => 2#4
  | .malformedStream => 3#4
  | .encodingOverflow => 4#4
  | .invalidBitCharacter => 5#4
  | .illegalCommand => 6#4
  | .capacityExceeded => 7#4
  | .malformedTokenStream => 8#4
  | .badParameter => 9#4

/-- `STATUS` as a word (R23): BUSY 0, DONE 1, ERR 2, HAZ 3, ERRCODE 7:4, LASTOP 11:8, the rest 0. -/
def State.statusWord (s : State) : Word :=
  0#20 ++ s.lastop ++ s.errcode ++ BitVec.ofBool s.haz ++ BitVec.ofBool s.err ++ BitVec.ofBool s.done ++ BitVec.ofBool s.busy

/-- `CTRL` as a word (R24): IRQ_EN in bit 0, the rest 0. -/
def State.ctrlWord (s : State) : Word := 0#31 ++ BitVec.ofBool s.irqEn

/-- `irq = CTRL.IRQ_EN and (STATUS.DONE or STATUS.ERR)` (R43, R262). -/
def State.irq (s : State) : Bool := s.irqEn && (s.done || s.err)

/-- A refused host access sets `STATUS.HAZ` and nothing else (R261). -/
def State.setHaz (s : State) : State := { s with haz := true }

/-- A host write of `v` to `STATUS` (R23): 1 to bit 1 clears DONE; 1 to bit 2 clears ERR, ERRCODE and ERR_INFO; 1 to bit 3 clears HAZ. -/
def State.ackStatus (v : Word) (s : State) : State :=
  { s with
    done := s.done && !v.getLsbD 1
    err := s.err && !v.getLsbD 2
    errcode := if v.getLsbD 2 then 0#4 else s.errcode
    errInfo := if v.getLsbD 2 then 0#32 else s.errInfo
    haz := s.haz && !v.getLsbD 3 }

end Sys2Proof.Machine
end

