-- ==== Sys2Proof/Machine/Ops.lean ====
section
/-! DEFINITION. The named operations over buffers and registers: sparse element lists, the port words of the six spaces (20_memory.md R61
to R67), acceptance, error completion and success completion (60_exceptions.md R254 to R256), soft and power-on reset
(70_reset_and_hazards.md R290, R292). -/

namespace Sys2Proof.Machine

/-- The value listed at an index, if the element is specified. -/
def bufGet {α : Type} : List (Nat × α) → Nat → Option α
  | [], _ => none
  | (k, v) :: r, i => if k = i then some v else bufGet r i

/-- Store a value at an index, keeping the indices strictly rising. -/
def bufPut {α : Type} : List (Nat × α) → Nat → α → List (Nat × α)
  | [], i, v => [(i, v)]
  | (k, w) :: r, i, v => if i < k then (i, v) :: (k, w) :: r else if i = k then (i, v) :: r else (k, w) :: bufPut r i v

/-- The canonical form of a buffer of `cap` elements: indices strictly rising and below `cap`. -/
def bufWf {α : Type} (cap : Nat) : List (Nat × α) → Bool
  | [] => true
  | [(a, _)] => decide (a < cap)
  | (a, _) :: (b, y) :: r => decide (a < b) && bufWf cap ((b, y) :: r)

/-- The low `n` bits of a word, zeros above. -/
def lowBits (n : Nat) (w : Word) : Word := w &&& BitVec.ofNat 32 (2 ^ n - 1)

/-- The bits of `cbits` that word `w` of a code holds: those below `L_MAX` (R66). -/
def codeWordMask (p : Config.Params) (w : Nat) (v : Word) : Word := lowBits (p.lMax - 32 * w) v

/-- Every stored code word has zeros at positions `L_MAX` and above (R66). -/
def codeWordsOk (p : Config.Params) (l : List (Nat × Word)) : Bool :=
  l.all fun e => codeWordMask p (e.1 % p.codeWords) e.2 == e.2

/-- The canonical form of all buffers, each within its capacity (R61). -/
def Memory.wf (p : Config.Params) (m : Memory) : Bool :=
  bufWf p.nMax m.text && bufWf p.bMax m.bits && bufWf p.yMax m.bytes && bufWf p.tMax m.tokDist && bufWf p.tMax m.tokLen &&
    bufWf p.tMax m.tokLit && bufWf p.kMax m.ctSym && bufWf p.kMax m.ctLen && bufWf (p.kMax * p.codeWords) m.ctBits && codeWordsOk p m.ctBits

/-! Element writes. There is no element at or beyond a capacity (R31 to R35), so nothing is stored there. -/

def Memory.putText (p : Config.Params) (i : Nat) (v : Sym) (m : Memory) : Memory :=
  if i < p.nMax then { m with text := bufPut m.text i v } else m

def Memory.putBit (p : Config.Params) (i : Nat) (v : Bool) (m : Memory) : Memory :=
  if i < p.bMax then { m with bits := bufPut m.bits i v } else m

def Memory.putByte (p : Config.Params) (i : Nat) (v : Byte) (m : Memory) : Memory :=
  if i < p.yMax then { m with bytes := bufPut m.bytes i v } else m

def Memory.putTokDist (p : Config.Params) (t : Nat) (v : Word) (m : Memory) : Memory :=
  if t < p.tMax then { m with tokDist := bufPut m.tokDist t v } else m

def Memory.putTokLen (p : Config.Params) (t : Nat) (v : Word) (m : Memory) : Memory :=
  if t < p.tMax then { m with tokLen := bufPut m.tokLen t v } else m

def Memory.putTokLit (p : Config.Params) (t : Nat) (v : Lit) (m : Memory) : Memory :=
  if t < p.tMax then { m with tokLit := bufPut m.tokLit t v } else m

/-- Write a whole token (R34). -/
def Memory.putTok (p : Config.Params) (t : Nat) (v : Token) (m : Memory) : Memory :=
  ((m.putTokDist p t v.dist).putTokLen p t v.len).putTokLit p t { hasNext := v.hasNext, next := v.next }

def Memory.putCtSym (p : Config.Params) (j : Nat) (v : Sym) (m : Memory) : Memory :=
  if j < p.kMax then { m with ctSym := bufPut m.ctSym j v } else m

def Memory.putCtLen (p : Config.Params) (j : Nat) (v : Word) (m : Memory) : Memory :=
  if j < p.kMax then { m with ctLen := bufPut m.ctLen j v } else m

/-- Write word `w` of the code of entry `j`; bits at positions `L_MAX` and above are discarded (R66). -/
def Memory.putCtWord (p : Config.Params) (j w : Nat) (v : Word) (m : Memory) : Memory :=
  if j < p.kMax ∧ w < p.codeWords then { m with ctBits := bufPut m.ctBits (j * p.codeWords + w) (codeWordMask p w v) } else m

/-- Word `w` of a code value: bits `32w + 31 : 32w` (R66). -/
def codeWord (cbits w : Nat) : Word := BitVec.ofNat 32 (cbits / 2 ^ (32 * w))

/-- Write the words `w, w + 1, …` of a code, `c` of them. -/
def Memory.putCtWords (p : Config.Params) (j cbits : Nat) : Nat → Nat → Memory → Memory
  | 0, _, m => m
  | c + 1, w, m => Memory.putCtWords p j cbits c (w + 1) (m.putCtWord p j w (codeWord cbits w))

/-- Write a whole code-table entry (R35). -/
def Memory.putCt (p : Config.Params) (j : Nat) (e : CtEntry) (m : Memory) : Memory :=
  Memory.putCtWords p j e.cbits p.codeWords 0 ((m.putCtSym p j e.sym).putCtLen p j (BitVec.ofNat 32 e.clen))

/-- Write a sequence of elements at `i, i + 1, …` with one of the element writes above. -/
def putSeq {α : Type} (put : Nat → α → Memory → Memory) : Nat → List α → Memory → Memory
  | _, [], m => m
  | i, x :: xs, m => putSeq put (i + 1) xs (put i x m)

/-! The port words of the buffer spaces (R61 to R66). -/

/-- The size of a buffer space in words (R61). `REG` has no bound: its indices 8 and above are reserved, not out of range (R30). -/
def spaceWords (p : Config.Params) : Space → Option Nat
  | .reg => none
  | .text => some p.nMax
  | .bits => some p.bMax
  | .bytes => some p.yMax
  | .tok => some (4 * p.tMax)
  | .ct => some (p.ctStride * p.kMax)

/-- The word of a literal: bit 31 `has_next`, bits 20:0 `next` (R65). -/
def Lit.toWord (l : Lit) : Word := BitVec.ofBool l.hasNext ++ 0#10 ++ l.next

/-- The literal a word holds; bits 30:21 are discarded (R65). -/
def Lit.ofWord (v : Word) : Lit := { hasNext := v.getLsbD 31, next := v.extractLsb' 0 21 }

/-- The bits of a port word that exist in the element word at `idx`; the others are discarded on write and read 0 (R62 to R66). -/
def portMask (p : Config.Params) (sp : Space) (idx : Nat) (v : Word) : Word :=
  match sp with
  | .reg => v
  | .text => (v.extractLsb' 0 21).setWidth 32
  | .bits => (v.extractLsb' 0 1).setWidth 32
  | .bytes => (v.extractLsb' 0 8).setWidth 32
  | .tok =>
    match idx % 4 with
    | 0 => v
    | 1 => v
    | 2 => (Lit.ofWord v).toWord
    | _ => 0#32
  | .ct =>
    match idx % p.ctStride with
    | 0 => (v.extractLsb' 0 21).setWidth 32
    | 1 => v
    | f => codeWordMask p (f - 2) v

/-- The word of a buffer space at `idx`, if it is specified (R62 to R66). -/
def Memory.peek (p : Config.Params) (sp : Space) (idx : Nat) (m : Memory) : Option Word :=
  match sp with
  | .reg => none
  | .text => (bufGet m.text idx).map fun v => v.setWidth 32
  | .bits => (bufGet m.bits idx).map fun v => (BitVec.ofBool v).setWidth 32
  | .bytes => (bufGet m.bytes idx).map fun v => v.setWidth 32
  | .tok =>
    match idx % 4 with
    | 0 => bufGet m.tokDist (idx / 4)
    | 1 => bufGet m.tokLen (idx / 4)
    | 2 => (bufGet m.tokLit (idx / 4)).map Lit.toWord
    | _ => some 0#32
  | .ct =>
    match idx % p.ctStride with
    | 0 => (bufGet m.ctSym (idx / p.ctStride)).map fun v => v.setWidth 32
    | 1 => bufGet m.ctLen (idx / p.ctStride)
    | f => bufGet m.ctBits (idx / p.ctStride * p.codeWords + (f - 2))

/-- Store a port word into a buffer space (R62 to R66). -/
def Memory.poke (p : Config.Params) (sp : Space) (idx : Nat) (v : Word) (m : Memory) : Memory :=
  match sp with
  | .reg => m
  | .text => m.putText p idx (v.extractLsb' 0 21)
  | .bits => m.putBit p idx (v.getLsbD 0)
  | .bytes => m.putByte p idx (v.extractLsb' 0 8)
  | .tok =>
    match idx % 4 with
    | 0 => m.putTokDist p (idx / 4) v
    | 1 => m.putTokLen p (idx / 4) v
    | 2 => m.putTokLit p (idx / 4) (Lit.ofWord v)
    | _ => m
  | .ct =>
    match idx % p.ctStride with
    | 0 => m.putCtSym p (idx / p.ctStride) (v.extractLsb' 0 21)
    | 1 => m.putCtLen p (idx / p.ctStride) v
    | f => m.putCtWord p (idx / p.ctStride) (f - 2) v

/-! The output buffers of a command become unspecified as a whole after an error or when it is abandoned (60_exceptions.md R255,
70_reset_and_hazards.md R292). -/

/-- Make every element of a command's output buffers (30_encoding.md R93) unspecified. -/
def Memory.clearOutputs (i : Instr) (m : Memory) : Memory :=
  match i with
  | .hufEnc => { m with bits := [], ctSym := [], ctLen := [], ctBits := [] }
  | .hufDec => { m with text := [] }
  | .lzEnc => { m with tokDist := [], tokLen := [], tokLit := [] }
  | .lzDec => { m with text := [] }
  | .packBits => { m with bytes := [] }
  | .unpackBits => { m with bits := [] }
  | .packTok => { m with bytes := [] }
  | .unpackTok => { m with tokDist := [], tokLen := [], tokLit := [] }

/-- The same for a command that may be none: an illegal word "has no output buffers" (R255). -/
def Memory.clearOutputs? (i : Option Instr) (m : Memory) : Memory :=
  match i with
  | some c => m.clearOutputs c
  | none => m

/-- How many free values a command can consume (three for a token, one for any other input element, `CT_STRIDE` for a code-table entry),
and one for the hidden state. The counter moves past them at completion, so that no free value is used twice. -/
def State.freeUse (s : State) : Nat := 3 * s.eng.n.toNat + s.cfg.ctStride * s.eng.k.toNat + 1

/-! The sizes of the hidden tables and of the hidden registers of `L_MAX` bits (10_state.md R36 to R38, R40). -/

/-- A walk-stack entry whose code is cut to `L_MAX` bits. -/
def StkEntry.fit (p : Config.Params) (e : StkEntry) : StkEntry := { e with cbits := e.cbits % 2 ^ p.lMax }

/-- How many nodes the arena holds: `NODE_MAX`, of which the 32 bits of `NODE_LEN` can count so many (R37; no run needs more than `2^22`, there being
`2^21` symbols). -/
def nodeRoom (p : Config.Params) : Nat := min p.nodeMax (2 ^ 32 - 1)

/-- The engine state as `FT[0 .. K_MAX)`, `NODE[0 .. NODE_MAX)`, `STK[0 .. K_MAX)` and `CAND` of `L_MAX` bits hold it: there is no table entry at or
beyond a size, so nothing is stored there. No command stores there (R11, 41_huffman.md R136, R137); the free values of the hidden state are cut
the same way (log 11). -/
def Engine.fit (p : Config.Params) (e : Engine) : Engine :=
  { e with
    ft := e.ft.take p.kMax
    node := e.node.take (nodeRoom p)
    stk := (e.stk.drop (e.stk.length - p.kMax)).map (StkEntry.fit p)
    cand := e.cand % 2 ^ p.lMax }

/-- The hidden tables and registers are within their sizes. -/
def Engine.fits (p : Config.Params) (e : Engine) : Bool :=
  decide (e.ft.length ≤ p.kMax) && decide (e.node.length ≤ nodeRoom p) && decide (e.stk.length ≤ p.kMax) &&
    e.stk.all (fun x => decide (x.cbits < 2 ^ p.lMax)) && decide (e.cand < 2 ^ p.lMax)

/-- The unspecified hidden state after a completion or a reset (10_state.md R42, R44): a free value of the state's widths (log 6). -/
def State.freeHidden (s : State) : Engine := (Config.freeEngine s.free).fit s.cfg

/-! Acceptance and completion (60_exceptions.md R254 to R256). -/

/-- The first phase of each command (R144, R159, R190, R203, R230). -/
def firstPhase : Instr → Phase
  | .hufEnc => .hCount
  | .hufDec => .dCheck
  | .lzEnc => .lInit
  | .lzDec => .zInit
  | .packBits => .pbCheck
  | .unpackBits => .ubCheck
  | .packTok => .ptCheck
  | .unpackTok => .utCheck

/-- The phase acceptance of a word selects: the first phase of its command, or the state that ends in `IllegalCommand` (R254). -/
def acceptPhase (w : Word) : Phase :=
  match decode? w with
  | some i => firstPhase i
  | none => .illegal

/-- Acceptance of the command word `w` (R254). -/
def State.accept (w : Word) (s : State) : State :=
  { s with
    busy := true
    done := false
    err := false
    errcode := 0#4
    lastop := w.extractLsb' 0 4
    errInfo := 0#32
    op := w.extractLsb' 0 4
    phase := acceptPhase w
    eng := { s.eng with n := s.inLen, k := s.ctLen, w := s.window } }

/-- Error completion (R255) of the command `cmd`, which is none for an illegal word. The hidden state is of no consequence from here on
(10_state.md R42) and takes free values (log 6). -/
def State.raise (cmd : Option Instr) (r : Raise) (s : State) : State :=
  { s with
    busy := false
    err := true
    errcode := r.code.toBits
    errInfo := BitVec.ofNat 32 r.info
    outLen := 0#32
    ctLen := if cmd = some .hufEnc then 0#32 else s.ctLen
    mem := s.mem.clearOutputs? cmd
    phase := .idle
    eng := s.freeHidden
    free := s.free + s.freeUse }

/-- Success completion (R256) of the command `cmd` with `n` output elements, after its output elements are written; `k` is `FT_LEN`, which
`HUF_ENC` delivers in `CT_LEN` (41_huffman.md R142). -/
def State.complete (cmd : Instr) (n k : Nat) (s : State) : State :=
  { s with
    busy := false
    done := true
    outLen := BitVec.ofNat 32 n
    ctLen := if cmd = .hufEnc then BitVec.ofNat 32 k else s.ctLen
    phase := .idle
    eng := s.freeHidden
    free := s.free + s.freeUse }

/-! Reset. -/

/-- The command a phase belongs to. -/
def Phase.owner : Phase → Option Instr
  | .idle | .illegal => none
  | .hCount | .hLeaves | .hMerge | .hWalk | .hEmit => some .hufEnc
  | .dCheck | .dScan | .dEnd => some .hufDec
  | .lInit | .lSearch | .lCompare | .lEmit => some .lzEnc
  | .zInit | .zCopy | .zLit => some .lzDec
  | .pbCheck | .pbLoop | .pbFlush => some .packBits
  | .ubCheck | .ubLoop => some .unpackBits
  | .ptCheck | .ptLoop => some .packTok
  | .utCheck | .utLoop => some .unpackTok

/-- Every register at its reset value (10_state.md R44), hidden engine state unspecified; capacities, environment and buffers as they are. -/
def State.resetRegs (s : State) : State :=
  { s with
    busy := false, done := false, err := false, haz := false, errcode := 0#4, lastop := 0#4, irqEn := false
    window := Config.defaultWindow, inLen := 0#32, ctLen := 0#32, outLen := 0#32, errInfo := 0#32
    op := 0#4, phase := .idle, eng := s.freeHidden, free := s.free + s.freeUse }

/-- Soft reset (70_reset_and_hazards.md R292): registers to their reset values; buffers keep their contents, except that the output buffers of
a command it abandons become unspecified. -/
def State.softReset (s : State) : State :=
  { s with mem := if s.busy then s.mem.clearOutputs? s.phase.owner else s.mem }.resetRegs

/-- Release of the power-on reset input (R290): the state of R44 with every buffer element unspecified. -/
def State.powerOn (s : State) : State := { s with mem := Memory.empty, rst := false }.resetRegs

/-! The register space (20_memory.md R67; 10_state.md R21 to R30). -/

/-- `MemRead(REG, i)`. -/
def State.regRead (s : State) (i : Nat) : Word :=
  match i with
  | 1 => s.statusWord
  | 2 => s.ctrlWord
  | 3 => s.window
  | 4 => s.inLen
  | 5 => s.ctLen
  | 6 => s.outLen
  | 7 => s.errInfo
  | _ => 0#32

/-- A write of `CTRL` (R24, R292): bit 1 requests a soft reset and then bit 0 is ignored; otherwise bit 0 is stored. -/
def State.writeCtrl (v : Word) (s : State) : State :=
  if v.getLsbD 1 then s.softReset else { s with irqEn := v.getLsbD 0 }

/-- `MemWrite(REG, i, v)` with the interlock of 20_memory.md R72 (c) and (e). -/
def State.regWrite (i : Nat) (v : Word) (s : State) : State :=
  match i with
  | 0 => if s.busy then s.setHaz else s.accept v
  | 1 => s.ackStatus v
  | 2 => s.writeCtrl v
  | 3 => if s.busy then s.setHaz else { s with window := v }
  | 4 => if s.busy then s.setHaz else { s with inLen := v }
  | 5 => if s.busy then s.setHaz else { s with ctLen := v }
  | _ => s

end Sys2Proof.Machine
end

