-- ==== Sys2Proof/Machine/Operands.lean ====
section
/-! DEFINITION. Every operand form: a command's implicit operands (30_encoding.md R93, R94) read from the sampled registers and the input
buffers, and its results written to the output buffers. An unspecified input element is a free value (10_state.md R44), the same one
for the whole of the command that consumes it (log 4). -/

namespace Sys2Proof.Machine

/-- `N`: the primary input length, a whole unsigned register (R94). -/
def State.nIn (s : State) : Nat := s.eng.n.toNat

/-- `K`: the code-table length. -/
def State.kIn (s : State) : Nat := s.eng.k.toNat

/-- `W`: the look-back window. -/
def State.wIn (s : State) : Nat := s.eng.w.toNat

/-- `TEXT[i]` as a command reads it. -/
def State.textAt (s : State) (i : Nat) : Sym := (bufGet s.mem.text i).getD ((Config.freeWord (s.free + i)).extractLsb' 0 21)

/-- `BITS[i]` as a command reads it. -/
def State.bitAt (s : State) (i : Nat) : Bool := (bufGet s.mem.bits i).getD ((Config.freeWord (s.free + i)).getLsbD 0)

/-- `BYTES[i]` as a command reads it. -/
def State.byteAt (s : State) (i : Nat) : Byte := (bufGet s.mem.bytes i).getD ((Config.freeWord (s.free + i)).extractLsb' 0 8)

/-- The literal word of `TOK[t]` as a command reads it. -/
def State.litAt (s : State) (t : Nat) : Lit := (bufGet s.mem.tokLit t).getD (Lit.ofWord (Config.freeWord (s.free + 3 * t + 2)))

/-- `TOK[t]` as a command reads it. -/
def State.tokAt (s : State) (t : Nat) : Token :=
  { dist := (bufGet s.mem.tokDist t).getD (Config.freeWord (s.free + 3 * t))
    len := (bufGet s.mem.tokLen t).getD (Config.freeWord (s.free + 3 * t + 1))
    hasNext := (s.litAt t).hasNext
    next := (s.litAt t).next }

/-- The index of the first free value of code-table entry `j`: they follow those of the `N` input bits. -/
def State.ctFree (s : State) (j : Nat) : Nat := s.free + s.nIn + s.cfg.ctStride * j

/-- Word `w` of the code of entry `j` as a command reads it. -/
def State.codeWordAt (s : State) (j w : Nat) : Word :=
  (bufGet s.mem.ctBits (j * s.cfg.codeWords + w)).getD (codeWordMask s.cfg w (Config.freeWord (s.ctFree j + 2 + w)))

/-- The code value of entry `j`, least significant word first (R66): the sum of the words `w, w + 1, …`, `c` of them. -/
def State.codeFrom (s : State) (j : Nat) : Nat → Nat → Nat
  | 0, _ => 0
  | c + 1, w => (s.codeWordAt j w).toNat * 2 ^ (32 * w) + s.codeFrom j c (w + 1)

/-- `CT[j]` as a command reads it. -/
def State.ctAt (s : State) (j : Nat) : CtEntry :=
  { sym := (bufGet s.mem.ctSym j).getD ((Config.freeWord (s.ctFree j)).extractLsb' 0 21)
    clen := ((bufGet s.mem.ctLen j).getD (Config.freeWord (s.ctFree j + 1))).toNat
    cbits := s.codeFrom j s.cfg.codeWords 0 }

/-! The input sequences `NAME[0 .. n)`. -/

def State.textIn (s : State) (n : Nat) : List Sym := (List.range n).map s.textAt
def State.bitsIn (s : State) (n : Nat) : List Bool := (List.range n).map s.bitAt
def State.bytesIn (s : State) (n : Nat) : List Byte := (List.range n).map s.byteAt
def State.toksIn (s : State) (n : Nat) : List Token := (List.range n).map s.tokAt
def State.ctIn (s : State) (k : Nat) : List CtEntry := (List.range k).map s.ctAt

/-! The results, written from element 0 of the output buffer; elements beyond them keep their values (R93). -/

def State.storeText (xs : List Sym) (s : State) : State := { s with mem := putSeq (Memory.putText s.cfg) 0 xs s.mem }
def State.storeBits (xs : List Bool) (s : State) : State := { s with mem := putSeq (Memory.putBit s.cfg) 0 xs s.mem }
def State.storeBytes (xs : List Byte) (s : State) : State := { s with mem := putSeq (Memory.putByte s.cfg) 0 xs s.mem }
def State.storeToks (xs : List Token) (s : State) : State := { s with mem := putSeq (Memory.putTok s.cfg) 0 xs s.mem }
def State.storeCt (xs : List CtEntry) (s : State) : State := { s with mem := putSeq (Memory.putCt s.cfg) 0 xs s.mem }

end Sys2Proof.Machine
end

