-- ==== Sys2Proof/Machine/Huffman.lean ====
section
/-! DEFINITION. The Huffman Engine (41_huffman.md): the five steps of `HUF_ENC` (R131 to R142) and the greedy decoder `HUF_DEC` (R150 to
R157), each as a function on sequences, and the two command-level meanings (00_scope.md R7). -/

namespace Sys2Proof.Machine

/-! `H_COUNT`, the frequency counter (R132). -/

/-- Add one to the entry of a symbol, if the table has one. -/
def ftBump (x : Sym) : List FtEntry → Option (List FtEntry)
  | [] => none
  | e :: r => if e.sym = x then some ({ e with cnt := wd (e.cnt.toNat + 1) } :: r) else (ftBump x r).map (e :: ·)

/-- Count one symbol: bump its entry, or append a new one if the table has room (R132). -/
def countSym (kMax : Nat) (i : Nat) (x : Sym) (ft : List FtEntry) : Except Raise (List FtEntry) :=
  match ftBump x ft with
  | some ft' => .ok ft'
  | none => if ft.length = kMax then .error ⟨.capacityExceeded, i⟩ else .ok (ft ++ [{ sym := x, cnt := 1#32 }])

/-- The loop of `H_COUNT` over the symbols from position `i` on. -/
def countLoop (kMax : Nat) : Nat → List Sym → List FtEntry → Except Raise (List FtEntry)
  | _, [], ft => .ok ft
  | i, x :: xs, ft =>
    match countSym kMax i x ft with
    | .error r => .error r
    | .ok ft' => countLoop kMax (i + 1) xs ft'

/-! `H_LEAVES` and `H_MERGE`, the tree construction (R133 to R135). -/

/-- One leaf per distinct symbol, in table order (R133). -/
def leaves (ft : List FtEntry) : List Node :=
  ft.map fun e => { leaf := true, sym := e.sym, freq := e.cnt, left := 0#32, right := 0#32, live := true }

/-- The scan of a pick: ascending, so that "<=" keeps the largest index (R134). The best so far is an (index, frequency) pair. -/
def pickScan : List Node → Nat → Option (Nat × Word) → Option (Nat × Word)
  | [], _, best => best
  | nd :: r, x, best =>
    pickScan r (x + 1)
      (if nd.live && (match best with | none => true | some (_, f) => decide (nd.freq.toNat ≤ f.toNat)) then some (x, nd.freq) else best)

/-- A node stops being live. -/
def unlive (nodes : List Node) (x : Nat) : List Node :=
  match nodes[x]? with
  | some nd => nodes.set x { nd with live := false }
  | none => nodes

/-- The fields of a merge (R135): the two picks, the arena afterwards and the live counter afterwards. -/
structure Merge where
  a    : Nat
  b    : Nat
  node : List Node
  live : Nat
deriving DecidableEq, Repr

/-- One iteration of `H_MERGE` (R135): two picks; the node smaller under (frequency, arena index) goes left; the new node is appended. None when
there are not two live nodes, which the loop's test excludes. -/
def mergeOnce (nodes : List Node) (live : Nat) : Option Merge :=
  match pickScan nodes 0 none with
  | none => none
  | some (a, fa) =>
    let nodes1 := unlive nodes a
    match pickScan nodes1 0 none with
    | none => none
    | some (b, fb) =>
      let nodes2 := unlive nodes1 b
      let l := if fa.toNat < fb.toNat then a else b
      let r := if fa.toNat < fb.toNat then b else a
      some { a := a, b := b,
             node := nodes2 ++ [{ leaf := false, sym := 0#21, freq := wd (fa.toNat + fb.toNat), left := wd l, right := wd r, live := true }],
             live := live - 2 + 1 }

/-- The loop of `H_MERGE`: while `LIVE > 1`. The first argument bounds the iterations, of which there are exactly `max(k - 1, 0)` (R136). -/
def mergeLoop : Nat → List Node → Nat → List Node
  | 0, nodes, _ => nodes
  | f + 1, nodes, live =>
    if live > 1 then
      match mergeOnce nodes live with
      | some m => mergeLoop f m.node m.live
      | none => nodes
    else nodes

/-- The arena after `H_LEAVES` and `H_MERGE`. -/
def buildTree (ft : List FtEntry) : List Node := mergeLoop ft.length (leaves ft) ft.length

/-! `H_WALK`, the derivation of the code table (R137, R138). -/

/-- The stack entry of a node's left child: the edge appends a 0 to the code. -/
def StkEntry.left (e : StkEntry) (nd : Node) : StkEntry := { node := nd.left, clen := wd (e.clen.toNat + 1), cbits := 2 * e.cbits }

/-- The stack entry of a node's right child: the edge appends a 1. -/
def StkEntry.right (e : StkEntry) (nd : Node) : StkEntry := { node := nd.right, clen := wd (e.clen.toNat + 1), cbits := 2 * e.cbits + 1 }

/-- The stack entry of the root of an arena: the node last appended, and the empty path. -/
def StkEntry.root (nodes : List Node) : StkEntry := { node := wd (nodes.length - 1), clen := 0#32, cbits := 0 }

/-- One iteration of the walk: pop a node; a leaf's accumulated path is its code, an internal node pushes its right and then its left child. -/
def walkOnce (nodes : List Node) (e : StkEntry) (stk : List StkEntry) (codes : List CtEntry) : List StkEntry × List CtEntry :=
  match nodes[e.node.toNat]? with
  | none => (stk, codes)
  | some nd =>
    if nd.leaf then (stk, codes.set e.node.toNat { sym := nd.sym, clen := e.clen.toNat, cbits := e.cbits })
    else (e.left nd :: e.right nd :: stk, codes)

/-- The loop of the walk: while `SP > 0`. The first argument bounds the iterations: each node is popped once. -/
def walkLoop (nodes : List Node) : Nat → List StkEntry → List CtEntry → List CtEntry
  | 0, _, codes => codes
  | _ + 1, [], codes => codes
  | f + 1, e :: stk, codes => walkLoop nodes f (walkOnce nodes e stk codes).1 (walkOnce nodes e stk codes).2

/-- The table before the walk has reached a leaf: its symbol, and no code yet. -/
def blankCodes (ft : List FtEntry) : List CtEntry := ft.map fun e => { sym := e.sym, clen := 0, cbits := 0 }

/-- The code table of a frequency table and its arena: nothing for no symbol (R139), the code `"0"` for one (R138), the walk otherwise (R137). -/
def deriveCodes (ft : List FtEntry) (nodes : List Node) : List CtEntry :=
  match ft with
  | [] => []
  | [e] => [{ sym := e.sym, clen := 1, cbits := 0 }]
  | _ => walkLoop nodes nodes.length [StkEntry.root nodes] (blankCodes ft)

/-! `H_EMIT`, the code emitter (R141). -/

/-- The bits of a code, first bit first: bit `cl - 1 - t` of `cbits` for `t = 0 .. cl - 1` (R141, R102). -/
def codeBits (e : CtEntry) : List Bool := (List.range e.clen).map fun t => e.cbits.testBit (e.clen - 1 - t)

/-- The loop of `H_EMIT` over the symbols from position `i` on; `out` is what has been emitted. A symbol without an entry, which R132
excludes, emits nothing. -/
def emitLoop (bMax : Nat) (codes : List CtEntry) : Nat → List Sym → List Bool → Except Raise (List Bool)
  | _, [], out => .ok out
  | i, x :: xs, out =>
    match codes.find? (fun e => e.sym == x) with
    | none => emitLoop bMax codes (i + 1) xs out
    | some e =>
      if out.length + e.clen > bMax then .error ⟨.capacityExceeded, i⟩
      else emitLoop bMax codes (i + 1) xs (out ++ codeBits e)

/-- What `HUF_ENC` delivers. -/
structure HufOut where
  bits  : List Bool
  codes : List CtEntry
deriving DecidableEq, Repr

/-- TL's `huffmanEncode(text) -> (bits, codes)` under the capacities (R130). -/
def hufEncode (p : Config.Params) (text : List Sym) : Except Raise HufOut :=
  match countLoop p.kMax 0 text [] with
  | .error r => .error r
  | .ok ft =>
    match emitLoop p.bMax (deriveCodes ft (buildTree ft)) 0 text [] with
    | .error r => .error r
    | .ok bits => .ok { bits := bits, codes := deriveCodes ft (buildTree ft) }

/-- `HUF_ENC` (R130): the precheck of R131, the transform, and its completion (R142). -/
def execHufEnc (s : State) : Host.Outcome State Fault Refusal :=
  if s.nIn > s.cfg.nMax then .next (s.raise (some .hufEnc) ⟨.invalidInput, 0⟩)
  else
    match hufEncode s.cfg (s.textIn s.nIn) with
    | .error r => .next (s.raise (some .hufEnc) r)
    | .ok o => .next (((s.storeCt o.codes).storeBits o.bits).complete .hufEnc o.bits.length o.codes.length)

/-! `D_CHECK`, the validation of the code table (R151). -/

/-- The index of the first entry from `j` on that fails: a length of 0 or above `L_MAX`, or the symbol of an earlier entry. -/
def checkTable (lMax : Nat) : Nat → List CtEntry → List Sym → Option Nat
  | _, [], _ => none
  | j, e :: es, seen =>
    if e.clen = 0 ∨ e.clen > lMax then some j
    else if e.sym ∈ seen then some j
    else checkTable lMax (j + 1) es (e.sym :: seen)

/-! `D_SCAN` and `D_END` (R152, R153). -/

/-- The candidate register (10_state.md R40). -/
structure Cand where
  val   : Nat
  len   : Nat
  start : Nat
deriving DecidableEq, Repr

/-- The entry of smallest index whose code equals the candidate; a code value is taken modulo `2^clen` (R152, R154). -/
def matchCode (tbl : List CtEntry) (val len : Nat) : Option CtEntry :=
  tbl.find? fun e => e.clen == len && e.cbits % 2 ^ len == val

/-- What one bit of the scan does: a symbol and the emptied candidate, a longer candidate, or an error. -/
inductive ScanStep where
  | emit (x : Sym) (c : Cand)
  | more (c : Cand)
  | stop (r : Raise)
deriving DecidableEq, Repr

/-- One iteration of `D_SCAN` (R152): bit `b` at index `i`, `out` symbols so far. -/
def scanBit (nMax lMax : Nat) (tbl : List CtEntry) (i : Nat) (b : Bool) (c : Cand) (out : Nat) : ScanStep :=
  let start := if c.len = 0 then i else c.start
  let val := 2 * c.val + b.toNat
  let len := c.len + 1
  match matchCode tbl val len with
  | some e => if out = nMax then .stop ⟨.capacityExceeded, i⟩ else .emit e.sym { val := 0, len := 0, start := start }
  | none => if len = lMax then .stop ⟨.malformedStream, start⟩ else .more { val := val, len := len, start := start }

/-- The candidate before the first bit (R151); its start is written before it is read (R152). -/
def Cand.empty : Cand := { val := 0, len := 0, start := 0 }

/-- The scan from bit `i` on, and the end of input (R153). -/
def scanLoop (nMax lMax : Nat) (tbl : List CtEntry) : Nat → List Bool → Cand → List Sym → Except Raise (List Sym)
  | _, [], c, out => if c.len > 0 then .error ⟨.malformedStream, c.start⟩ else .ok out
  | i, b :: bs, c, out =>
    match scanBit nMax lMax tbl i b c out.length with
    | .stop r => .error r
    | .emit x c' => scanLoop nMax lMax tbl (i + 1) bs c' (out ++ [x])
    | .more c' => scanLoop nMax lMax tbl (i + 1) bs c' out

/-- TL's `huffmanDecode(bits, codes) -> String` under the capacities (R150). -/
def hufDecode (p : Config.Params) (bits : List Bool) (tbl : List CtEntry) : Except Raise (List Sym) :=
  match checkTable p.lMax 0 tbl [] with
  | some j => .error ⟨.malformedCodeTable, j⟩
  | none => scanLoop p.nMax p.lMax tbl 0 bits Cand.empty []

/-- `HUF_DEC` (R150): the prechecks of R151, the transform, and its completion (R157). -/
def execHufDec (s : State) : Host.Outcome State Fault Refusal :=
  if s.nIn > s.cfg.bMax then .next (s.raise (some .hufDec) ⟨.invalidInput, 0⟩)
  else if s.kIn > s.cfg.kMax then .next (s.raise (some .hufDec) ⟨.malformedCodeTable, 0⟩)
  else
    match hufDecode s.cfg (s.bitsIn s.nIn) (s.ctIn s.kIn) with
    | .error r => .next (s.raise (some .hufDec) r)
    | .ok xs => .next ((s.storeText xs).complete .hufDec xs.length 0)

end Sys2Proof.Machine
end

