-- ==== Sys2Proof/Machine/Lz77.lean ====
section
/-! DEFINITION. The LZ77 Engine (42_lz77.md): the bounded look-back match search and token producer of `LZ_ENC` (R180 to R189), the
token-stream reconstructor of `LZ_DEC` (R195 to R202), and the two command-level meanings. -/

namespace Sys2Proof.Machine

/-- The length of the longest common prefix of two sequences. -/
def commonPrefix : List Sym → List Sym → Nat
  | a :: as, b :: bs => if a = b then commonPrefix as bs + 1 else 0
  | _, _ => 0

/-- `matchlen(P, OFF)` (R184): how far `TEXT[P - OFF + m] = TEXT[P + m]` holds with `P + m < N`. The comparison uses absolute positions of the
one text, so a match may run past `P`. -/
def matchLen (text : List Sym) (p off : Nat) : Nat := commonPrefix (text.drop (p - off)) (text.drop p)

/-- The best (length, distance) so far. -/
structure Best where
  len  : Nat
  dist : Nat
deriving DecidableEq, Repr

/-- No match yet: `BEST_LEN = 0`, `BEST_DIST = 0` (R183). -/
def Best.zero : Best := { len := 0, dist := 0 }

/-- Try one offset: only a strictly greater length replaces the best (R183, R185). -/
def Best.update (b : Best) (mlen off : Nat) : Best := if mlen > b.len then { len := mlen, dist := off } else b

/-- The search over the offsets `off, off + 1, …`, `c` of them. -/
def searchFrom (text : List Sym) (p : Nat) : Nat → Nat → Best → Best
  | 0, _, b => b
  | c + 1, off, b => searchFrom text p c (off + 1) (b.update (matchLen text p off) off)

/-- `search(P)` (R183): offsets `1 .. min(W, P)`, ascending. -/
def search (text : List Sym) (w p : Nat) : Best := searchFrom text p (min w p) 1 Best.zero

/-- The token `emit(P)` writes (R186). -/
def mkToken (text : List Sym) (p : Nat) (b : Best) : Token :=
  match text[p + b.len]? with
  | some x => { dist := BitVec.ofNat 32 b.dist, len := BitVec.ofNat 32 b.len, hasNext := true, next := x }
  | none => { dist := BitVec.ofNat 32 b.dist, len := BitVec.ofNat 32 b.len, hasNext := false, next := 0#21 }

/-- The main loop (R182) from position `p` on; the first argument bounds the iterations, each of which advances by at least one. -/
def lzLoop (tMax w : Nat) (text : List Sym) : Nat → Nat → List Token → Except Raise (List Token)
  | 0, _, out => .ok out
  | f + 1, p, out =>
    if p < text.length then
      if out.length = tMax then .error ⟨.capacityExceeded, p⟩
      else lzLoop tMax w text f (p + (search text w p).len + 1) (out ++ [mkToken text p (search text w p)])
    else .ok out

/-- TL's `lz77Encode(text, window) -> Sequence<Token>` under the capacities (R180). -/
def lzEncode (p : Config.Params) (w : Nat) (text : List Sym) : Except Raise (List Token) := lzLoop p.tMax w text text.length 0 []

/-- `LZ_ENC` (R180): the prechecks of R181, the transform, and its completion (R189). -/
def execLzEnc (s : State) : Host.Outcome State Fault Refusal :=
  if s.wIn = 0 then .next (s.raise (some .lzEnc) ⟨.badParameter, 0⟩)
  else if s.nIn > s.cfg.nMax then .next (s.raise (some .lzEnc) ⟨.invalidInput, 0⟩)
  else
    match lzEncode s.cfg s.wIn (s.textIn s.nIn) with
    | .error r => .next (s.raise (some .lzEnc) r)
    | .ok ts => .next ((s.storeToks ts).complete .lzEnc ts.length 0)

/-- The start of a copy: clamped to 0 when the distance exceeds the current length (R197, R198). -/
def copyStart (d out : Nat) : Nat := if d > out then 0 else out - d

/-- The copy of `l` symbols from `start + m` on, one at a time, so that it may read what it has just appended (R197). None when the
buffer is full. -/
def copyLoop (nMax start : Nat) : Nat → Nat → List Sym → Option (List Sym)
  | 0, _, out => some out
  | l + 1, m, out => if out.length = nMax then none else copyLoop nMax start l (m + 1) (out ++ [(out[start + m]?).getD 0#21])

/-- The copy part of a token: nothing when `d = 0` or nothing has been produced (R199). -/
def copyTok (nMax : Nat) (t : Token) (out : List Sym) : Option (List Sym) :=
  if t.dist ≠ 0#32 ∧ out.length ≠ 0 then copyLoop nMax (copyStart t.dist.toNat out.length) t.len.toNat 0 out else some out

/-- The literal part of a token (R200). -/
def litTok (nMax : Nat) (t : Token) (out : List Sym) : Option (List Sym) :=
  if t.hasNext then (if out.length = nMax then none else some (out ++ [t.next])) else some out

/-- The loop of `LZ_DEC` over the tokens from index `i` on (R197). -/
def lzDecLoop (nMax : Nat) : Nat → List Token → List Sym → Except Raise (List Sym)
  | _, [], out => .ok out
  | i, t :: ts, out =>
    match copyTok nMax t out with
    | none => .error ⟨.capacityExceeded, i⟩
    | some out1 =>
      match litTok nMax t out1 with
      | none => .error ⟨.capacityExceeded, i⟩
      | some out2 => lzDecLoop nMax (i + 1) ts out2

/-- TL's `lz77Decode(tokens) -> String` under the capacities (R195). -/
def lzDecode (p : Config.Params) (ts : List Token) : Except Raise (List Sym) := lzDecLoop p.nMax 0 ts []

/-- `LZ_DEC` (R195): the precheck of R196, the transform, and its completion (R202). -/
def execLzDec (s : State) : Host.Outcome State Fault Refusal :=
  if s.nIn > s.cfg.tMax then .next (s.raise (some .lzDec) ⟨.invalidInput, 0⟩)
  else
    match lzDecode s.cfg (s.toksIn s.nIn) with
    | .error r => .next (s.raise (some .lzDec) r)
    | .ok xs => .next ((s.storeText xs).complete .lzDec xs.length 0)

end Sys2Proof.Machine
end

