-- ==== Sys2Proof/Machine/Packing.lean ====
section
/-! DEFINITION. Binary Packing (43_binary_packing.md): the bit-packer and its inverse (R210 to R217), the text encoding of a literal
(30_encoding.md R100, R101), the token serializer and its inverse (R220 to R228), and the four command-level meanings. -/

namespace Sys2Proof.Machine

/-! `PACK_BITS` (R211, R212). -/

/-- Shift the accumulator left and put the new bit at the bottom (R211). -/
def accPush (acc : BitVec 8) (b : Bool) : BitVec 8 := (acc <<< 1) ||| (BitVec.ofBool b).setWidth 8

/-- What one bit of the packer does: an error, a finished byte, or a fuller accumulator. -/
inductive PackStep where
  | stop (r : Raise)
  | byte (y : Byte)
  | more (acc : BitVec 8) (accN : Nat)
deriving DecidableEq, Repr

/-- One iteration of the packer: bit `b` at index `i`, with `out` bytes written so far. -/
def packBit (yMax i : Nat) (b : Bool) (acc : BitVec 8) (accN out : Nat) : PackStep :=
  if accN = 0 ∧ out = yMax then .stop ⟨.capacityExceeded, i⟩
  else if accN + 1 = 8 then .byte (accPush acc b)
  else .more (accPush acc b) (accN + 1)

/-- The final partial byte, if there is one, padded with zero bits at the bottom (R212). -/
def packFlush (acc : BitVec 8) (accN : Nat) : List Byte := if accN > 0 then [acc <<< (8 - accN)] else []

/-- The loop over the bits from index `i` on, and the flush at the end. -/
def packLoop (yMax : Nat) : Nat → List Bool → BitVec 8 → Nat → List Byte → Except Raise (List Byte)
  | _, [], acc, accN, out => .ok (out ++ packFlush acc accN)
  | i, b :: bs, acc, accN, out =>
    match packBit yMax i b acc accN out.length with
    | .stop r => .error r
    | .byte y => packLoop yMax (i + 1) bs 0#8 0 (out ++ [y])
    | .more acc' accN' => packLoop yMax (i + 1) bs acc' accN' out

/-- TL's "Bit-string → bytes" under the capacities (R210). -/
def packBits (p : Config.Params) (bits : List Bool) : Except Raise (List Byte) := packLoop p.yMax 0 bits 0#8 0 []

/-- `PACK_BITS` (R210, R213). -/
def execPackBits (s : State) : Host.Outcome State Fault Refusal :=
  if s.nIn > s.cfg.bMax then .next (s.raise (some .packBits) ⟨.invalidInput, 0⟩)
  else
    match packBits s.cfg (s.bitsIn s.nIn) with
    | .error r => .next (s.raise (some .packBits) r)
    | .ok ys => .next ((s.storeBytes ys).complete .packBits ys.length 0)

/-! `UNPACK_BITS` (R216). -/

/-- The bits of a byte, most significant first. -/
def byteBits (y : Byte) : List Bool :=
  [y.getLsbD 7, y.getLsbD 6, y.getLsbD 5, y.getLsbD 4, y.getLsbD 3, y.getLsbD 2, y.getLsbD 1, y.getLsbD 0]

/-- The loop over the bytes from index `i` on. -/
def unpackLoop (bMax : Nat) : Nat → List Byte → List Bool → Except Raise (List Bool)
  | _, [], out => .ok out
  | i, y :: ys, out =>
    if out.length + 8 > bMax then .error ⟨.capacityExceeded, i⟩ else unpackLoop bMax (i + 1) ys (out ++ byteBits y)

/-- TL's "Bytes → bit-string" under the capacities (R215). -/
def unpackBits (p : Config.Params) (ys : List Byte) : Except Raise (List Bool) := unpackLoop p.bMax 0 ys []

/-- `UNPACK_BITS` (R215, R217). -/
def execUnpackBits (s : State) : Host.Outcome State Fault Refusal :=
  if s.nIn > s.cfg.yMax then .next (s.raise (some .unpackBits) ⟨.invalidInput, 0⟩)
  else
    match unpackBits s.cfg (s.bytesIn s.nIn) with
    | .error r => .next (s.raise (some .unpackBits) r)
    | .ok bs => .next ((s.storeBits bs).complete .unpackBits bs.length 0)

/-! The text encoding of a literal (R100, R101). -/

/-- `IsScalar(v)` (00_scope.md R15). -/
def isScalar (c : Sym) : Bool := decide (c.toNat ≤ 0x10FFFF) && !(decide (0xD800 ≤ c.toNat) && decide (c.toNat ≤ 0xDFFF))

/-- `Utf8Enc(c)` for a scalar `c` (R100). -/
def utf8Enc (c : Sym) : List Byte :=
  if c.toNat ≤ 0x7F then [0b0#1 ++ c.extractLsb' 0 7]
  else if c.toNat ≤ 0x7FF then [0b110#3 ++ c.extractLsb' 6 5, 0b10#2 ++ c.extractLsb' 0 6]
  else if c.toNat ≤ 0xFFFF then [0b1110#4 ++ c.extractLsb' 12 4, 0b10#2 ++ c.extractLsb' 6 6, 0b10#2 ++ c.extractLsb' 0 6]
  else [0b11110#5 ++ c.extractLsb' 18 3, 0b10#2 ++ c.extractLsb' 12 6, 0b10#2 ++ c.extractLsb' 6 6, 0b10#2 ++ c.extractLsb' 0 6]

/-- The only symbol a byte sequence could encode, read from the payload bits of each form. -/
def utf8Candidate : List Byte → Option Sym
  | [a] => some (0#14 ++ a.extractLsb' 0 7)
  | [a, b] => some (0#10 ++ a.extractLsb' 0 5 ++ b.extractLsb' 0 6)
  | [a, b, c] => some (0#5 ++ a.extractLsb' 0 4 ++ b.extractLsb' 0 6 ++ c.extractLsb' 0 6)
  | [a, b, c, d] => some (a.extractLsb' 0 3 ++ b.extractLsb' 0 6 ++ c.extractLsb' 0 6 ++ d.extractLsb' 0 6)
  | _ => none

/-- `Utf8Dec(lit)` (R101): the scalar whose encoding is exactly `lit`, or none when `lit` is ill-formed. -/
def utf8Dec (lit : List Byte) : Option Sym :=
  match utf8Candidate lit with
  | some c => if isScalar c = true ∧ utf8Enc c = lit then some c else none
  | none => none

/-! `PACK_TOK` (R221). -/

/-- The bytes of a token's literal: `Utf8Enc(next)` if it is present, none otherwise (R99). -/
def litBytes (t : Token) : List Byte := if t.hasNext then utf8Enc t.next else []

/-- The bytes of one token (R99): distance big-endian, length, literal, delimiter. -/
def tokBytes (t : Token) : List Byte :=
  [t.dist.extractLsb' 8 8, t.dist.extractLsb' 0 8, t.len.extractLsb' 0 8] ++ litBytes t ++ [Config.delim]

/-- The checks on one token, in the order of R221, before the capacity check. -/
def tokCheck (t : Token) : Option ErrCode :=
  if t.dist.toNat > Config.packDistMax then some .encodingOverflow
  else if t.len.toNat > Config.packLenMax then some .encodingOverflow
  else if t.hasNext = true ∧ isScalar t.next = false then some .invalidInput
  else none

/-- One iteration of the serializer: the bytes of token `t` at index `i`, with `out` bytes written so far. -/
def packTok1 (yMax i : Nat) (t : Token) (out : Nat) : Except Raise (List Byte) :=
  match tokCheck t with
  | some e => .error ⟨e, i⟩
  | none => if out + 4 + (litBytes t).length > yMax then .error ⟨.capacityExceeded, i⟩ else .ok (tokBytes t)

/-- The loop over the tokens from index `i` on. -/
def packTokLoop (yMax : Nat) : Nat → List Token → List Byte → Except Raise (List Byte)
  | _, [], out => .ok out
  | i, t :: ts, out =>
    match packTok1 yMax i t out.length with
    | .error r => .error r
    | .ok ys => packTokLoop yMax (i + 1) ts (out ++ ys)

/-- TL's "LZ77 token packing" under the capacities (R220). -/
def packToks (p : Config.Params) (ts : List Token) : Except Raise (List Byte) := packTokLoop p.yMax 0 ts []

/-- `PACK_TOK` (R220, R224). -/
def execPackTok (s : State) : Host.Outcome State Fault Refusal :=
  if s.nIn > s.cfg.tMax then .next (s.raise (some .packTok) ⟨.invalidInput, 0⟩)
  else
    match packToks s.cfg (s.toksIn s.nIn) with
    | .error r => .next (s.raise (some .packTok) r)
    | .ok ys => .next ((s.storeBytes ys).complete .packTok ys.length 0)

/-! `UNPACK_TOK` (R226). -/

/-- The bytes before the first delimiter and the bytes after it; none when there is no delimiter. -/
def splitDelim : List Byte → Option (List Byte × List Byte)
  | [] => none
  | y :: ys => if y = Config.delim then some ([], ys) else (splitDelim ys).map fun lr => (y :: lr.1, lr.2)

/-- The token of a header and a literal; none when the literal is ill-formed (R226). -/
def mkUnpacked (b0 b1 b2 : Byte) (lit : List Byte) : Option Token :=
  match lit with
  | [] => some { dist := 0#16 ++ b0 ++ b1, len := 0#24 ++ b2, hasNext := false, next := 0#21 }
  | _ :: _ => (utf8Dec lit).map fun c => { dist := 0#16 ++ b0 ++ b1, len := 0#24 ++ b2, hasNext := true, next := c }

/-- Parse the token at the start of a byte sequence: the token and the bytes after its delimiter. The delimiter is looked for from the fourth
byte on (30_encoding.md R103). None when the header is cut short, the delimiter is missing or the literal is ill-formed. -/
def parseTok : List Byte → Option (Token × List Byte)
  | b0 :: b1 :: b2 :: r =>
    match splitDelim r with
    | none => none
    | some (lit, rest) => (mkUnpacked b0 b1 b2 lit).map fun t => (t, rest)
  | _ => none

/-- The loop of the parser from byte `p` on, where `rest` is what follows; the first argument bounds the iterations, each of which takes at
least four bytes. -/
def unpackTokLoop (tMax : Nat) : Nat → Nat → List Byte → List Token → Except Raise (List Token)
  | _, _, [], out => .ok out
  | 0, _, _ :: _, out => .ok out
  | f + 1, p, y :: ys, out =>
    match parseTok (y :: ys) with
    | none => .error ⟨.malformedTokenStream, p⟩
    | some (t, rest) =>
      if out.length = tMax then .error ⟨.capacityExceeded, p⟩
      else unpackTokLoop tMax f (p + ((y :: ys).length - rest.length)) rest (out ++ [t])

/-- The inverse of token packing under the capacities (R225). -/
def unpackToks (p : Config.Params) (ys : List Byte) : Except Raise (List Token) := unpackTokLoop p.tMax ys.length 0 ys []

/-- `UNPACK_TOK` (R225, R228). -/
def execUnpackTok (s : State) : Host.Outcome State Fault Refusal :=
  if s.nIn > s.cfg.yMax then .next (s.raise (some .unpackTok) ⟨.invalidInput, 0⟩)
  else
    match unpackToks s.cfg (s.bytesIn s.nIn) with
    | .error r => .next (s.raise (some .unpackTok) r)
    | .ok ts => .next ((s.storeToks ts).complete .unpackTok ts.length 0)

end Sys2Proof.Machine
end

