-- ==== Sys2Proof/Machine/Dispatch.lean ====
section
/-! DEFINITION. The dispatch: one arm per command (30_encoding.md R91), each one call of its command-level meaning. -/

namespace Sys2Proof.Machine

def exec (i : Instr) (s : State) : Host.Outcome State Fault Refusal :=
  match i with
  | .hufEnc => Sys2Proof.Machine.execHufEnc s
  | .hufDec => Sys2Proof.Machine.execHufDec s
  | .lzEnc => Sys2Proof.Machine.execLzEnc s
  | .lzDec => Sys2Proof.Machine.execLzDec s
  | .packBits => Sys2Proof.Machine.execPackBits s
  | .unpackBits => Sys2Proof.Machine.execUnpackBits s
  | .packTok => Sys2Proof.Machine.execPackTok s
  | .unpackTok => Sys2Proof.Machine.execUnpackTok s

end Sys2Proof.Machine
end

