-- ==== Sys2Proof/Machine/Phases.lean ====
section
/-! DEFINITION. The phase-level machine (00_scope.md R7; 41_huffman.md R144, R159; 42_lz77.md R190, R203; 43_binary_packing.md R230): one visit
of each phase over the hidden state, and the dispatch on `PHASE`. It computes the functions of the command-level meanings; the statements
about it say so. A visit is one iteration of the phase's loop (one bit, byte, token, symbol, offset, merge or pop of the walk stack); the check
phases, `H_COUNT` and `H_LEAVES` are one visit each. How many visits a command takes is not architectural (70_reset_and_hazards.md R303). Which
engine register holds a loop variable is the model's choice where the spec does not say (log 12). -/

namespace Sys2Proof.Machine

/-- Go to a phase with new hidden registers, kept within the sizes of the hidden tables. -/
def State.goto (ph : Phase) (e : Engine) (s : State) : State := { s with phase := ph, eng := e.fit s.cfg }

/-- The symbols the running command reads: `TEXT[0 .. N)`. -/
def State.inText (s : State) : List Sym := s.textIn s.nIn

/-! `HUF_ENC` (R144). -/

def visitHCount (s : State) : State :=
  if s.nIn > s.cfg.nMax then s.raise (some .hufEnc) ⟨.invalidInput, 0⟩
  else
    match countLoop s.cfg.kMax 0 s.inText [] with
    | .error r => s.raise (some .hufEnc) r
    | .ok ft => s.goto .hLeaves { s.eng with ft := ft, node := [], live := 0#32, stk := [], out := 0#32 }

def visitHLeaves (s : State) : State :=
  s.goto .hMerge { s.eng with node := leaves s.eng.ft, live := wd s.eng.ft.length }

/-- Into `H_WALK`: `SP <- 0`, and the root is pushed when there is a tree to walk (R137, R138). -/
def enterHWalk (s : State) : State :=
  s.goto .hWalk { s.eng with stk := if s.eng.ft.length ≤ 1 then [] else [StkEntry.root s.eng.node] }

/-- Into `H_EMIT`: `OUT <- 0` (R141). -/
def enterHEmit (s : State) : State := s.goto .hEmit { s.eng with i := 0#32, out := 0#32 }

/-- One merge while `LIVE > 1`. -/
def visitHMerge (s : State) : State :=
  if s.eng.live.toNat > 1 then
    match mergeOnce s.eng.node s.eng.live.toNat with
    | some m => s.goto .hMerge { s.eng with a := wd m.a, b := wd m.b, node := m.node, live := wd m.live }
    | none => enterHWalk s
  else enterHWalk s

/-- One pop of the walk stack (R137); for one distinct symbol its code `"0"` (R138). -/
def visitHWalk (s : State) : State :=
  match s.eng.ft, s.eng.stk with
  | [e], _ => enterHEmit { s with mem := s.mem.putCt s.cfg 0 { sym := e.sym, clen := 1, cbits := 0 } }
  | _, [] => enterHEmit s
  | _, e :: stk =>
    match s.eng.node[e.node.toNat]? with
    | none => s.goto .hWalk { s.eng with stk := stk }
    | some nd =>
      if nd.leaf then
        { s with mem := s.mem.putCt s.cfg e.node.toNat { sym := nd.sym, clen := e.clen.toNat, cbits := e.cbits } }.goto .hWalk { s.eng with stk := stk }
      else
        s.goto .hWalk { s.eng with stk := e.left nd :: e.right nd :: stk }

/-- One input symbol; the emitter reads the table it finds in `CT` (R141). -/
def visitHEmit (s : State) : State :=
  let i := s.eng.i.toNat
  let out := s.eng.out.toNat
  if i < s.nIn then
    match (s.ctIn s.eng.ft.length).find? (fun e => e.sym == s.textAt i) with
    | none => s.goto .hEmit { s.eng with i := wd (i + 1) }
    | some e =>
      if out + e.clen > s.cfg.bMax then s.raise (some .hufEnc) ⟨.capacityExceeded, i⟩
      else
        { s with mem := putSeq (Memory.putBit s.cfg) out (codeBits e) s.mem }.goto .hEmit
          { s.eng with i := wd (i + 1), out := wd (out + e.clen) }
  else s.complete .hufEnc out s.eng.ft.length

/-! `HUF_DEC` (R159). -/

/-- The candidate registers with the values of the scan's candidate. -/
def Engine.setCand (c : Cand) (e : Engine) : Engine := { e with cand := c.val, candLen := wd c.len, candStart := wd c.start }

/-- The scan's candidate as the candidate registers hold it. -/
def Engine.getCand (e : Engine) : Cand := { val := e.cand, len := e.candLen.toNat, start := e.candStart.toNat }

def visitDCheck (s : State) : State :=
  if s.nIn > s.cfg.bMax then s.raise (some .hufDec) ⟨.invalidInput, 0⟩
  else if s.kIn > s.cfg.kMax then s.raise (some .hufDec) ⟨.malformedCodeTable, 0⟩
  else
    match checkTable s.cfg.lMax 0 (s.ctIn s.kIn) [] with
    | some j => s.raise (some .hufDec) ⟨.malformedCodeTable, j⟩
    | none => s.goto .dScan ({ s.eng with i := 0#32, out := 0#32 }.setCand Cand.empty)

/-- One input bit. -/
def visitDScan (s : State) : State :=
  let i := s.eng.i.toNat
  let out := s.eng.out.toNat
  if i < s.nIn then
    match scanBit s.cfg.nMax s.cfg.lMax (s.ctIn s.kIn) i (s.bitAt i) s.eng.getCand out with
    | .stop r => s.raise (some .hufDec) r
    | .emit x c =>
      { s with mem := s.mem.putText s.cfg out x }.goto .dScan ({ s.eng with i := wd (i + 1), out := wd (out + 1) }.setCand c)
    | .more c => s.goto .dScan ({ s.eng with i := wd (i + 1) }.setCand c)
  else s.goto .dEnd s.eng

def visitDEnd (s : State) : State :=
  if s.eng.candLen ≠ 0#32 then s.raise (some .hufDec) ⟨.malformedStream, s.eng.candStart.toNat⟩ else s.complete .hufDec s.eng.out.toNat 0

/-! `LZ_ENC` (R190). -/

/-- The matcher before the first offset at position `p` (R183). -/
def Engine.startSearch (p : Nat) (e : Engine) : Engine :=
  { e with p := wd p, off := 1#32, mlen := 0#32, bestLen := 0#32, bestDist := 0#32 }

/-- The best match so far as the matcher's registers hold it. -/
def Engine.best (e : Engine) : Best := { len := e.bestLen.toNat, dist := e.bestDist.toNat }

def visitLInit (s : State) : State :=
  if s.wIn = 0 then s.raise (some .lzEnc) ⟨.badParameter, 0⟩
  else if s.nIn > s.cfg.nMax then s.raise (some .lzEnc) ⟨.invalidInput, 0⟩
  else if s.nIn > 0 then s.goto .lSearch ({ s.eng with out := 0#32 }.startSearch 0)
  else s.complete .lzEnc 0 0

/-- Go on to the next offset, or to the token when `OFF` has passed `min(W, P)`. -/
def visitLSearch (s : State) : State :=
  if s.eng.off.toNat ≤ min s.wIn s.eng.p.toNat then s.goto .lCompare { s.eng with mlen := 0#32 } else s.goto .lEmit s.eng

/-- One symbol of the comparison at `OFF` (R184), or the tie rule (R185) and the next offset. -/
def visitLCompare (s : State) : State :=
  let p := s.eng.p.toNat
  let off := s.eng.off.toNat
  let mlen := s.eng.mlen.toNat
  if p + mlen < s.nIn ∧ s.textAt (p - off + mlen) = s.textAt (p + mlen) then s.goto .lCompare { s.eng with mlen := wd (mlen + 1) }
  else
    let b := s.eng.best.update mlen off
    s.goto .lSearch { s.eng with bestLen := wd b.len, bestDist := wd b.dist, off := wd (off + 1) }

/-- One token and the advance (R186, R187): the new `P` is compared unwrapped, and is stored only when it is below `N`. -/
def visitLEmit (s : State) : State :=
  let p := s.eng.p.toNat
  let out := s.eng.out.toNat
  if out = s.cfg.tMax then s.raise (some .lzEnc) ⟨.capacityExceeded, p⟩
  else
    let p' := p + s.eng.best.len + 1
    let s' := { s with mem := s.mem.putTok s.cfg out (mkToken s.inText p s.eng.best) }
    if p' < s.nIn then s'.goto .lSearch ({ s.eng with out := wd (out + 1) }.startSearch p') else s'.complete .lzEnc (out + 1) 0

/-! `LZ_DEC` (R203). `I` is the token, `J` the symbols of its copy done so far, `P` the start of the copy. -/

def visitZInit (s : State) : State :=
  if s.nIn > s.cfg.tMax then s.raise (some .lzDec) ⟨.invalidInput, 0⟩
  else if s.nIn > 0 then s.goto .zCopy { s.eng with out := 0#32, i := 0#32, j := 0#32, p := 0#32 }
  else s.complete .lzDec 0 0

/-- One symbol of the guarded copy, or on to the literal (R197 to R199). -/
def visitZCopy (s : State) : State :=
  let i := s.eng.i.toNat
  let j := s.eng.j.toNat
  let out := s.eng.out.toNat
  let t := s.tokAt i
  if t.dist ≠ 0#32 ∧ out ≠ 0 ∧ j < t.len.toNat then
    if out = s.cfg.nMax then s.raise (some .lzDec) ⟨.capacityExceeded, i⟩
    else
      let start := if j = 0 then copyStart t.dist.toNat out else s.eng.p.toNat
      { s with mem := s.mem.putText s.cfg out (s.textAt (start + j)) }.goto .zCopy
        { s.eng with p := wd start, j := wd (j + 1), out := wd (out + 1) }
  else s.goto .zLit s.eng

/-- After the literal of token `I`: the next token, or completion. -/
def nextTok (out : Nat) (s : State) : State :=
  if s.eng.i.toNat + 1 < s.nIn then s.goto .zCopy { s.eng with i := wd (s.eng.i.toNat + 1), j := 0#32, out := wd out }
  else s.complete .lzDec out 0

/-- The literal (R200). -/
def visitZLit (s : State) : State :=
  let i := s.eng.i.toNat
  let out := s.eng.out.toNat
  let t := s.tokAt i
  if t.hasNext then
    if out = s.cfg.nMax then s.raise (some .lzDec) ⟨.capacityExceeded, i⟩
    else nextTok (out + 1) { s with mem := s.mem.putText s.cfg out t.next }
  else nextTok out s

/-! Binary Packing (R230). -/

def visitPbCheck (s : State) : State :=
  if s.nIn > s.cfg.bMax then s.raise (some .packBits) ⟨.invalidInput, 0⟩
  else s.goto .pbLoop { s.eng with i := 0#32, out := 0#32, acc := 0#8, accN := 0#4 }

/-- One input bit. -/
def visitPbLoop (s : State) : State :=
  let i := s.eng.i.toNat
  let out := s.eng.out.toNat
  if i < s.nIn then
    match packBit s.cfg.yMax i (s.bitAt i) s.eng.acc s.eng.accN.toNat out with
    | .stop r => s.raise (some .packBits) r
    | .byte y =>
      { s with mem := s.mem.putByte s.cfg out y }.goto .pbLoop
        { s.eng with i := wd (i + 1), out := wd (out + 1), acc := 0#8, accN := 0#4 }
    | .more acc accN => s.goto .pbLoop { s.eng with i := wd (i + 1), acc := acc, accN := BitVec.ofNat 4 accN }
  else s.goto .pbFlush s.eng

def visitPbFlush (s : State) : State :=
  let ys := packFlush s.eng.acc s.eng.accN.toNat
  let out := s.eng.out.toNat
  { s with mem := putSeq (Memory.putByte s.cfg) out ys s.mem }.complete .packBits (out + ys.length) 0

def visitUbCheck (s : State) : State :=
  if s.nIn > s.cfg.yMax then s.raise (some .unpackBits) ⟨.invalidInput, 0⟩
  else s.goto .ubLoop { s.eng with i := 0#32, out := 0#32 }

/-- One input byte. -/
def visitUbLoop (s : State) : State :=
  let i := s.eng.i.toNat
  let out := s.eng.out.toNat
  if i < s.nIn then
    if out + 8 > s.cfg.bMax then s.raise (some .unpackBits) ⟨.capacityExceeded, i⟩
    else
      { s with mem := putSeq (Memory.putBit s.cfg) out (byteBits (s.byteAt i)) s.mem }.goto .ubLoop
        { s.eng with i := wd (i + 1), out := wd (out + 8) }
  else s.complete .unpackBits out 0

def visitPtCheck (s : State) : State :=
  if s.nIn > s.cfg.tMax then s.raise (some .packTok) ⟨.invalidInput, 0⟩
  else s.goto .ptLoop { s.eng with i := 0#32, out := 0#32 }

/-- One token. -/
def visitPtLoop (s : State) : State :=
  let i := s.eng.i.toNat
  let out := s.eng.out.toNat
  if i < s.nIn then
    match packTok1 s.cfg.yMax i (s.tokAt i) out with
    | .error r => s.raise (some .packTok) r
    | .ok ys =>
      { s with mem := putSeq (Memory.putByte s.cfg) out ys s.mem }.goto .ptLoop { s.eng with i := wd (i + 1), out := wd (out + ys.length) }
  else s.complete .packTok out 0

def visitUtCheck (s : State) : State :=
  if s.nIn > s.cfg.yMax then s.raise (some .unpackTok) ⟨.invalidInput, 0⟩
  else s.goto .utLoop { s.eng with p := 0#32, j := 0#32, out := 0#32 }

/-- One token: `P` is the byte it starts at, `J` the byte of its delimiter (R226). -/
def visitUtLoop (s : State) : State :=
  let p := s.eng.p.toNat
  let out := s.eng.out.toNat
  if p < s.nIn then
    match parseTok ((s.bytesIn s.nIn).drop p) with
    | none => s.raise (some .unpackTok) ⟨.malformedTokenStream, p⟩
    | some (t, rest) =>
      if out = s.cfg.tMax then s.raise (some .unpackTok) ⟨.capacityExceeded, p⟩
      else
        { s with mem := s.mem.putTok s.cfg out t }.goto .utLoop
          { s.eng with j := wd (s.nIn - rest.length - 1), p := wd (s.nIn - rest.length), out := wd (out + 1) }
  else s.complete .unpackTok out 0

/-! The whole phase machine. -/

/-- One visit of the current phase. `IDLE` does nothing (10_state.md R45); an accepted illegal word has the error completion as its only step
(60_exceptions.md R254). -/
def phaseVisit (s : State) : State :=
  match s.phase with
  | .idle => s
  | .illegal => s.raise none ⟨.illegalCommand, 0⟩
  | .hCount => visitHCount s
  | .hLeaves => visitHLeaves s
  | .hMerge => visitHMerge s
  | .hWalk => visitHWalk s
  | .hEmit => visitHEmit s
  | .dCheck => visitDCheck s
  | .dScan => visitDScan s
  | .dEnd => visitDEnd s
  | .lInit => visitLInit s
  | .lSearch => visitLSearch s
  | .lCompare => visitLCompare s
  | .lEmit => visitLEmit s
  | .zInit => visitZInit s
  | .zCopy => visitZCopy s
  | .zLit => visitZLit s
  | .pbCheck => visitPbCheck s
  | .pbLoop => visitPbLoop s
  | .pbFlush => visitPbFlush s
  | .ubCheck => visitUbCheck s
  | .ubLoop => visitUbLoop s
  | .ptCheck => visitPtCheck s
  | .ptLoop => visitPtLoop s
  | .utCheck => visitUtCheck s
  | .utLoop => visitUtLoop s

/-- `m` visits in a row. -/
def phaseRun : Nat → State → State
  | 0, s => s
  | m + 1, s => phaseRun m (phaseVisit s)

end Sys2Proof.Machine
end

