-- ==== Sys2Proof/Machine/Port.lean ====
section
/-! DEFINITION. The HOST and PLATFORM agents: the two primitives of the host port with the interlock and the range check (20_memory.md R60 to
R72), the reset input (70_reset_and_hazards.md R290), and one line of a host script (30_encoding.md R95, R96). -/

namespace Sys2Proof.Machine

/-- The index is inside a buffer space (20_memory.md R61). -/
def inRange (p : Config.Params) (sp : Space) (idx : Nat) : Bool :=
  match spaceWords p sp with
  | some n => decide (idx < n)
  | none => true

/-- A buffer access that TLC refuses: while a command runs (R72), or out of range (R68). -/
def State.refuses (s : State) (sp : Space) (idx : Nat) : Bool := s.busy || !inRange s.cfg sp idx

/-- The host receives a word. -/
def State.giveWord (v : Word) (s : State) : State := { s with rdata := v }

/-- A read of a buffer word that TLC performs: the word if it is specified, otherwise a fresh free value of the word's width (10_state.md R44). -/
def State.bufRead (sp : Space) (idx : Nat) (s : State) : State :=
  { s.giveWord ((s.mem.peek s.cfg sp idx).getD (portMask s.cfg sp idx (Config.freeWord s.free))) with free := s.free + 1 }

/-- `MemRead(space, idx)` when the reset input is not asserted. -/
def State.memRead (sp : Space) (idx : Nat) (s : State) : State :=
  if sp = .reg then s.giveWord (s.regRead idx)
  else if s.refuses sp idx then (s.giveWord 0#32).setHaz
  else s.bufRead sp idx

/-- `MemWrite(space, idx, v)` when the reset input is not asserted. -/
def State.memWrite (sp : Space) (idx : Nat) (v : Word) (s : State) : State :=
  if sp = .reg then s.regWrite idx v
  else if s.refuses sp idx then s.setHaz
  else { s with mem := s.mem.poke s.cfg sp idx v }

/-- One host or platform operation. While the reset input is asserted "a read returns 0, a write is dropped, nothing is flagged" (R290).
`WAIT` reads `STATUS` and stays in the script while `BUSY` reads 1 (R96). -/
def hostOp (op : HostOp) (s : State) : State :=
  match op with
  | .read sp idx => if s.rst then s.giveWord 0#32 else s.memRead sp idx
  | .write sp idx v => if s.rst then s else s.memWrite sp idx v
  | .badRead => if s.rst then s.giveWord 0#32 else (s.giveWord 0#32).setHaz
  | .badWrite => if s.rst then s else s.setHaz
  | .wait =>
    if s.rst then s.giveWord 0#32
    else if s.busy then { s.giveWord s.statusWord with script := .wait :: s.script }
    else s.giveWord s.statusWord
  | .assertReset => { s with rst := true }
  | .releaseReset => if s.rst then s.powerOn else s

/-- The host's move: its next operation, if there is one. -/
def hostStep (s : State) : State :=
  match s.script with
  | [] => s
  | op :: rest => hostOp op { s with script := rest }

/-! The host-script syntax (R95, R96): each pseudo-operation is a list of port operations. -/

/-- A command mnemonic: `WR REG[0], opcode` (R95). -/
def scriptCmd (i : Instr) : List HostOp := [.write .reg 0 (encode i)]

/-- `SETLEN n`. -/
def scriptSetLen (n : Nat) : List HostOp := [.write .reg 4 (BitVec.ofNat 32 n)]

/-- `SETCT k`. -/
def scriptSetCt (k : Nat) : List HostOp := [.write .reg 5 (BitVec.ofNat 32 k)]

/-- `SETWIN w`. -/
def scriptSetWin (w : Nat) : List HostOp := [.write .reg 3 (BitVec.ofNat 32 w)]

/-- Writes of consecutive words of a space from index `i` on. -/
def scriptWords (sp : Space) : Nat → List Word → List HostOp
  | _, [] => []
  | i, v :: vs => .write sp i v :: scriptWords sp (i + 1) vs

/-- `LDTEXT "s"`: the code points, then `SETLEN |s|`. -/
def scriptLdText (xs : List Sym) : List HostOp := scriptWords .text 0 (xs.map fun c => c.setWidth 32) ++ scriptSetLen xs.length

/-- `LDBITS "b"`. -/
def scriptLdBits (bs : List Bool) : List HostOp :=
  scriptWords .bits 0 (bs.map fun b => (BitVec.ofBool b).setWidth 32) ++ scriptSetLen bs.length

/-- `LDBYTES h0 h1 ...`. -/
def scriptLdBytes (ys : List Byte) : List HostOp := scriptWords .bytes 0 (ys.map fun y => y.setWidth 32) ++ scriptSetLen ys.length

/-- `LDTOK t, d, l, c` with a literal, and `LDTOK t, d, l, -` without one. -/
def scriptLdTok (t : Nat) (d l : Word) (c : Option Sym) : List HostOp :=
  [.write .tok (4 * t) d, .write .tok (4 * t + 1) l,
   .write .tok (4 * t + 2) (match c with | some x => Lit.toWord { hasNext := true, next := x } | none => 0#32)]

/-- The value of a code given as its bits, first bit most significant (R102). -/
def codeValue (bs : List Bool) : Nat := bs.foldl (fun v b => 2 * v + b.toNat) 0

/-- `LDCT j, c, "code"`: symbol, length, and the `ceil(|code| / 32)` words of the code value. -/
def scriptLdCt (p : Config.Params) (j : Nat) (c : Sym) (bs : List Bool) : List HostOp :=
  scriptWords .ct (j * p.ctStride)
    ([c.setWidth 32, BitVec.ofNat 32 bs.length] ++ (List.range (ceilDiv bs.length 32)).map fun w => codeWord (codeValue bs) w)

/-- `WAIT`. -/
def scriptWait : List HostOp := [.wait]

/-- `ACK`: `WR REG[1], 0x00000006`. -/
def scriptAck : List HostOp := [.write .reg 1 0x00000006#32]

/-- `SRST`: `WR REG[2], 0x00000002`. -/
def scriptSrst : List HostOp := [.write .reg 2 0x00000002#32]

/-- The encoding of a script: the list of its writes, in order (R95). -/
def scriptEncoding (ops : List HostOp) : List (Space × Nat × Word) :=
  ops.filterMap fun op => match op with | .write sp idx v => some (sp, idx, v) | _ => none

end Sys2Proof.Machine
end

