-- ==== Sys2Proof/Machine/Agents.lean ====
section
/-! DEFINITION. Which agent moves, and the CORE agent's two ways to move: a whole command (60_exceptions.md R256) or one phase visit. -/

namespace Sys2Proof.Machine

/-- The command whose acceptance is `OP` and `PHASE`: the decoded opcode when the word was legal and none of its phases has run
(20_memory.md R77: the command word is held in `OP`). This is the model's instruction fetch. -/
def State.fetched (s : State) : Option Instr :=
  match decode? (s.op.setWidth 32) with
  | some i => if s.phase = firstPhase i then some i else none
  | none => none

/-- The core's move by a whole command: the meaning of the fetched command, or one phase visit where the command is under way already, the word
was illegal, or nothing runs. While the reset input is asserted "the core takes no step" (70_reset_and_hazards.md R290). -/
def coreStep (s : State) : Host.Outcome State Fault Refusal :=
  if s.rst then .next s
  else
    match s.fetched with
    | some i => exec i s
    | none => .next (phaseVisit s)

/-- The core's move by one phase visit. -/
def phaseStep (s : State) : Host.Outcome State Fault Refusal := if s.rst then .next s else .next (phaseVisit s)

/-- Who moves: the head of the schedule; without one, the core while a command runs and the reset input is not asserted, and the host
otherwise (70_reset_and_hazards.md R303: the core is fair; R290: it takes no step in reset; log 3). -/
def State.mover (s : State) : Agent :=
  match s.sched with
  | a :: _ => a
  | [] => if s.busy && !s.rst then .core else .host

/-- The schedule moves on. -/
def State.popSched (s : State) : State := { s with sched := s.sched.tail }

/-- One step of the agent that moves. -/
def agentStep (a : Agent) (s : State) : Host.Outcome State Fault Refusal :=
  match a with
  | .host => .next (hostStep s)
  | .core => coreStep s
  | .phase => phaseStep s

/-- The state right after the host's write of the command word `w`, with the core to move next: where the model fetches (log 15). -/
def State.placed (w : Word) (s : State) : State := { s.accept w with rst := false, sched := .core :: s.sched }

end Sys2Proof.Machine
end

