-- ==== Sys2Proof/Machine/Step.lean ====
section
/-! DEFINITION. One step of TLC and its environment: the agent whose turn it is moves (00_scope.md R3; 20_memory.md R74: one agent at a time). -/

namespace Sys2Proof.Machine

/-- One step. -/
def step (s : State) : Host.Outcome State Fault Refusal := agentStep s.mover s.popSched

/-- `s` with the command word `w` accepted, so that the very next step runs it. TLC fetches from no memory: a command is the word the host
writes to `CMD` (10_state.md R41, 20_memory.md R77), and acceptance is what places it (60_exceptions.md R254; log 15). -/
def State.withFetchWord (s : State) (nbits w : Nat) : State := s.placed (BitVec.ofNat 32 (w % 2 ^ nbits))

end Sys2Proof.Machine
end

