-- ==== Sys2Proof/Safety.lean ====
section
/-! DEFINITION. What counts as a sound state and a sound completion, in the words the statements use: the invariant of every step, the two ways
a command ends (60_exceptions.md R255, R256), what it leaves alone (30_encoding.md R93, 20_memory.md R73), and specification-side functions on
sequences that the model's own loops do not use. -/

namespace Sys2Proof.Machine

/-! The invariant. -/

/-- `ERRCODE` is one of the values that are ever produced (93_implementation_defined.md U7): 5 and 10 to 15 never are. -/
def legalCode (c : BitVec 4) : Bool := decide (c.toNat ∈ [0, 1, 2, 3, 4, 6, 7, 8, 9])

/-- "at most one of `BUSY`, `DONE`, `ERR` is 1" (10_state.md R23). -/
def atMostOne (a b c : Bool) : Bool := !(a && b) && !(a && c) && !(b && c)

/-- `OP` holds the opcode of the command the current phase belongs to (10_state.md R39, 60_exceptions.md R254). -/
def opMatches (ph : Phase) (op : BitVec 4) : Bool :=
  match ph.owner with
  | some i => op == i.opcode
  | none => true

/-- The state invariant: capacities in range (00_scope.md R10); the invariants of `STATUS` (10_state.md R23); `ERR_INFO = 0` when `ERR = 0`
(R29); only error codes that exist (U7); `PHASE` is `IDLE` exactly when `BUSY = 0` (R41); `OP` agrees with `PHASE`; every buffer in canonical
form and within its capacity (20_memory.md R61); every hidden table and every hidden register of `L_MAX` bits within its size (R36 to R38, R40). -/
abbrev State.Inv (s : State) : Prop :=
  s.cfg.wf = true ∧ atMostOne s.busy s.done s.err = true ∧ (s.errcode ≠ 0#4 ↔ s.err = true) ∧ (s.err = false → s.errInfo = 0#32) ∧
    legalCode s.errcode = true ∧ (s.phase = .idle ↔ s.busy = false) ∧ opMatches s.phase s.op = true ∧ s.mem.wf s.cfg = true ∧
    s.eng.fits s.cfg = true

/-- The state of a command between its acceptance and its completion, with nothing of it done yet (60_exceptions.md R254). -/
abbrev Accepted (i : Instr) (s : State) : Prop :=
  s.busy = true ∧ s.done = false ∧ s.err = false ∧ s.errcode = 0#4 ∧ s.errInfo = 0#32 ∧ s.op = i.opcode ∧ s.phase = firstPhase i

/-! What a command touches. -/

/-- The word of a buffer space at an index, if it is specified. -/
def State.word (s : State) (sp : Space) (idx : Nat) : Option Word := s.mem.peek s.cfg sp idx

/-- The column "writes buffers" of 30_encoding.md R93. -/
def writesSpace : Instr → Space → Bool
  | .hufEnc, .bits => true
  | .hufEnc, .ct => true
  | .hufDec, .text => true
  | .lzEnc, .tok => true
  | .lzDec, .text => true
  | .packBits, .bytes => true
  | .unpackBits, .bits => true
  | .packTok, .bytes => true
  | .unpackTok, .tok => true
  | _, _ => false

/-- How many words of a space a result of `n` elements (and `k` code-table entries) occupies, from word 0 on. -/
def resultWords (p : Config.Params) (n k : Nat) : Space → Nat
  | .tok => 4 * n
  | .ct => p.ctStride * k
  | _ => n

/-- What every command leaves alone, however it ends: every register that it does not name, the hidden `OP`, the environment, and every word of every
buffer it does not write (20_memory.md R73). -/
def CommandFrame (i : Instr) (s t : State) : Prop :=
  t.cfg = s.cfg ∧ t.haz = s.haz ∧ t.lastop = s.lastop ∧ t.irqEn = s.irqEn ∧ t.window = s.window ∧ t.inLen = s.inLen ∧ t.op = s.op ∧
    t.rst = s.rst ∧ t.script = s.script ∧ t.sched = s.sched ∧ t.rdata = s.rdata ∧ (i ≠ .hufEnc → t.ctLen = s.ctLen) ∧
    ∀ sp idx, writesSpace i sp = false → t.word sp idx = s.word sp idx

/-- Success completion with `n` output elements and, for `HUF_ENC`, `k` table entries (60_exceptions.md R256): words beyond the result keep their values. -/
def EndsWell (i : Instr) (s t : State) (n k : Nat) : Prop :=
  t.busy = false ∧ t.done = true ∧ t.err = s.err ∧ t.errcode = s.errcode ∧ t.errInfo = s.errInfo ∧ t.outLen = BitVec.ofNat 32 n ∧
    (i = .hufEnc → t.ctLen = BitVec.ofNat 32 k) ∧ t.phase = .idle ∧ CommandFrame i s t ∧
    ∀ sp idx, resultWords s.cfg n k sp ≤ idx → t.word sp idx = s.word sp idx

/-- Error completion (60_exceptions.md R255): every element of every output buffer is unspecified (word 3 of a token is no part of an element, 20_memory.md R65). -/
def EndsInError (i : Instr) (s t : State) (c : ErrCode) (info : Nat) : Prop :=
  t.busy = false ∧ t.done = s.done ∧ t.err = true ∧ t.errcode = c.toBits ∧ t.errInfo = BitVec.ofNat 32 info ∧ t.outLen = 0#32 ∧
    (i = .hufEnc → t.ctLen = 0#32) ∧ t.phase = .idle ∧ CommandFrame i s t ∧
    ∀ sp idx, writesSpace i sp = true → (sp = .tok → idx % 4 ≠ 3) → t.word sp idx = none

/-! What a buffer holds. -/

/-- A buffer holds a sequence from element 0 on. -/
def bufHolds {α : Type} (l : List (Nat × α)) (xs : List α) : Prop := ∀ i, i < xs.length → bufGet l i = xs[i]?

/-- `TOK` holds a sequence of tokens from token 0 on. -/
def tokHolds (m : Memory) (ts : List Token) : Prop :=
  bufHolds m.tokDist (ts.map (·.dist)) ∧ bufHolds m.tokLen (ts.map (·.len)) ∧
    bufHolds m.tokLit (ts.map fun t => { hasNext := t.hasNext, next := t.next })

/-- `CT` holds a code table from entry 0 on, each code in all its port words. -/
def ctHolds (p : Config.Params) (m : Memory) (cs : List CtEntry) : Prop :=
  bufHolds m.ctSym (cs.map (·.sym)) ∧ bufHolds m.ctLen (cs.map fun e => BitVec.ofNat 32 e.clen) ∧
    ∀ (j : Nat) (e : CtEntry), cs[j]? = some e → ∀ w, w < p.codeWords → bufGet m.ctBits (j * p.codeWords + w) = some (codeWord e.cbits w)

/-- The host's move to the next command of a pipeline: `IN_LEN <- OUT_LEN`, then the command word (70_reset_and_hazards.md R296). -/
def State.chain (i : Instr) (t : State) : State := State.accept (encode i) { t with inLen := t.outLen }

/-! Specification-side functions on sequences. -/

/-- The distinct symbols of a text in order of first occurrence (41_huffman.md R132). -/
def firstOcc : List Sym → List Sym
  | [] => []
  | x :: xs => x :: (firstOcc xs).filter fun y => y ≠ x

/-- The code a table gives a symbol, as bits; none for a symbol that is not in the table. -/
def codeOf (cs : List CtEntry) (x : Sym) : List Bool :=
  match cs.find? (fun e => e.sym == x) with
  | some e => codeBits e
  | none => []

/-- The concatenation of the codes of a text's symbols, in original order (41_huffman.md R141). -/
def codedText (cs : List CtEntry) (text : List Sym) : List Bool := text.flatMap (codeOf cs)

/-- No code is a prefix of another (41_huffman.md R143). -/
def prefixFree (cs : List CtEntry) : Prop :=
  ∀ (j k : Nat) (a b : CtEntry), cs[j]? = some a → cs[k]? = some b → j ≠ k → ¬ codeBits a <+: codeBits b

/-- Node `a` is the pick of an arena (41_huffman.md R134): live, of smallest frequency, and of those the one of largest index. -/
def isPick (nodes : List Node) (a : Nat) (nd : Node) : Prop :=
  nodes[a]? = some nd ∧ nd.live = true ∧
    ∀ (x : Nat) (m : Node), nodes[x]? = some m → m.live = true → nd.freq.toNat ≤ m.freq.toNat ∧ (m.freq = nd.freq → x ≤ a)

/-- One merge (41_huffman.md R135): two picks in a row stop being live, and a node is appended whose frequency is their sum and whose left child is the one
that is smaller under the key (frequency, index). -/
def isMerge (nodes : List Node) (a b : Nat) (nodes' : List Node) : Prop :=
  ∃ na nb : Node, isPick nodes a na ∧ isPick (nodes.set a { na with live := false }) b nb ∧
    ∃ l r : Nat, (l, r) = (if na.freq.toNat < nb.freq.toNat ∨ (na.freq = nb.freq ∧ a < b) then (a, b) else (b, a)) ∧
      nodes' = (nodes.set a { na with live := false }).set b { nb with live := false } ++
        [{ leaf := false, sym := 0#21, freq := wd (na.freq.toNat + nb.freq.toNat), left := wd l, right := wd r, live := true }]

/-- The arena of a frequency table (41_huffman.md R133, R136): one live leaf per entry, in table order, and then one merge after another until one node is
live, which takes one merge fewer than there are leaves. -/
def isTreeOf (ft : List FtEntry) (nodes : List Node) : Prop :=
  ∃ ar : Nat → List Node,
    ar 0 = ft.map (fun e => { leaf := true, sym := e.sym, freq := e.cnt, left := 0#32, right := 0#32, live := true }) ∧
      ar (ft.length - 1) = nodes ∧ ∀ m, m + 1 < ft.length → ∃ a b : Nat, isMerge (ar m) a b (ar (m + 1))

/-- The path from node `x` whose edges are labelled `bs`, 0 for a left edge and 1 for a right edge, ends at the leaf `j` (41_huffman.md R137). -/
def pathTo (nodes : List Node) : Nat → List Bool → Nat → Prop
  | x, [], j => x = j ∧ ∃ nd, nodes[x]? = some nd ∧ nd.leaf = true
  | x, b :: bs, j => ∃ nd, nodes[x]? = some nd ∧ nd.leaf = false ∧ pathTo nodes (if b then nd.right.toNat else nd.left.toNat) bs j

/-- The table passes the checks of `HUF_DEC` (41_huffman.md R151): lengths from 1 to `L_MAX`, no symbol twice. -/
def validTable (lMax : Nat) (cs : List CtEntry) : Prop :=
  (∀ e ∈ cs, 1 ≤ e.clen ∧ e.clen ≤ lMax) ∧ (cs.map (·.sym)).Nodup

/-- `TEXT[p - off ..)` and `TEXT[p ..)` agree for `m` symbols, inside the text (42_lz77.md R184). -/
def matchesFor (text : List Sym) (p off m : Nat) : Prop :=
  p + m ≤ text.length ∧ ∀ q, q < m → text[p - off + q]? = text[p + q]?

/-- How many symbols the tokens of a sequence stand for when every match is as long as it says (42_lz77.md R191). -/
def tokSpan (ts : List Token) : Nat := (ts.map fun t => t.len.toNat + t.hasNext.toNat).sum

/-- A token is the one `LZ_ENC` owes at position `p` of a text (42_lz77.md R183 to R186): its length is the longest match of the offsets
`1 .. min(w, p)`, its distance the smallest offset that has it, or 0 when no offset has a match of any length, and its literal the symbol after
the match, absent exactly at the end of the text. -/
def greedyAt (w : Nat) (text : List Sym) (p : Nat) (tk : Token) : Prop :=
  p < text.length ∧ (∀ off m : Nat, 1 ≤ off → off ≤ min w p → matchesFor text p off m → m ≤ tk.len.toNat) ∧
    (tk.len = 0#32 → tk.dist = 0#32) ∧
    (tk.len ≠ 0#32 → 1 ≤ tk.dist.toNat ∧ tk.dist.toNat ≤ min w p ∧ matchesFor text p tk.dist.toNat tk.len.toNat ∧
      ∀ off, 1 ≤ off → off < tk.dist.toNat → ¬ matchesFor text p off tk.len.toNat) ∧
    text[p + tk.len.toNat]? = (if tk.hasNext then some tk.next else none) ∧ (tk.hasNext = false → tk.next = 0#21)

/-- A token sequence is the greedy encoding of a text (42_lz77.md R182, R187, R191): it covers the text, and each token is the one owed at the position
where the tokens before it end. -/
def greedyTokens (w : Nat) (text : List Sym) (ts : List Token) : Prop :=
  tokSpan ts = text.length ∧ ∀ (j : Nat) (tk : Token), ts[j]? = some tk → greedyAt w text (tokSpan (ts.take j)) tk

/-- How many symbols a token's copy appends after `out` symbols (42_lz77.md R197, R199). -/
def copied (t : Token) (out : Nat) : Nat := if t.dist = 0#32 ∨ out = 0 then 0 else t.len.toNat

/-- How many symbols there are after the tokens of a sequence, starting from `out` (42_lz77.md R197, R200). -/
def lzLength : List Token → Nat → Nat
  | [], out => out
  | t :: ts, out => lzLength ts (out + copied t out + t.hasNext.toNat)

/-- The bytes of a token as 30_encoding.md R99 lists them, by arithmetic on its fields. -/
def tokenStreamBytes (t : Token) : List Byte :=
  [BitVec.ofNat 8 (t.dist.toNat / 256), BitVec.ofNat 8 (t.dist.toNat % 256), BitVec.ofNat 8 t.len.toNat] ++
    (if t.hasNext then utf8Enc t.next else []) ++ [0x00#8]

/-- A token that `PACK_TOK` accepts (43_binary_packing.md R221). -/
def packable (t : Token) : Prop := t.dist.toNat ≤ 0xFFFF ∧ t.len.toNat ≤ 0xFF ∧ (t.hasNext = true → isScalar t.next = true)

/-- A token as it comes back from the byte stream: an absent literal's `next` field is 0 (43_binary_packing.md R227). -/
def Token.norm (t : Token) : Token := if t.hasNext then t else { t with next := 0#21 }

end Sys2Proof.Machine
end

