-- ==== Sys2Proof/Certificates/Slice0/Obligations.lean ====
section
/-! DEFINITION. The statements for the provers, each a proposition about the model. The rules they cite are listed in OBLIGATIONS.json. -/

open Sys2Proof Sys2Proof.Machine

/-! ## Encoding -/

/-- R91: the opcode map, and what a decoder needs: a word decodes exactly when bits 31:4 are zero and bits 3:0 are 1 to 8, and it decodes to the one
command whose full word it is. -/
def Obligations.OpcodeMapDecodes : Prop :=
  encode .hufEnc = 0x00000001#32 ∧ encode .hufDec = 0x00000002#32 ∧ encode .lzEnc = 0x00000003#32 ∧ encode .lzDec = 0x00000004#32 ∧
    encode .packBits = 0x00000005#32 ∧ encode .unpackBits = 0x00000006#32 ∧ encode .packTok = 0x00000007#32 ∧
    encode .unpackTok = 0x00000008#32 ∧ (∀ (w : Word) (i : Instr), decode w = .ok i ↔ w = encode i) ∧
    ∀ (w : Word), (∃ i, decode w = .ok i) ↔ w.extractLsb' 4 28 = 0#28 ∧ 1 ≤ (w.extractLsb' 0 4).toNat ∧ (w.extractLsb' 0 4).toNat ≤ 8

/-- R92: an illegal word is accepted (BUSY rises, LASTOP records bits 3:0), and the core's only step, whichever way it moves, ends it with
IllegalCommand, touching no buffer and not CT_LEN. -/
def Obligations.IllegalWordIsAcceptedAndFails : Prop :=
  ∀ (s : State) (w : Word), s.rst = false → s.busy = false →
    ((w.extractLsb' 0 4).toNat = 0 ∨ 9 ≤ (w.extractLsb' 0 4).toNat ∨ w.extractLsb' 4 28 ≠ 0#28) →
    (∀ i, decode w ≠ .ok i) ∧ (s.memWrite .reg 0 w).busy = true ∧ (s.memWrite .reg 0 w).lastop = w.extractLsb' 0 4 ∧
    ∃ t : State, coreStep (s.memWrite .reg 0 w) = .next t ∧ phaseStep (s.memWrite .reg 0 w) = .next t ∧
      t.busy = false ∧ t.done = false ∧ t.err = true ∧ t.errcode = 6#4 ∧ t.errInfo = 0#32 ∧ t.outLen = 0#32 ∧ t.ctLen = s.ctLen ∧
      t.mem = s.mem ∧ t.lastop = w.extractLsb' 0 4 ∧ t.phase = .idle

/-! ## Acceptance, steps and the schedule -/

/-- R254: acceptance, every register it writes and every one it leaves, and the phase it selects; a word that is no command selects the state whose
only core step is the error completion with IllegalCommand. -/
def Obligations.AcceptanceEffect : Prop :=
  ∀ (s : State) (w : Word), s.busy = false → ∃ t : State, s.memWrite .reg 0 w = t ∧
    t.busy = true ∧ t.done = false ∧ t.err = false ∧ t.errcode = 0#4 ∧ t.lastop = w.extractLsb' 0 4 ∧ t.errInfo = 0#32 ∧
    t.op = w.extractLsb' 0 4 ∧ t.eng = { s.eng with n := s.inLen, k := s.ctLen, w := s.window } ∧
    (∀ i, decode w = .ok i → t.phase = firstPhase i) ∧
    (∀ e, decode w = .error e → s.rst = false → coreStep t = .next (t.raise none ⟨.illegalCommand, 0⟩)) ∧
    t.haz = s.haz ∧ t.irqEn = s.irqEn ∧ t.outLen = s.outLen ∧ t.mem = s.mem ∧ t.window = s.window ∧ t.inLen = s.inLen ∧
    t.ctLen = s.ctLen ∧ t.cfg = s.cfg

/-- A step of the core at a freshly accepted command is exec of that command, with the schedule moved on. That one step runs the whole command
(R256), and that the schedule says who moves, are the model's choices (log 2, log 3). -/
def Obligations.StepRunsAcceptedCommand : Prop :=
  ∀ (s : State) (i : Instr), s.rst = false → s.mover = .core → s.op = i.opcode → s.phase = firstPhase i → step s = exec i s.popSched

/-- The host's moves (R60, R95, R96): its step performs the next line of its script, a read and a write line being MemRead and MemWrite; a WAIT line reads
STATUS and is done when BUSY reads 0 (log 22). From a host write of a command's word to the run of the command: the write is one step, and the core's next
step is exec of the decoded command (the order of the two is the model's default schedule, log 3). -/
def Obligations.HostCommandRuns : Prop :=
  (∀ (s : State) (op : HostOp) (rest : List HostOp), s.mover = .host → s.script = op :: rest →
    step s = .next (hostOp op { s.popSched with script := rest })) ∧
  (∀ s : State, s.rst = false →
    (∀ (sp : Space) (idx : Nat), hostOp (.read sp idx) s = s.memRead sp idx) ∧
    (∀ (sp : Space) (idx : Nat) (v : Word), hostOp (.write sp idx v) s = s.memWrite sp idx v) ∧
    hostOp .wait s = (if s.busy then { s.memRead .reg 1 with script := .wait :: s.script } else s.memRead .reg 1)) ∧
  ∀ (s : State) (w : Word) (i : Instr) (rest : List HostOp), s.rst = false → s.busy = false → s.sched = [] → s.script = .write .reg 0 w :: rest → decode w = .ok i →
    ∃ t : State, step s = .next t ∧ t = { s with script := rest }.accept w ∧ step t = exec i t

/-- R307, R293: TLC is never stuck: every state has a next state (the model has no fault, log 13), and no step, so neither reset, changes a parameter
(log 1). -/
def Obligations.StepAlwaysAnswers : Prop := ∀ s : State, ∃ t : State, step s = .next t ∧ t.cfg = s.cfg

/-- The invariant holds after reset (with the capacities of REF, log 1). -/
def Obligations.ResetSatisfiesInvariant : Prop := State.reset.Inv

/-- R23, R29, R41, the range of ERRCODE, R61 and the sizes of the hidden tables (R36 to R38, R40): every step of every agent keeps the invariant. -/
def Obligations.StepKeepsInvariant : Prop := ∀ s t : State, s.Inv → step s = .next t → t.Inv

/-! ## Reset -/

/-- R44, R291: the registers after power-on reset; no element of any buffer is specified; the machine waits for the host
(whose script is empty at reset, log 9). -/
def Obligations.PowerOnState : Prop :=
  State.reset.statusWord = 0#32 ∧ State.reset.ctrlWord = 0#32 ∧ State.reset.window = 128#32 ∧ State.reset.inLen = 0#32 ∧
    State.reset.ctLen = 0#32 ∧ State.reset.outLen = 0#32 ∧ State.reset.errInfo = 0#32 ∧ State.reset.irq = false ∧
    State.reset.phase = .idle ∧ State.reset.op = 0#4 ∧
    (∀ (sp : Space) (idx : Nat), (sp = .tok → idx % 4 ≠ 3) → State.reset.word sp idx = none) ∧ step State.reset = .next State.reset

/-- R292: soft reset, whether or not a command is running; that the hidden state is unspecified afterwards is a free value of its widths (log 6). An abandoned
illegal word has no output buffers. -/
def Obligations.SoftResetEffect : Prop :=
  ∀ (s : State) (v : Word), v.getLsbD 1 = true → ∃ t : State, s.memWrite .reg 2 v = t ∧
    t.statusWord = 0#32 ∧ t.irqEn = false ∧ t.ctrlWord = 0#32 ∧ t.window = 128#32 ∧ t.inLen = 0#32 ∧ t.ctLen = 0#32 ∧ t.outLen = 0#32 ∧
    t.errInfo = 0#32 ∧ t.phase = .idle ∧ t.op = 0#4 ∧ t.eng = s.freeHidden ∧ t.cfg = s.cfg ∧
    (s.busy = false ∨ s.phase.owner = none → t.mem = s.mem) ∧
    (∀ i, s.busy = true → s.phase.owner = some i →
      (∀ (sp : Space) (idx : Nat), writesSpace i sp = false → t.word sp idx = s.word sp idx) ∧
      ∀ (sp : Space) (idx : Nat), writesSpace i sp = true → (sp = .tok → idx % 4 ≠ 3) → t.word sp idx = none) ∧
    ∀ u : State, u.ctrlWord.getLsbD 1 = false

/-- R290 (a): while the reset input is asserted no host access is performed and the core takes no step; its release leaves the state of R44 with every
buffer element unspecified (log 14); and a release that is the host's next move is performed, whether or not a command was running (default schedule: log 3). -/
def Obligations.ResetInputEffect : Prop :=
  ∀ s : State, s.rst = true →
    (∀ (sp : Space) (idx : Nat), hostOp (.read sp idx) s = s.giveWord 0#32) ∧ (∀ (sp : Space) (idx : Nat) (v : Word), hostOp (.write sp idx v) s = s) ∧
    hostOp .badRead s = s.giveWord 0#32 ∧ hostOp .badWrite s = s ∧ coreStep s = .next s ∧ phaseStep s = .next s ∧
    (∀ rest, s.sched = [] → s.script = .releaseReset :: rest → step s = .next (State.powerOn { s with script := rest })) ∧
    ∃ t : State, hostOp .releaseReset s = t ∧ t.rst = false ∧ t.statusWord = 0#32 ∧ t.ctrlWord = 0#32 ∧ t.window = 128#32 ∧ t.inLen = 0#32 ∧
      t.ctLen = 0#32 ∧ t.outLen = 0#32 ∧ t.errInfo = 0#32 ∧ t.phase = .idle ∧ t.op = 0#4 ∧ t.irq = false ∧ t.cfg = s.cfg ∧
      ∀ (sp : Space) (idx : Nat), (sp = .tok → idx % 4 ≠ 3) → t.word sp idx = none

/-! ## The host port -/

/-- R72: the BUSY interlock, clause by clause, and the performed accesses while BUSY = 0; R24: what a write of CTRL without SRST stores. A performed buffer
read hands the host the word and changes nothing else of TLC; of an unspecified word it hands over some word of the element's width (R44) and flags nothing:
the model's free value (log 5). The counter `free` is the model's own (log 8). -/
def Obligations.BusyInterlock : Prop :=
  ∀ s : State,
    (s.busy = true →
      (∀ (sp : Space) (idx : Nat), sp ≠ .reg → s.memRead sp idx = (s.giveWord 0#32).setHaz) ∧
      (∀ (sp : Space) (idx : Nat) (v : Word), sp ≠ .reg → s.memWrite sp idx v = s.setHaz) ∧
      (∀ (i : Nat) (v : Word), i = 0 ∨ i = 3 ∨ i = 4 ∨ i = 5 → s.memWrite .reg i v = s.setHaz)) ∧
    (∀ i, s.memRead .reg i = s.giveWord (s.regRead i)) ∧
    (∀ v, s.memWrite .reg 1 v = s.ackStatus v) ∧ (∀ v : Word, v.getLsbD 1 = true → s.memWrite .reg 2 v = s.softReset) ∧
    (∀ v : Word, v.getLsbD 1 = false → s.memWrite .reg 2 v = { s with irqEn := v.getLsbD 0 }) ∧
    (∀ (i : Nat) (v : Word), 6 ≤ i → s.memWrite .reg i v = s) ∧
    (s.busy = false →
      (∀ v, s.memWrite .reg 0 v = s.accept v) ∧ (∀ v, s.memWrite .reg 3 v = { s with window := v }) ∧
      (∀ v, s.memWrite .reg 4 v = { s with inLen := v }) ∧ (∀ v, s.memWrite .reg 5 v = { s with ctLen := v }) ∧
      (∀ (sp : Space) (idx : Nat) (v : Word), sp ≠ .reg → inRange s.cfg sp idx = true → s.memWrite sp idx v = { s with mem := s.mem.poke s.cfg sp idx v }) ∧
      (∀ (sp : Space) (idx : Nat) (v : Word), sp ≠ .reg → inRange s.cfg sp idx = true → s.word sp idx = some v →
        s.memRead sp idx = { s with rdata := v, free := s.free + 1 }) ∧
      ∀ (sp : Space) (idx : Nat), sp ≠ .reg → inRange s.cfg sp idx = true → s.word sp idx = none →
        s.memRead sp idx = { s with rdata := portMask s.cfg sp idx (Config.freeWord s.free), free := s.free + 1 })

/-- R68, R69: an index outside a buffer space, and an access that is not one aligned word. -/
def Obligations.OutOfRangeAndNonWordAccesses : Prop :=
  ∀ s : State,
    (∀ (sp : Space) (idx : Nat) (v : Word),
      (sp = .text ∧ s.cfg.nMax ≤ idx) ∨ (sp = .bits ∧ s.cfg.bMax ≤ idx) ∨ (sp = .bytes ∧ s.cfg.yMax ≤ idx) ∨
        (sp = .tok ∧ 4 * s.cfg.tMax ≤ idx) ∨ (sp = .ct ∧ s.cfg.ctStride * s.cfg.kMax ≤ idx) →
      s.memRead sp idx = { s with rdata := 0#32, haz := true } ∧ s.memWrite sp idx v = { s with haz := true }) ∧
    (s.rst = false →
      hostOp .badRead s = { s with rdata := 0#32, haz := true } ∧ hostOp .badWrite s = { s with haz := true })

/-- R62, R63, R64: TEXT, BITS and BYTES words, written and read back, and a specified element read. -/
def Obligations.TextBitsAndBytesWords : Prop :=
  ∀ (s : State) (i : Nat) (v : Word), s.busy = false →
    (i < s.cfg.nMax →
      bufGet (s.memWrite .text i v).mem.text i = some (v.extractLsb' 0 21) ∧
      ((s.memWrite .text i v).memRead .text i).rdata.toNat = v.toNat % 2 ^ 21 ∧
      ∀ x, bufGet s.mem.text i = some x → (s.memRead .text i).rdata.toNat = x.toNat) ∧
    (i < s.cfg.bMax →
      bufGet (s.memWrite .bits i v).mem.bits i = some (v.getLsbD 0) ∧
      ((s.memWrite .bits i v).memRead .bits i).rdata.toNat = v.toNat % 2 ∧
      ∀ x, bufGet s.mem.bits i = some x → (s.memRead .bits i).rdata.toNat = x.toNat) ∧
    (i < s.cfg.yMax →
      bufGet (s.memWrite .bytes i v).mem.bytes i = some (v.extractLsb' 0 8) ∧
      ((s.memWrite .bytes i v).memRead .bytes i).rdata.toNat = v.toNat % 256 ∧
      ∀ x, bufGet s.mem.bytes i = some x → (s.memRead .bytes i).rdata.toNat = x.toNat)

/-- R65: the four words of a token, written and read back. -/
def Obligations.TokenWords : Prop :=
  ∀ (s : State) (t : Nat) (v : Word), s.busy = false → t < s.cfg.tMax →
    bufGet (s.memWrite .tok (4 * t) v).mem.tokDist t = some v ∧ ((s.memWrite .tok (4 * t) v).memRead .tok (4 * t)).rdata = v ∧
    bufGet (s.memWrite .tok (4 * t + 1) v).mem.tokLen t = some v ∧ ((s.memWrite .tok (4 * t + 1) v).memRead .tok (4 * t + 1)).rdata = v ∧
    bufGet (s.memWrite .tok (4 * t + 2) v).mem.tokLit t = some { hasNext := v.getLsbD 31, next := v.extractLsb' 0 21 } ∧
    ((s.memWrite .tok (4 * t + 2) v).memRead .tok (4 * t + 2)).rdata = v &&& 0x801FFFFF#32 ∧
    s.memWrite .tok (4 * t + 3) v = s ∧ (s.memRead .tok (4 * t + 3)).rdata = 0#32

/-- R66: the words of a code-table entry, written and read back: bits at positions L_MAX and above are discarded and read 0, and word w holds bits
32w + 31 : 32w of the code value that a command reads; the last bit of a code is bit 0 of its value. -/
def Obligations.CodeTableWords : Prop :=
  ∀ (s : State) (j : Nat) (v : Word), s.busy = false → j < s.cfg.kMax →
    ((s.memWrite .ct (j * s.cfg.ctStride) v).ctAt j).sym = v.extractLsb' 0 21 ∧
    ((s.memWrite .ct (j * s.cfg.ctStride) v).memRead .ct (j * s.cfg.ctStride)).rdata = (v.extractLsb' 0 21).setWidth 32 ∧
    ((s.memWrite .ct (j * s.cfg.ctStride + 1) v).ctAt j).clen = v.toNat ∧
    ((s.memWrite .ct (j * s.cfg.ctStride + 1) v).memRead .ct (j * s.cfg.ctStride + 1)).rdata = v ∧
    (∀ e : CtEntry, 1 ≤ e.clen → (codeBits e).getLast? = some (e.cbits.testBit 0)) ∧
    ∀ w, w < s.cfg.codeWords →
      (∀ b, b < 32 → (((s.memWrite .ct (j * s.cfg.ctStride + 2 + w) v).memRead .ct (j * s.cfg.ctStride + 2 + w)).rdata.getLsbD b =
        (v.getLsbD b && decide (32 * w + b < s.cfg.lMax)))) ∧
      (((s.memWrite .ct (j * s.cfg.ctStride + 2 + w) v).ctAt j).cbits / 2 ^ (32 * w)) % 2 ^ 32 =
        ((s.memWrite .ct (j * s.cfg.ctStride + 2 + w) v).memRead .ct (j * s.cfg.ctStride + 2 + w)).rdata.toNat

/-- R61: the spaces do not alias: a write to one word changes no other word of any buffer. -/
def Obligations.SpacesDoNotAlias : Prop :=
  ∀ (s : State) (sp : Space) (idx : Nat) (v : Word) (sp' : Space) (idx' : Nat), s.busy = false → sp ≠ .reg → (sp, idx) ≠ (sp', idx') →
    (s.memWrite sp idx v).word sp' idx' = s.word sp' idx'

/-- R21, R24, R30: what each register index reads, and the writes that are ignored. -/
def Obligations.RegisterIndices : Prop :=
  ∀ s : State,
    s.regRead 0 = 0#32 ∧ s.regRead 1 = s.statusWord ∧ s.regRead 2 = s.ctrlWord ∧ s.ctrlWord.toNat = s.irqEn.toNat ∧ s.regRead 3 = s.window ∧ s.regRead 4 = s.inLen ∧
    s.regRead 5 = s.ctLen ∧ s.regRead 6 = s.outLen ∧ s.regRead 7 = s.errInfo ∧
    (∀ i, 8 ≤ i → s.memRead .reg i = s.giveWord 0#32) ∧ ∀ i v, 6 ≤ i → s.memWrite .reg i v = s

/-- R23: the fields of STATUS and the write-1-to-clear rule, whether or not BUSY = 1. -/
def Obligations.StatusFieldsAndAcknowledge : Prop :=
  ∀ (s : State) (v : Word),
    s.statusWord.toNat = s.busy.toNat + 2 * s.done.toNat + 4 * s.err.toNat + 8 * s.haz.toNat + 16 * s.errcode.toNat + 256 * s.lastop.toNat ∧
    s.memWrite .reg 1 v = { s with
      done := if v.getLsbD 1 then false else s.done
      err := if v.getLsbD 2 then false else s.err
      errcode := if v.getLsbD 2 then 0#4 else s.errcode
      errInfo := if v.getLsbD 2 then 0#32 else s.errInfo
      haz := if v.getLsbD 3 then false else s.haz }

/-- R43, R262: irq is high after a completion exactly when it is enabled, low while a command runs, and lowered by each of the three ways. -/
def Obligations.InterruptFollowsCompletion : Prop :=
  ∀ s : State, s.Inv →
    (s.irq = true ↔ s.irqEn = true ∧ (s.done = true ∨ s.err = true)) ∧ (s.busy = true → s.irq = false) ∧
    (∀ (i : Instr) (t : State), exec i s = .next t → t.irq = s.irqEn) ∧
    (s.memWrite .reg 1 0x00000006#32).irq = false ∧ (s.memWrite .reg 2 0x00000000#32).irq = false ∧
    (s.busy = false → ∀ w, (s.memWrite .reg 0 w).irq = false)

/-! ## Every command -/

/-- R255, R256: an accepted command ends in one step, in exactly one of the two ways, with an error code of R251 that is not the reserved one. -/
def Obligations.CommandEndsInOneOfTwoWays : Prop :=
  ∀ (i : Instr) (s : State), s.cfg.wf = true → Accepted i s → ∃ t : State, exec i s = .next t ∧
    ((t.err = false ∧ ∃ n k : Nat, n < 2 ^ 32 ∧ k < 2 ^ 32 ∧ EndsWell i s t n k) ∨
     (t.done = false ∧ ∃ (c : ErrCode) (info : Nat), c ≠ .invalidBitCharacter ∧ c ≠ .illegalCommand ∧ EndsInError i s t c info))

/-- R73, R93: what every command leaves alone, however it ends and from whatever state. -/
def Obligations.CommandLeavesTheRestAlone : Prop := ∀ (i : Instr) (s t : State), exec i s = .next t → CommandFrame i s t

/-- R4: a command is a function of its sampled operand registers and its input buffers (30_encoding.md R93): two states that agree on those get the
same status, the same lengths and the same result words. -/
def Obligations.ResultDependsOnInputsOnly : Prop :=
  ∀ (i : Instr) (s u t v : State), s.cfg.wf = true → u.cfg = s.cfg → u.eng.n = s.eng.n → (i = .hufDec → u.eng.k = s.eng.k) → (i = .lzEnc → u.eng.w = s.eng.w) →
    (i = .hufEnc ∨ i = .lzEnc → u.textIn s.nIn = s.textIn s.nIn) →
    (i = .hufDec ∨ i = .packBits → u.bitsIn s.nIn = s.bitsIn s.nIn) →
    (i = .hufDec → u.ctIn s.kIn = s.ctIn s.kIn) →
    (i = .lzDec ∨ i = .packTok → u.toksIn s.nIn = s.toksIn s.nIn) →
    (i = .unpackBits ∨ i = .unpackTok → u.bytesIn s.nIn = s.bytesIn s.nIn) →
    Accepted i s → Accepted i u → exec i s = .next t → exec i u = .next v →
    v.err = t.err ∧ v.errcode = t.errcode ∧ v.errInfo = t.errInfo ∧ v.outLen = t.outLen ∧ (i = .hufEnc → v.ctLen = t.ctLen) ∧
      ∀ (sp : Space) (idx : Nat), writesSpace i sp = true → idx < resultWords s.cfg t.outLen.toNat t.ctLen.toNat sp → v.word sp idx = t.word sp idx

/-- R181, R252, R257: an input length beyond its buffer is InvalidInput, for every command; WINDOW = 0 is BadParameter for LZ_ENC, whatever the length. -/
def Obligations.PrechecksOfEveryCommand : Prop :=
  ∀ s : State,
    (s.cfg.nMax < s.nIn → ∃ t : State, exec .hufEnc s = .next t ∧ EndsInError .hufEnc s t .invalidInput 0) ∧
    (s.cfg.bMax < s.nIn → ∃ t : State, exec .hufDec s = .next t ∧ EndsInError .hufDec s t .invalidInput 0) ∧
    (s.wIn = 0 → ∃ t : State, exec .lzEnc s = .next t ∧ EndsInError .lzEnc s t .badParameter 0) ∧
    (s.wIn ≠ 0 → s.cfg.nMax < s.nIn → ∃ t : State, exec .lzEnc s = .next t ∧ EndsInError .lzEnc s t .invalidInput 0) ∧
    (s.cfg.tMax < s.nIn → ∃ t : State, exec .lzDec s = .next t ∧ EndsInError .lzDec s t .invalidInput 0) ∧
    (s.cfg.bMax < s.nIn → ∃ t : State, exec .packBits s = .next t ∧ EndsInError .packBits s t .invalidInput 0) ∧
    (s.cfg.yMax < s.nIn → ∃ t : State, exec .unpackBits s = .next t ∧ EndsInError .unpackBits s t .invalidInput 0) ∧
    (s.cfg.tMax < s.nIn → ∃ t : State, exec .packTok s = .next t ∧ EndsInError .packTok s t .invalidInput 0) ∧
    (s.cfg.yMax < s.nIn → ∃ t : State, exec .unpackTok s = .next t ∧ EndsInError .unpackTok s t .invalidInput 0)

/-- R306 (e), R139, R156: every command accepts the empty input and succeeds with nothing, HUF_DEC with any table that passes its checks. -/
def Obligations.EmptyInputSucceeds : Prop :=
  ∀ (i : Instr) (s : State), s.nIn = 0 → (i = .hufDec → s.kIn ≤ s.cfg.kMax ∧ validTable s.cfg.lMax (s.ctIn s.kIn)) → (i = .lzEnc → s.wIn ≠ 0) →
    ∃ t : State, exec i s = .next t ∧ t.mem = s.mem ∧ EndsWell i s t 0 0

/-! ## Binary Packing -/

/-- R98, R211, R212: the packed form, bit by bit. -/
def Obligations.PackBitsResult : Prop :=
  ∀ s : State, s.nIn ≤ s.cfg.bMax → ceilDiv s.nIn 8 ≤ s.cfg.yMax →
    ∃ t : State, exec .packBits s = .next t ∧ EndsWell .packBits s t (ceilDiv s.nIn 8) 0 ∧
      ∀ i, i < ceilDiv s.nIn 8 → ∃ y : Byte, bufGet t.mem.bytes i = some y ∧
        ∀ k, k ≤ 7 → y.getLsbD (7 - k) = (if 8 * i + k < s.nIn then s.bitAt (8 * i + k) else false)

/-- R211, R216: CapacityExceeded is raised at the first bit with no byte to go to, and at the first byte whose eight bits do not fit. -/
def Obligations.BitPackingCapacity : Prop :=
  ∀ s : State,
    (s.nIn ≤ s.cfg.bMax → s.cfg.yMax < ceilDiv s.nIn 8 →
      ∃ t : State, exec .packBits s = .next t ∧ EndsInError .packBits s t .capacityExceeded (8 * s.cfg.yMax)) ∧
    (s.nIn ≤ s.cfg.yMax → s.cfg.bMax < 8 * s.nIn →
      ∃ t : State, exec .unpackBits s = .next t ∧ EndsInError .unpackBits s t .capacityExceeded (s.cfg.bMax / 8))

/-- R216, R217: the unpacked form, most significant bit first. -/
def Obligations.UnpackBitsResult : Prop :=
  ∀ s : State, s.nIn ≤ s.cfg.yMax → 8 * s.nIn ≤ s.cfg.bMax →
    ∃ t : State, exec .unpackBits s = .next t ∧ EndsWell .unpackBits s t (8 * s.nIn) 0 ∧
      ∀ i b, i < s.nIn → b ≤ 7 → bufGet t.mem.bits (8 * i + b) = some ((s.byteAt i).getLsbD (7 - b))

/-- R306 (b): UNPACK_BITS after PACK_BITS reproduces the bits followed by 0 to 7 zero bits. -/
def Obligations.PackUnpackBitsRoundTrip : Prop :=
  ∀ s t : State, s.cfg.wf = true → s.err = false → exec .packBits s = .next t → t.err = false → 8 * ceilDiv s.nIn 8 ≤ s.cfg.bMax →
    ∃ v : State, exec .unpackBits (t.chain .unpackBits) = .next v ∧
      EndsWell .unpackBits (t.chain .unpackBits) v (8 * ceilDiv s.nIn 8) 0 ∧ 8 * ceilDiv s.nIn 8 < s.nIn + 8 ∧
      ∀ i, i < 8 * ceilDiv s.nIn 8 → bufGet v.mem.bits i = some (if i < s.nIn then s.bitAt i else false)

/-- R100, R101: the four forms of the text encoding by arithmetic on the symbol's value, and Utf8Dec as the exact inverse; the only scalar whose
bytes contain 0x00 is U+0000. -/
def Obligations.Utf8DecodesExactlyItsEncodings : Prop :=
  (∀ c : Sym, isScalar c = true ↔ c.toNat ≤ 0x10FFFF ∧ ¬ (0xD800 ≤ c.toNat ∧ c.toNat ≤ 0xDFFF)) ∧
  (∀ c : Sym, isScalar c = true →
    utf8Enc c = (if c.toNat ≤ 0x7F then [c.toNat]
      else if c.toNat ≤ 0x7FF then [192 + c.toNat / 64, 128 + c.toNat % 64]
      else if c.toNat ≤ 0xFFFF then [224 + c.toNat / 4096, 128 + c.toNat / 64 % 64, 128 + c.toNat % 64]
      else [240 + c.toNat / 262144, 128 + c.toNat / 4096 % 64, 128 + c.toNat / 64 % 64, 128 + c.toNat % 64]).map (BitVec.ofNat 8) ∧
    ((0x00#8 : Byte) ∈ utf8Enc c ↔ c = 0#21)) ∧
  ∀ (lit : List Byte) (c : Sym), utf8Dec lit = some c ↔ isScalar c = true ∧ utf8Enc c = lit

/-- R99, R221: the token stream of an accepted token sequence. -/
def Obligations.PackTokResult : Prop :=
  ∀ s : State, s.nIn ≤ s.cfg.tMax → (∀ tk ∈ s.toksIn s.nIn, packable tk) →
    ((s.toksIn s.nIn).flatMap tokenStreamBytes).length ≤ s.cfg.yMax →
    ∃ t : State, exec .packTok s = .next t ∧
      EndsWell .packTok s t ((s.toksIn s.nIn).flatMap tokenStreamBytes).length 0 ∧
      bufHolds t.mem.bytes ((s.toksIn s.nIn).flatMap tokenStreamBytes) ∧
      ∀ tk ∈ s.toksIn s.nIn, 4 ≤ (tokenStreamBytes tk).length ∧ (tokenStreamBytes tk).length ≤ 8

/-- R221, R257: the first offending token ends the command, and its checks come in order: overflow, non-scalar literal, capacity. -/
def Obligations.PackTokFirstBadToken : Prop :=
  ∀ (s : State) (i : Nat) (tk : Token), s.nIn ≤ s.cfg.tMax → (s.toksIn s.nIn)[i]? = some tk → (∀ u ∈ (s.toksIn s.nIn).take i, packable u) →
    (((s.toksIn s.nIn).take i).flatMap tokenStreamBytes).length ≤ s.cfg.yMax →
    ∃ t : State, exec .packTok s = .next t ∧
      (0xFFFF < tk.dist.toNat ∨ 0xFF < tk.len.toNat → EndsInError .packTok s t .encodingOverflow i) ∧
      (tk.dist.toNat ≤ 0xFFFF → tk.len.toNat ≤ 0xFF → tk.hasNext = true → isScalar tk.next = false →
        EndsInError .packTok s t .invalidInput i) ∧
      (packable tk → s.cfg.yMax < (((s.toksIn s.nIn).take (i + 1)).flatMap tokenStreamBytes).length →
        EndsInError .packTok s t .capacityExceeded i)

/-- R226: a byte sequence that is the stream of accepted tokens without a U+0000 literal parses to those tokens. -/
def Obligations.UnpackTokResult : Prop :=
  ∀ (s : State) (ts : List Token), s.nIn ≤ s.cfg.yMax → s.bytesIn s.nIn = ts.flatMap tokenStreamBytes → (∀ tk ∈ ts, packable tk) →
    (∀ tk ∈ ts, tk.hasNext = true → tk.next ≠ 0#21) → ts.length ≤ s.cfg.tMax →
    ∃ t : State, exec .unpackTok s = .next t ∧ EndsWell .unpackTok s t ts.length 0 ∧ tokHolds t.mem (ts.map Token.norm)

/-- R226, R257: the first token that does not parse, with its byte index: header cut short, delimiter missing, or literal ill-formed; and the first token
that parses but does not fit. -/
def Obligations.UnpackTokFirstBadToken : Prop :=
  ∀ (s : State) (ts : List Token) (rest : List Byte), s.nIn ≤ s.cfg.yMax → s.bytesIn s.nIn = ts.flatMap tokenStreamBytes ++ rest →
    (∀ tk ∈ ts, packable tk) → (∀ tk ∈ ts, tk.hasNext = true → tk.next ≠ 0#21) → ts.length ≤ s.cfg.tMax → rest ≠ [] →
    ∃ t : State, exec .unpackTok s = .next t ∧
      (rest.length < 3 ∨ (0x00#8 : Byte) ∉ rest.drop 3 ∨
          (∃ lit r2 : List Byte, rest.drop 3 = lit ++ 0x00#8 :: r2 ∧ lit ≠ [] ∧ (0x00#8 : Byte) ∉ lit ∧
            ∀ c : Sym, isScalar c = true → utf8Enc c ≠ lit) →
        EndsInError .unpackTok s t .malformedTokenStream (ts.flatMap tokenStreamBytes).length) ∧
      ∀ (tk : Token) (r2 : List Byte), ts.length = s.cfg.tMax → packable tk → (tk.hasNext = true → tk.next ≠ 0#21) →
        rest = tokenStreamBytes tk ++ r2 → EndsInError .unpackTok s t .capacityExceeded (ts.flatMap tokenStreamBytes).length

/-- R227: what UNPACK_TOK produces. -/
def Obligations.UnpackTokOutputRange : Prop :=
  ∀ s t : State, s.cfg.wf = true → s.err = false → exec .unpackTok s = .next t → t.err = false → ∀ j, j < t.outLen.toNat →
    ∃ (d l : Word) (x : Lit), bufGet t.mem.tokDist j = some d ∧ bufGet t.mem.tokLen j = some l ∧ bufGet t.mem.tokLit j = some x ∧
      d.toNat ≤ 0xFFFF ∧ l.toNat ≤ 0xFF ∧ (x.hasNext = true → isScalar x.next = true ∧ x.next ≠ 0#21) ∧ (x.hasNext = false → x.next = 0#21)

/-- R306 (c): UNPACK_TOK after a successful PACK_TOK reproduces the tokens (with `next = 0` where absent) when no literal is U+0000. -/
def Obligations.PackUnpackTokRoundTrip : Prop :=
  ∀ s t : State, s.cfg.wf = true → s.err = false → exec .packTok s = .next t → t.err = false →
    (∀ tk ∈ s.toksIn s.nIn, tk.hasNext = true → tk.next ≠ 0#21) →
    ∃ v : State, exec .unpackTok (t.chain .unpackTok) = .next v ∧ EndsWell .unpackTok (t.chain .unpackTok) v s.nIn 0 ∧
      tokHolds v.mem ((s.toksIn s.nIn).map Token.norm)

/-! ## LZ77 -/

/-- R182, R186, R191 (a), (b): when the token buffer has room for one token per symbol, LZ_ENC succeeds; its tokens partition the input; a token of
length 0 has distance 0, any other a distance from 1 to WINDOW; only the last token can lack its literal. -/
def Obligations.LzEncPartitionsTheInput : Prop :=
  ∀ s : State, s.cfg.wf = true → s.wIn ≠ 0 → s.nIn ≤ s.cfg.nMax → s.nIn ≤ s.cfg.tMax →
    ∃ (t : State) (ts : List Token), exec .lzEnc s = .next t ∧ EndsWell .lzEnc s t ts.length 0 ∧ tokHolds t.mem ts ∧ ts.length ≤ s.nIn ∧ tokSpan ts = s.nIn ∧
      ∀ (j : Nat) (tk : Token), ts[j]? = some tk →
        (tk.len = 0#32 → tk.dist = 0#32) ∧ (tk.len ≠ 0#32 → 1 ≤ tk.dist.toNat) ∧ tk.dist.toNat ≤ s.wIn ∧
        tk.dist.toNat ≤ tokSpan (ts.take j) ∧ (tk.hasNext = false → j + 1 = ts.length ∧ tk.next = 0#21)

/-- R183 to R186, R191 (a), (f): every token takes the longest match available at its position within the window, at the smallest distance that has it, and
carries the symbol after the match (greedyAt says each of these). -/
def Obligations.LzEncIsGreedyAndNearest : Prop :=
  ∀ s t : State, s.cfg.wf = true → s.err = false → exec .lzEnc s = .next t → t.err = false →
    ∃ ts : List Token, tokHolds t.mem ts ∧ t.outLen = BitVec.ofNat 32 ts.length ∧ ts.length ≤ s.nIn ∧ greedyTokens s.wIn (s.textIn s.nIn) ts

/-- R191 (e): a run of one repeated symbol encodes to exactly two tokens, for any WINDOW >= 1. -/
def Obligations.LzEncOfARun : Prop :=
  ∀ (s : State) (x : Sym), s.wIn ≠ 0 → s.nIn ≤ s.cfg.nMax → 2 ≤ s.nIn → 2 ≤ s.cfg.tMax → s.textIn s.nIn = List.replicate s.nIn x →
    ∃ t : State, exec .lzEnc s = .next t ∧ EndsWell .lzEnc s t 2 0 ∧
      tokHolds t.mem [{ dist := 0#32, len := 0#32, hasNext := true, next := x },
        { dist := 1#32, len := BitVec.ofNat 32 (s.nIn - 1), hasNext := false, next := 0#21 }]

/-- R182, R186, R188: for every text, the greedy encoding decides how LZ_ENC ends: success with those tokens when they fit TOK, otherwise CapacityExceeded at
the position of the first token that does not fit; a text of pairwise different symbols takes one token per symbol. -/
def Obligations.LzEncCapacity : Prop :=
  ∀ s : State, s.wIn ≠ 0 → s.nIn ≤ s.cfg.nMax →
    ∃ (t : State) (ts : List Token), exec .lzEnc s = .next t ∧ greedyTokens s.wIn (s.textIn s.nIn) ts ∧
      (ts.length ≤ s.cfg.tMax → EndsWell .lzEnc s t ts.length 0 ∧ tokHolds t.mem ts) ∧
      (s.cfg.tMax < ts.length → EndsInError .lzEnc s t .capacityExceeded (tokSpan (ts.take s.cfg.tMax))) ∧
      ((s.textIn s.nIn).Nodup → ts.length = s.nIn ∧ ∀ j, j ≤ s.nIn → tokSpan (ts.take j) = j)

/-- R197 to R200: LZ_DEC accepts every token sequence whose text fits: each token's copy repeats the text from its clamped start, symbol by symbol, nothing
is copied for a distance of 0 or before any output, and the literal follows. -/
def Obligations.LzDecResult : Prop :=
  ∀ s : State, s.nIn ≤ s.cfg.tMax → lzLength (s.toksIn s.nIn) 0 ≤ s.cfg.nMax →
    ∃ (t : State) (xs : List Sym), exec .lzDec s = .next t ∧ EndsWell .lzDec s t (lzLength (s.toksIn s.nIn) 0) 0 ∧
      xs.length = lzLength (s.toksIn s.nIn) 0 ∧ bufHolds t.mem.text xs ∧
      ∀ (j : Nat) (tk : Token), (s.toksIn s.nIn)[j]? = some tk → ∃ out, out = lzLength ((s.toksIn s.nIn).take j) 0 ∧
        (∀ m, m < copied tk out → xs[out + m]? = xs[(if tk.dist.toNat > out then 0 else out - tk.dist.toNat) + m]?) ∧
        (tk.hasNext = true → xs[out + copied tk out]? = some tk.next)

/-- R197, R201: the symbol that would be one too many raises CapacityExceeded with the index of its token. -/
def Obligations.LzDecCapacity : Prop :=
  ∀ (s : State) (j : Nat), s.nIn ≤ s.cfg.tMax → j < s.nIn → lzLength ((s.toksIn s.nIn).take j) 0 ≤ s.cfg.nMax →
    s.cfg.nMax < lzLength ((s.toksIn s.nIn).take (j + 1)) 0 →
    ∃ t : State, exec .lzDec s = .next t ∧ EndsInError .lzDec s t .capacityExceeded j

/-- R191 (c), R306 (a): LZ_DEC of the tokens left by a successful LZ_ENC reproduces the text, for any WINDOW. -/
def Obligations.LzRoundTrip : Prop :=
  ∀ s t : State, s.cfg.wf = true → s.err = false → exec .lzEnc s = .next t → t.err = false →
    ∃ v : State, exec .lzDec (t.chain .lzDec) = .next v ∧ EndsWell .lzDec (t.chain .lzDec) v s.nIn 0 ∧ bufHolds v.mem.text (s.textIn s.nIn)

/-! ## Huffman -/

/-- R132 to R137, R140, R141: the frequency table counts every distinct symbol in order of first occurrence; the arena is its tree, merge by merge, whose root
counts the whole text; each leaf's code is the path from the root to it, of 1 to L_MAX bits; when the codes of the text fit BITS, HUF_ENC succeeds and
delivers table and codes, in original order; otherwise it ends at the first symbol whose code does not fit. -/
def Obligations.HufEncResult : Prop :=
  ∀ s : State, s.cfg.wf = true → s.nIn ≤ s.cfg.nMax → (firstOcc (s.textIn s.nIn)).length ≤ s.cfg.kMax →
    ∃ (ft : List FtEntry) (nodes : List Node) (cs : List CtEntry) (t : State), exec .hufEnc s = .next t ∧
      countLoop s.cfg.kMax 0 (s.textIn s.nIn) [] = .ok ft ∧ nodes = buildTree ft ∧ cs = deriveCodes ft nodes ∧
      ft.map (·.sym) = firstOcc (s.textIn s.nIn) ∧ (∀ e ∈ ft, e.cnt.toNat = (s.textIn s.nIn).count e.sym) ∧
      isTreeOf ft nodes ∧ (∀ root, nodes[nodes.length - 1]? = some root → root.freq.toNat = s.nIn) ∧
      (2 ≤ ft.length → ∀ (j : Nat) (e : CtEntry), cs[j]? = some e → pathTo nodes (nodes.length - 1) (codeBits e) j) ∧
      cs.map (·.sym) = firstOcc (s.textIn s.nIn) ∧
      (∀ e ∈ cs, 1 ≤ e.clen ∧ e.clen ≤ s.cfg.lMax ∧ e.cbits < 2 ^ e.clen) ∧
      ((codedText cs (s.textIn s.nIn)).length ≤ s.cfg.bMax →
        EndsWell .hufEnc s t (codedText cs (s.textIn s.nIn)).length cs.length ∧ ctHolds s.cfg t.mem cs ∧
        bufHolds t.mem.bits (codedText cs (s.textIn s.nIn))) ∧
      ∀ i, i < s.nIn → (codedText cs ((s.textIn s.nIn).take i)).length ≤ s.cfg.bMax →
        s.cfg.bMax < (codedText cs ((s.textIn s.nIn).take (i + 1))).length → EndsInError .hufEnc s t .capacityExceeded i

/-- R134, R135: a pick takes the live node of smallest frequency, and of those the one with the largest arena index; a merge step picks twice, puts the node
smaller under (frequency, index) on the left, appends the new node and counts one live node fewer; it is not made exactly when fewer than two nodes are live. -/
def Obligations.PickTakesSmallestThenLatest : Prop :=
  (∀ (nodes : List Node) (a : Nat) (fa : Word), pickScan nodes 0 none = some (a, fa) ↔ ∃ nd, isPick nodes a nd ∧ nd.freq = fa) ∧
  (∀ (nodes nodes' : List Node) (live a b : Nat), 2 ≤ live → isMerge nodes a b nodes' →
    mergeOnce nodes live = some { a := a, b := b, node := nodes', live := live - 1 }) ∧
  ∀ (nodes : List Node) (live : Nat), mergeOnce nodes live = none ↔ (nodes.filter (·.live)).length < 2

/-- R145 (c): renaming the symbols by an injective map changes no code, no emitted bit and no status: the table depends on positions and counts alone. -/
def Obligations.HufEncIgnoresSymbolValues : Prop :=
  ∀ (s u t v : State) (f : Sym → Sym), s.cfg.wf = true → u.cfg = s.cfg → u.eng.n = s.eng.n → Accepted .hufEnc s → Accepted .hufEnc u →
    (∀ x ∈ s.textIn s.nIn, ∀ y ∈ s.textIn s.nIn, f x = f y → x = y) → u.textIn s.nIn = (s.textIn s.nIn).map f →
    exec .hufEnc s = .next t → exec .hufEnc u = .next v →
    v.err = t.err ∧ v.errcode = t.errcode ∧ v.errInfo = t.errInfo ∧ v.outLen = t.outLen ∧ v.ctLen = t.ctLen ∧
      (∀ i, i < t.outLen.toNat → bufGet v.mem.bits i = bufGet t.mem.bits i) ∧
      ∀ j, j < t.ctLen.toNat → bufGet v.mem.ctLen j = bufGet t.mem.ctLen j ∧
        ∀ w, w < s.cfg.codeWords → bufGet v.mem.ctBits (j * s.cfg.codeWords + w) = bufGet t.mem.ctBits (j * s.cfg.codeWords + w)

/-- R138: exactly one distinct symbol: the code is "0" and the output is N zero bits. -/
def Obligations.HufEncOneSymbol : Prop :=
  ∀ (s : State) (x : Sym), s.cfg.wf = true → 1 ≤ s.nIn → s.nIn ≤ s.cfg.nMax → s.nIn ≤ s.cfg.bMax → s.textIn s.nIn = List.replicate s.nIn x →
    ∃ t : State, exec .hufEnc s = .next t ∧ EndsWell .hufEnc s t s.nIn 1 ∧ ctHolds s.cfg t.mem [{ sym := x, clen := 1, cbits := 0 }] ∧
      bufHolds t.mem.bits (List.replicate s.nIn false)

/-- R145 (b): two distinct symbols: with equal frequencies the first-occurring gets 0 and the other 1; with different frequencies the rarer gets 0. -/
def Obligations.HufEncTwoSymbols : Prop :=
  ∀ (s : State) (x y : Sym), s.cfg.wf = true → s.nIn ≤ s.cfg.nMax → s.nIn ≤ s.cfg.bMax → 2 ≤ s.cfg.kMax → firstOcc (s.textIn s.nIn) = [x, y] →
    ∃ t : State, exec .hufEnc s = .next t ∧ EndsWell .hufEnc s t s.nIn 2 ∧
      ctHolds s.cfg t.mem
        [{ sym := x, clen := 1, cbits := if (s.textIn s.nIn).count x ≤ (s.textIn s.nIn).count y then 0 else 1 },
         { sym := y, clen := 1, cbits := if (s.textIn s.nIn).count x ≤ (s.textIn s.nIn).count y then 1 else 0 }]

/-- R132: CapacityExceeded at the first symbol that is distinct symbol number K_MAX + 1. -/
def Obligations.HufEncTooManySymbols : Prop :=
  ∀ (s : State) (i : Nat) (x : Sym), s.nIn ≤ s.cfg.nMax → (s.textIn s.nIn)[i]? = some x → (firstOcc ((s.textIn s.nIn).take i)).length = s.cfg.kMax →
    x ∉ (s.textIn s.nIn).take i → ∃ t : State, exec .hufEnc s = .next t ∧ EndsInError .hufEnc s t .capacityExceeded i

/-- R143 (a): no code of the table that HUF_ENC leaves in CT is a prefix of another. -/
def Obligations.HufEncPrefixFree : Prop :=
  ∀ s t : State, s.cfg.wf = true → s.err = false → exec .hufEnc s = .next t → t.err = false → prefixFree (t.ctIn t.ctLen.toNat)

/-- R151: the first entry of the table that fails a check ends the command. -/
def Obligations.HufDecTableChecks : Prop :=
  ∀ s : State, s.nIn ≤ s.cfg.bMax →
    (s.cfg.kMax < s.kIn → ∃ t : State, exec .hufDec s = .next t ∧ EndsInError .hufDec s t .malformedCodeTable 0) ∧
    ∀ (j : Nat) (e : CtEntry), s.kIn ≤ s.cfg.kMax → (s.ctIn s.kIn)[j]? = some e → validTable s.cfg.lMax ((s.ctIn s.kIn).take j) →
      e.clen = 0 ∨ s.cfg.lMax < e.clen ∨ e.sym ∈ ((s.ctIn s.kIn).take j).map (·.sym) →
      ∃ t : State, exec .hufDec s = .next t ∧ EndsInError .hufDec s t .malformedCodeTable j

/-- R152, R153, R154: with a valid prefix-free table the codes of a symbol sequence decode to the sequence; bits after them that no code is a prefix of end in
MalformedStream at the first of those bits; a further symbol beyond N_MAX is CapacityExceeded at the last bit of its code. -/
def Obligations.HufDecResult : Prop :=
  ∀ (s : State) (xs : List Sym) (rest : List Bool), s.nIn ≤ s.cfg.bMax → s.kIn ≤ s.cfg.kMax → validTable s.cfg.lMax (s.ctIn s.kIn) → prefixFree (s.ctIn s.kIn) →
    s.bitsIn s.nIn = codedText (s.ctIn s.kIn) xs ++ rest → (∀ x ∈ xs, x ∈ (s.ctIn s.kIn).map (·.sym)) → xs.length ≤ s.cfg.nMax →
    ∃ t : State, exec .hufDec s = .next t ∧
      (rest = [] → EndsWell .hufDec s t xs.length 0 ∧ bufHolds t.mem.text xs) ∧
      (rest ≠ [] → (∀ e ∈ s.ctIn s.kIn, ¬ codeBits e <+: rest) →
        EndsInError .hufDec s t .malformedStream (codedText (s.ctIn s.kIn) xs).length) ∧
      ∀ (x : Sym) (r2 : List Bool), xs.length = s.cfg.nMax → x ∈ (s.ctIn s.kIn).map (·.sym) → rest = codeOf (s.ctIn s.kIn) x ++ r2 →
        EndsInError .hufDec s t .capacityExceeded ((codedText (s.ctIn s.kIn) xs).length + (codeOf (s.ctIn s.kIn) x).length - 1)

/-- R154: a table that is not prefix-free still decodes: the first code that is a prefix of the bits (the shortest), and among equal codes the lowest
index, gives the first symbol; the rest decodes as if it stood alone. -/
def Obligations.HufDecTakesShortestThenLowest : Prop :=
  ∀ (nMax lMax : Nat) (tbl : List CtEntry) (j : Nat) (e : CtEntry) (rest : List Bool) (xs : List Sym), validTable lMax tbl → tbl[j]? = some e → 1 ≤ nMax →
    (∀ (k : Nat) (e' : CtEntry), tbl[k]? = some e' → codeBits e' <+: codeBits e → codeBits e' = codeBits e ∧ j ≤ k) →
    scanLoop (nMax - 1) lMax tbl 0 rest Cand.empty [] = .ok xs →
    scanLoop nMax lMax tbl 0 (codeBits e ++ rest) Cand.empty [] = .ok (e.sym :: xs)

/-- R143 (d), R306 (a): HUF_DEC of what a successful HUF_ENC leaves reproduces the text. -/
def Obligations.HufRoundTrip : Prop :=
  ∀ s t : State, s.cfg.wf = true → s.err = false → exec .hufEnc s = .next t → t.err = false →
    ∃ v : State, exec .hufDec (t.chain .hufDec) = .next v ∧ EndsWell .hufDec (t.chain .hufDec) v s.nIn 0 ∧ bufHolds v.mem.text (s.textIn s.nIn)

/-! ## The phase machines compute the same (00_scope.md R7; the phase visits are the model's reading, log 2 and log 12) -/

/-- R144: the five phases of HUF_ENC compute what its command-level meaning computes, in finitely many visits (visits: log 2, log 12). -/
def Obligations.HufEncPhasesAgree : Prop :=
  ∀ s : State, s.cfg.wf = true → s.mem.wf s.cfg = true → s.phase = .hCount → ∃ m, exec .hufEnc s = .next (phaseRun m s)

/-- R159: the phases of HUF_DEC (visits: log 2, log 12). -/
def Obligations.HufDecPhasesAgree : Prop := ∀ s : State, s.phase = .dCheck → ∃ m, exec .hufDec s = .next (phaseRun m s)

/-- R190: the phases of LZ_ENC (visits: log 2, log 12). -/
def Obligations.LzEncPhasesAgree : Prop := ∀ s : State, s.phase = .lInit → ∃ m, exec .lzEnc s = .next (phaseRun m s)

/-- R203: the phases of LZ_DEC (visits: log 2, log 12). -/
def Obligations.LzDecPhasesAgree : Prop := ∀ s : State, s.cfg.wf = true → s.phase = .zInit → ∃ m, exec .lzDec s = .next (phaseRun m s)

/-- R230: the phases of PACK_BITS and UNPACK_BITS (visits: log 2, log 12). -/
def Obligations.BitPackingPhasesAgree : Prop :=
  (∀ s : State, s.phase = .pbCheck → ∃ m, exec .packBits s = .next (phaseRun m s)) ∧
    ∀ s : State, s.cfg.wf = true → s.phase = .ubCheck → ∃ m, exec .unpackBits s = .next (phaseRun m s)

/-- R230: the phases of PACK_TOK and UNPACK_TOK (visits: log 2, log 12). -/
def Obligations.TokenPackingPhasesAgree : Prop :=
  (∀ s : State, s.cfg.wf = true → s.phase = .ptCheck → ∃ m, exec .packTok s = .next (phaseRun m s)) ∧
    ∀ s : State, s.phase = .utCheck → ∃ m, exec .unpackTok s = .next (phaseRun m s)
end

