-- ==== Sys2Proof/Laws/State.lean ====
section
/-! SUPPORT. One lemma per field per update of State, true by rfl, so that no proof unfolds a record update. -/

namespace Sys2Proof.Machine

variable (s : State)

/-! The fields after a refused access (60_exceptions.md R261). -/

@[simp] theorem State.setHaz_cfg : (s.setHaz).cfg = s.cfg := rfl
@[simp] theorem State.setHaz_busy : (s.setHaz).busy = s.busy := rfl
@[simp] theorem State.setHaz_done : (s.setHaz).done = s.done := rfl
@[simp] theorem State.setHaz_err : (s.setHaz).err = s.err := rfl
@[simp] theorem State.setHaz_haz : (s.setHaz).haz = true := rfl
@[simp] theorem State.setHaz_errcode : (s.setHaz).errcode = s.errcode := rfl
@[simp] theorem State.setHaz_lastop : (s.setHaz).lastop = s.lastop := rfl
@[simp] theorem State.setHaz_irqEn : (s.setHaz).irqEn = s.irqEn := rfl
@[simp] theorem State.setHaz_window : (s.setHaz).window = s.window := rfl
@[simp] theorem State.setHaz_inLen : (s.setHaz).inLen = s.inLen := rfl
@[simp] theorem State.setHaz_ctLen : (s.setHaz).ctLen = s.ctLen := rfl
@[simp] theorem State.setHaz_outLen : (s.setHaz).outLen = s.outLen := rfl
@[simp] theorem State.setHaz_errInfo : (s.setHaz).errInfo = s.errInfo := rfl
@[simp] theorem State.setHaz_mem : (s.setHaz).mem = s.mem := rfl
@[simp] theorem State.setHaz_op : (s.setHaz).op = s.op := rfl
@[simp] theorem State.setHaz_phase : (s.setHaz).phase = s.phase := rfl
@[simp] theorem State.setHaz_eng : (s.setHaz).eng = s.eng := rfl
@[simp] theorem State.setHaz_rst : (s.setHaz).rst = s.rst := rfl
@[simp] theorem State.setHaz_script : (s.setHaz).script = s.script := rfl
@[simp] theorem State.setHaz_sched : (s.setHaz).sched = s.sched := rfl
@[simp] theorem State.setHaz_rdata : (s.setHaz).rdata = s.rdata := rfl
@[simp] theorem State.setHaz_free : (s.setHaz).free = s.free := rfl

/-! The fields after an acknowledgement (10_state.md R23). -/

@[simp] theorem State.ackStatus_cfg (v : Word) : (s.ackStatus v).cfg = s.cfg := rfl
@[simp] theorem State.ackStatus_busy (v : Word) : (s.ackStatus v).busy = s.busy := rfl
@[simp] theorem State.ackStatus_done (v : Word) : (s.ackStatus v).done = (s.done && !v.getLsbD 1) := rfl
@[simp] theorem State.ackStatus_err (v : Word) : (s.ackStatus v).err = (s.err && !v.getLsbD 2) := rfl
@[simp] theorem State.ackStatus_haz (v : Word) : (s.ackStatus v).haz = (s.haz && !v.getLsbD 3) := rfl
@[simp] theorem State.ackStatus_errcode (v : Word) : (s.ackStatus v).errcode = (if v.getLsbD 2 then 0#4 else s.errcode) := rfl
@[simp] theorem State.ackStatus_lastop (v : Word) : (s.ackStatus v).lastop = s.lastop := rfl
@[simp] theorem State.ackStatus_irqEn (v : Word) : (s.ackStatus v).irqEn = s.irqEn := rfl
@[simp] theorem State.ackStatus_window (v : Word) : (s.ackStatus v).window = s.window := rfl
@[simp] theorem State.ackStatus_inLen (v : Word) : (s.ackStatus v).inLen = s.inLen := rfl
@[simp] theorem State.ackStatus_ctLen (v : Word) : (s.ackStatus v).ctLen = s.ctLen := rfl
@[simp] theorem State.ackStatus_outLen (v : Word) : (s.ackStatus v).outLen = s.outLen := rfl
@[simp] theorem State.ackStatus_errInfo (v : Word) : (s.ackStatus v).errInfo = (if v.getLsbD 2 then 0#32 else s.errInfo) := rfl
@[simp] theorem State.ackStatus_mem (v : Word) : (s.ackStatus v).mem = s.mem := rfl
@[simp] theorem State.ackStatus_op (v : Word) : (s.ackStatus v).op = s.op := rfl
@[simp] theorem State.ackStatus_phase (v : Word) : (s.ackStatus v).phase = s.phase := rfl
@[simp] theorem State.ackStatus_eng (v : Word) : (s.ackStatus v).eng = s.eng := rfl
@[simp] theorem State.ackStatus_rst (v : Word) : (s.ackStatus v).rst = s.rst := rfl
@[simp] theorem State.ackStatus_script (v : Word) : (s.ackStatus v).script = s.script := rfl
@[simp] theorem State.ackStatus_sched (v : Word) : (s.ackStatus v).sched = s.sched := rfl
@[simp] theorem State.ackStatus_rdata (v : Word) : (s.ackStatus v).rdata = s.rdata := rfl
@[simp] theorem State.ackStatus_free (v : Word) : (s.ackStatus v).free = s.free := rfl

/-! The fields after a word handed to the host. -/

@[simp] theorem State.giveWord_cfg (v : Word) : (s.giveWord v).cfg = s.cfg := rfl
@[simp] theorem State.giveWord_busy (v : Word) : (s.giveWord v).busy = s.busy := rfl
@[simp] theorem State.giveWord_done (v : Word) : (s.giveWord v).done = s.done := rfl
@[simp] theorem State.giveWord_err (v : Word) : (s.giveWord v).err = s.err := rfl
@[simp] theorem State.giveWord_haz (v : Word) : (s.giveWord v).haz = s.haz := rfl
@[simp] theorem State.giveWord_errcode (v : Word) : (s.giveWord v).errcode = s.errcode := rfl
@[simp] theorem State.giveWord_lastop (v : Word) : (s.giveWord v).lastop = s.lastop := rfl
@[simp] theorem State.giveWord_irqEn (v : Word) : (s.giveWord v).irqEn = s.irqEn := rfl
@[simp] theorem State.giveWord_window (v : Word) : (s.giveWord v).window = s.window := rfl
@[simp] theorem State.giveWord_inLen (v : Word) : (s.giveWord v).inLen = s.inLen := rfl
@[simp] theorem State.giveWord_ctLen (v : Word) : (s.giveWord v).ctLen = s.ctLen := rfl
@[simp] theorem State.giveWord_outLen (v : Word) : (s.giveWord v).outLen = s.outLen := rfl
@[simp] theorem State.giveWord_errInfo (v : Word) : (s.giveWord v).errInfo = s.errInfo := rfl
@[simp] theorem State.giveWord_mem (v : Word) : (s.giveWord v).mem = s.mem := rfl
@[simp] theorem State.giveWord_op (v : Word) : (s.giveWord v).op = s.op := rfl
@[simp] theorem State.giveWord_phase (v : Word) : (s.giveWord v).phase = s.phase := rfl
@[simp] theorem State.giveWord_eng (v : Word) : (s.giveWord v).eng = s.eng := rfl
@[simp] theorem State.giveWord_rst (v : Word) : (s.giveWord v).rst = s.rst := rfl
@[simp] theorem State.giveWord_script (v : Word) : (s.giveWord v).script = s.script := rfl
@[simp] theorem State.giveWord_sched (v : Word) : (s.giveWord v).sched = s.sched := rfl
@[simp] theorem State.giveWord_rdata (v : Word) : (s.giveWord v).rdata = v := rfl
@[simp] theorem State.giveWord_free (v : Word) : (s.giveWord v).free = s.free := rfl

/-! The fields after the schedule moving on. -/

@[simp] theorem State.popSched_cfg : (s.popSched).cfg = s.cfg := rfl
@[simp] theorem State.popSched_busy : (s.popSched).busy = s.busy := rfl
@[simp] theorem State.popSched_done : (s.popSched).done = s.done := rfl
@[simp] theorem State.popSched_err : (s.popSched).err = s.err := rfl
@[simp] theorem State.popSched_haz : (s.popSched).haz = s.haz := rfl
@[simp] theorem State.popSched_errcode : (s.popSched).errcode = s.errcode := rfl
@[simp] theorem State.popSched_lastop : (s.popSched).lastop = s.lastop := rfl
@[simp] theorem State.popSched_irqEn : (s.popSched).irqEn = s.irqEn := rfl
@[simp] theorem State.popSched_window : (s.popSched).window = s.window := rfl
@[simp] theorem State.popSched_inLen : (s.popSched).inLen = s.inLen := rfl
@[simp] theorem State.popSched_ctLen : (s.popSched).ctLen = s.ctLen := rfl
@[simp] theorem State.popSched_outLen : (s.popSched).outLen = s.outLen := rfl
@[simp] theorem State.popSched_errInfo : (s.popSched).errInfo = s.errInfo := rfl
@[simp] theorem State.popSched_mem : (s.popSched).mem = s.mem := rfl
@[simp] theorem State.popSched_op : (s.popSched).op = s.op := rfl
@[simp] theorem State.popSched_phase : (s.popSched).phase = s.phase := rfl
@[simp] theorem State.popSched_eng : (s.popSched).eng = s.eng := rfl
@[simp] theorem State.popSched_rst : (s.popSched).rst = s.rst := rfl
@[simp] theorem State.popSched_script : (s.popSched).script = s.script := rfl
@[simp] theorem State.popSched_sched : (s.popSched).sched = s.sched.tail := rfl
@[simp] theorem State.popSched_rdata : (s.popSched).rdata = s.rdata := rfl
@[simp] theorem State.popSched_free : (s.popSched).free = s.free := rfl

/-! The fields after acceptance (60_exceptions.md R254). -/

@[simp] theorem State.accept_cfg (w : Word) : (s.accept w).cfg = s.cfg := rfl
@[simp] theorem State.accept_busy (w : Word) : (s.accept w).busy = true := rfl
@[simp] theorem State.accept_done (w : Word) : (s.accept w).done = false := rfl
@[simp] theorem State.accept_err (w : Word) : (s.accept w).err = false := rfl
@[simp] theorem State.accept_haz (w : Word) : (s.accept w).haz = s.haz := rfl
@[simp] theorem State.accept_errcode (w : Word) : (s.accept w).errcode = 0#4 := rfl
@[simp] theorem State.accept_lastop (w : Word) : (s.accept w).lastop = w.extractLsb' 0 4 := rfl
@[simp] theorem State.accept_irqEn (w : Word) : (s.accept w).irqEn = s.irqEn := rfl
@[simp] theorem State.accept_window (w : Word) : (s.accept w).window = s.window := rfl
@[simp] theorem State.accept_inLen (w : Word) : (s.accept w).inLen = s.inLen := rfl
@[simp] theorem State.accept_ctLen (w : Word) : (s.accept w).ctLen = s.ctLen := rfl
@[simp] theorem State.accept_outLen (w : Word) : (s.accept w).outLen = s.outLen := rfl
@[simp] theorem State.accept_errInfo (w : Word) : (s.accept w).errInfo = 0#32 := rfl
@[simp] theorem State.accept_mem (w : Word) : (s.accept w).mem = s.mem := rfl
@[simp] theorem State.accept_op (w : Word) : (s.accept w).op = w.extractLsb' 0 4 := rfl
@[simp] theorem State.accept_phase (w : Word) : (s.accept w).phase = acceptPhase w := rfl
@[simp] theorem State.accept_eng (w : Word) : (s.accept w).eng = { s.eng with n := s.inLen, k := s.ctLen, w := s.window } := rfl
@[simp] theorem State.accept_rst (w : Word) : (s.accept w).rst = s.rst := rfl
@[simp] theorem State.accept_script (w : Word) : (s.accept w).script = s.script := rfl
@[simp] theorem State.accept_sched (w : Word) : (s.accept w).sched = s.sched := rfl
@[simp] theorem State.accept_rdata (w : Word) : (s.accept w).rdata = s.rdata := rfl
@[simp] theorem State.accept_free (w : Word) : (s.accept w).free = s.free := rfl

/-! The fields after error completion (60_exceptions.md R255). -/

@[simp] theorem State.raise_cfg (c : Option Instr) (r : Raise) : (s.raise c r).cfg = s.cfg := rfl
@[simp] theorem State.raise_busy (c : Option Instr) (r : Raise) : (s.raise c r).busy = false := rfl
@[simp] theorem State.raise_done (c : Option Instr) (r : Raise) : (s.raise c r).done = s.done := rfl
@[simp] theorem State.raise_err (c : Option Instr) (r : Raise) : (s.raise c r).err = true := rfl
@[simp] theorem State.raise_haz (c : Option Instr) (r : Raise) : (s.raise c r).haz = s.haz := rfl
@[simp] theorem State.raise_errcode (c : Option Instr) (r : Raise) : (s.raise c r).errcode = r.code.toBits := rfl
@[simp] theorem State.raise_lastop (c : Option Instr) (r : Raise) : (s.raise c r).lastop = s.lastop := rfl
@[simp] theorem State.raise_irqEn (c : Option Instr) (r : Raise) : (s.raise c r).irqEn = s.irqEn := rfl
@[simp] theorem State.raise_window (c : Option Instr) (r : Raise) : (s.raise c r).window = s.window := rfl
@[simp] theorem State.raise_inLen (c : Option Instr) (r : Raise) : (s.raise c r).inLen = s.inLen := rfl
@[simp] theorem State.raise_ctLen (c : Option Instr) (r : Raise) : (s.raise c r).ctLen = (if c = some .hufEnc then 0#32 else s.ctLen) := rfl
@[simp] theorem State.raise_outLen (c : Option Instr) (r : Raise) : (s.raise c r).outLen = 0#32 := rfl
@[simp] theorem State.raise_errInfo (c : Option Instr) (r : Raise) : (s.raise c r).errInfo = BitVec.ofNat 32 r.info := rfl
@[simp] theorem State.raise_mem (c : Option Instr) (r : Raise) : (s.raise c r).mem = s.mem.clearOutputs? c := rfl
@[simp] theorem State.raise_op (c : Option Instr) (r : Raise) : (s.raise c r).op = s.op := rfl
@[simp] theorem State.raise_phase (c : Option Instr) (r : Raise) : (s.raise c r).phase = .idle := rfl
@[simp] theorem State.raise_eng (c : Option Instr) (r : Raise) : (s.raise c r).eng = s.freeHidden := rfl
@[simp] theorem State.raise_rst (c : Option Instr) (r : Raise) : (s.raise c r).rst = s.rst := rfl
@[simp] theorem State.raise_script (c : Option Instr) (r : Raise) : (s.raise c r).script = s.script := rfl
@[simp] theorem State.raise_sched (c : Option Instr) (r : Raise) : (s.raise c r).sched = s.sched := rfl
@[simp] theorem State.raise_rdata (c : Option Instr) (r : Raise) : (s.raise c r).rdata = s.rdata := rfl
@[simp] theorem State.raise_free (c : Option Instr) (r : Raise) : (s.raise c r).free = s.free + s.freeUse := rfl

/-! The fields after success completion (60_exceptions.md R256). -/

@[simp] theorem State.complete_cfg (c : Instr) (n k : Nat) : (s.complete c n k).cfg = s.cfg := rfl
@[simp] theorem State.complete_busy (c : Instr) (n k : Nat) : (s.complete c n k).busy = false := rfl
@[simp] theorem State.complete_done (c : Instr) (n k : Nat) : (s.complete c n k).done = true := rfl
@[simp] theorem State.complete_err (c : Instr) (n k : Nat) : (s.complete c n k).err = s.err := rfl
@[simp] theorem State.complete_haz (c : Instr) (n k : Nat) : (s.complete c n k).haz = s.haz := rfl
@[simp] theorem State.complete_errcode (c : Instr) (n k : Nat) : (s.complete c n k).errcode = s.errcode := rfl
@[simp] theorem State.complete_lastop (c : Instr) (n k : Nat) : (s.complete c n k).lastop = s.lastop := rfl
@[simp] theorem State.complete_irqEn (c : Instr) (n k : Nat) : (s.complete c n k).irqEn = s.irqEn := rfl
@[simp] theorem State.complete_window (c : Instr) (n k : Nat) : (s.complete c n k).window = s.window := rfl
@[simp] theorem State.complete_inLen (c : Instr) (n k : Nat) : (s.complete c n k).inLen = s.inLen := rfl
@[simp] theorem State.complete_ctLen (c : Instr) (n k : Nat) : (s.complete c n k).ctLen = (if c = .hufEnc then BitVec.ofNat 32 k else s.ctLen) := rfl
@[simp] theorem State.complete_outLen (c : Instr) (n k : Nat) : (s.complete c n k).outLen = BitVec.ofNat 32 n := rfl
@[simp] theorem State.complete_errInfo (c : Instr) (n k : Nat) : (s.complete c n k).errInfo = s.errInfo := rfl
@[simp] theorem State.complete_mem (c : Instr) (n k : Nat) : (s.complete c n k).mem = s.mem := rfl
@[simp] theorem State.complete_op (c : Instr) (n k : Nat) : (s.complete c n k).op = s.op := rfl
@[simp] theorem State.complete_phase (c : Instr) (n k : Nat) : (s.complete c n k).phase = .idle := rfl
@[simp] theorem State.complete_eng (c : Instr) (n k : Nat) : (s.complete c n k).eng = s.freeHidden := rfl
@[simp] theorem State.complete_rst (c : Instr) (n k : Nat) : (s.complete c n k).rst = s.rst := rfl
@[simp] theorem State.complete_script (c : Instr) (n k : Nat) : (s.complete c n k).script = s.script := rfl
@[simp] theorem State.complete_sched (c : Instr) (n k : Nat) : (s.complete c n k).sched = s.sched := rfl
@[simp] theorem State.complete_rdata (c : Instr) (n k : Nat) : (s.complete c n k).rdata = s.rdata := rfl
@[simp] theorem State.complete_free (c : Instr) (n k : Nat) : (s.complete c n k).free = s.free + s.freeUse := rfl

/-! The fields after a phase change (10_state.md R39). -/

@[simp] theorem State.goto_cfg (p : Phase) (e : Engine) : (s.goto p e).cfg = s.cfg := rfl
@[simp] theorem State.goto_busy (p : Phase) (e : Engine) : (s.goto p e).busy = s.busy := rfl
@[simp] theorem State.goto_done (p : Phase) (e : Engine) : (s.goto p e).done = s.done := rfl
@[simp] theorem State.goto_err (p : Phase) (e : Engine) : (s.goto p e).err = s.err := rfl
@[simp] theorem State.goto_haz (p : Phase) (e : Engine) : (s.goto p e).haz = s.haz := rfl
@[simp] theorem State.goto_errcode (p : Phase) (e : Engine) : (s.goto p e).errcode = s.errcode := rfl
@[simp] theorem State.goto_lastop (p : Phase) (e : Engine) : (s.goto p e).lastop = s.lastop := rfl
@[simp] theorem State.goto_irqEn (p : Phase) (e : Engine) : (s.goto p e).irqEn = s.irqEn := rfl
@[simp] theorem State.goto_window (p : Phase) (e : Engine) : (s.goto p e).window = s.window := rfl
@[simp] theorem State.goto_inLen (p : Phase) (e : Engine) : (s.goto p e).inLen = s.inLen := rfl
@[simp] theorem State.goto_ctLen (p : Phase) (e : Engine) : (s.goto p e).ctLen = s.ctLen := rfl
@[simp] theorem State.goto_outLen (p : Phase) (e : Engine) : (s.goto p e).outLen = s.outLen := rfl
@[simp] theorem State.goto_errInfo (p : Phase) (e : Engine) : (s.goto p e).errInfo = s.errInfo := rfl
@[simp] theorem State.goto_mem (p : Phase) (e : Engine) : (s.goto p e).mem = s.mem := rfl
@[simp] theorem State.goto_op (p : Phase) (e : Engine) : (s.goto p e).op = s.op := rfl
@[simp] theorem State.goto_phase (p : Phase) (e : Engine) : (s.goto p e).phase = p := rfl
@[simp] theorem State.goto_eng (p : Phase) (e : Engine) : (s.goto p e).eng = e.fit s.cfg := rfl
@[simp] theorem State.goto_rst (p : Phase) (e : Engine) : (s.goto p e).rst = s.rst := rfl
@[simp] theorem State.goto_script (p : Phase) (e : Engine) : (s.goto p e).script = s.script := rfl
@[simp] theorem State.goto_sched (p : Phase) (e : Engine) : (s.goto p e).sched = s.sched := rfl
@[simp] theorem State.goto_rdata (p : Phase) (e : Engine) : (s.goto p e).rdata = s.rdata := rfl
@[simp] theorem State.goto_free (p : Phase) (e : Engine) : (s.goto p e).free = s.free := rfl

/-! The fields after the symbols of a result. -/

@[simp] theorem State.storeText_cfg (xs : List Sym) : (s.storeText xs).cfg = s.cfg := rfl
@[simp] theorem State.storeText_busy (xs : List Sym) : (s.storeText xs).busy = s.busy := rfl
@[simp] theorem State.storeText_done (xs : List Sym) : (s.storeText xs).done = s.done := rfl
@[simp] theorem State.storeText_err (xs : List Sym) : (s.storeText xs).err = s.err := rfl
@[simp] theorem State.storeText_haz (xs : List Sym) : (s.storeText xs).haz = s.haz := rfl
@[simp] theorem State.storeText_errcode (xs : List Sym) : (s.storeText xs).errcode = s.errcode := rfl
@[simp] theorem State.storeText_lastop (xs : List Sym) : (s.storeText xs).lastop = s.lastop := rfl
@[simp] theorem State.storeText_irqEn (xs : List Sym) : (s.storeText xs).irqEn = s.irqEn := rfl
@[simp] theorem State.storeText_window (xs : List Sym) : (s.storeText xs).window = s.window := rfl
@[simp] theorem State.storeText_inLen (xs : List Sym) : (s.storeText xs).inLen = s.inLen := rfl
@[simp] theorem State.storeText_ctLen (xs : List Sym) : (s.storeText xs).ctLen = s.ctLen := rfl
@[simp] theorem State.storeText_outLen (xs : List Sym) : (s.storeText xs).outLen = s.outLen := rfl
@[simp] theorem State.storeText_errInfo (xs : List Sym) : (s.storeText xs).errInfo = s.errInfo := rfl
@[simp] theorem State.storeText_mem (xs : List Sym) : (s.storeText xs).mem = putSeq (Memory.putText s.cfg) 0 xs s.mem := rfl
@[simp] theorem State.storeText_op (xs : List Sym) : (s.storeText xs).op = s.op := rfl
@[simp] theorem State.storeText_phase (xs : List Sym) : (s.storeText xs).phase = s.phase := rfl
@[simp] theorem State.storeText_eng (xs : List Sym) : (s.storeText xs).eng = s.eng := rfl
@[simp] theorem State.storeText_rst (xs : List Sym) : (s.storeText xs).rst = s.rst := rfl
@[simp] theorem State.storeText_script (xs : List Sym) : (s.storeText xs).script = s.script := rfl
@[simp] theorem State.storeText_sched (xs : List Sym) : (s.storeText xs).sched = s.sched := rfl
@[simp] theorem State.storeText_rdata (xs : List Sym) : (s.storeText xs).rdata = s.rdata := rfl
@[simp] theorem State.storeText_free (xs : List Sym) : (s.storeText xs).free = s.free := rfl

/-! The fields after the bits of a result. -/

@[simp] theorem State.storeBits_cfg (xs : List Bool) : (s.storeBits xs).cfg = s.cfg := rfl
@[simp] theorem State.storeBits_busy (xs : List Bool) : (s.storeBits xs).busy = s.busy := rfl
@[simp] theorem State.storeBits_done (xs : List Bool) : (s.storeBits xs).done = s.done := rfl
@[simp] theorem State.storeBits_err (xs : List Bool) : (s.storeBits xs).err = s.err := rfl
@[simp] theorem State.storeBits_haz (xs : List Bool) : (s.storeBits xs).haz = s.haz := rfl
@[simp] theorem State.storeBits_errcode (xs : List Bool) : (s.storeBits xs).errcode = s.errcode := rfl
@[simp] theorem State.storeBits_lastop (xs : List Bool) : (s.storeBits xs).lastop = s.lastop := rfl
@[simp] theorem State.storeBits_irqEn (xs : List Bool) : (s.storeBits xs).irqEn = s.irqEn := rfl
@[simp] theorem State.storeBits_window (xs : List Bool) : (s.storeBits xs).window = s.window := rfl
@[simp] theorem State.storeBits_inLen (xs : List Bool) : (s.storeBits xs).inLen = s.inLen := rfl
@[simp] theorem State.storeBits_ctLen (xs : List Bool) : (s.storeBits xs).ctLen = s.ctLen := rfl
@[simp] theorem State.storeBits_outLen (xs : List Bool) : (s.storeBits xs).outLen = s.outLen := rfl
@[simp] theorem State.storeBits_errInfo (xs : List Bool) : (s.storeBits xs).errInfo = s.errInfo := rfl
@[simp] theorem State.storeBits_mem (xs : List Bool) : (s.storeBits xs).mem = putSeq (Memory.putBit s.cfg) 0 xs s.mem := rfl
@[simp] theorem State.storeBits_op (xs : List Bool) : (s.storeBits xs).op = s.op := rfl
@[simp] theorem State.storeBits_phase (xs : List Bool) : (s.storeBits xs).phase = s.phase := rfl
@[simp] theorem State.storeBits_eng (xs : List Bool) : (s.storeBits xs).eng = s.eng := rfl
@[simp] theorem State.storeBits_rst (xs : List Bool) : (s.storeBits xs).rst = s.rst := rfl
@[simp] theorem State.storeBits_script (xs : List Bool) : (s.storeBits xs).script = s.script := rfl
@[simp] theorem State.storeBits_sched (xs : List Bool) : (s.storeBits xs).sched = s.sched := rfl
@[simp] theorem State.storeBits_rdata (xs : List Bool) : (s.storeBits xs).rdata = s.rdata := rfl
@[simp] theorem State.storeBits_free (xs : List Bool) : (s.storeBits xs).free = s.free := rfl

/-! The fields after the bytes of a result. -/

@[simp] theorem State.storeBytes_cfg (xs : List Byte) : (s.storeBytes xs).cfg = s.cfg := rfl
@[simp] theorem State.storeBytes_busy (xs : List Byte) : (s.storeBytes xs).busy = s.busy := rfl
@[simp] theorem State.storeBytes_done (xs : List Byte) : (s.storeBytes xs).done = s.done := rfl
@[simp] theorem State.storeBytes_err (xs : List Byte) : (s.storeBytes xs).err = s.err := rfl
@[simp] theorem State.storeBytes_haz (xs : List Byte) : (s.storeBytes xs).haz = s.haz := rfl
@[simp] theorem State.storeBytes_errcode (xs : List Byte) : (s.storeBytes xs).errcode = s.errcode := rfl
@[simp] theorem State.storeBytes_lastop (xs : List Byte) : (s.storeBytes xs).lastop = s.lastop := rfl
@[simp] theorem State.storeBytes_irqEn (xs : List Byte) : (s.storeBytes xs).irqEn = s.irqEn := rfl
@[simp] theorem State.storeBytes_window (xs : List Byte) : (s.storeBytes xs).window = s.window := rfl
@[simp] theorem State.storeBytes_inLen (xs : List Byte) : (s.storeBytes xs).inLen = s.inLen := rfl
@[simp] theorem State.storeBytes_ctLen (xs : List Byte) : (s.storeBytes xs).ctLen = s.ctLen := rfl
@[simp] theorem State.storeBytes_outLen (xs : List Byte) : (s.storeBytes xs).outLen = s.outLen := rfl
@[simp] theorem State.storeBytes_errInfo (xs : List Byte) : (s.storeBytes xs).errInfo = s.errInfo := rfl
@[simp] theorem State.storeBytes_mem (xs : List Byte) : (s.storeBytes xs).mem = putSeq (Memory.putByte s.cfg) 0 xs s.mem := rfl
@[simp] theorem State.storeBytes_op (xs : List Byte) : (s.storeBytes xs).op = s.op := rfl
@[simp] theorem State.storeBytes_phase (xs : List Byte) : (s.storeBytes xs).phase = s.phase := rfl
@[simp] theorem State.storeBytes_eng (xs : List Byte) : (s.storeBytes xs).eng = s.eng := rfl
@[simp] theorem State.storeBytes_rst (xs : List Byte) : (s.storeBytes xs).rst = s.rst := rfl
@[simp] theorem State.storeBytes_script (xs : List Byte) : (s.storeBytes xs).script = s.script := rfl
@[simp] theorem State.storeBytes_sched (xs : List Byte) : (s.storeBytes xs).sched = s.sched := rfl
@[simp] theorem State.storeBytes_rdata (xs : List Byte) : (s.storeBytes xs).rdata = s.rdata := rfl
@[simp] theorem State.storeBytes_free (xs : List Byte) : (s.storeBytes xs).free = s.free := rfl

/-! The fields after the tokens of a result. -/

@[simp] theorem State.storeToks_cfg (xs : List Token) : (s.storeToks xs).cfg = s.cfg := rfl
@[simp] theorem State.storeToks_busy (xs : List Token) : (s.storeToks xs).busy = s.busy := rfl
@[simp] theorem State.storeToks_done (xs : List Token) : (s.storeToks xs).done = s.done := rfl
@[simp] theorem State.storeToks_err (xs : List Token) : (s.storeToks xs).err = s.err := rfl
@[simp] theorem State.storeToks_haz (xs : List Token) : (s.storeToks xs).haz = s.haz := rfl
@[simp] theorem State.storeToks_errcode (xs : List Token) : (s.storeToks xs).errcode = s.errcode := rfl
@[simp] theorem State.storeToks_lastop (xs : List Token) : (s.storeToks xs).lastop = s.lastop := rfl
@[simp] theorem State.storeToks_irqEn (xs : List Token) : (s.storeToks xs).irqEn = s.irqEn := rfl
@[simp] theorem State.storeToks_window (xs : List Token) : (s.storeToks xs).window = s.window := rfl
@[simp] theorem State.storeToks_inLen (xs : List Token) : (s.storeToks xs).inLen = s.inLen := rfl
@[simp] theorem State.storeToks_ctLen (xs : List Token) : (s.storeToks xs).ctLen = s.ctLen := rfl
@[simp] theorem State.storeToks_outLen (xs : List Token) : (s.storeToks xs).outLen = s.outLen := rfl
@[simp] theorem State.storeToks_errInfo (xs : List Token) : (s.storeToks xs).errInfo = s.errInfo := rfl
@[simp] theorem State.storeToks_mem (xs : List Token) : (s.storeToks xs).mem = putSeq (Memory.putTok s.cfg) 0 xs s.mem := rfl
@[simp] theorem State.storeToks_op (xs : List Token) : (s.storeToks xs).op = s.op := rfl
@[simp] theorem State.storeToks_phase (xs : List Token) : (s.storeToks xs).phase = s.phase := rfl
@[simp] theorem State.storeToks_eng (xs : List Token) : (s.storeToks xs).eng = s.eng := rfl
@[simp] theorem State.storeToks_rst (xs : List Token) : (s.storeToks xs).rst = s.rst := rfl
@[simp] theorem State.storeToks_script (xs : List Token) : (s.storeToks xs).script = s.script := rfl
@[simp] theorem State.storeToks_sched (xs : List Token) : (s.storeToks xs).sched = s.sched := rfl
@[simp] theorem State.storeToks_rdata (xs : List Token) : (s.storeToks xs).rdata = s.rdata := rfl
@[simp] theorem State.storeToks_free (xs : List Token) : (s.storeToks xs).free = s.free := rfl

/-! The fields after the code table of a result. -/

@[simp] theorem State.storeCt_cfg (xs : List CtEntry) : (s.storeCt xs).cfg = s.cfg := rfl
@[simp] theorem State.storeCt_busy (xs : List CtEntry) : (s.storeCt xs).busy = s.busy := rfl
@[simp] theorem State.storeCt_done (xs : List CtEntry) : (s.storeCt xs).done = s.done := rfl
@[simp] theorem State.storeCt_err (xs : List CtEntry) : (s.storeCt xs).err = s.err := rfl
@[simp] theorem State.storeCt_haz (xs : List CtEntry) : (s.storeCt xs).haz = s.haz := rfl
@[simp] theorem State.storeCt_errcode (xs : List CtEntry) : (s.storeCt xs).errcode = s.errcode := rfl
@[simp] theorem State.storeCt_lastop (xs : List CtEntry) : (s.storeCt xs).lastop = s.lastop := rfl
@[simp] theorem State.storeCt_irqEn (xs : List CtEntry) : (s.storeCt xs).irqEn = s.irqEn := rfl
@[simp] theorem State.storeCt_window (xs : List CtEntry) : (s.storeCt xs).window = s.window := rfl
@[simp] theorem State.storeCt_inLen (xs : List CtEntry) : (s.storeCt xs).inLen = s.inLen := rfl
@[simp] theorem State.storeCt_ctLen (xs : List CtEntry) : (s.storeCt xs).ctLen = s.ctLen := rfl
@[simp] theorem State.storeCt_outLen (xs : List CtEntry) : (s.storeCt xs).outLen = s.outLen := rfl
@[simp] theorem State.storeCt_errInfo (xs : List CtEntry) : (s.storeCt xs).errInfo = s.errInfo := rfl
@[simp] theorem State.storeCt_mem (xs : List CtEntry) : (s.storeCt xs).mem = putSeq (Memory.putCt s.cfg) 0 xs s.mem := rfl
@[simp] theorem State.storeCt_op (xs : List CtEntry) : (s.storeCt xs).op = s.op := rfl
@[simp] theorem State.storeCt_phase (xs : List CtEntry) : (s.storeCt xs).phase = s.phase := rfl
@[simp] theorem State.storeCt_eng (xs : List CtEntry) : (s.storeCt xs).eng = s.eng := rfl
@[simp] theorem State.storeCt_rst (xs : List CtEntry) : (s.storeCt xs).rst = s.rst := rfl
@[simp] theorem State.storeCt_script (xs : List CtEntry) : (s.storeCt xs).script = s.script := rfl
@[simp] theorem State.storeCt_sched (xs : List CtEntry) : (s.storeCt xs).sched = s.sched := rfl
@[simp] theorem State.storeCt_rdata (xs : List CtEntry) : (s.storeCt xs).rdata = s.rdata := rfl
@[simp] theorem State.storeCt_free (xs : List CtEntry) : (s.storeCt xs).free = s.free := rfl

/-! The fields after a performed buffer read (20_memory.md R62 to R66). -/

@[simp] theorem State.bufRead_cfg (sp : Space) (idx : Nat) : (s.bufRead sp idx).cfg = s.cfg := rfl
@[simp] theorem State.bufRead_busy (sp : Space) (idx : Nat) : (s.bufRead sp idx).busy = s.busy := rfl
@[simp] theorem State.bufRead_done (sp : Space) (idx : Nat) : (s.bufRead sp idx).done = s.done := rfl
@[simp] theorem State.bufRead_err (sp : Space) (idx : Nat) : (s.bufRead sp idx).err = s.err := rfl
@[simp] theorem State.bufRead_haz (sp : Space) (idx : Nat) : (s.bufRead sp idx).haz = s.haz := rfl
@[simp] theorem State.bufRead_errcode (sp : Space) (idx : Nat) : (s.bufRead sp idx).errcode = s.errcode := rfl
@[simp] theorem State.bufRead_lastop (sp : Space) (idx : Nat) : (s.bufRead sp idx).lastop = s.lastop := rfl
@[simp] theorem State.bufRead_irqEn (sp : Space) (idx : Nat) : (s.bufRead sp idx).irqEn = s.irqEn := rfl
@[simp] theorem State.bufRead_window (sp : Space) (idx : Nat) : (s.bufRead sp idx).window = s.window := rfl
@[simp] theorem State.bufRead_inLen (sp : Space) (idx : Nat) : (s.bufRead sp idx).inLen = s.inLen := rfl
@[simp] theorem State.bufRead_ctLen (sp : Space) (idx : Nat) : (s.bufRead sp idx).ctLen = s.ctLen := rfl
@[simp] theorem State.bufRead_outLen (sp : Space) (idx : Nat) : (s.bufRead sp idx).outLen = s.outLen := rfl
@[simp] theorem State.bufRead_errInfo (sp : Space) (idx : Nat) : (s.bufRead sp idx).errInfo = s.errInfo := rfl
@[simp] theorem State.bufRead_mem (sp : Space) (idx : Nat) : (s.bufRead sp idx).mem = s.mem := rfl
@[simp] theorem State.bufRead_op (sp : Space) (idx : Nat) : (s.bufRead sp idx).op = s.op := rfl
@[simp] theorem State.bufRead_phase (sp : Space) (idx : Nat) : (s.bufRead sp idx).phase = s.phase := rfl
@[simp] theorem State.bufRead_eng (sp : Space) (idx : Nat) : (s.bufRead sp idx).eng = s.eng := rfl
@[simp] theorem State.bufRead_rst (sp : Space) (idx : Nat) : (s.bufRead sp idx).rst = s.rst := rfl
@[simp] theorem State.bufRead_script (sp : Space) (idx : Nat) : (s.bufRead sp idx).script = s.script := rfl
@[simp] theorem State.bufRead_sched (sp : Space) (idx : Nat) : (s.bufRead sp idx).sched = s.sched := rfl
@[simp] theorem State.bufRead_rdata (sp : Space) (idx : Nat) : (s.bufRead sp idx).rdata = (s.mem.peek s.cfg sp idx).getD (portMask s.cfg sp idx (Config.freeWord s.free)) := rfl
@[simp] theorem State.bufRead_free (sp : Space) (idx : Nat) : (s.bufRead sp idx).free = s.free + 1 := rfl

/-! The fields after the register part of a reset (10_state.md R44). -/

@[simp] theorem State.resetRegs_cfg : (s.resetRegs).cfg = s.cfg := rfl
@[simp] theorem State.resetRegs_busy : (s.resetRegs).busy = false := rfl
@[simp] theorem State.resetRegs_done : (s.resetRegs).done = false := rfl
@[simp] theorem State.resetRegs_err : (s.resetRegs).err = false := rfl
@[simp] theorem State.resetRegs_haz : (s.resetRegs).haz = false := rfl
@[simp] theorem State.resetRegs_errcode : (s.resetRegs).errcode = 0#4 := rfl
@[simp] theorem State.resetRegs_lastop : (s.resetRegs).lastop = 0#4 := rfl
@[simp] theorem State.resetRegs_irqEn : (s.resetRegs).irqEn = false := rfl
@[simp] theorem State.resetRegs_window : (s.resetRegs).window = Config.defaultWindow := rfl
@[simp] theorem State.resetRegs_inLen : (s.resetRegs).inLen = 0#32 := rfl
@[simp] theorem State.resetRegs_ctLen : (s.resetRegs).ctLen = 0#32 := rfl
@[simp] theorem State.resetRegs_outLen : (s.resetRegs).outLen = 0#32 := rfl
@[simp] theorem State.resetRegs_errInfo : (s.resetRegs).errInfo = 0#32 := rfl
@[simp] theorem State.resetRegs_mem : (s.resetRegs).mem = s.mem := rfl
@[simp] theorem State.resetRegs_op : (s.resetRegs).op = 0#4 := rfl
@[simp] theorem State.resetRegs_phase : (s.resetRegs).phase = .idle := rfl
@[simp] theorem State.resetRegs_eng : (s.resetRegs).eng = s.freeHidden := rfl
@[simp] theorem State.resetRegs_rst : (s.resetRegs).rst = s.rst := rfl
@[simp] theorem State.resetRegs_script : (s.resetRegs).script = s.script := rfl
@[simp] theorem State.resetRegs_sched : (s.resetRegs).sched = s.sched := rfl
@[simp] theorem State.resetRegs_rdata : (s.resetRegs).rdata = s.rdata := rfl
@[simp] theorem State.resetRegs_free : (s.resetRegs).free = s.free + s.freeUse := rfl

/-! The fields after a soft reset (70_reset_and_hazards.md R292). -/

@[simp] theorem State.softReset_cfg : (s.softReset).cfg = s.cfg := rfl
@[simp] theorem State.softReset_busy : (s.softReset).busy = false := rfl
@[simp] theorem State.softReset_done : (s.softReset).done = false := rfl
@[simp] theorem State.softReset_err : (s.softReset).err = false := rfl
@[simp] theorem State.softReset_haz : (s.softReset).haz = false := rfl
@[simp] theorem State.softReset_errcode : (s.softReset).errcode = 0#4 := rfl
@[simp] theorem State.softReset_lastop : (s.softReset).lastop = 0#4 := rfl
@[simp] theorem State.softReset_irqEn : (s.softReset).irqEn = false := rfl
@[simp] theorem State.softReset_window : (s.softReset).window = Config.defaultWindow := rfl
@[simp] theorem State.softReset_inLen : (s.softReset).inLen = 0#32 := rfl
@[simp] theorem State.softReset_ctLen : (s.softReset).ctLen = 0#32 := rfl
@[simp] theorem State.softReset_outLen : (s.softReset).outLen = 0#32 := rfl
@[simp] theorem State.softReset_errInfo : (s.softReset).errInfo = 0#32 := rfl
@[simp] theorem State.softReset_mem : (s.softReset).mem = if s.busy then s.mem.clearOutputs? s.phase.owner else s.mem := rfl
@[simp] theorem State.softReset_op : (s.softReset).op = 0#4 := rfl
@[simp] theorem State.softReset_phase : (s.softReset).phase = .idle := rfl
@[simp] theorem State.softReset_eng : (s.softReset).eng = s.freeHidden := rfl
@[simp] theorem State.softReset_rst : (s.softReset).rst = s.rst := rfl
@[simp] theorem State.softReset_script : (s.softReset).script = s.script := rfl
@[simp] theorem State.softReset_sched : (s.softReset).sched = s.sched := rfl
@[simp] theorem State.softReset_rdata : (s.softReset).rdata = s.rdata := rfl
@[simp] theorem State.softReset_free : (s.softReset).free = s.free + s.freeUse := rfl

/-! The fields after the release of the reset input (70_reset_and_hazards.md R290). -/

@[simp] theorem State.powerOn_cfg : (s.powerOn).cfg = s.cfg := rfl
@[simp] theorem State.powerOn_busy : (s.powerOn).busy = false := rfl
@[simp] theorem State.powerOn_done : (s.powerOn).done = false := rfl
@[simp] theorem State.powerOn_err : (s.powerOn).err = false := rfl
@[simp] theorem State.powerOn_haz : (s.powerOn).haz = false := rfl
@[simp] theorem State.powerOn_errcode : (s.powerOn).errcode = 0#4 := rfl
@[simp] theorem State.powerOn_lastop : (s.powerOn).lastop = 0#4 := rfl
@[simp] theorem State.powerOn_irqEn : (s.powerOn).irqEn = false := rfl
@[simp] theorem State.powerOn_window : (s.powerOn).window = Config.defaultWindow := rfl
@[simp] theorem State.powerOn_inLen : (s.powerOn).inLen = 0#32 := rfl
@[simp] theorem State.powerOn_ctLen : (s.powerOn).ctLen = 0#32 := rfl
@[simp] theorem State.powerOn_outLen : (s.powerOn).outLen = 0#32 := rfl
@[simp] theorem State.powerOn_errInfo : (s.powerOn).errInfo = 0#32 := rfl
@[simp] theorem State.powerOn_mem : (s.powerOn).mem = Memory.empty := rfl
@[simp] theorem State.powerOn_op : (s.powerOn).op = 0#4 := rfl
@[simp] theorem State.powerOn_phase : (s.powerOn).phase = .idle := rfl
@[simp] theorem State.powerOn_eng : (s.powerOn).eng = s.freeHidden := rfl
@[simp] theorem State.powerOn_rst : (s.powerOn).rst = false := rfl
@[simp] theorem State.powerOn_script : (s.powerOn).script = s.script := rfl
@[simp] theorem State.powerOn_sched : (s.powerOn).sched = s.sched := rfl
@[simp] theorem State.powerOn_rdata : (s.powerOn).rdata = s.rdata := rfl
@[simp] theorem State.powerOn_free : (s.powerOn).free = s.free + s.freeUse := rfl

/-! The operands a command reads, after acceptance and after a change of phase. -/

@[simp] theorem State.accept_nIn (w : Word) : (s.accept w).nIn = s.inLen.toNat := rfl
@[simp] theorem State.accept_kIn (w : Word) : (s.accept w).kIn = s.ctLen.toNat := rfl
@[simp] theorem State.accept_wIn (w : Word) : (s.accept w).wIn = s.window.toNat := rfl
@[simp] theorem State.storeText_nIn (xs : List Sym) : (s.storeText xs).nIn = s.nIn := rfl
@[simp] theorem State.storeText_kIn (xs : List Sym) : (s.storeText xs).kIn = s.kIn := rfl
@[simp] theorem State.storeText_wIn (xs : List Sym) : (s.storeText xs).wIn = s.wIn := rfl
@[simp] theorem State.storeBits_nIn (xs : List Bool) : (s.storeBits xs).nIn = s.nIn := rfl
@[simp] theorem State.storeBits_kIn (xs : List Bool) : (s.storeBits xs).kIn = s.kIn := rfl
@[simp] theorem State.storeBits_wIn (xs : List Bool) : (s.storeBits xs).wIn = s.wIn := rfl
@[simp] theorem State.storeBytes_nIn (xs : List Byte) : (s.storeBytes xs).nIn = s.nIn := rfl
@[simp] theorem State.storeBytes_kIn (xs : List Byte) : (s.storeBytes xs).kIn = s.kIn := rfl
@[simp] theorem State.storeBytes_wIn (xs : List Byte) : (s.storeBytes xs).wIn = s.wIn := rfl
@[simp] theorem State.storeToks_nIn (xs : List Token) : (s.storeToks xs).nIn = s.nIn := rfl
@[simp] theorem State.storeToks_kIn (xs : List Token) : (s.storeToks xs).kIn = s.kIn := rfl
@[simp] theorem State.storeToks_wIn (xs : List Token) : (s.storeToks xs).wIn = s.wIn := rfl
@[simp] theorem State.storeCt_nIn (xs : List CtEntry) : (s.storeCt xs).nIn = s.nIn := rfl
@[simp] theorem State.storeCt_kIn (xs : List CtEntry) : (s.storeCt xs).kIn = s.kIn := rfl
@[simp] theorem State.storeCt_wIn (xs : List CtEntry) : (s.storeCt xs).wIn = s.wIn := rfl

/-! The engine registers that the table sizes do not touch. -/

@[simp] theorem Engine.fit_n (p : Config.Params) (e : Engine) : (e.fit p).n = e.n := rfl
@[simp] theorem Engine.fit_k (p : Config.Params) (e : Engine) : (e.fit p).k = e.k := rfl
@[simp] theorem Engine.fit_w (p : Config.Params) (e : Engine) : (e.fit p).w = e.w := rfl
@[simp] theorem Engine.fit_p (p : Config.Params) (e : Engine) : (e.fit p).p = e.p := rfl
@[simp] theorem Engine.fit_i (p : Config.Params) (e : Engine) : (e.fit p).i = e.i := rfl
@[simp] theorem Engine.fit_j (p : Config.Params) (e : Engine) : (e.fit p).j = e.j := rfl
@[simp] theorem Engine.fit_off (p : Config.Params) (e : Engine) : (e.fit p).off = e.off := rfl
@[simp] theorem Engine.fit_mlen (p : Config.Params) (e : Engine) : (e.fit p).mlen = e.mlen := rfl
@[simp] theorem Engine.fit_bestLen (p : Config.Params) (e : Engine) : (e.fit p).bestLen = e.bestLen := rfl
@[simp] theorem Engine.fit_bestDist (p : Config.Params) (e : Engine) : (e.fit p).bestDist = e.bestDist := rfl
@[simp] theorem Engine.fit_out (p : Config.Params) (e : Engine) : (e.fit p).out = e.out := rfl
@[simp] theorem Engine.fit_a (p : Config.Params) (e : Engine) : (e.fit p).a = e.a := rfl
@[simp] theorem Engine.fit_b (p : Config.Params) (e : Engine) : (e.fit p).b = e.b := rfl
@[simp] theorem Engine.fit_acc (p : Config.Params) (e : Engine) : (e.fit p).acc = e.acc := rfl
@[simp] theorem Engine.fit_accN (p : Config.Params) (e : Engine) : (e.fit p).accN = e.accN := rfl
@[simp] theorem Engine.fit_live (p : Config.Params) (e : Engine) : (e.fit p).live = e.live := rfl
@[simp] theorem Engine.fit_candLen (p : Config.Params) (e : Engine) : (e.fit p).candLen = e.candLen := rfl
@[simp] theorem Engine.fit_candStart (p : Config.Params) (e : Engine) : (e.fit p).candStart = e.candStart := rfl

end Sys2Proof.Machine
end

