-- ==== Sys2Proof/Laws/Buffer.lean ====
section
/-! SUPPORT. The laws of the buffers: reading after writing, the canonical form under every memory operation, and what a run of consecutive
element writes leaves. -/

namespace Sys2Proof.Machine

/-! Sparse element lists. -/

@[simp] theorem bufGet_nil {α : Type} (i : Nat) : bufGet ([] : List (Nat × α)) i = none := rfl

theorem bufGet_cons {α : Type} (k : Nat) (v : α) (r : List (Nat × α)) (i : Nat) :
    bufGet ((k, v) :: r) i = if k = i then some v else bufGet r i := rfl

/-- Read after write: the written element, and every other one as before. -/
@[simp] theorem bufGet_bufPut {α : Type} (l : List (Nat × α)) (i j : Nat) (v : α) :
    bufGet (bufPut l i v) j = if j = i then some v else bufGet l j := by
  induction l with
  | nil => simp [bufPut, bufGet_cons, eq_comm]
  | cons e r ih =>
    obtain ⟨k, w⟩ := e
    unfold bufPut
    split
    · rw [bufGet_cons]; simp only [eq_comm (a := i)]
    · split
      · subst_vars; simp only [bufGet_cons]; split <;> simp_all [eq_comm]
      · simp only [bufGet_cons, ih]; split
        · subst_vars; rw [if_neg]; exact fun h => ‹¬ i = _› h.symm
        · rfl

/-- The first index of a canonical list bounds a new entry put in front of it. -/
theorem bufWf_cons {α : Type} (cap a : Nat) (x : α) (l : List (Nat × α)) :
    bufWf cap ((a, x) :: l) = true ↔ a < cap ∧ bufWf cap l = true ∧ ∀ b y, (b, y) ∈ l.head? → a < b := by
  cases l with
  | nil => simp [bufWf]
  | cons e r =>
    obtain ⟨b, y⟩ := e
    simp only [bufWf, Bool.and_eq_true, decide_eq_true_eq, List.head?_cons, Option.mem_def, Option.some.injEq, Prod.mk.injEq]
    constructor
    · rintro ⟨h1, h2⟩
      refine ⟨?_, h2, ?_⟩
      · cases r with
        | nil => simp [bufWf] at h2; omega
        | cons e' r' =>
          obtain ⟨c, z⟩ := e'
          have : ∀ (l : List (Nat × α)) (b : Nat) (y : α), bufWf cap ((b, y) :: l) = true → b < cap := by
            intro l
            induction l with
            | nil => intro b y h; simpa [bufWf] using h
            | cons e l ih => intro b y h; obtain ⟨c, z⟩ := e; simp [bufWf] at h; have := ih c z h.2; omega
          have := this _ _ _ h2; omega
      · rintro b' y' ⟨rfl, rfl⟩; exact h1
    · rintro ⟨_, h2, h3⟩; exact ⟨h3 b y ⟨rfl, rfl⟩, h2⟩

/-- A write inside the capacity keeps the canonical form. -/
theorem bufWf_bufPut {α : Type} (cap : Nat) (l : List (Nat × α)) (i : Nat) (v : α) (h : bufWf cap l = true) (hi : i < cap) :
    bufWf cap (bufPut l i v) = true := by
  induction l with
  | nil => simp [bufPut, bufWf, hi]
  | cons e r ih =>
    obtain ⟨k, w⟩ := e
    have hk := (bufWf_cons _ _ _ _).1 h
    unfold bufPut
    split
    · rw [bufWf_cons]; exact ⟨hi, h, by rintro b y ⟨⟩; assumption⟩
    · split
      · subst_vars; rw [bufWf_cons]; exact ⟨hi, hk.2⟩
      · rw [bufWf_cons]
        refine ⟨hk.1, ih hk.2.1, ?_⟩
        intro b y hb
        cases r with
        | nil => simp [bufPut] at hb; omega
        | cons e' r' =>
          obtain ⟨c, z⟩ := e'
          have hc := hk.2.2 c z rfl
          unfold bufPut at hb
          split at hb
          · simp at hb; omega
          · split at hb <;> (simp at hb; omega)

/-- Every index a canonical list has is inside the capacity. -/
theorem bufGet_of_ge {α : Type} (cap : Nat) (l : List (Nat × α)) (i : Nat) (h : bufWf cap l = true) (hi : cap ≤ i) :
    bufGet l i = none := by
  induction l with
  | nil => rfl
  | cons e r ih =>
    obtain ⟨k, w⟩ := e
    have hk := (bufWf_cons _ _ _ _).1 h
    rw [bufGet_cons, if_neg (by omega), ih hk.2.1]

@[simp] theorem bufWf_nil {α : Type} (cap : Nat) : bufWf cap ([] : List (Nat × α)) = true := rfl

/-- Equal reads make equal canonical lists. -/
theorem bufWf_ext {α : Type} (cap : Nat) (l m : List (Nat × α)) (hl : bufWf cap l = true) (hm : bufWf cap m = true)
    (h : ∀ i, bufGet l i = bufGet m i) : l = m := by
  have low : ∀ (l : List (Nat × α)) (k : Nat) (w : α) (i : Nat), bufWf cap ((k, w) :: l) = true → i ≤ k → bufGet l i = none := by
    intro l
    induction l with
    | nil => intros; rfl
    | cons e r ih =>
      intro k w i hw hi
      obtain ⟨b, y⟩ := e
      have hb := (bufWf_cons _ _ _ _).1 hw
      have := hb.2.2 b y rfl
      rw [bufGet_cons, if_neg (by omega)]
      exact ih b y i hb.2.1 (by omega)
  induction l generalizing m with
  | nil =>
    cases m with
    | nil => rfl
    | cons e r => obtain ⟨k, w⟩ := e; have := h k; simp [bufGet_cons] at this
  | cons e r ih =>
    obtain ⟨k, w⟩ := e
    cases m with
    | nil => have := h k; simp [bufGet_cons] at this
    | cons e' r' =>
      obtain ⟨k', w'⟩ := e'
      have hkk : k = k' := by
        rcases Nat.lt_trichotomy k k' with hlt | heq | hgt
        · have := h k
          rw [bufGet_cons, if_pos rfl, bufGet_cons, if_neg (by omega), low r' k' w' k hm (by omega)] at this
          cases this
        · exact heq
        · have := h k'
          rw [bufGet_cons, if_neg (by omega), bufGet_cons, if_pos rfl, low r k w k' hl (by omega)] at this
          cases this
      subst hkk
      have hw : w = w' := by have := h k; simpa [bufGet_cons] using this
      subst hw
      have := ih r' ((bufWf_cons _ _ _ _).1 hl).2.1 ((bufWf_cons _ _ _ _).1 hm).2.1 (by
        intro i
        by_cases hi : k = i
        · subst hi; rw [low r k w k hl (le_refl _), low r' k w k hm (le_refl _)]
        · have := h i; rwa [bufGet_cons, if_neg hi, bufGet_cons, if_neg hi] at this)
      rw [this]

/-! Runs of element writes. -/

@[simp] theorem putSeq_nil {α : Type} (put : Nat → α → Memory → Memory) (i : Nat) (m : Memory) : putSeq put i [] m = m := rfl

@[simp] theorem putSeq_cons {α : Type} (put : Nat → α → Memory → Memory) (i : Nat) (x : α) (xs : List α) (m : Memory) :
    putSeq put i (x :: xs) m = putSeq put (i + 1) xs (put i x m) := rfl

/-- A run of writes is the first part of it and then the rest. -/
theorem putSeq_append {α : Type} (put : Nat → α → Memory → Memory) (i : Nat) (xs ys : List α) (m : Memory) :
    putSeq put i (xs ++ ys) m = putSeq put (i + xs.length) ys (putSeq put i xs m) := by
  induction xs generalizing i m with
  | nil => rfl
  | cons x xs ih => simp [ih, Nat.add_comm 1, Nat.add_assoc]

/-- What every single write keeps, a run of writes keeps. -/
theorem putSeq_keeps {α : Type} (put : Nat → α → Memory → Memory) (P : Memory → Prop) (h : ∀ i x m, P m → P (put i x m)) (i : Nat)
    (xs : List α) (m : Memory) (hm : P m) : P (putSeq put i xs m) := by
  induction xs generalizing i m with
  | nil => exact hm
  | cons x xs ih => exact ih _ _ (h _ _ _ hm)

/-- What a run of writes into one element list leaves at an index, when a single write puts an element below the capacity. -/
theorem bufGet_putSeq {α β : Type} (put : Nat → α → Memory → Memory) (sel : Memory → List (Nat × β)) (g : α → β) (cap : Nat)
    (h : ∀ i x m j, bufGet (sel (put i x m)) j = if j = i ∧ i < cap then some (g x) else bufGet (sel m) j) (i : Nat) (xs : List α)
    (m : Memory) (j : Nat) :
    bufGet (sel (putSeq put i xs m)) j =
      if i ≤ j ∧ j < i + xs.length ∧ j < cap then (xs[j - i]?).map g else bufGet (sel m) j := by
  induction xs generalizing i m with
  | nil => rw [putSeq_nil, if_neg]; simp; omega
  | cons x xs ih =>
    rw [putSeq_cons, ih, h]
    by_cases hj : j = i
    · subst hj
      rw [if_neg (by omega)]
      by_cases hc : j < cap
      · rw [if_pos ⟨rfl, hc⟩, if_pos ⟨le_refl _, by simp, hc⟩]; simp
      · rw [if_neg (by omega), if_neg (by omega)]
    · rw [if_neg (show ¬ (j = i ∧ i < cap) from fun h => hj h.1)]
      by_cases hr : i + 1 ≤ j ∧ j < i + 1 + xs.length ∧ j < cap
      · rw [if_pos hr, if_pos (by simp; omega)]
        obtain ⟨d, rfl⟩ := Nat.exists_eq_add_of_le hr.1
        rw [show i + 1 + d - (i + 1) = d by omega, show i + 1 + d - i = d + 1 by omega]; simp
      · rw [if_neg hr, if_neg (by simp; omega)]

/-! The element writes: what each leaves in its own list. -/

theorem get_putText (p : Config.Params) (i : Nat) (x : Sym) (m : Memory) (j : Nat) :
    bufGet (m.putText p i x).text j = if j = i ∧ i < p.nMax then some x else bufGet m.text j := by
  unfold Memory.putText; split <;> simp_all

theorem get_putBit (p : Config.Params) (i : Nat) (x : Bool) (m : Memory) (j : Nat) :
    bufGet (m.putBit p i x).bits j = if j = i ∧ i < p.bMax then some x else bufGet m.bits j := by
  unfold Memory.putBit; split <;> simp_all

theorem get_putByte (p : Config.Params) (i : Nat) (x : Byte) (m : Memory) (j : Nat) :
    bufGet (m.putByte p i x).bytes j = if j = i ∧ i < p.yMax then some x else bufGet m.bytes j := by
  unfold Memory.putByte; split <;> simp_all

theorem get_putTokDist (p : Config.Params) (i : Nat) (x : Word) (m : Memory) (j : Nat) :
    bufGet (m.putTokDist p i x).tokDist j = if j = i ∧ i < p.tMax then some x else bufGet m.tokDist j := by
  unfold Memory.putTokDist; split <;> simp_all

theorem get_putTokLen (p : Config.Params) (i : Nat) (x : Word) (m : Memory) (j : Nat) :
    bufGet (m.putTokLen p i x).tokLen j = if j = i ∧ i < p.tMax then some x else bufGet m.tokLen j := by
  unfold Memory.putTokLen; split <;> simp_all

theorem get_putTokLit (p : Config.Params) (i : Nat) (x : Lit) (m : Memory) (j : Nat) :
    bufGet (m.putTokLit p i x).tokLit j = if j = i ∧ i < p.tMax then some x else bufGet m.tokLit j := by
  unfold Memory.putTokLit; split <;> simp_all

theorem get_putCtSym (p : Config.Params) (i : Nat) (x : Sym) (m : Memory) (j : Nat) :
    bufGet (m.putCtSym p i x).ctSym j = if j = i ∧ i < p.kMax then some x else bufGet m.ctSym j := by
  unfold Memory.putCtSym; split <;> simp_all

theorem get_putCtLen (p : Config.Params) (i : Nat) (x : Word) (m : Memory) (j : Nat) :
    bufGet (m.putCtLen p i x).ctLen j = if j = i ∧ i < p.kMax then some x else bufGet m.ctLen j := by
  unfold Memory.putCtLen; split <;> simp_all

theorem get_putCtWord (p : Config.Params) (i w : Nat) (x : Word) (m : Memory) (j : Nat) :
    bufGet (m.putCtWord p i w x).ctBits j =
      if j = i * p.codeWords + w ∧ i < p.kMax ∧ w < p.codeWords then some (codeWordMask p w x) else bufGet m.ctBits j := by
  unfold Memory.putCtWord; split <;> simp_all

/-! Each element write in terms of the other lists: it changes only its own. -/

theorem putText_frame (p : Config.Params) (i : Nat) (x : Sym) (m : Memory) :
    m.putText p i x = { m with text := (m.putText p i x).text } := by unfold Memory.putText; split <;> rfl

theorem putBit_frame (p : Config.Params) (i : Nat) (x : Bool) (m : Memory) :
    m.putBit p i x = { m with bits := (m.putBit p i x).bits } := by unfold Memory.putBit; split <;> rfl

theorem putByte_frame (p : Config.Params) (i : Nat) (x : Byte) (m : Memory) :
    m.putByte p i x = { m with bytes := (m.putByte p i x).bytes } := by unfold Memory.putByte; split <;> rfl

theorem putTokDist_frame (p : Config.Params) (i : Nat) (x : Word) (m : Memory) :
    m.putTokDist p i x = { m with tokDist := (m.putTokDist p i x).tokDist } := by unfold Memory.putTokDist; split <;> rfl

theorem putTokLen_frame (p : Config.Params) (i : Nat) (x : Word) (m : Memory) :
    m.putTokLen p i x = { m with tokLen := (m.putTokLen p i x).tokLen } := by unfold Memory.putTokLen; split <;> rfl

theorem putTokLit_frame (p : Config.Params) (i : Nat) (x : Lit) (m : Memory) :
    m.putTokLit p i x = { m with tokLit := (m.putTokLit p i x).tokLit } := by unfold Memory.putTokLit; split <;> rfl

theorem putCtSym_frame (p : Config.Params) (i : Nat) (x : Sym) (m : Memory) :
    m.putCtSym p i x = { m with ctSym := (m.putCtSym p i x).ctSym } := by unfold Memory.putCtSym; split <;> rfl

theorem putCtLen_frame (p : Config.Params) (i : Nat) (x : Word) (m : Memory) :
    m.putCtLen p i x = { m with ctLen := (m.putCtLen p i x).ctLen } := by unfold Memory.putCtLen; split <;> rfl

theorem putCtWord_frame (p : Config.Params) (i w : Nat) (x : Word) (m : Memory) :
    m.putCtWord p i w x = { m with ctBits := (m.putCtWord p i w x).ctBits } := by unfold Memory.putCtWord; split <;> rfl

/-- Writing the words of a code changes only the code words. -/
theorem putCtWords_frame (p : Config.Params) (j v c w : Nat) (m : Memory) :
    m.putCtWords p j v c w = { m with ctBits := (m.putCtWords p j v c w).ctBits } := by
  induction c generalizing w m with
  | zero => rfl
  | succ c ih => unfold Memory.putCtWords; rw [ih, putCtWord_frame]

/-- Writing a whole token changes only the three token lists. -/
theorem putTok_frame (p : Config.Params) (i : Nat) (x : Token) (m : Memory) :
    m.putTok p i x =
      { m with tokDist := (m.putTokDist p i x.dist).tokDist, tokLen := (m.putTokLen p i x.len).tokLen,
               tokLit := (m.putTokLit p i { hasNext := x.hasNext, next := x.next }).tokLit } := by
  unfold Memory.putTok Memory.putTokDist Memory.putTokLen Memory.putTokLit; split <;> rfl

theorem get_putTok_dist (p : Config.Params) (i : Nat) (x : Token) (m : Memory) (j : Nat) :
    bufGet (m.putTok p i x).tokDist j = if j = i ∧ i < p.tMax then some x.dist else bufGet m.tokDist j := by
  rw [putTok_frame]; exact get_putTokDist ..

theorem get_putTok_len (p : Config.Params) (i : Nat) (x : Token) (m : Memory) (j : Nat) :
    bufGet (m.putTok p i x).tokLen j = if j = i ∧ i < p.tMax then some x.len else bufGet m.tokLen j := by
  rw [putTok_frame]; exact get_putTokLen ..

theorem get_putTok_lit (p : Config.Params) (i : Nat) (x : Token) (m : Memory) (j : Nat) :
    bufGet (m.putTok p i x).tokLit j =
      if j = i ∧ i < p.tMax then some { hasNext := x.hasNext, next := x.next } else bufGet m.tokLit j := by
  rw [putTok_frame]; exact get_putTokLit ..

theorem get_putCt_sym (p : Config.Params) (i : Nat) (x : CtEntry) (m : Memory) (j : Nat) :
    bufGet (m.putCt p i x).ctSym j = if j = i ∧ i < p.kMax then some x.sym else bufGet m.ctSym j := by
  unfold Memory.putCt; rw [putCtWords_frame, putCtLen_frame]; exact get_putCtSym ..

theorem get_putCt_len (p : Config.Params) (i : Nat) (x : CtEntry) (m : Memory) (j : Nat) :
    bufGet (m.putCt p i x).ctLen j = if j = i ∧ i < p.kMax then some (BitVec.ofNat 32 x.clen) else bufGet m.ctLen j := by
  unfold Memory.putCt; rw [putCtWords_frame]; simp only; rw [get_putCtLen, putCtSym_frame]

/-- What writing the words `w .. w + c` of a code leaves. -/
theorem get_putCtWords (p : Config.Params) (j v c w : Nat) (m : Memory) (x : Nat) (hw : w + c ≤ p.codeWords) :
    bufGet (m.putCtWords p j v c w).ctBits x =
      if j < p.kMax ∧ j * p.codeWords + w ≤ x ∧ x < j * p.codeWords + w + c
      then some (codeWordMask p (x - j * p.codeWords) (codeWord v (x - j * p.codeWords))) else bufGet m.ctBits x := by
  induction c generalizing w m with
  | zero => rw [if_neg (by omega)]; rfl
  | succ c ih =>
    unfold Memory.putCtWords
    rw [ih _ _ (by omega), get_putCtWord]
    by_cases hx : x = j * p.codeWords + w
    · subst hx
      rw [if_neg (by omega)]
      by_cases hj : j < p.kMax
      · rw [if_pos ⟨rfl, hj, by omega⟩, if_pos ⟨hj, by omega, by omega⟩, show j * p.codeWords + w - j * p.codeWords = w by omega]
      · rw [if_neg (by omega), if_neg (by omega)]
    · rw [if_neg (show ¬ (x = j * p.codeWords + w ∧ j < p.kMax ∧ w < p.codeWords) from fun h => hx h.1)]
      by_cases hr : j < p.kMax ∧ j * p.codeWords + (w + 1) ≤ x ∧ x < j * p.codeWords + (w + 1) + c
      · rw [if_pos hr, if_pos (by omega)]
      · rw [if_neg hr, if_neg (by omega)]

theorem get_putCt_bits (p : Config.Params) (i : Nat) (x : CtEntry) (m : Memory) (y : Nat) :
    bufGet (m.putCt p i x).ctBits y =
      if i < p.kMax ∧ i * p.codeWords ≤ y ∧ y < (i + 1) * p.codeWords
      then some (codeWordMask p (y - i * p.codeWords) (codeWord x.cbits (y - i * p.codeWords))) else bufGet m.ctBits y := by
  unfold Memory.putCt
  rw [get_putCtWords _ _ _ _ _ _ _ (by omega), putCtLen_frame, putCtSym_frame, Nat.add_mul, Nat.one_mul, Nat.add_zero]

/-! The canonical form is kept by every memory operation (20_memory.md R61). -/

/-- The canonical form, list by list. -/
theorem Memory.wf_iff (p : Config.Params) (m : Memory) :
    m.wf p = true ↔
      bufWf p.nMax m.text = true ∧ bufWf p.bMax m.bits = true ∧ bufWf p.yMax m.bytes = true ∧ bufWf p.tMax m.tokDist = true ∧
        bufWf p.tMax m.tokLen = true ∧ bufWf p.tMax m.tokLit = true ∧ bufWf p.kMax m.ctSym = true ∧ bufWf p.kMax m.ctLen = true ∧
        bufWf (p.kMax * p.codeWords) m.ctBits = true ∧ codeWordsOk p m.ctBits = true := by
  simp only [Memory.wf, Bool.and_eq_true, and_assoc]

@[simp] theorem Memory.empty_wf (p : Config.Params) : Memory.empty.wf p = true := by
  simp [Memory.wf_iff, Memory.empty, codeWordsOk]

/-- The buffers after reset are in canonical form. -/
theorem reset_mem_wf : State.reset.mem.wf State.reset.cfg = true := Memory.empty_wf _

theorem Memory.wf_putText (p : Config.Params) (i : Nat) (x : Sym) (m : Memory) (h : m.wf p = true) : (m.putText p i x).wf p = true := by
  unfold Memory.putText; split
  · rw [Memory.wf_iff] at *; exact ⟨bufWf_bufPut _ _ _ _ h.1 ‹_›, h.2⟩
  · exact h

theorem Memory.wf_putBit (p : Config.Params) (i : Nat) (x : Bool) (m : Memory) (h : m.wf p = true) : (m.putBit p i x).wf p = true := by
  unfold Memory.putBit; split
  · rw [Memory.wf_iff] at *; exact ⟨h.1, bufWf_bufPut _ _ _ _ h.2.1 ‹_›, h.2.2⟩
  · exact h

theorem Memory.wf_putByte (p : Config.Params) (i : Nat) (x : Byte) (m : Memory) (h : m.wf p = true) : (m.putByte p i x).wf p = true := by
  unfold Memory.putByte; split
  · rw [Memory.wf_iff] at *
    obtain ⟨h1, h2, h3, h4⟩ := h
    exact ⟨h1, h2, bufWf_bufPut _ _ _ _ h3 ‹_›, h4⟩
  · exact h

theorem Memory.wf_putTokDist (p : Config.Params) (i : Nat) (x : Word) (m : Memory) (h : m.wf p = true) :
    (m.putTokDist p i x).wf p = true := by
  unfold Memory.putTokDist; split
  · rw [Memory.wf_iff] at *
    obtain ⟨h1, h2, h3, h4, h5⟩ := h
    exact ⟨h1, h2, h3, bufWf_bufPut _ _ _ _ h4 ‹_›, h5⟩
  · exact h

theorem Memory.wf_putTokLen (p : Config.Params) (i : Nat) (x : Word) (m : Memory) (h : m.wf p = true) :
    (m.putTokLen p i x).wf p = true := by
  unfold Memory.putTokLen; split
  · rw [Memory.wf_iff] at *
    obtain ⟨h1, h2, h3, h4, h5, h6⟩ := h
    exact ⟨h1, h2, h3, h4, bufWf_bufPut _ _ _ _ h5 ‹_›, h6⟩
  · exact h

theorem Memory.wf_putTokLit (p : Config.Params) (i : Nat) (x : Lit) (m : Memory) (h : m.wf p = true) :
    (m.putTokLit p i x).wf p = true := by
  unfold Memory.putTokLit; split
  · rw [Memory.wf_iff] at *
    obtain ⟨h1, h2, h3, h4, h5, h6, h7⟩ := h
    exact ⟨h1, h2, h3, h4, h5, bufWf_bufPut _ _ _ _ h6 ‹_›, h7⟩
  · exact h

theorem Memory.wf_putTok (p : Config.Params) (i : Nat) (x : Token) (m : Memory) (h : m.wf p = true) : (m.putTok p i x).wf p = true :=
  Memory.wf_putTokLit _ _ _ _ (Memory.wf_putTokLen _ _ _ _ (Memory.wf_putTokDist _ _ _ _ h))

theorem Memory.wf_putCtSym (p : Config.Params) (i : Nat) (x : Sym) (m : Memory) (h : m.wf p = true) : (m.putCtSym p i x).wf p = true := by
  unfold Memory.putCtSym; split
  · rw [Memory.wf_iff] at *
    obtain ⟨h1, h2, h3, h4, h5, h6, h7, h8⟩ := h
    exact ⟨h1, h2, h3, h4, h5, h6, bufWf_bufPut _ _ _ _ h7 ‹_›, h8⟩
  · exact h

theorem Memory.wf_putCtLen (p : Config.Params) (i : Nat) (x : Word) (m : Memory) (h : m.wf p = true) : (m.putCtLen p i x).wf p = true := by
  unfold Memory.putCtLen; split
  · rw [Memory.wf_iff] at *
    obtain ⟨h1, h2, h3, h4, h5, h6, h7, h8, h9⟩ := h
    exact ⟨h1, h2, h3, h4, h5, h6, h7, bufWf_bufPut _ _ _ _ h8 ‹_›, h9⟩
  · exact h

/-- Masking twice is masking once. -/
theorem codeWordMask_idem (p : Config.Params) (w : Nat) (v : Word) : codeWordMask p w (codeWordMask p w v) = codeWordMask p w v := by
  unfold codeWordMask lowBits; rw [BitVec.and_assoc, BitVec.and_self]

theorem codeWordsOk_bufPut (p : Config.Params) (l : List (Nat × Word)) (j w : Nat) (v : Word) (hw : w < p.codeWords)
    (h : codeWordsOk p l = true) : codeWordsOk p (bufPut l (j * p.codeWords + w) (codeWordMask p w v)) = true := by
  have hm : (j * p.codeWords + w) % p.codeWords = w := by
    rw [Nat.add_comm, Nat.add_mul_mod_self_right, Nat.mod_eq_of_lt hw]
  induction l with
  | nil => simp [bufPut, codeWordsOk, hm, codeWordMask_idem]
  | cons e r ih =>
    obtain ⟨k, u⟩ := e
    simp only [codeWordsOk, List.all_cons, Bool.and_eq_true, beq_iff_eq] at h ih ⊢
    unfold bufPut
    split
    · simp only [List.all_cons, Bool.and_eq_true, beq_iff_eq, hm, codeWordMask_idem, true_and]; exact h
    · split
      · simp only [List.all_cons, Bool.and_eq_true, beq_iff_eq, hm, codeWordMask_idem, true_and]; exact h.2
      · simp only [List.all_cons, Bool.and_eq_true, beq_iff_eq]; exact ⟨h.1, ih h.2⟩

theorem Memory.wf_putCtWord (p : Config.Params) (i w : Nat) (x : Word) (m : Memory) (h : m.wf p = true) :
    (m.putCtWord p i w x).wf p = true := by
  unfold Memory.putCtWord; split
  · rename_i hlt
    rw [Memory.wf_iff] at *
    obtain ⟨h1, h2, h3, h4, h5, h6, h7, h8, h9, h10⟩ := h
    refine ⟨h1, h2, h3, h4, h5, h6, h7, h8, bufWf_bufPut _ _ _ _ h9 ?_, codeWordsOk_bufPut _ _ _ _ _ hlt.2 h10⟩
    calc i * p.codeWords + w < i * p.codeWords + p.codeWords := by omega
      _ = (i + 1) * p.codeWords := by rw [Nat.add_mul, Nat.one_mul]
      _ ≤ p.kMax * p.codeWords := Nat.mul_le_mul_right _ hlt.1
  · exact h

theorem Memory.wf_putCtWords (p : Config.Params) (j v c w : Nat) (m : Memory) (h : m.wf p = true) :
    (m.putCtWords p j v c w).wf p = true := by
  induction c generalizing w m with
  | zero => exact h
  | succ c ih => exact ih _ _ (Memory.wf_putCtWord _ _ _ _ _ h)

theorem Memory.wf_putCt (p : Config.Params) (i : Nat) (x : CtEntry) (m : Memory) (h : m.wf p = true) : (m.putCt p i x).wf p = true :=
  Memory.wf_putCtWords _ _ _ _ _ _ (Memory.wf_putCtLen _ _ _ _ (Memory.wf_putCtSym _ _ _ _ h))

/-- Storing a port word keeps the canonical form. -/
theorem Memory.wf_poke (p : Config.Params) (sp : Space) (idx : Nat) (v : Word) (m : Memory) (h : m.wf p = true) :
    (m.poke p sp idx v).wf p = true := by
  unfold Memory.poke
  split
  · exact h
  · exact Memory.wf_putText _ _ _ _ h
  · exact Memory.wf_putBit _ _ _ _ h
  · exact Memory.wf_putByte _ _ _ _ h
  · split
    · exact Memory.wf_putTokDist _ _ _ _ h
    · exact Memory.wf_putTokLen _ _ _ _ h
    · exact Memory.wf_putTokLit _ _ _ _ h
    · exact h
  · split
    · exact Memory.wf_putCtSym _ _ _ _ h
    · exact Memory.wf_putCtLen _ _ _ _ h
    · exact Memory.wf_putCtWord _ _ _ _ _ h

/-- Emptying output buffers keeps the canonical form. -/
theorem Memory.wf_clearOutputs (p : Config.Params) (i : Instr) (m : Memory) (h : m.wf p = true) : (m.clearOutputs i).wf p = true := by
  rw [Memory.wf_iff] at h
  obtain ⟨h1, h2, h3, h4, h5, h6, h7, h8, h9, h10⟩ := h
  have h11 : codeWordsOk p ([] : List (Nat × Word)) = true := rfl
  cases i <;> simp only [Memory.clearOutputs, Memory.wf_iff, bufWf_nil, *, and_self]

theorem Memory.wf_clearOutputs? (p : Config.Params) (i : Option Instr) (m : Memory) (h : m.wf p = true) :
    (m.clearOutputs? i).wf p = true := by
  cases i with
  | none => exact h
  | some c => exact Memory.wf_clearOutputs p c m h

/-- A run of writes keeps the canonical form when each does. -/
theorem Memory.wf_putSeq {α : Type} (p : Config.Params) (put : Nat → α → Memory → Memory)
    (hp : ∀ i x m, m.wf p = true → (put i x m).wf p = true) (i : Nat) (xs : List α) (m : Memory) (h : m.wf p = true) :
    (putSeq put i xs m).wf p = true := putSeq_keeps put (fun m => m.wf p = true) hp i xs m h

end Sys2Proof.Machine
end

