-- ==== Sys2Proof/Laws/Ops.lean ====
section
/-! SUPPORT. One lemma per shared operation, saying once everything it can do: the port words of the buffers, the writes of a result, the two
completions, and the schedule. -/

namespace Sys2Proof.Machine

/-! The port words (20_memory.md R61 to R66). -/

theorem codeWords_pos (p : Config.Params) : 0 < p.codeWords := by
  unfold Config.Params.codeWords ceilDiv Config.Params.lMax; omega

theorem ctStride_pos (p : Config.Params) : 0 < p.ctStride := by unfold Config.Params.ctStride; omega

/-- The word of entry `j` at field `f` of a code-table entry. -/
theorem ct_index (p : Config.Params) (j f : Nat) (hf : f < p.ctStride) :
    (j * p.ctStride + f) / p.ctStride = j ∧ (j * p.ctStride + f) % p.ctStride = f := by
  have hp := ctStride_pos p
  constructor
  · rw [Nat.add_comm, Nat.add_mul_div_right _ _ hp, Nat.div_eq_of_lt hf, Nat.zero_add]
  · rw [Nat.add_comm, Nat.add_mul_mod_self_right, Nat.mod_eq_of_lt hf]

/-- A word inside the code-table space belongs to an entry inside the table. -/
theorem ct_entry_lt (p : Config.Params) (idx : Nat) (h : idx < p.ctStride * p.kMax) : idx / p.ctStride < p.kMax :=
  (Nat.div_lt_iff_lt_mul (ctStride_pos p)).2 (by rwa [Nat.mul_comm] at h)

theorem Lit.ofWord_toWord (l : Lit) : Lit.ofWord l.toWord = l := by
  obtain ⟨h, n⟩ := l
  have h1 : (Lit.toWord { hasNext := h, next := n }).getLsbD 31 = h := by
    unfold Lit.toWord; rw [BitVec.getLsbD_append, if_neg (by omega), BitVec.getLsbD_append, if_neg (by omega)]; simp
  have h2 : (Lit.toWord { hasNext := h, next := n }).extractLsb' 0 21 = n := by
    apply BitVec.eq_of_getLsbD_eq; intro i hi
    rw [BitVec.getLsbD_extractLsb', Lit.toWord, BitVec.getLsbD_append, if_pos (by omega), Nat.zero_add]
    simp [hi]
  simp only [Lit.ofWord, h1, h2]

/-- Every index of the code-table space is a field of an entry. -/
theorem ct_split (p : Config.Params) (idx : Nat) : ∃ j f, f < p.ctStride ∧ idx = j * p.ctStride + f :=
  ⟨idx / p.ctStride, idx % p.ctStride, Nat.mod_lt _ (ctStride_pos p), by rw [Nat.mul_comm]; exact (Nat.div_add_mod _ _).symm⟩

/-- Two fields of a row-by-row layout coincide exactly when row and column do. -/
theorem row_inj (c j k x y : Nat) (hx : x < c) (hy : y < c) : j * c + x = k * c + y ↔ j = k ∧ x = y := by
  constructor
  · intro h
    have hj : j = k := by
      rcases Nat.lt_trichotomy j k with hlt | heq | hgt
      · have := Nat.mul_le_mul_right c (show j + 1 ≤ k from hlt); rw [Nat.add_mul, Nat.one_mul] at this; omega
      · exact heq
      · have := Nat.mul_le_mul_right c (show k + 1 ≤ j from hgt); rw [Nat.add_mul, Nat.one_mul] at this; omega
    subst hj; exact ⟨rfl, by omega⟩
  · rintro ⟨rfl, rfl⟩; rfl

/-- The word of a code-table entry, field by field. -/
theorem Memory.peek_ct (p : Config.Params) (m : Memory) (j f : Nat) (hf : f < p.ctStride) :
    m.peek p .ct (j * p.ctStride + f) =
      match f with
      | 0 => (bufGet m.ctSym j).map fun v => v.setWidth 32
      | 1 => bufGet m.ctLen j
      | w + 2 => bufGet m.ctBits (j * p.codeWords + w) := by
  obtain ⟨h1, h2⟩ := ct_index p j f hf
  simp only [Memory.peek, h1, h2]
  rcases f with _ | _ | w <;> rfl

/-- Storing a word of a code-table entry, field by field. -/
theorem Memory.poke_ct (p : Config.Params) (m : Memory) (j f : Nat) (v : Word) (hf : f < p.ctStride) :
    m.poke p .ct (j * p.ctStride + f) v =
      match f with
      | 0 => m.putCtSym p j (v.extractLsb' 0 21)
      | 1 => m.putCtLen p j v
      | w + 2 => m.putCtWord p j w v := by
  obtain ⟨h1, h2⟩ := ct_index p j f hf
  simp only [Memory.poke, h1, h2]
  rcases f with _ | _ | w <;> rfl

/-- A word stored into one space shows in no other. -/
theorem Memory.peek_poke_other (p : Config.Params) (m : Memory) (sp : Space) (idx : Nat) (v : Word) (sp' : Space) (idx' : Nat)
    (h : sp' ≠ sp) : (m.poke p sp idx v).peek p sp' idx' = m.peek p sp' idx' := by
  cases sp with
  | reg => rfl
  | text => simp only [Memory.poke]; rw [putText_frame]; cases sp' <;> first | exact absurd rfl h | rfl
  | bits => simp only [Memory.poke]; rw [putBit_frame]; cases sp' <;> first | exact absurd rfl h | rfl
  | bytes => simp only [Memory.poke]; rw [putByte_frame]; cases sp' <;> first | exact absurd rfl h | rfl
  | tok =>
    simp only [Memory.poke]
    split
    · rw [putTokDist_frame]; cases sp' <;> first | exact absurd rfl h | rfl
    · rw [putTokLen_frame]; cases sp' <;> first | exact absurd rfl h | rfl
    · rw [putTokLit_frame]; cases sp' <;> first | exact absurd rfl h | rfl
    · rfl
  | ct =>
    simp only [Memory.poke]
    split
    · rw [putCtSym_frame]; cases sp' <;> first | exact absurd rfl h | rfl
    · rw [putCtLen_frame]; cases sp' <;> first | exact absurd rfl h | rfl
    · rw [putCtWord_frame]; cases sp' <;> first | exact absurd rfl h | rfl

/-- A map over a conditional value. -/
theorem map_ite_some {α β : Type} (c : Prop) [Decidable c] (x : α) (o : Option α) (g : α → β) :
    (if c then some x else o).map g = if c then some (g x) else o.map g := by split <;> rfl

/-- Reading a word after storing one inside the space: the word stored, with the bits that exist there, at the index stored to; every other word of
every space as before. -/
theorem Memory.peek_poke (p : Config.Params) (m : Memory) (sp : Space) (idx : Nat) (v : Word) (sp' : Space) (idx' : Nat) (hsp : sp ≠ .reg)
    (hin : ∀ n, spaceWords p sp = some n → idx < n) :
    (m.poke p sp idx v).peek p sp' idx' =
      if sp' = sp ∧ idx' = idx then some (portMask p sp idx v) else m.peek p sp' idx' := by
  by_cases hs : sp' = sp
  swap
  · rw [if_neg (fun h => hs h.1), Memory.peek_poke_other _ _ _ _ _ _ _ hs]
  subst hs
  simp only [true_and]
  cases sp' with
  | reg => exact absurd rfl hsp
  | text =>
    have hi := hin _ rfl
    simp only [Memory.poke, Memory.peek, portMask, get_putText, map_ite_some]
    simp [hi]
  | bits =>
    have hi := hin _ rfl
    have hb : (BitVec.ofBool (v.getLsbD 0)).setWidth 32 = (v.extractLsb' 0 1).setWidth 32 := by
      congr 1; apply BitVec.eq_of_getLsbD_eq; intro i hi; simp [show i = 0 by omega]
    simp only [Memory.poke, Memory.peek, portMask, get_putBit, map_ite_some, ← hb]
    simp [hi]
  | bytes =>
    have hi := hin _ rfl
    simp only [Memory.poke, Memory.peek, portMask, get_putByte, map_ite_some]
    simp [hi]
  | tok =>
    have hd : idx / 4 < p.tMax := by have := hin _ rfl; omega
    by_cases he : idx' = idx
    · subst he
      rw [if_pos rfl]
      simp only [Memory.poke, Memory.peek, portMask]
      split <;> simp only [get_putTokDist, get_putTokLen, get_putTokLit, hd, and_self, if_true, Option.map_some]
    · rw [if_neg he]
      simp only [Memory.poke, Memory.peek]
      split <;> (try split) <;>
        first
        | rfl
        | (rw [get_putTokDist, if_neg (by omega)])
        | (rw [get_putTokLen, if_neg (by omega)])
        | (rw [get_putTokLit, if_neg (by omega)])
        | rw [putTokDist_frame]
        | rw [putTokLen_frame]
        | rw [putTokLit_frame]
  | ct =>
    have hi := hin _ rfl
    obtain ⟨j, f, hf, rfl⟩ := ct_split p idx
    obtain ⟨k, g, hg, rfl⟩ := ct_split p idx'
    have hd : j < p.kMax := by have := ct_entry_lt p _ hi; rwa [(ct_index p j f hf).1] at this
    have hcw : p.ctStride = 2 + p.codeWords := rfl
    rw [Memory.poke_ct _ _ _ _ _ hf, Memory.peek_ct _ _ _ _ hg, Memory.peek_ct _ _ _ _ hg]
    simp only [row_inj _ _ _ _ _ hg hf, portMask, (ct_index p j f hf).2]
    rcases f with _ | _ | w <;> rcases g with _ | _ | x <;>
      simp only [get_putCtSym, get_putCtLen, get_putCtWord, map_ite_some, hd, and_true, true_and, Nat.add_right_cancel_iff]
    · rw [putCtSym_frame]; simp
    · rw [putCtSym_frame]; simp
    · rw [putCtLen_frame]; simp
    · rw [putCtLen_frame]; simp
    · rw [putCtWord_frame]; simp
    · rw [putCtWord_frame]; simp
    · have hw : w < p.codeWords := by omega
      have hx : x < p.codeWords := by omega
      simp only [row_inj _ _ _ _ _ hx hw, hw, and_true]
      rfl

/-! A run of element writes touches one buffer. -/

theorem putSeq_putText_frame (p : Config.Params) (i : Nat) (xs : List Sym) (m : Memory) :
    putSeq (Memory.putText p) i xs m = { m with text := (putSeq (Memory.putText p) i xs m).text } := by
  induction xs generalizing i m with
  | nil => rfl
  | cons x xs ih => rw [putSeq_cons, ih, putText_frame]

theorem putSeq_putBit_frame (p : Config.Params) (i : Nat) (xs : List Bool) (m : Memory) :
    putSeq (Memory.putBit p) i xs m = { m with bits := (putSeq (Memory.putBit p) i xs m).bits } := by
  induction xs generalizing i m with
  | nil => rfl
  | cons x xs ih => rw [putSeq_cons, ih, putBit_frame]

theorem putSeq_putByte_frame (p : Config.Params) (i : Nat) (xs : List Byte) (m : Memory) :
    putSeq (Memory.putByte p) i xs m = { m with bytes := (putSeq (Memory.putByte p) i xs m).bytes } := by
  induction xs generalizing i m with
  | nil => rfl
  | cons x xs ih => rw [putSeq_cons, ih, putByte_frame]

theorem putSeq_putTok_frame (p : Config.Params) (i : Nat) (xs : List Token) (m : Memory) :
    putSeq (Memory.putTok p) i xs m =
      { m with tokDist := (putSeq (Memory.putTok p) i xs m).tokDist, tokLen := (putSeq (Memory.putTok p) i xs m).tokLen,
               tokLit := (putSeq (Memory.putTok p) i xs m).tokLit } := by
  induction xs generalizing i m with
  | nil => rfl
  | cons x xs ih => rw [putSeq_cons, ih, putTok_frame]

/-- Writing a whole code-table entry changes only the three code-table lists. -/
theorem putCt_frame (p : Config.Params) (i : Nat) (x : CtEntry) (m : Memory) :
    m.putCt p i x =
      { m with ctSym := (m.putCt p i x).ctSym, ctLen := (m.putCt p i x).ctLen, ctBits := (m.putCt p i x).ctBits } := by
  unfold Memory.putCt; rw [putCtWords_frame, putCtLen_frame, putCtSym_frame]

theorem putSeq_putCt_frame (p : Config.Params) (i : Nat) (xs : List CtEntry) (m : Memory) :
    putSeq (Memory.putCt p) i xs m =
      { m with ctSym := (putSeq (Memory.putCt p) i xs m).ctSym, ctLen := (putSeq (Memory.putCt p) i xs m).ctLen,
               ctBits := (putSeq (Memory.putCt p) i xs m).ctBits } := by
  induction xs generalizing i m with
  | nil => rfl
  | cons x xs ih => rw [putSeq_cons, ih, putCt_frame]

/-- What a run of symbols leaves at each index of `TEXT`. -/
theorem get_putSeq_text (p : Config.Params) (i : Nat) (xs : List Sym) (m : Memory) (j : Nat) :
    bufGet (putSeq (Memory.putText p) i xs m).text j =
      if i ≤ j ∧ j < i + xs.length ∧ j < p.nMax then xs[j - i]? else bufGet m.text j := by
  rw [bufGet_putSeq _ (·.text) id p.nMax (fun i x m j => get_putText p i x m j), Option.map_id_fun, id]

theorem get_putSeq_bits (p : Config.Params) (i : Nat) (xs : List Bool) (m : Memory) (j : Nat) :
    bufGet (putSeq (Memory.putBit p) i xs m).bits j =
      if i ≤ j ∧ j < i + xs.length ∧ j < p.bMax then xs[j - i]? else bufGet m.bits j := by
  rw [bufGet_putSeq _ (·.bits) id p.bMax (fun i x m j => get_putBit p i x m j), Option.map_id_fun, id]

theorem get_putSeq_bytes (p : Config.Params) (i : Nat) (xs : List Byte) (m : Memory) (j : Nat) :
    bufGet (putSeq (Memory.putByte p) i xs m).bytes j =
      if i ≤ j ∧ j < i + xs.length ∧ j < p.yMax then xs[j - i]? else bufGet m.bytes j := by
  rw [bufGet_putSeq _ (·.bytes) id p.yMax (fun i x m j => get_putByte p i x m j), Option.map_id_fun, id]

theorem get_putSeq_tokDist (p : Config.Params) (i : Nat) (xs : List Token) (m : Memory) (j : Nat) :
    bufGet (putSeq (Memory.putTok p) i xs m).tokDist j =
      if i ≤ j ∧ j < i + xs.length ∧ j < p.tMax then (xs[j - i]?).map (·.dist) else bufGet m.tokDist j :=
  bufGet_putSeq _ (·.tokDist) (·.dist) p.tMax (fun i x m j => get_putTok_dist p i x m j) ..

theorem get_putSeq_tokLen (p : Config.Params) (i : Nat) (xs : List Token) (m : Memory) (j : Nat) :
    bufGet (putSeq (Memory.putTok p) i xs m).tokLen j =
      if i ≤ j ∧ j < i + xs.length ∧ j < p.tMax then (xs[j - i]?).map (·.len) else bufGet m.tokLen j :=
  bufGet_putSeq _ (·.tokLen) (·.len) p.tMax (fun i x m j => get_putTok_len p i x m j) ..

theorem get_putSeq_tokLit (p : Config.Params) (i : Nat) (xs : List Token) (m : Memory) (j : Nat) :
    bufGet (putSeq (Memory.putTok p) i xs m).tokLit j =
      if i ≤ j ∧ j < i + xs.length ∧ j < p.tMax then (xs[j - i]?).map (fun t => ({ hasNext := t.hasNext, next := t.next } : Lit))
      else bufGet m.tokLit j :=
  bufGet_putSeq _ (·.tokLit) (fun t => ({ hasNext := t.hasNext, next := t.next } : Lit)) p.tMax (fun i x m j => get_putTok_lit p i x m j) ..

theorem get_putSeq_ctSym (p : Config.Params) (i : Nat) (xs : List CtEntry) (m : Memory) (j : Nat) :
    bufGet (putSeq (Memory.putCt p) i xs m).ctSym j =
      if i ≤ j ∧ j < i + xs.length ∧ j < p.kMax then (xs[j - i]?).map (·.sym) else bufGet m.ctSym j :=
  bufGet_putSeq _ (·.ctSym) (·.sym) p.kMax (fun i x m j => get_putCt_sym p i x m j) ..

theorem get_putSeq_ctLen (p : Config.Params) (i : Nat) (xs : List CtEntry) (m : Memory) (j : Nat) :
    bufGet (putSeq (Memory.putCt p) i xs m).ctLen j =
      if i ≤ j ∧ j < i + xs.length ∧ j < p.kMax then (xs[j - i]?).map (fun e => BitVec.ofNat 32 e.clen) else bufGet m.ctLen j :=
  bufGet_putSeq _ (·.ctLen) (fun e => BitVec.ofNat 32 e.clen) p.kMax (fun i x m j => get_putCt_len p i x m j) ..

/-- What a run of code-table entries leaves in word `w` of the code of entry `j`. -/
theorem get_putSeq_ctBits (p : Config.Params) (i : Nat) (xs : List CtEntry) (m : Memory) (j w : Nat) (hw : w < p.codeWords) :
    bufGet (putSeq (Memory.putCt p) i xs m).ctBits (j * p.codeWords + w) =
      if i ≤ j ∧ j < i + xs.length ∧ j < p.kMax then (xs[j - i]?).map (fun e => codeWordMask p w (codeWord e.cbits w))
      else bufGet m.ctBits (j * p.codeWords + w) := by
  have one : ∀ (i : Nat) (x : CtEntry) (m : Memory),
      bufGet (m.putCt p i x).ctBits (j * p.codeWords + w) =
        if j = i ∧ i < p.kMax then some (codeWordMask p w (codeWord x.cbits w)) else bufGet m.ctBits (j * p.codeWords + w) := by
    intro i x m
    rw [get_putCt_bits]
    by_cases hj : j = i
    · subst hj
      by_cases hk : j < p.kMax
      · rw [if_pos ⟨hk, by omega, by rw [Nat.add_mul, Nat.one_mul]; omega⟩, if_pos ⟨rfl, hk⟩, Nat.add_sub_cancel_left]
      · rw [if_neg (by omega), if_neg (by omega)]
    · rw [if_neg (show ¬ (j = i ∧ i < p.kMax) from fun h => hj h.1), if_neg]
      rintro ⟨-, h1, h2⟩
      obtain ⟨d, hd⟩ := Nat.exists_eq_add_of_le h1
      have hdl : d < p.codeWords := by rw [Nat.add_mul, Nat.one_mul] at h2; omega
      exact hj ((row_inj _ _ _ _ _ hw hdl).1 hd).1
  induction xs generalizing i m with
  | nil => rw [putSeq_nil, if_neg (by simp; omega)]
  | cons x xs ih =>
    rw [putSeq_cons, ih, one]
    by_cases hj : j = i
    · subst hj
      rw [if_neg (by omega)]
      by_cases hc : j < p.kMax
      · rw [if_pos ⟨rfl, hc⟩, if_pos ⟨le_refl _, by simp, hc⟩]; simp
      · rw [if_neg (by omega), if_neg (by omega)]
    · rw [if_neg (show ¬ (j = i ∧ i < p.kMax) from fun h => hj h.1)]
      by_cases hr : i + 1 ≤ j ∧ j < i + 1 + xs.length ∧ j < p.kMax
      · rw [if_pos hr, if_pos (by simp; omega)]
        obtain ⟨d, rfl⟩ := Nat.exists_eq_add_of_le hr.1
        rw [show i + 1 + d - (i + 1) = d by omega, show i + 1 + d - i = d + 1 by omega]; simp
      · rw [if_neg hr, if_neg (by simp; omega)]

/-! The two completions (60_exceptions.md R255, R256). -/

/-- Error completion makes every element of the command's output buffers unspecified and leaves the other buffers alone. -/
theorem peek_clearOutputs (p : Config.Params) (i : Instr) (m : Memory) (sp : Space) (idx : Nat) :
    (writesSpace i sp = false → (m.clearOutputs i).peek p sp idx = m.peek p sp idx) ∧
      (writesSpace i sp = true → (sp = .tok → idx % 4 ≠ 3) → (m.clearOutputs i).peek p sp idx = none) := by
  refine ⟨fun h => ?_, fun h ht => ?_⟩
  · cases i <;> cases sp <;> first | rfl | cases h
  · cases i <;> cases sp <;> first
      | rfl
      | (cases h; done)
      | (have := ht rfl
         rcases (by omega : idx % 4 = 0 ∨ idx % 4 = 1 ∨ idx % 4 = 2) with h | h | h <;>
           simp only [Memory.clearOutputs, Memory.peek, h, bufGet_nil, Option.map_none])
      | (simp only [Memory.clearOutputs, Memory.peek]; split <;> rfl)

/-- Everything error completion of a command does. -/
theorem raise_ends (i : Instr) (r : Raise) (s : State) : EndsInError i s (s.raise (some i) r) r.code r.info := by
  refine ⟨rfl, rfl, rfl, rfl, rfl, rfl, ?_, rfl, ⟨rfl, rfl, rfl, rfl, rfl, rfl, rfl, rfl, rfl, rfl, rfl, ?_, ?_⟩, ?_⟩
  · rintro rfl; rfl
  · intro h; simp [h]
  · exact fun sp idx h => (peek_clearOutputs s.cfg i s.mem sp idx).1 h
  · exact fun sp idx h => (peek_clearOutputs s.cfg i s.mem sp idx).2 h

/-- Everything success completion does, when the result was written by `f`, which touches no buffer but the command's outputs and no word
beyond the result. -/
theorem complete_ends (i : Instr) (s : State) (m : Memory) (n k : Nat)
    (h1 : ∀ sp idx, writesSpace i sp = false → m.peek s.cfg sp idx = s.mem.peek s.cfg sp idx)
    (h2 : ∀ sp idx, resultWords s.cfg n k sp ≤ idx → m.peek s.cfg sp idx = s.mem.peek s.cfg sp idx) :
    EndsWell i s ({ s with mem := m }.complete i n k) n k := by
  refine ⟨rfl, rfl, rfl, rfl, rfl, rfl, ?_, rfl, ⟨rfl, rfl, rfl, rfl, rfl, rfl, rfl, rfl, rfl, rfl, rfl, ?_, h1⟩, h2⟩
  · rintro rfl; rfl
  · intro h; simp [h]

/-- A run of symbols as a result. -/
theorem storeText_ends (i : Instr) (hi : writesSpace i .text = true) (s : State) (xs : List Sym) :
    EndsWell i s ((s.storeText xs).complete i xs.length 0) xs.length 0 := by
  refine complete_ends i s _ _ _ (fun sp idx h => ?_) (fun sp idx h => ?_) <;> rw [putSeq_putText_frame]
  · cases sp <;> first | rfl | (rw [hi] at h; cases h)
  · cases sp <;> first
      | rfl
      | (simp only [resultWords] at h; simp only [Memory.peek, get_putSeq_text]; rw [if_neg (by omega)])

theorem storeBits_ends (i : Instr) (hi : writesSpace i .bits = true) (s : State) (xs : List Bool) :
    EndsWell i s ((s.storeBits xs).complete i xs.length 0) xs.length 0 := by
  refine complete_ends i s _ _ _ (fun sp idx h => ?_) (fun sp idx h => ?_) <;> rw [putSeq_putBit_frame]
  · cases sp <;> first | rfl | (rw [hi] at h; cases h)
  · cases sp <;> first
      | rfl
      | (simp only [resultWords] at h; simp only [Memory.peek, get_putSeq_bits]; rw [if_neg (by omega)])

theorem storeBytes_ends (i : Instr) (hi : writesSpace i .bytes = true) (s : State) (xs : List Byte) :
    EndsWell i s ((s.storeBytes xs).complete i xs.length 0) xs.length 0 := by
  refine complete_ends i s _ _ _ (fun sp idx h => ?_) (fun sp idx h => ?_) <;> rw [putSeq_putByte_frame]
  · cases sp <;> first | rfl | (rw [hi] at h; cases h)
  · cases sp <;> first
      | rfl
      | (simp only [resultWords] at h; simp only [Memory.peek, get_putSeq_bytes]; rw [if_neg (by omega)])

/-- The token words after a run of tokens. -/
theorem peek_putSeq_tok (p : Config.Params) (xs : List Token) (m : Memory) (sp : Space) (idx : Nat) (h : sp = .tok → 4 * xs.length ≤ idx) :
    (putSeq (Memory.putTok p) 0 xs m).peek p sp idx = m.peek p sp idx := by
  rw [putSeq_putTok_frame]
  cases sp <;> first
    | rfl
    | (have := h rfl
       simp only [Memory.peek, get_putSeq_tokDist, get_putSeq_tokLen, get_putSeq_tokLit]
       rw [if_neg (by omega), if_neg (by omega), if_neg (by omega)])

theorem storeToks_ends (i : Instr) (hi : writesSpace i .tok = true) (s : State) (xs : List Token) :
    EndsWell i s ((s.storeToks xs).complete i xs.length 0) xs.length 0 := by
  refine complete_ends i s _ _ _ (fun sp idx h => peek_putSeq_tok _ _ _ _ _ ?_) (fun sp idx h => peek_putSeq_tok _ _ _ _ _ ?_)
  · rintro rfl; rw [hi] at h; cases h
  · rintro rfl; exact h

/-- The code-table words after a run of entries. -/
theorem peek_putSeq_ct (p : Config.Params) (xs : List CtEntry) (m : Memory) (sp : Space) (idx : Nat)
    (h : sp = .ct → p.ctStride * xs.length ≤ idx) : (putSeq (Memory.putCt p) 0 xs m).peek p sp idx = m.peek p sp idx := by
  by_cases hs : sp = .ct
  · subst hs
    have hidx := h rfl
    obtain ⟨j, f, hf, rfl⟩ := ct_split p idx
    have hj : ¬ (0 ≤ j ∧ j < 0 + xs.length ∧ j < p.kMax) := by
      rintro ⟨-, hlt, -⟩
      have := Nat.mul_le_mul_left p.ctStride (show j + 1 ≤ xs.length by omega)
      rw [Nat.mul_add, Nat.mul_one, Nat.mul_comm] at this
      omega
    have hcw : p.ctStride = 2 + p.codeWords := rfl
    rw [Memory.peek_ct _ _ _ _ hf, Memory.peek_ct _ _ _ _ hf]
    rcases f with _ | _ | w
    · simp only [get_putSeq_ctSym]; rw [if_neg hj]
    · simp only [get_putSeq_ctLen]; rw [if_neg hj]
    · simp only [get_putSeq_ctBits _ _ _ _ _ _ (show w < p.codeWords by omega)]; rw [if_neg hj]
  · rw [putSeq_putCt_frame]; cases sp <;> first | exact absurd rfl hs | rfl

/-- The bits and the code table of `HUF_ENC` as a result. -/
theorem storeHuf_ends (s : State) (cs : List CtEntry) (bs : List Bool) :
    EndsWell .hufEnc s (((s.storeCt cs).storeBits bs).complete .hufEnc bs.length cs.length) bs.length cs.length := by
  refine complete_ends .hufEnc s _ _ _ (fun sp idx h => ?_) (fun sp idx h => ?_)
  · simp only [State.storeCt]
    rw [putSeq_putBit_frame]
    cases sp with
    | bits => cases h
    | ct => cases h
    | reg => exact peek_putSeq_ct s.cfg cs s.mem .reg idx nofun
    | text => exact peek_putSeq_ct s.cfg cs s.mem .text idx nofun
    | bytes => exact peek_putSeq_ct s.cfg cs s.mem .bytes idx nofun
    | tok => exact peek_putSeq_ct s.cfg cs s.mem .tok idx nofun
  · simp only [State.storeCt]
    rw [putSeq_putBit_frame]
    cases sp with
    | bits => simp only [resultWords] at h; simp only [Memory.peek, get_putSeq_bits]; rw [if_neg (by omega), putSeq_putCt_frame]
    | ct => exact peek_putSeq_ct s.cfg cs s.mem .ct idx fun _ => h
    | reg => exact peek_putSeq_ct s.cfg cs s.mem .reg idx nofun
    | text => exact peek_putSeq_ct s.cfg cs s.mem .text idx nofun
    | bytes => exact peek_putSeq_ct s.cfg cs s.mem .bytes idx nofun
    | tok => exact peek_putSeq_ct s.cfg cs s.mem .tok idx nofun

/-! What the stored result reads as. -/

theorem storeText_holds (s : State) (xs : List Sym) (h : xs.length ≤ s.cfg.nMax) : bufHolds (s.storeText xs).mem.text xs := by
  intro j hj; rw [State.storeText_mem, get_putSeq_text, if_pos ⟨by omega, by omega, by omega⟩, Nat.sub_zero]

theorem storeBits_holds (s : State) (xs : List Bool) (h : xs.length ≤ s.cfg.bMax) : bufHolds (s.storeBits xs).mem.bits xs := by
  intro j hj; rw [State.storeBits_mem, get_putSeq_bits, if_pos ⟨by omega, by omega, by omega⟩, Nat.sub_zero]

theorem storeBytes_holds (s : State) (xs : List Byte) (h : xs.length ≤ s.cfg.yMax) : bufHolds (s.storeBytes xs).mem.bytes xs := by
  intro j hj; rw [State.storeBytes_mem, get_putSeq_bytes, if_pos ⟨by omega, by omega, by omega⟩, Nat.sub_zero]

theorem storeToks_holds (s : State) (xs : List Token) (h : xs.length ≤ s.cfg.tMax) : tokHolds (s.storeToks xs).mem xs := by
  refine ⟨fun j hj => ?_, fun j hj => ?_, fun j hj => ?_⟩ <;> rw [List.length_map] at hj <;> rw [State.storeToks_mem]
  · rw [get_putSeq_tokDist, if_pos ⟨by omega, by omega, by omega⟩, Nat.sub_zero, List.getElem?_map]
  · rw [get_putSeq_tokLen, if_pos ⟨by omega, by omega, by omega⟩, Nat.sub_zero, List.getElem?_map]
  · rw [get_putSeq_tokLit, if_pos ⟨by omega, by omega, by omega⟩, Nat.sub_zero, List.getElem?_map]

/-! The hidden tables and registers (10_state.md R36 to R40). -/

/-- A number below `2^32` is held as it is. -/
theorem wd_toNat (n : Nat) (h : n < 2 ^ 32) : (wd n).toNat = n := by rw [BitVec.toNat_ofNat, Nat.mod_eq_of_lt h]

/-- What an engine state within the sizes is. -/
theorem Engine.fits_iff (p : Config.Params) (e : Engine) :
    e.fits p = true ↔ e.ft.length ≤ p.kMax ∧ e.node.length ≤ nodeRoom p ∧ e.stk.length ≤ p.kMax ∧
      (∀ x ∈ e.stk, x.cbits < 2 ^ p.lMax) ∧ e.cand < 2 ^ p.lMax := by
  simp only [Engine.fits, Bool.and_eq_true, decide_eq_true_eq, List.all_eq_true, and_assoc]

/-- A cut engine state is within the sizes. -/
@[simp] theorem Engine.fit_fits (p : Config.Params) (e : Engine) : (e.fit p).fits p = true := by
  have h2 : 0 < 2 ^ p.lMax := Nat.two_pow_pos _
  refine (Engine.fits_iff p _).2 ⟨?_, ?_, ?_, ?_, Nat.mod_lt _ h2⟩
  · exact List.length_take_le ..
  · exact List.length_take_le ..
  · simp only [Engine.fit, List.length_map, List.length_drop]; omega
  · intro x hx
    obtain ⟨y, -, rfl⟩ := List.mem_map.1 hx
    exact Nat.mod_lt _ h2

/-- Cutting changes nothing of an engine state within the sizes. -/
theorem Engine.fit_of_fits (p : Config.Params) (e : Engine) (h : e.fits p = true) : e.fit p = e := by
  obtain ⟨h1, h2, h3, h4, h5⟩ := (Engine.fits_iff p e).1 h
  have hs : (e.stk.map (StkEntry.fit p)) = e.stk := by
    refine (List.map_congr_left fun x hx => ?_).trans (List.map_id _)
    show StkEntry.fit p x = x
    rw [StkEntry.fit, Nat.mod_eq_of_lt (h4 x hx)]
  rw [Engine.fit, List.take_of_length_le h1, List.take_of_length_le h2, Nat.sub_eq_zero_of_le h3, List.drop_zero, hs, Nat.mod_eq_of_lt h5]

@[simp] theorem Engine.zero_fits (p : Config.Params) : Engine.zero.fits p = true :=
  (Engine.fits_iff p _).2 ⟨Nat.zero_le _, Nat.zero_le _, Nat.zero_le _, nofun, Nat.two_pow_pos _⟩

@[simp] theorem State.freeHidden_fits (s : State) : s.freeHidden.fits s.cfg = true := Engine.fit_fits _ _

/-- Acceptance samples three registers and leaves the tables: it keeps the sizes. -/
theorem Engine.fits_sample (p : Config.Params) (e : Engine) (n k w : Word) : ({ e with n := n, k := k, w := w } : Engine).fits p = e.fits p := rfl

/-- There are at most `2^21` different symbols, so no table index and no code length reaches `2^32`. -/
theorem nodup_syms_length (xs : List Sym) (h : xs.Nodup) : xs.length ≤ 2 ^ 21 := by
  have hn : (xs.map BitVec.toFin).Nodup := h.map fun a b hab => BitVec.toFin_inj.1 hab
  simpa using hn.length_le_card

/-! The schedule. -/

/-- An empty schedule stays as it is. -/
theorem popSched_of_nil (s : State) (h : s.sched = []) : s.popSched = s := by
  obtain ⟨⟩ := s; cases h; rfl

/-- Everything the choice of the mover does. -/
theorem mover_eq (s : State) :
    s.mover = match s.sched with
      | a :: _ => a
      | [] => if s.busy && !s.rst then .core else .host := rfl

end Sys2Proof.Machine
end

