-- ==== Sys2Proof/Laws/Commands.lean ====
section
/-! SUPPORT. What each command's transform can answer: the error codes it can raise (60_exceptions.md R252) and the bound its result keeps
(00_scope.md R10). -/

namespace Sys2Proof.Machine

/-! The error codes. -/

theorem countLoop_code (kMax : Nat) (xs : List Sym) (i : Nat) (ft : List FtEntry) (r : Raise) (h : countLoop kMax i xs ft = .error r) :
    r.code = .capacityExceeded := by
  induction xs generalizing i ft with
  | nil => cases h
  | cons x xs ih =>
    unfold countLoop at h; split at h
    · rename_i he; cases h; unfold countSym at he; split at he
      · cases he
      · split at he <;> cases he; rfl
    · exact ih _ _ h

theorem emitLoop_code (bMax : Nat) (cs : List CtEntry) (xs : List Sym) (i : Nat) (out : List Bool) (r : Raise)
    (h : emitLoop bMax cs i xs out = .error r) : r.code = .capacityExceeded := by
  induction xs generalizing i out with
  | nil => cases h
  | cons x xs ih =>
    unfold emitLoop at h; split at h
    · exact ih _ _ h
    · split at h
      · cases h; rfl
      · exact ih _ _ h

/-- `HUF_ENC` raises nothing but `CapacityExceeded` after its prechecks. -/
theorem hufEncode_code (p : Config.Params) (xs : List Sym) (r : Raise) (h : hufEncode p xs = .error r) : r.code = .capacityExceeded := by
  unfold hufEncode at h; split at h
  · rename_i he; cases h; exact countLoop_code _ _ _ _ _ he
  · split at h
    · rename_i he; cases h; exact emitLoop_code _ _ _ _ _ _ he
    · cases h

theorem scanBit_code (nMax lMax : Nat) (tbl : List CtEntry) (i : Nat) (b : Bool) (c : Cand) (out : Nat) (r : Raise)
    (h : scanBit nMax lMax tbl i b c out = .stop r) : r.code = .capacityExceeded ∨ r.code = .malformedStream := by
  unfold scanBit at h; dsimp only at h; split at h
  · split at h <;> cases h; exact .inl rfl
  · split at h <;> cases h; exact .inr rfl

theorem scanLoop_code (nMax lMax : Nat) (tbl : List CtEntry) (bs : List Bool) (i : Nat) (c : Cand) (out : List Sym) (r : Raise)
    (h : scanLoop nMax lMax tbl i bs c out = .error r) : r.code = .capacityExceeded ∨ r.code = .malformedStream := by
  induction bs generalizing i c out with
  | nil => unfold scanLoop at h; split at h <;> cases h; exact .inr rfl
  | cons b bs ih =>
    unfold scanLoop at h; split at h
    · rename_i he; cases h; exact scanBit_code _ _ _ _ _ _ _ _ he
    · exact ih _ _ _ h
    · exact ih _ _ _ h

theorem hufDecode_code (p : Config.Params) (bs : List Bool) (tbl : List CtEntry) (r : Raise) (h : hufDecode p bs tbl = .error r) :
    r.code = .malformedCodeTable ∨ r.code = .capacityExceeded ∨ r.code = .malformedStream := by
  unfold hufDecode at h; split at h
  · cases h; exact .inl rfl
  · exact .inr (scanLoop_code _ _ _ _ _ _ _ _ h)

theorem lzLoop_code (tMax w : Nat) (xs : List Sym) (f p : Nat) (out : List Token) (r : Raise) (h : lzLoop tMax w xs f p out = .error r) :
    r.code = .capacityExceeded := by
  induction f generalizing p out with
  | zero => cases h
  | succ f ih =>
    unfold lzLoop at h; split at h
    · split at h
      · cases h; rfl
      · exact ih _ _ h
    · cases h

theorem lzDecLoop_code (nMax : Nat) (ts : List Token) (i : Nat) (out : List Sym) (r : Raise) (h : lzDecLoop nMax i ts out = .error r) :
    r.code = .capacityExceeded := by
  induction ts generalizing i out with
  | nil => cases h
  | cons t ts ih =>
    unfold lzDecLoop at h; split at h
    · cases h; rfl
    · split at h
      · cases h; rfl
      · exact ih _ _ h

theorem packLoop_code (yMax : Nat) (bs : List Bool) (i : Nat) (acc : BitVec 8) (accN : Nat) (out : List Byte) (r : Raise)
    (h : packLoop yMax i bs acc accN out = .error r) : r.code = .capacityExceeded := by
  induction bs generalizing i acc accN out with
  | nil => cases h
  | cons b bs ih =>
    unfold packLoop at h; split at h
    · rename_i he; cases h; unfold packBit at he; split at he
      · cases he; rfl
      · split at he <;> cases he
    · exact ih _ _ _ _ h
    · exact ih _ _ _ _ h

theorem unpackLoop_code (bMax : Nat) (ys : List Byte) (i : Nat) (out : List Bool) (r : Raise) (h : unpackLoop bMax i ys out = .error r) :
    r.code = .capacityExceeded := by
  induction ys generalizing i out with
  | nil => cases h
  | cons y ys ih =>
    unfold unpackLoop at h; split at h
    · cases h; rfl
    · exact ih _ _ h

theorem tokCheck_code (t : Token) (e : ErrCode) (h : tokCheck t = some e) : e = .encodingOverflow ∨ e = .invalidInput := by
  unfold tokCheck at h; split at h
  · cases h; exact .inl rfl
  · split at h
    · cases h; exact .inl rfl
    · split at h <;> cases h; exact .inr rfl

theorem packTok1_code (yMax i : Nat) (t : Token) (out : Nat) (r : Raise) (h : packTok1 yMax i t out = .error r) :
    r.code = .encodingOverflow ∨ r.code = .invalidInput ∨ r.code = .capacityExceeded := by
  unfold packTok1 at h; split at h
  · rename_i he; cases h; rcases tokCheck_code _ _ he with h | h
    · exact .inl h
    · exact .inr (.inl h)
  · split at h <;> cases h; exact .inr (.inr rfl)

theorem packTokLoop_code (yMax : Nat) (ts : List Token) (i : Nat) (out : List Byte) (r : Raise) (h : packTokLoop yMax i ts out = .error r) :
    r.code = .encodingOverflow ∨ r.code = .invalidInput ∨ r.code = .capacityExceeded := by
  induction ts generalizing i out with
  | nil => cases h
  | cons t ts ih =>
    unfold packTokLoop at h; split at h
    · rename_i he; cases h; exact packTok1_code _ _ _ _ _ he
    · exact ih _ _ h

theorem unpackTokLoop_code (tMax f : Nat) (ys : List Byte) (p : Nat) (out : List Token) (r : Raise)
    (h : unpackTokLoop tMax f p ys out = .error r) : r.code = .malformedTokenStream ∨ r.code = .capacityExceeded := by
  induction f generalizing p ys out with
  | zero => cases ys <;> (unfold unpackTokLoop at h; cases h)
  | succ f ih =>
    cases ys with
    | nil => unfold unpackTokLoop at h; cases h
    | cons y ys =>
      unfold unpackTokLoop at h; split at h
      · cases h; exact .inl rfl
      · split at h
        · cases h; exact .inr rfl
        · exact ih _ _ _ h

/-! The bounds of the results. -/

theorem ftBump_length (x : Sym) (ft ft' : List FtEntry) (h : ftBump x ft = some ft') : ft'.length = ft.length := by
  induction ft generalizing ft' with
  | nil => cases h
  | cons e r ih =>
    unfold ftBump at h; split at h
    · cases h; rfl
    · cases hr : ftBump x r with
      | none => rw [hr] at h; cases h
      | some r' => rw [hr] at h; cases h; simp [ih _ hr]

theorem countLoop_length (kMax : Nat) (xs : List Sym) (i : Nat) (ft ft' : List FtEntry) (hk : ft.length ≤ kMax)
    (h : countLoop kMax i xs ft = .ok ft') : ft'.length ≤ kMax := by
  induction xs generalizing i ft with
  | nil => cases h; exact hk
  | cons x xs ih =>
    unfold countLoop at h; split at h
    · cases h
    · rename_i he
      refine ih _ _ ?_ h
      unfold countSym at he; split at he
      · rename_i hb; cases he; rw [ftBump_length _ _ _ hb]; exact hk
      · split at he <;> cases he; simp; omega

theorem walkOnce_length (nodes : List Node) (e : StkEntry) (stk : List StkEntry) (codes : List CtEntry) :
    (walkOnce nodes e stk codes).2.length = codes.length := by
  unfold walkOnce; split
  · rfl
  · split <;> simp

theorem walkLoop_length (nodes : List Node) (f : Nat) (stk : List StkEntry) (codes : List CtEntry) :
    (walkLoop nodes f stk codes).length = codes.length := by
  induction f generalizing stk codes with
  | zero => rfl
  | succ f ih =>
    cases stk with
    | nil => rfl
    | cons e stk => unfold walkLoop; rw [ih, walkOnce_length]

/-- The code table has one entry per distinct symbol (41_huffman.md R140). -/
theorem deriveCodes_length (ft : List FtEntry) (nodes : List Node) : (deriveCodes ft nodes).length = ft.length := by
  unfold deriveCodes; split
  · rfl
  · rfl
  · rw [walkLoop_length]; simp [blankCodes]

theorem codeBits_length (e : CtEntry) : (codeBits e).length = e.clen := by simp [codeBits]

theorem emitLoop_length (bMax : Nat) (cs : List CtEntry) (xs : List Sym) (i : Nat) (out out' : List Bool) (hb : out.length ≤ bMax)
    (h : emitLoop bMax cs i xs out = .ok out') : out'.length ≤ bMax := by
  induction xs generalizing i out with
  | nil => cases h; exact hb
  | cons x xs ih =>
    unfold emitLoop at h; split at h
    · exact ih _ _ hb h
    · split at h
      · cases h
      · refine ih _ _ ?_ h; simp [codeBits_length]; omega

theorem hufEncode_length (p : Config.Params) (xs : List Sym) (o : HufOut) (h : hufEncode p xs = .ok o) :
    o.bits.length ≤ p.bMax ∧ o.codes.length ≤ p.kMax := by
  unfold hufEncode at h; split at h
  · cases h
  · rename_i hc
    split at h
    · cases h
    · rename_i he
      cases h
      exact ⟨emitLoop_length _ _ _ _ _ _ (by simp) he, by rw [deriveCodes_length]; exact countLoop_length _ _ _ _ _ (by simp) hc⟩

theorem scanLoop_length (nMax lMax : Nat) (tbl : List CtEntry) (bs : List Bool) (i : Nat) (c : Cand) (out out' : List Sym)
    (hn : out.length ≤ nMax) (h : scanLoop nMax lMax tbl i bs c out = .ok out') : out'.length ≤ nMax := by
  induction bs generalizing i c out with
  | nil => unfold scanLoop at h; split at h <;> cases h; exact hn
  | cons b bs ih =>
    unfold scanLoop at h; split at h
    · cases h
    · rename_i he
      refine ih _ _ _ ?_ h
      unfold scanBit at he; dsimp only at he; split at he
      · split at he <;> cases he; simp; omega
      · split at he <;> cases he
    · exact ih _ _ _ hn h

theorem hufDecode_length (p : Config.Params) (bs : List Bool) (tbl : List CtEntry) (xs : List Sym) (h : hufDecode p bs tbl = .ok xs) :
    xs.length ≤ p.nMax := by
  unfold hufDecode at h; split at h
  · cases h
  · exact scanLoop_length _ _ _ _ _ _ _ _ (by simp) h

theorem lzLoop_length (tMax w : Nat) (xs : List Sym) (f p : Nat) (out out' : List Token) (ht : out.length ≤ tMax)
    (h : lzLoop tMax w xs f p out = .ok out') : out'.length ≤ tMax := by
  induction f generalizing p out with
  | zero => cases h; exact ht
  | succ f ih =>
    unfold lzLoop at h; split at h
    · split at h
      · cases h
      · refine ih _ _ ?_ h; simp; omega
    · cases h; exact ht

theorem lzEncode_length (p : Config.Params) (w : Nat) (xs : List Sym) (ts : List Token) (h : lzEncode p w xs = .ok ts) :
    ts.length ≤ p.tMax := lzLoop_length _ _ _ _ _ _ _ (by simp) h

theorem copyLoop_length (nMax start l m : Nat) (out out' : List Sym) (hn : out.length ≤ nMax) (h : copyLoop nMax start l m out = some out') :
    out'.length ≤ nMax := by
  induction l generalizing m out with
  | zero => cases h; exact hn
  | succ l ih =>
    unfold copyLoop at h; split at h
    · cases h
    · refine ih _ _ ?_ h; simp; omega

theorem copyTok_length (nMax : Nat) (t : Token) (out out' : List Sym) (hn : out.length ≤ nMax) (h : copyTok nMax t out = some out') :
    out'.length ≤ nMax := by
  unfold copyTok at h; split at h
  · exact copyLoop_length _ _ _ _ _ _ hn h
  · cases h; exact hn

theorem litTok_length (nMax : Nat) (t : Token) (out out' : List Sym) (hn : out.length ≤ nMax) (h : litTok nMax t out = some out') :
    out'.length ≤ nMax := by
  unfold litTok at h; split at h
  · split at h <;> cases h; simp; omega
  · cases h; exact hn

theorem lzDecLoop_length (nMax : Nat) (ts : List Token) (i : Nat) (out out' : List Sym) (hn : out.length ≤ nMax)
    (h : lzDecLoop nMax i ts out = .ok out') : out'.length ≤ nMax := by
  induction ts generalizing i out with
  | nil => cases h; exact hn
  | cons t ts ih =>
    unfold lzDecLoop at h; split at h
    · cases h
    · rename_i hc
      split at h
      · cases h
      · rename_i hl; exact ih _ _ (litTok_length _ _ _ _ (copyTok_length _ _ _ _ hn hc) hl) h

theorem lzDecode_length (p : Config.Params) (ts : List Token) (xs : List Sym) (h : lzDecode p ts = .ok xs) : xs.length ≤ p.nMax :=
  lzDecLoop_length _ _ _ _ _ (by simp) h

theorem unpackLoop_length (bMax : Nat) (ys : List Byte) (i : Nat) (out out' : List Bool) (hb : out.length ≤ bMax)
    (h : unpackLoop bMax i ys out = .ok out') : out'.length ≤ bMax := by
  induction ys generalizing i out with
  | nil => cases h; exact hb
  | cons y ys ih =>
    unfold unpackLoop at h; split at h
    · cases h
    · refine ih _ _ ?_ h; simp [byteBits]; omega

theorem unpackBits_length (p : Config.Params) (ys : List Byte) (bs : List Bool) (h : unpackBits p ys = .ok bs) : bs.length ≤ p.bMax :=
  unpackLoop_length _ _ _ _ _ (by simp) h

theorem packLoop_length (yMax : Nat) (bs : List Bool) (i : Nat) (acc : BitVec 8) (accN : Nat) (out out' : List Byte)
    (hy : out.length + (if accN = 0 then 0 else 1) ≤ yMax) (hn : accN < 8) (h : packLoop yMax i bs acc accN out = .ok out') :
    out'.length ≤ yMax := by
  induction bs generalizing i acc accN out with
  | nil =>
    cases h
    rw [List.length_append]
    unfold packFlush
    split <;> split at hy <;> omega
  | cons b bs ih =>
    unfold packLoop at h; split at h
    · cases h
    · rename_i he
      refine ih _ _ _ _ ?_ (by omega) h
      unfold packBit at he; split at he
      · cases he
      · split at he <;> cases he
        simp; split at hy <;> omega
    · rename_i he
      unfold packBit at he; split at he
      · cases he
      · split at he <;> cases he
        refine ih _ _ _ _ ?_ (by omega) h
        simp; split at hy <;> omega

theorem packBits_length (p : Config.Params) (bs : List Bool) (ys : List Byte) (h : packBits p bs = .ok ys) : ys.length ≤ p.yMax :=
  packLoop_length _ _ _ _ _ _ _ (by simp) (by omega) h

theorem tokBytes_length (t : Token) : (tokBytes t).length = 4 + (litBytes t).length := by simp [tokBytes]; omega

theorem packTokLoop_length (yMax : Nat) (ts : List Token) (i : Nat) (out out' : List Byte) (hy : out.length ≤ yMax)
    (h : packTokLoop yMax i ts out = .ok out') : out'.length ≤ yMax := by
  induction ts generalizing i out with
  | nil => cases h; exact hy
  | cons t ts ih =>
    unfold packTokLoop at h; split at h
    · cases h
    · rename_i he
      refine ih _ _ ?_ h
      unfold packTok1 at he; split at he
      · cases he
      · split at he <;> cases he; rw [List.length_append, tokBytes_length]; omega

theorem packToks_length (p : Config.Params) (ts : List Token) (ys : List Byte) (h : packToks p ts = .ok ys) : ys.length ≤ p.yMax :=
  packTokLoop_length _ _ _ _ _ (by simp) h

theorem unpackTokLoop_length (tMax f : Nat) (ys : List Byte) (p : Nat) (out out' : List Token) (ht : out.length ≤ tMax)
    (h : unpackTokLoop tMax f p ys out = .ok out') : out'.length ≤ tMax := by
  induction f generalizing p ys out with
  | zero => cases ys <;> (unfold unpackTokLoop at h; cases h; exact ht)
  | succ f ih =>
    cases ys with
    | nil => unfold unpackTokLoop at h; cases h; exact ht
    | cons y ys =>
      unfold unpackTokLoop at h; split at h
      · cases h
      · split at h
        · cases h
        · refine ih _ _ _ ?_ h; simp; omega

theorem unpackToks_length (p : Config.Params) (ys : List Byte) (ts : List Token) (h : unpackToks p ys = .ok ts) : ts.length ≤ p.tMax :=
  unpackTokLoop_length _ _ _ _ _ _ (by simp) h

end Sys2Proof.Machine
end

