-- ==== Sys2Proof/Laws/PerInstr.lean ====
section
/-! SUPPORT. Statements about every command as syntax, one lemma per constructor of Instr. -/

namespace Sys2Proof.Laws

/-- A command's word is legal (30_encoding.md R92), its opcode is its own, and its first phase belongs to it and to no other command. -/
def Command.Statement (i : Instr) : Prop :=
  i.wf = true ∧ opcodeInstr i.opcode = some i ∧ (Machine.firstPhase i).owner = some i

theorem Command.hufEnc : Command.Statement .hufEnc := ⟨rfl, rfl, rfl⟩
theorem Command.hufDec : Command.Statement .hufDec := ⟨rfl, rfl, rfl⟩
theorem Command.lzEnc : Command.Statement .lzEnc := ⟨rfl, rfl, rfl⟩
theorem Command.lzDec : Command.Statement .lzDec := ⟨rfl, rfl, rfl⟩
theorem Command.packBits : Command.Statement .packBits := ⟨rfl, rfl, rfl⟩
theorem Command.unpackBits : Command.Statement .unpackBits := ⟨rfl, rfl, rfl⟩
theorem Command.packTok : Command.Statement .packTok := ⟨rfl, rfl, rfl⟩
theorem Command.unpackTok : Command.Statement .unpackTok := ⟨rfl, rfl, rfl⟩

end Sys2Proof.Laws
end

