-- ==== Sys2Proof/Tests/Slice0.lean ====
section
/-! SUPPORT. Our own tests: the checks of WellFormed refuse ill-formed terms, command words written out from 30_encoding.md R90 and R91 decode to
their commands, one-step tests with the expected values of 95_test_vectors.md, and for every statement with hypotheses a concrete state that
meets them. -/

namespace Sys2Proof.Tests

open Sys2Proof.Machine

/-! ## WellFormed refuses -/

theorem test_opcode_zero_refused : CmdFields.opcodeOk { opcode := 0#4, zero := 0#28 } = false := by decide
theorem test_opcode_nine_refused : CmdFields.opcodeOk { opcode := 9#4, zero := 0#28 } = false := by decide
theorem test_nonzero_upper_bits_refused : CmdFields.zeroOk { opcode := 1#4, zero := 1#28 } = false := by decide
theorem test_fields_wf_needs_opcode : CmdFields.wf { opcode := 15#4, zero := 0#28 } = false := by decide
theorem test_fields_wf_needs_zero : CmdFields.wf { opcode := 8#4, zero := 0x8000000#28 } = false := by decide
theorem test_capacity_zero_refused : Config.capOk 0 = false := by decide
theorem test_capacity_too_large_refused : Config.capOk (2 ^ 32) = false := by decide
theorem test_params_refused :
    Config.Params.wf { nMax := 1, kMax := 0, bMax := 1, yMax := 1, tMax := 1 } = false := by decide
theorem test_ref_accepted : Config.ref.wf = true := by decide
theorem test_derived_ref : Config.ref.lMax = 255 ∧ Config.ref.nodeMax = 511 ∧ Config.ref.ctStride = 10 := by decide

/-! ## Decoding: bits 31:4 zero, the opcode in bits 3:0 (R90, R91) -/

theorem test_decode_hufEnc : decode 0b00000000000000000000000000000001#32 = .ok .hufEnc := by decide
theorem test_decode_hufDec : decode 0b00000000000000000000000000000010#32 = .ok .hufDec := by decide
theorem test_decode_lzEnc : decode 0b00000000000000000000000000000011#32 = .ok .lzEnc := by decide
theorem test_decode_lzDec : decode 0b00000000000000000000000000000100#32 = .ok .lzDec := by decide
theorem test_decode_packBits : decode 0b00000000000000000000000000000101#32 = .ok .packBits := by decide
theorem test_decode_unpackBits : decode 0b00000000000000000000000000000110#32 = .ok .unpackBits := by decide
theorem test_decode_packTok : decode 0b00000000000000000000000000000111#32 = .ok .packTok := by decide
theorem test_decode_unpackTok : decode 0b00000000000000000000000000001000#32 = .ok .unpackTok := by decide
theorem test_decode_zero_refused : decode 0x00000000#32 = .error .reservedOpcode := by decide
theorem test_decode_nine_refused : decode 0x00000009#32 = .error .reservedOpcode := by decide
theorem test_decode_high_bits_refused : decode 0x80000001#32 = .error .nonzeroBits := by decide
theorem test_table_word : decodeTableWord 32 3 = some .lzEnc ∧ decodeTableWord 32 0x103 = none := by decide

/-! ## A small machine -/

/-- Small capacities: `L_MAX = 4`, one word for a code, `CT_STRIDE = 3`. -/
def caps : Config.Params := { nMax := 12, kMax := 5, bMax := 16, yMax := 20, tMax := 6 }

/-- A buffer that holds a sequence from element 0 on. -/
def cells {α : Type} (xs : List α) : List (Nat × α) := xs.zipIdx.map fun e => (e.2, e.1)

/-- Buffers with the given contents. -/
def mem (text : List Sym) (bits : List Bool) (bytes : List Byte) (toks : List Token) (ct : List CtEntry) : Memory :=
  { text := cells text, bits := cells bits, bytes := cells bytes, tokDist := cells (toks.map (·.dist)), tokLen := cells (toks.map (·.len)),
    tokLit := cells (toks.map fun t => { hasNext := t.hasNext, next := t.next }), ctSym := cells (ct.map (·.sym)),
    ctLen := cells (ct.map fun e => BitVec.ofNat 32 e.clen), ctBits := cells (ct.map fun e => BitVec.ofNat 32 e.cbits) }

/-- An idle machine. -/
def idle (m : Memory) (n k w : Nat) : State :=
  { State.reset with cfg := caps, mem := m, inLen := BitVec.ofNat 32 n, ctLen := BitVec.ofNat 32 k, window := BitVec.ofNat 32 w }

/-- The machine with the command `i` accepted. -/
def ready (i : Instr) (m : Memory) (n k w : Nat) : State := (idle m n k w).accept (encode i)

/-- The state a command leaves. -/
def res (i : Instr) (s : State) : State :=
  match exec i s with
  | .next t => t
  | _ => s

theorem exec_res (i : Instr) (s : State) : exec i s = .next (res i s) := by
  unfold res
  cases i <;>
    simp only [exec, execHufEnc, execHufDec, execLzEnc, execLzDec, execPackBits, execUnpackBits, execPackTok, execUnpackTok] <;>
    (repeat' split) <;> simp_all

/-- Symbols of a list of code points. -/
def syms (xs : List Nat) : List Sym := xs.map fun x => BitVec.ofNat 21 x

/-- A token with a literal, and one without. -/
def tokL (d l c : Nat) : Token := { dist := BitVec.ofNat 32 d, len := BitVec.ofNat 32 l, hasNext := true, next := BitVec.ofNat 21 c }
def tokN (d l : Nat) : Token := { dist := BitVec.ofNat 32 d, len := BitVec.ofNat 32 l, hasNext := false, next := 0#21 }

/-! ## One step of each command, expected values from 95_test_vectors.md -/

def hello : State := ready .hufEnc (mem (syms [0x68, 0x65, 0x6C, 0x6C, 0x6F]) [] [] [] []) 5 0 128

/-- Vector H1: the code table of "hello" and its ten bits. -/
theorem test_hufEnc_hello :
    (res .hufEnc hello).outLen = 10#32 ∧
      (res .hufEnc hello).mem.ctBits = [(0, 0b10#32), (1, 0b110#32), (2, 0b0#32), (3, 0b111#32)] ∧
      (res .hufEnc hello).mem.bits.map (·.2) = [true, false, true, true, false, false, false, true, true, true] := by decide

/-- Vector H8: ties go to the largest index, and of two equal picks the smaller index goes left. -/
theorem test_hufEnc_ties :
    (res .hufEnc (ready .hufEnc (mem (syms [0x61, 0x62, 0x63, 0x64]) [] [] [] []) 4 0 128)).mem.ctBits =
      [(0, 0b10#32), (1, 0b11#32), (2, 0b00#32), (3, 0b01#32)] := by decide

/-- The code table of the source's own fixture (S1). -/
def fixture : List CtEntry :=
  [{ sym := 0x6F#21, clen := 3, cbits := 7 }, { sym := 0x65#21, clen := 3, cbits := 6 }, { sym := 0x68#21, clen := 2, cbits := 2 },
   { sym := 0x6C#21, clen := 1, cbits := 0 }]

/-- Vectors HD1 and S1. -/
theorem test_hufDec_fixture :
    (res .hufDec (ready .hufDec (mem [] [true, false, true, true, false, false, false, true, true, true] [] [] fixture) 10 4 128)).mem.text =
      cells (syms [0x68, 0x65, 0x6C, 0x6C, 0x6F]) := by decide

/-- Vector HD4: the unmatched candidate began at bit 7. -/
theorem test_hufDec_unmatched_tail :
    (res .hufDec (ready .hufDec (mem [] [true, false, true, true, false, false, false, true, true] [] [] fixture) 9 4 128)).statusWord =
        0x00000234#32 ∧
      (res .hufDec (ready .hufDec (mem [] [true, false, true, true, false, false, false, true, true] [] [] fixture) 9 4 128)).errInfo = 7#32 := by
  decide

/-- Vector L24: at position 6 the distances 3 and 6 tie, and the smaller is kept. -/
theorem test_lzEnc_tie :
    (res .lzEnc (ready .lzEnc (mem (syms [0x61, 0x62, 0x78, 0x61, 0x62, 0x79, 0x61, 0x62, 0x7A]) [] [] [] []) 9 0 128)).mem.tokDist =
      cells [0#32, 0#32, 0#32, 3#32, 3#32] := by decide

/-- Vector L8: a match at a distance equal to the window is taken, and a match that ends the input has no literal. -/
theorem test_lzEnc_window_boundary :
    (res .lzEnc (ready .lzEnc (mem (syms [0x61, 0x62, 0x63, 0x64, 0x61, 0x62, 0x63]) [] [] [] []) 7 0 4)).toksIn 5 =
      [tokL 0 0 0x61, tokL 0 0 0x62, tokL 0 0 0x63, tokL 0 0 0x64, tokN 4 3] := by decide

/-- Vector Z2: a distance beyond the output is clamped. -/
theorem test_lzDec_clamp :
    (res .lzDec (ready .lzDec (mem [] [] [] [tokL 0 0 0x78, tokL 5 2 0x79] []) 2 0 128)).mem.text =
      cells (syms [0x78, 0x78, 0x78, 0x79]) := by decide

/-- Vector Z7: an overlapping copy reads what it has just appended. -/
theorem test_lzDec_overlap :
    (res .lzDec (ready .lzDec (mem [] [] [] [tokL 0 0 0x61, tokL 0 0 0x62, tokN 2 5] []) 3 0 128)).mem.text =
      cells (syms [0x61, 0x62, 0x61, 0x62, 0x61, 0x62, 0x61]) := by decide

/-- Vector B5: ten bits pack to two bytes, most significant bit first, zero padded. -/
theorem test_packBits_padded :
    (res .packBits (ready .packBits (mem [] [true, false, true, true, false, false, false, true, true, true] [] [] []) 10 0 128)).mem.bytes =
      [(0, 0xB1#8), (1, 0xC0#8)] := by decide

/-- Vector B5, the way back: a multiple of eight bits. -/
theorem test_unpackBits_padded :
    (res .unpackBits (ready .unpackBits (mem [] [] [0xB1#8, 0xC0#8] [] []) 2 0 128)).mem.bits =
      cells [true, false, true, true, false, false, false, true, true, true, false, false, false, false, false, false] := by decide

/-- Vector T4: the distance is big-endian. -/
theorem test_packTok_big_endian :
    (res .packTok (ready .packTok (mem [] [] [] [tokL 258 255 0x7A] []) 1 0 128)).mem.bytes =
      cells [0x01#8, 0x02#8, 0xFF#8, 0x7A#8, 0x00#8] := by decide

/-- Vector T8: the distance check comes first, at token 1. -/
theorem test_packTok_check_order :
    (res .packTok (ready .packTok (mem [] [] [] [tokL 0 0 0x61, tokL 70000 300 0xD800] []) 2 0 128)).statusWord = 0x00000744#32 ∧
      (res .packTok (ready .packTok (mem [] [] [] [tokL 0 0 0x61, tokL 70000 300 0xD800] []) 2 0 128)).errInfo = 1#32 := by decide

/-- Vector UT2. -/
theorem test_unpackTok_two_tokens :
    (res .unpackTok (ready .unpackTok
      (mem [] [] [0x00#8, 0x00#8, 0x00#8, 0x61#8, 0x00#8, 0x00#8, 0x01#8, 0x03#8, 0x00#8] [] []) 9 0 128)).toksIn 2 =
      [tokL 0 0 0x61, tokN 1 3] := by decide

/-- Vector UT6: a header without its delimiter. -/
theorem test_unpackTok_no_delimiter :
    (res .unpackTok (ready .unpackTok (mem [] [] [0x00#8, 0x01#8, 0x02#8] [] []) 3 0 128)).statusWord = 0x00000884#32 := by decide

/-- The four forms of the text encoding at their boundaries (vector T13). -/
theorem test_utf8_boundaries :
    (syms [0x7F, 0x80, 0x7FF, 0x800, 0xFFFF, 0x10000, 0x10FFFF]).map utf8Enc =
      [[0x7F#8], [0xC2#8, 0x80#8], [0xDF#8, 0xBF#8], [0xE0#8, 0xA0#8, 0x80#8], [0xEF#8, 0xBF#8, 0xBF#8], [0xF0#8, 0x90#8, 0x80#8, 0x80#8],
       [0xF4#8, 0x8F#8, 0xBF#8, 0xBF#8]] := by decide

/-- An overlong form, a surrogate and a byte sequence cut short are no encodings (30_encoding.md R101). -/
theorem test_utf8_ill_formed :
    utf8Dec [0xC0#8, 0x80#8] = none ∧ utf8Dec [0xED#8, 0xA0#8, 0x80#8] = none ∧ utf8Dec [0xE2#8, 0x82#8] = none ∧
      utf8Dec [0xF4#8, 0x90#8, 0x80#8, 0x80#8] = none := by decide

/-- A reset asserted during a command is released by the host's next move (70_reset_and_hazards.md R290): STATUS is 0 and nothing runs. -/
theorem test_reset_during_command :
    (match step { ready .packBits Memory.empty 0 0 128 with rst := true, script := [.releaseReset] } with
      | .next t => (t.statusWord, t.rst)
      | _ => (1#32, true)) = (0#32, false) := by decide

/-- The command word placed for the first step after reset runs in that step: PACK_BITS of nothing (R214), DONE with LASTOP 5. -/
theorem test_first_step_after_reset :
    (match step (State.reset.withFetchWord 32 5) with
      | .next t => t.statusWord
      | _ => 0#32) = 0x00000502#32 := by decide

/-! ## Witnesses: for every statement with hypotheses, concrete operands that meet all of them together -/

def noMem : Memory := Memory.empty

/-- A machine that is running PACK_BITS. -/
def busyOne : State := ready .packBits noMem 0 0 128

theorem witness_IllegalWordIsAcceptedAndFails :
    State.reset.rst = false ∧ State.reset.busy = false ∧ ((0#32 : Word).extractLsb' 0 4).toNat = 0 ∧
      9 ≤ ((9#32 : Word).extractLsb' 0 4).toNat ∧ (0x11#32 : Word).extractLsb' 4 28 ≠ 0#28 := by decide

theorem witness_AcceptanceEffect :
    State.reset.busy = false ∧ State.reset.rst = false ∧ decode 8#32 = .ok .unpackTok ∧ decode 0#32 = .error .reservedOpcode := by decide

theorem witness_StepRunsAcceptedCommand :
    busyOne.rst = false ∧ busyOne.mover = .core ∧ busyOne.op = Instr.packBits.opcode ∧ busyOne.phase = firstPhase .packBits := by decide

/-- A host about to write a command word, and a busy machine whose schedule gives its host, which waits, the next move. -/
theorem witness_HostCommandRuns :
    let s := { State.reset with script := [.write .reg 0 3#32, .wait] }
    let u := { busyOne with sched := [.host], script := [.wait] }
    u.mover = .host ∧ u.rst = false ∧ u.busy = true ∧ s.mover = .host ∧ s.rst = false ∧ s.busy = false ∧ s.sched = [] ∧ s.script = .write .reg 0 3#32 :: [.wait] ∧ decode 3#32 = .ok .lzEnc := by decide

theorem busyOne_inv : busyOne.Inv := by decide

theorem witness_StepKeepsInvariant : ∃ t, busyOne.Inv ∧ step busyOne = .next t := ⟨_, busyOne_inv, rfl⟩

theorem witness_SoftResetEffect :
    (2#32 : Word).getLsbD 1 = true ∧ State.reset.busy = false ∧ busyOne.busy = true ∧ busyOne.phase.owner = some .packBits ∧
      writesSpace .packBits .bits = false ∧ writesSpace .packBits .bytes = true ∧ (State.reset.accept 9#32).busy = true ∧
      (State.reset.accept 9#32).phase.owner = none := by decide

/-- The reset input asserted during a command: its release is the host's next move. -/
theorem witness_ResetInputEffect :
    let s := { busyOne with rst := true, script := [.releaseReset] }
    s.rst = true ∧ s.busy = true ∧ s.sched = [] ∧ s.script = .releaseReset :: [] ∧ s.mover = .host := by decide

theorem witness_BusyInterlock :
    busyOne.busy = true ∧ (idle (mem (syms [7]) [] [] [] []) 0 0 1).busy = false ∧ inRange caps .text 0 = true ∧ inRange caps .text 11 = true ∧
      (idle (mem (syms [7]) [] [] [] []) 0 0 1).word .text 0 = some 7#32 ∧ (idle (mem (syms [7]) [] [] [] []) 0 0 1).word .text 11 = none ∧
      (1#32 : Word).getLsbD 1 = false ∧ (2#32 : Word).getLsbD 1 = true := by decide

/-- The first index outside each space. -/
theorem witness_OutOfRangeAndNonWordAccesses :
    caps.nMax ≤ 12 ∧ caps.bMax ≤ 16 ∧ caps.yMax ≤ 20 ∧ 4 * caps.tMax ≤ 24 ∧ caps.ctStride * caps.kMax ≤ 15 ∧
      (idle noMem 0 0 1).rst = false := by decide

/-- The first and the last index inside each space. -/
theorem witness_element_words :
    (idle noMem 0 0 1).busy = false ∧ 0 < caps.nMax ∧ 11 < caps.nMax ∧ 15 < caps.bMax ∧ 19 < caps.yMax ∧ 5 < caps.tMax ∧ 4 < caps.kMax ∧
      0 < caps.codeWords ∧ bufGet (mem (syms [7]) [true] [9#8] [] []).text 0 = some 7#21 ∧
      bufGet (mem (syms [7]) [true] [9#8] [] []).bits 0 = some true ∧ bufGet (mem (syms [7]) [true] [9#8] [] []).bytes 0 = some 9#8 := by decide

theorem witness_SpacesDoNotAlias :
    (idle noMem 0 0 1).busy = false ∧ Space.text ≠ .reg ∧ (Space.text, 0) ≠ (Space.bits, 0) ∧ (Space.text, 0) ≠ (Space.text, 1) := by decide

theorem witness_InterruptFollowsCompletion :
    busyOne.Inv ∧ busyOne.busy = true ∧ State.reset.busy = false ∧ exec .packBits busyOne = .next (res .packBits busyOne) :=
  ⟨busyOne_inv, rfl, rfl, exec_res _ _⟩

theorem witness_CommandEndsInOneOfTwoWays : busyOne.cfg.wf = true ∧ Accepted .packBits busyOne := by decide

theorem witness_CommandLeavesTheRestAlone : exec .hufEnc hello = .next (res .hufEnc hello) := exec_res _ _

/-- Two accepted states that differ in a register, an output buffer and the hidden state. -/
theorem witness_ResultDependsOnInputsOnly :
    let u := { hello with irqEn := true, mem := { hello.mem with bits := [(3, true)] }, eng := { hello.eng with out := 9 } }
    hello.cfg.wf = true ∧ u.cfg = hello.cfg ∧ u.eng.n = hello.eng.n ∧ u.textIn hello.nIn = hello.textIn hello.nIn ∧ Accepted .hufEnc hello ∧
      Accepted .hufEnc u := by decide

/-- An input one longer than each buffer; WINDOW = 0. -/
theorem witness_PrechecksOfEveryCommand :
    caps.nMax < (ready .hufEnc noMem 13 0 1).nIn ∧ caps.bMax < (ready .hufDec noMem 17 0 1).nIn ∧ (ready .lzEnc noMem 13 0 0).wIn = 0 ∧
      caps.nMax < (ready .lzEnc noMem 13 0 1).nIn ∧ (ready .lzEnc noMem 13 0 1).wIn ≠ 0 ∧ caps.tMax < (ready .lzDec noMem 7 0 1).nIn ∧
      caps.bMax < (ready .packBits noMem 17 0 1).nIn ∧ caps.yMax < (ready .unpackBits noMem 21 0 1).nIn ∧
      caps.tMax < (ready .packTok noMem 7 0 1).nIn ∧ caps.yMax < (ready .unpackTok noMem 21 0 1).nIn := by decide


/-! Binary Packing. -/

def tenBits : State := ready .packBits (mem [] [true, false, true, true, false, false, false, true, true, true] [] [] []) 10 0 128

theorem witness_PackBitsResult : tenBits.nIn ≤ tenBits.cfg.bMax ∧ ceilDiv tenBits.nIn 8 ≤ tenBits.cfg.yMax := by decide

/-- Seventeen bits for two bytes; three bytes for sixteen bits. -/
theorem witness_BitPackingCapacity :
    let s := { ready .packBits noMem 17 0 1 with cfg := { caps with bMax := 17, yMax := 2 } }
    let u := ready .unpackBits noMem 3 0 1
    (s.nIn ≤ s.cfg.bMax ∧ s.cfg.yMax < ceilDiv s.nIn 8) ∧ u.nIn ≤ u.cfg.yMax ∧ u.cfg.bMax < 8 * u.nIn := by decide

theorem witness_UnpackBitsResult :
    (ready .unpackBits noMem 2 0 1).nIn ≤ caps.yMax ∧ 8 * (ready .unpackBits noMem 2 0 1).nIn ≤ caps.bMax := by decide

theorem witness_PackUnpackBitsRoundTrip :
    tenBits.cfg.wf = true ∧ tenBits.err = false ∧ exec .packBits tenBits = .next (res .packBits tenBits) ∧ (res .packBits tenBits).err = false ∧
      8 * ceilDiv tenBits.nIn 8 ≤ tenBits.cfg.bMax := ⟨by decide, by decide, exec_res _ _, by decide, by decide⟩

theorem witness_Utf8DecodesExactlyItsEncodings : isScalar 0x20AC#21 = true ∧ isScalar 0#21 = true := by decide

def twoToks : State := ready .packTok (mem [] [] [] [tokL 258 255 0x20AC, tokN 1 3] []) 2 0 128

theorem packable_two : ∀ tk ∈ twoToks.toksIn twoToks.nIn, packable tk := by unfold packable; decide

theorem witness_PackTokResult :
    twoToks.nIn ≤ twoToks.cfg.tMax ∧ (∀ tk ∈ twoToks.toksIn twoToks.nIn, packable tk) ∧
      ((twoToks.toksIn twoToks.nIn).flatMap tokenStreamBytes).length ≤ twoToks.cfg.yMax := ⟨by decide, packable_two, by decide⟩

/-- One state for each of the three checks; token 1 is the one that fails. -/
theorem witness_PackTokFirstBadToken :
    let s := ready .packTok (mem [] [] [] [tokN 0 0, tokN 0x10000 0] []) 2 0 1
    let u := ready .packTok (mem [] [] [] [tokN 0 0, tokL 0xFFFF 0xFF 0xD800] []) 2 0 1
    let v := { ready .packTok (mem [] [] [] [tokN 0 0, tokL 0xFFFF 0xFF 0x61] []) 2 0 1 with cfg := { caps with yMax := 8 } }
    (s.nIn ≤ s.cfg.tMax ∧ (s.toksIn s.nIn)[1]? = some (tokN 0x10000 0) ∧ ((s.toksIn s.nIn).take 1).all (fun tk => decide (tk = tokN 0 0)) = true ∧
        packable (tokN 0 0) ∧ (((s.toksIn s.nIn).take 1).flatMap tokenStreamBytes).length ≤ s.cfg.yMax ∧
        0xFFFF < (tokN 0x10000 0).dist.toNat) ∧
      ((u.toksIn u.nIn)[1]? = some (tokL 0xFFFF 0xFF 0xD800) ∧ isScalar (tokL 0xFFFF 0xFF 0xD800).next = false) ∧
      ((v.toksIn v.nIn)[1]? = some (tokL 0xFFFF 0xFF 0x61) ∧ packable (tokL 0xFFFF 0xFF 0x61) ∧
        (((v.toksIn v.nIn).take 1).flatMap tokenStreamBytes).length ≤ v.cfg.yMax ∧
        v.cfg.yMax < (((v.toksIn v.nIn).take 2).flatMap tokenStreamBytes).length) := by
  unfold packable; decide

/-- The bytes of one token with a literal, and then `rest`. -/
def stream (rest : List Byte) : State :=
  ready .unpackTok (mem [] [] ([0x01#8, 0x02#8, 0xFF#8, 0x61#8, 0x00#8] ++ rest) [] []) (5 + rest.length) 0 1

theorem packable_one : ∀ tk ∈ [tokL 258 255 0x61], packable tk ∧ (tk.hasNext = true → tk.next ≠ 0#21) := by unfold packable; decide

theorem witness_UnpackTokResult :
    (stream []).nIn ≤ (stream []).cfg.yMax ∧ (stream []).bytesIn (stream []).nIn = [tokL 258 255 0x61].flatMap tokenStreamBytes ∧
      (∀ tk ∈ [tokL 258 255 0x61], packable tk ∧ (tk.hasNext = true → tk.next ≠ 0#21)) ∧
      [tokL 258 255 0x61].length ≤ (stream []).cfg.tMax := ⟨by decide, by decide, packable_one, by decide⟩

theorem bad_literal : ∀ c : Sym, isScalar c = true → utf8Enc c ≠ [0x80#8] := by
  intro c _ h
  unfold utf8Enc at h
  split at h
  · have h7 : (0b0#1 ++ c.extractLsb' 0 7).getLsbD 7 = false := by rw [BitVec.getLsbD_append]; simp
    rw [List.cons.inj h |>.1] at h7; exact absurd h7 (by decide)
  · split at h
    · simp at h
    · split at h <;> simp at h

/-- A header cut short, no delimiter, and an ill-formed literal. -/
theorem witness_UnpackTokFirstBadToken :
    (let s := stream [0x00#8, 0x00#8]
     s.nIn ≤ s.cfg.yMax ∧ s.bytesIn s.nIn = [tokL 258 255 0x61].flatMap tokenStreamBytes ++ [0x00#8, 0x00#8] ∧ [0x00#8, 0x00#8].length < 3) ∧
      (let s := stream [0x00#8, 0x00#8, 0x00#8, 0x61#8]
       s.bytesIn s.nIn = [tokL 258 255 0x61].flatMap tokenStreamBytes ++ [0x00#8, 0x00#8, 0x00#8, 0x61#8] ∧
         (0x00#8 : Byte) ∉ [0x00#8, 0x00#8, 0x00#8, 0x61#8].drop 3) ∧
      (let s := stream [0x00#8, 0x00#8, 0x00#8, 0x80#8, 0x00#8]
       s.bytesIn s.nIn = [tokL 258 255 0x61].flatMap tokenStreamBytes ++ [0x00#8, 0x00#8, 0x00#8, 0x80#8, 0x00#8] ∧
         [0x00#8, 0x00#8, 0x00#8, 0x80#8, 0x00#8].drop 3 = [0x80#8] ++ 0x00#8 :: [] ∧ (0x00#8 : Byte) ∉ [0x80#8] ∧
         ∀ c : Sym, isScalar c = true → utf8Enc c ≠ [0x80#8]) :=
  ⟨by decide, by decide, by decide, by decide, by decide, bad_literal⟩

/-- A second token for a buffer of one. -/
theorem witness_UnpackTokFirstBadToken_capacity :
    let s := { stream [0x00#8, 0x00#8, 0x00#8, 0x00#8] with cfg := { caps with tMax := 1 } }
    s.nIn ≤ s.cfg.yMax ∧ s.bytesIn s.nIn = [tokL 258 255 0x61].flatMap tokenStreamBytes ++ [0x00#8, 0x00#8, 0x00#8, 0x00#8] ∧
      [tokL 258 255 0x61].length = s.cfg.tMax ∧ packable (tokN 0 0) ∧ [0x00#8, 0x00#8, 0x00#8, 0x00#8] = tokenStreamBytes (tokN 0 0) ++ [] := by
  unfold packable; decide

theorem witness_UnpackTokOutputRange :
    (stream []).cfg.wf = true ∧ (stream []).err = false ∧ exec .unpackTok (stream []) = .next (res .unpackTok (stream [])) ∧
      (res .unpackTok (stream [])).err = false ∧ 0 < (res .unpackTok (stream [])).outLen.toNat :=
  ⟨by decide, by decide, exec_res _ _, by decide, by decide⟩

theorem witness_PackUnpackTokRoundTrip :
    twoToks.cfg.wf = true ∧ twoToks.err = false ∧ exec .packTok twoToks = .next (res .packTok twoToks) ∧ (res .packTok twoToks).err = false ∧
      ∀ tk ∈ twoToks.toksIn twoToks.nIn, tk.hasNext = true → tk.next ≠ 0#21 :=
  ⟨by decide, by decide, exec_res _ _, by decide, by decide⟩

/-! LZ77. -/

def abab : State := ready .lzEnc (mem (syms [0x61, 0x62, 0x61, 0x62]) [] [] [] []) 4 0 2

theorem witness_LzEncPartitionsTheInput :
    abab.cfg.wf = true ∧ abab.wIn ≠ 0 ∧ abab.nIn ≤ abab.cfg.nMax ∧ abab.nIn ≤ abab.cfg.tMax := by decide

theorem witness_LzEncIsGreedyAndNearest :
    abab.cfg.wf = true ∧ abab.err = false ∧ exec .lzEnc abab = .next (res .lzEnc abab) ∧ (res .lzEnc abab).err = false :=
  ⟨by decide, by decide, exec_res _ _, by decide⟩

theorem witness_LzRoundTrip :
    abab.cfg.wf = true ∧ abab.err = false ∧ exec .lzEnc abab = .next (res .lzEnc abab) ∧ (res .lzEnc abab).err = false :=
  witness_LzEncIsGreedyAndNearest

theorem witness_LzEncOfARun :
    let s := ready .lzEnc (mem (syms [0x61, 0x61]) [] [] [] []) 2 0 1
    s.wIn ≠ 0 ∧ s.nIn ≤ s.cfg.nMax ∧ 2 ≤ s.nIn ∧ 2 ≤ s.cfg.tMax ∧ s.textIn s.nIn = List.replicate s.nIn 0x61#21 := by decide

/-- "abab" takes three tokens: they fit six, and not two, where the third, at position 2, does not fit; and a text of different symbols. -/
theorem witness_LzEncCapacity :
    let s := { abab with cfg := { caps with tMax := 2 } }
    let u := ready .lzEnc (mem (syms [0x61, 0x62]) [] [] [] []) 2 0 1
    (abab.wIn ≠ 0 ∧ abab.nIn ≤ abab.cfg.nMax ∧ (res .lzEnc abab).outLen = 3#32) ∧
      (s.wIn ≠ 0 ∧ s.nIn ≤ s.cfg.nMax ∧ (res .lzEnc s).errcode = 7#4 ∧ (res .lzEnc s).errInfo = 2#32) ∧
      u.wIn ≠ 0 ∧ u.nIn ≤ u.cfg.nMax ∧ (u.textIn u.nIn).Nodup := by decide

theorem witness_LzDecResult :
    let s := ready .lzDec (mem [] [] [] [tokL 0 0 0x61, tokL 5 11 0x62] []) 2 0 1
    let u := ready .lzDec (mem [] [] [] [tokL 0 0 0x61, tokN 5 11] []) 2 0 1
    s.nIn ≤ s.cfg.tMax ∧ u.nIn ≤ u.cfg.tMax ∧ lzLength (u.toksIn u.nIn) 0 ≤ u.cfg.nMax := by decide

theorem witness_LzDecCapacity :
    let s := ready .lzDec (mem [] [] [] [tokL 0 0 0x61, tokL 5 11 0x62] []) 2 0 1
    s.nIn ≤ s.cfg.tMax ∧ 1 < s.nIn ∧ lzLength ((s.toksIn s.nIn).take 1) 0 ≤ s.cfg.nMax ∧
      s.cfg.nMax < lzLength ((s.toksIn s.nIn).take 2) 0 := by decide

/-! Huffman. -/

theorem witness_HufEncResult :
    hello.cfg.wf = true ∧ hello.nIn ≤ hello.cfg.nMax ∧ (firstOcc (hello.textIn hello.nIn)).length ≤ hello.cfg.kMax := by decide

/-- "hello" for nine bits: the codes of its first four symbols fit, the last one's does not. -/
theorem witness_HufEncResult_overflow :
    let s := { hello with cfg := { caps with bMax := 9 } }
    let cs : List CtEntry := [{ sym := 0x68#21, clen := 2, cbits := 2 }, { sym := 0x65#21, clen := 3, cbits := 6 },
      { sym := 0x6C#21, clen := 1, cbits := 0 }, { sym := 0x6F#21, clen := 3, cbits := 7 }]
    s.cfg.wf = true ∧ s.nIn ≤ s.cfg.nMax ∧ (firstOcc (s.textIn s.nIn)).length ≤ s.cfg.kMax ∧
      (match countLoop s.cfg.kMax 0 (s.textIn s.nIn) [] with | .ok ft => deriveCodes ft (buildTree ft) | .error _ => []) = cs ∧
      4 < s.nIn ∧ (codedText cs ((s.textIn s.nIn).take 4)).length ≤ s.cfg.bMax ∧ s.cfg.bMax < (codedText cs ((s.textIn s.nIn).take 5)).length := by
  decide

/-- The leaves of "aab": b, the rarer, is picked first and becomes the left child. -/
theorem witness_PickTakesSmallestThenLatest :
    let leaf (x n : Nat) (l : Bool) : Node :=
      { leaf := true, sym := BitVec.ofNat 21 x, freq := wd n, left := 0#32, right := 0#32, live := l }
    isMerge [leaf 0x61 2 true, leaf 0x62 1 true] 1 0
        [leaf 0x61 2 false, leaf 0x62 1 false, { leaf := false, sym := 0#21, freq := 3#32, left := 1#32, right := 0#32, live := true }] ∧
      ([leaf 0x61 2 true, leaf 0x62 1 false].filter (·.live)).length < 2 := by
  intro leaf
  refine ⟨⟨leaf 0x62 1 true, leaf 0x61 2 true, ⟨rfl, rfl, ?_⟩, ⟨rfl, rfl, ?_⟩, 1, 0, by decide, by decide⟩, by decide⟩ <;>
    · intro x m hx hm
      rcases x with _ | _ | x
      · cases hx; revert hm; decide
      · cases hx; revert hm; decide
      · exact nomatch hx

theorem witness_HufEncOneSymbol :
    let s := ready .hufEnc (mem (syms [0x61, 0x61]) [] [] [] []) 2 0 1
    s.cfg.wf = true ∧ 1 ≤ s.nIn ∧ s.nIn ≤ s.cfg.nMax ∧ s.nIn ≤ s.cfg.bMax ∧ s.textIn s.nIn = List.replicate s.nIn 0x61#21 := by decide

/-- Equal frequencies, and the second symbol rarer. -/
theorem witness_HufEncTwoSymbols :
    let s := ready .hufEnc (mem (syms [0x61, 0x62]) [] [] [] []) 2 0 1
    let u := ready .hufEnc (mem (syms [0x61, 0x62, 0x61]) [] [] [] []) 3 0 1
    s.cfg.wf = true ∧ s.nIn ≤ s.cfg.nMax ∧ s.nIn ≤ s.cfg.bMax ∧ 2 ≤ s.cfg.kMax ∧ firstOcc (s.textIn s.nIn) = [0x61#21, 0x62#21] ∧
      firstOcc (u.textIn u.nIn) = [0x61#21, 0x62#21] ∧ (u.textIn u.nIn).count 0x62#21 < (u.textIn u.nIn).count 0x61#21 := by decide

theorem witness_HufEncTooManySymbols :
    let s := { hello with cfg := { caps with kMax := 2 } }
    s.nIn ≤ s.cfg.nMax ∧ (s.textIn s.nIn)[2]? = some 0x6C#21 ∧ (firstOcc ((s.textIn s.nIn).take 2)).length = s.cfg.kMax ∧
      (0x6C#21 : Sym) ∉ (s.textIn s.nIn).take 2 := by decide

theorem witness_HufEncPrefixFree :
    hello.cfg.wf = true ∧ hello.err = false ∧ exec .hufEnc hello = .next (res .hufEnc hello) ∧ (res .hufEnc hello).err = false :=
  ⟨by decide, by decide, exec_res _ _, by decide⟩

theorem witness_HufRoundTrip :
    hello.cfg.wf = true ∧ hello.err = false ∧ exec .hufEnc hello = .next (res .hufEnc hello) ∧ (res .hufEnc hello).err = false :=
  witness_HufEncPrefixFree

/-- Every symbol of "hello" moved up by one. -/
theorem witness_HufEncIgnoresSymbolValues :
    let u := ready .hufEnc (mem (syms [0x69, 0x66, 0x6D, 0x6D, 0x70]) [] [] [] []) 5 0 128
    let f : Sym → Sym := fun x => x + 1#21
    hello.cfg.wf = true ∧ u.cfg = hello.cfg ∧ u.eng.n = hello.eng.n ∧ Accepted .hufEnc hello ∧ Accepted .hufEnc u ∧
      (∀ x ∈ hello.textIn hello.nIn, ∀ y ∈ hello.textIn hello.nIn, f x = f y → x = y) ∧
      u.textIn hello.nIn = (hello.textIn hello.nIn).map f :=
  ⟨by decide, by decide, by decide, by decide, by decide, fun x _ y _ h => by simpa using h, by decide⟩

/-- The code table a = 0, b = 10. -/
def tableAB : List CtEntry := [{ sym := 0x61#21, clen := 1, cbits := 0 }, { sym := 0x62#21, clen := 2, cbits := 2 }]

/-- A machine about to decode bits with that table. -/
def decAB (bs : List Bool) : State := ready .hufDec (mem [] bs [] [] tableAB) bs.length 2 1

theorem tableAB_valid (l : Nat) (hl : 2 ≤ l) : validTable l tableAB := by
  refine ⟨?_, by decide⟩
  intro e he
  simp only [tableAB, List.mem_cons, List.not_mem_nil, or_false] at he
  rcases he with rfl | rfl <;> exact ⟨by decide, by dsimp only; omega⟩

theorem tableAB_prefixFree : prefixFree tableAB := by
  intro j k a b ha hb hjk
  rcases j with _ | _ | j <;> rcases k with _ | _ | k <;> simp only [tableAB, List.getElem?_cons_zero, List.getElem?_cons_succ, List.getElem?_nil,
    Option.some.injEq, reduceCtorEq] at ha hb
  · exact absurd rfl hjk
  · subst ha hb; decide
  · subst ha hb; decide
  · exact absurd rfl hjk

/-- No bits: HUF_DEC with no table and with a table of two entries, and LZ_ENC. -/
theorem witness_EmptyInputSucceeds :
    ((ready .hufDec noMem 0 0 1).nIn = 0 ∧ (ready .hufDec noMem 0 0 1).ctIn 0 = [] ∧ validTable caps.lMax []) ∧
      ((decAB []).nIn = 0 ∧ (decAB []).kIn ≤ caps.kMax ∧ (decAB []).ctIn 2 = tableAB ∧ validTable caps.lMax tableAB) ∧
      (ready .lzEnc noMem 0 0 1).nIn = 0 ∧ (ready .lzEnc noMem 0 0 1).wIn ≠ 0 :=
  ⟨⟨by decide, by decide, nofun, by decide⟩, ⟨by decide, by decide, by decide, tableAB_valid _ (by decide)⟩, by decide, by decide⟩

/-- A length of 0, a length one above `L_MAX`, a repeated symbol, and a table longer than `K_MAX`. -/
theorem witness_HufDecTableChecks :
    let s := ready .hufDec (mem [] [] [] [] [{ sym := 0x61#21, clen := 0, cbits := 0 }]) 0 1 1
    let u := ready .hufDec (mem [] [] [] [] [{ sym := 0x61#21, clen := 5, cbits := 0 }]) 0 1 1
    let v := ready .hufDec (mem [] [] [] [] [{ sym := 0x61#21, clen := 1, cbits := 0 }, { sym := 0x61#21, clen := 2, cbits := 2 }]) 0 2 1
    let x := ready .hufDec noMem 0 6 1
    (s.nIn ≤ s.cfg.bMax ∧ s.kIn ≤ s.cfg.kMax ∧ (s.ctIn s.kIn)[0]? = some { sym := 0x61#21, clen := 0, cbits := 0 }) ∧
      ((u.ctIn u.kIn)[0]? = some { sym := 0x61#21, clen := 5, cbits := 0 } ∧ u.cfg.lMax < 5) ∧
      ((v.ctIn v.kIn)[1]? = some { sym := 0x61#21, clen := 2, cbits := 2 } ∧ (0x61#21 : Sym) ∈ ((v.ctIn v.kIn).take 1).map (·.sym)) ∧
      x.nIn ≤ x.cfg.bMax ∧ x.cfg.kMax < x.kIn := by decide

/-- "ba" and nothing after it, and "b" with an unfinished code after it. -/
theorem witness_HufDecResult :
    ((decAB [true, false, false]).nIn ≤ caps.bMax ∧ (decAB [true, false, false]).kIn ≤ caps.kMax ∧
        (decAB [true, false, false]).ctIn 2 = tableAB ∧ validTable caps.lMax tableAB ∧ prefixFree tableAB ∧
        (decAB [true, false, false]).bitsIn 3 = codedText tableAB [0x62#21, 0x61#21] ++ []) ∧
      (decAB [true, false, true]).ctIn 2 = tableAB ∧ (decAB [true, false, true]).bitsIn 3 = codedText tableAB [0x62#21] ++ [true] ∧
      ∀ e ∈ tableAB, ¬ codeBits e <+: [true] :=
  ⟨⟨by decide, by decide, by decide, tableAB_valid _ (by decide), tableAB_prefixFree, by decide⟩, by decide, by decide, by decide⟩

/-- Two symbols for a text buffer of one. -/
theorem witness_HufDecResult_capacity :
    let s := { decAB [true, false, false] with cfg := { caps with nMax := 1 } }
    s.nIn ≤ s.cfg.bMax ∧ s.kIn ≤ s.cfg.kMax ∧ s.ctIn s.kIn = tableAB ∧ s.bitsIn s.nIn = codedText tableAB [0x62#21] ++ [false] ∧
      [0x62#21].length = s.cfg.nMax ∧ (0x61#21 : Sym) ∈ tableAB.map (·.sym) ∧ [false] = codeOf tableAB 0x61#21 ++ [] := by decide

/-- Table a = 0, b = 01: entry 0 hides entry 1 (as in vector HD12). -/
theorem witness_HufDecTakesShortestThenLowest :
    let tbl : List CtEntry := [{ sym := 0x61#21, clen := 1, cbits := 0 }, { sym := 0x62#21, clen := 2, cbits := 1 }]
    (∀ x ∈ tbl, 1 ≤ x.clen ∧ x.clen ≤ 4) ∧ (tbl.map (·.sym)).Nodup ∧ tbl[0]? = some { sym := 0x61#21, clen := 1, cbits := 0 } ∧ (1 : Nat) ≤ 2 ∧
      (∀ e' ∈ tbl, codeBits e' <+: [false] → codeBits e' = [false]) ∧
      (match scanLoop 1 4 tbl 0 [false] Cand.empty [] with | .ok xs => xs | .error _ => []) = [0x61#21] := by decide

/-! The phases. -/

theorem witness_PhasesAgree :
    (hello.cfg.wf = true ∧ hello.mem.wf hello.cfg = true ∧ hello.phase = .hCount) ∧ caps.wf = true ∧ (decAB []).phase = .dCheck ∧ abab.phase = .lInit ∧ (ready .lzDec noMem 0 0 1).phase = .zInit ∧
      tenBits.phase = .pbCheck ∧ (ready .unpackBits noMem 0 0 1).phase = .ubCheck ∧ twoToks.phase = .ptCheck ∧ (stream []).phase = .utCheck := by
  decide

end Sys2Proof.Tests
end

section
/-! SUPPORT. Every command in one form: what it delivers or the error it raises, as a value, and then its completion (60_exceptions.md R255, R256). -/

namespace Sys2Proof.Machine

/-- What a command delivers: the elements of its output buffers. -/
inductive Output where
  | text (xs : List Sym)
  | bits (bs : List Bool)
  | bytes (ys : List Byte)
  | toks (ts : List Token)
  | coded (o : HufOut)

/-- Write a result from element 0 of its output buffers on. -/
def Output.store : Output → State → State
  | .text xs, s => s.storeText xs
  | .bits bs, s => s.storeBits bs
  | .bytes ys, s => s.storeBytes ys
  | .toks ts, s => s.storeToks ts
  | .coded o, s => (s.storeCt o.codes).storeBits o.bits

/-- The number of elements, which a success reports in `OUT_LEN`. -/
def Output.len : Output → Nat
  | .text xs => xs.length
  | .bits bs => bs.length
  | .bytes ys => ys.length
  | .toks ts => ts.length
  | .coded o => o.bits.length

/-- The number of code-table entries, which `HUF_ENC` reports in `CT_LEN`. -/
def Output.tableLen : Output → Nat
  | .coded o => o.codes.length
  | _ => 0

/-- The prechecks and the transform of a command on its operands: what it delivers, or the error it raises. -/
def State.result (s : State) : Instr → Except Raise Output
  | .hufEnc => if s.nIn > s.cfg.nMax then .error ⟨.invalidInput, 0⟩ else (hufEncode s.cfg (s.textIn s.nIn)).map .coded
  | .hufDec =>
    if s.nIn > s.cfg.bMax then .error ⟨.invalidInput, 0⟩
    else if s.kIn > s.cfg.kMax then .error ⟨.malformedCodeTable, 0⟩
    else (hufDecode s.cfg (s.bitsIn s.nIn) (s.ctIn s.kIn)).map .text
  | .lzEnc =>
    if s.wIn = 0 then .error ⟨.badParameter, 0⟩
    else if s.nIn > s.cfg.nMax then .error ⟨.invalidInput, 0⟩
    else (lzEncode s.cfg s.wIn (s.textIn s.nIn)).map .toks
  | .lzDec => if s.nIn > s.cfg.tMax then .error ⟨.invalidInput, 0⟩ else (lzDecode s.cfg (s.toksIn s.nIn)).map .text
  | .packBits => if s.nIn > s.cfg.bMax then .error ⟨.invalidInput, 0⟩ else (packBits s.cfg (s.bitsIn s.nIn)).map .bytes
  | .unpackBits => if s.nIn > s.cfg.yMax then .error ⟨.invalidInput, 0⟩ else (unpackBits s.cfg (s.bytesIn s.nIn)).map .bits
  | .packTok => if s.nIn > s.cfg.tMax then .error ⟨.invalidInput, 0⟩ else (packToks s.cfg (s.toksIn s.nIn)).map .bytes
  | .unpackTok => if s.nIn > s.cfg.yMax then .error ⟨.invalidInput, 0⟩ else (unpackToks s.cfg (s.bytesIn s.nIn)).map .toks

/-- The completion of a command (60_exceptions.md R255, R256). -/
def State.finish (c : Instr) (s : State) : Except Raise Output → State
  | .error r => s.raise (some c) r
  | .ok o => (o.store s).complete c o.len o.tableLen

/-- Every command is its prechecks and its transform, followed by one of the two completions. -/
theorem exec_eq_finish (c : Instr) (s : State) : exec c s = .next (s.finish c (s.result c)) := by
  cases c with
  | hufEnc =>
    simp only [exec, execHufEnc, State.result]
    split_ifs
    · rfl
    · cases hufEncode s.cfg (s.textIn s.nIn) <;> rfl
  | hufDec =>
    simp only [exec, execHufDec, State.result]
    split_ifs
    · rfl
    · rfl
    · cases hufDecode s.cfg (s.bitsIn s.nIn) (s.ctIn s.kIn) <;> rfl
  | lzEnc =>
    simp only [exec, execLzEnc, State.result]
    split_ifs
    · rfl
    · rfl
    · cases lzEncode s.cfg s.wIn (s.textIn s.nIn) <;> rfl
  | lzDec =>
    simp only [exec, execLzDec, State.result]
    split_ifs
    · rfl
    · cases lzDecode s.cfg (s.toksIn s.nIn) <;> rfl
  | packBits =>
    simp only [exec, execPackBits, State.result]
    split_ifs
    · rfl
    · cases packBits s.cfg (s.bitsIn s.nIn) <;> rfl
  | unpackBits =>
    simp only [exec, execUnpackBits, State.result]
    split_ifs
    · rfl
    · cases unpackBits s.cfg (s.bytesIn s.nIn) <;> rfl
  | packTok =>
    simp only [exec, execPackTok, State.result]
    split_ifs
    · rfl
    · cases packToks s.cfg (s.toksIn s.nIn) <;> rfl
  | unpackTok =>
    simp only [exec, execUnpackTok, State.result]
    split_ifs
    · rfl
    · cases unpackToks s.cfg (s.bytesIn s.nIn) <;> rfl

/-- The capacities of a well-formed configuration fit the registers that count up to them. -/
theorem caps_lt {p : Config.Params} (h : p.wf = true) :
    p.nMax < 2 ^ 32 ∧ p.kMax < 2 ^ 32 ∧ p.bMax < 2 ^ 32 ∧ p.yMax < 2 ^ 32 ∧ p.tMax < 2 ^ 32 := by
  simp only [Config.Params.wf, Config.capOk, Bool.and_eq_true, decide_eq_true_eq] at h
  omega

end Sys2Proof.Machine
end

section
/-! SUPPORT. A command's result depends on its operands and input elements alone (00_scope.md R4). -/

namespace Sys2Proof.Machine

/-- The buffer spaces that a result is written to. -/
def Output.inSpace : Output → Space → Bool
  | .text _, .text => true
  | .bits _, .bits => true
  | .bytes _, .bytes => true
  | .toks _, .tok => true
  | .coded _, .bits => true
  | .coded _, .ct => true
  | _, _ => false

/-- A result fits the buffers it is written to. -/
def Output.fits (p : Config.Params) : Output → Prop
  | .text xs => xs.length ≤ p.nMax
  | .bits bs => bs.length ≤ p.bMax
  | .bytes ys => ys.length ≤ p.yMax
  | .toks ts => ts.length ≤ p.tMax
  | .coded o => o.bits.length ≤ p.bMax ∧ o.codes.length ≤ p.kMax

theorem exists_ok_of_map_ok {α β : Type} {f : α → β} {r : Except Raise α} {y : β} (h : r.map f = .ok y) : ∃ x, r = .ok x ∧ f x = y := by
  cases r with
  | error e => cases h
  | ok x => exact ⟨x, rfl, Except.ok.inj h⟩

/-- What a command delivers goes to the buffers of its R93 column, and fits them. -/
theorem result_fits {s : State} {c : Instr} {o : Output} (h : s.result c = .ok o) :
    o.fits s.cfg ∧ ∀ sp, writesSpace c sp = o.inSpace sp := by
  cases c <;> simp only [State.result] at h <;> split_ifs at h <;> obtain ⟨x, hx, rfl⟩ := exists_ok_of_map_ok h <;>
    refine ⟨?_, fun sp => by cases sp <;> rfl⟩
  · exact hufEncode_length _ _ _ hx
  · exact hufDecode_length _ _ _ _ hx
  · exact lzEncode_length _ _ _ _ hx
  · exact lzDecode_length _ _ _ hx
  · exact packBits_length _ _ _ hx
  · exact unpackBits_length _ _ _ hx
  · exact packToks_length _ _ _ hx
  · exact unpackToks_length _ _ _ hx

theorem fits_lt {p : Config.Params} (hcap : p.wf = true) {o : Output} (h : o.fits p) : o.len < 2 ^ 32 ∧ o.tableLen < 2 ^ 32 := by
  obtain ⟨hN, hK, hB, hY, hT⟩ := caps_lt hcap
  cases o with
  | coded o => exact ⟨h.1.trans_lt hB, h.2.trans_lt hK⟩
  | text xs => exact ⟨Nat.lt_of_le_of_lt h hN, Nat.two_pow_pos 32⟩
  | bits bs => exact ⟨Nat.lt_of_le_of_lt h hB, Nat.two_pow_pos 32⟩
  | bytes ys => exact ⟨Nat.lt_of_le_of_lt h hY, Nat.two_pow_pos 32⟩
  | toks ts => exact ⟨Nat.lt_of_le_of_lt h hT, Nat.two_pow_pos 32⟩

/-- The words of a code table as a result do not depend on what the buffers held before. -/
theorem peek_putSeq_ct_congr (p : Config.Params) (cs : List CtEntry) (m m' : Memory) (hk : cs.length ≤ p.kMax) (idx : Nat)
    (h : idx < p.ctStride * cs.length) : (putSeq (Memory.putCt p) 0 cs m).peek p .ct idx = (putSeq (Memory.putCt p) 0 cs m').peek p .ct idx := by
  obtain ⟨j, f, hf, rfl⟩ := ct_split p idx
  have hj : j < cs.length := by
    by_contra hge
    have := Nat.mul_le_mul_left p.ctStride (Nat.le_of_not_lt hge)
    rw [Nat.mul_comm p.ctStride j] at this
    omega
  have hin : 0 ≤ j ∧ j < 0 + cs.length ∧ j < p.kMax := by omega
  rw [Memory.peek_ct _ _ _ _ hf, Memory.peek_ct _ _ _ _ hf]
  rcases f with _ | _ | w
  · simp only [get_putSeq_ctSym, if_pos hin]
  · simp only [get_putSeq_ctLen, if_pos hin]
  · have hw : w < p.codeWords := by unfold Config.Params.ctStride at hf; omega
    simp only [get_putSeq_ctBits _ _ _ _ _ _ hw, if_pos hin]

theorem peek_putBits_ct (p : Config.Params) (i : Nat) (bs : List Bool) (m : Memory) (idx : Nat) :
    (putSeq (Memory.putBit p) i bs m).peek p .ct idx = m.peek p .ct idx := by
  rw [putSeq_putBit_frame]; rfl

/-- The words of a result do not depend on the state it is written to. -/
theorem word_store_congr {s u : State} (hcfg : u.cfg = s.cfg) {o : Output} (hfit : o.fits s.cfg) {sp : Space} (hsp : o.inSpace sp = true)
    {idx : Nat} (h : idx < resultWords s.cfg o.len o.tableLen sp) : (o.store u).word sp idx = (o.store s).word sp idx := by
  cases o with
  | text xs =>
    cases sp <;> cases hsp
    have hidx : idx < xs.length := h
    have hin : 0 ≤ idx ∧ idx < 0 + xs.length ∧ idx < s.cfg.nMax := ⟨Nat.zero_le _, by omega, hidx.trans_le hfit⟩
    simp only [State.word, Output.store, State.storeText_mem, hcfg, Memory.peek, get_putSeq_text, if_pos hin]
  | bits bs =>
    cases sp <;> cases hsp
    have hidx : idx < bs.length := h
    have hin : 0 ≤ idx ∧ idx < 0 + bs.length ∧ idx < s.cfg.bMax := ⟨Nat.zero_le _, by omega, hidx.trans_le hfit⟩
    simp only [State.word, Output.store, State.storeBits_mem, hcfg, Memory.peek, get_putSeq_bits, if_pos hin]
  | bytes ys =>
    cases sp <;> cases hsp
    have hidx : idx < ys.length := h
    have hin : 0 ≤ idx ∧ idx < 0 + ys.length ∧ idx < s.cfg.yMax := ⟨Nat.zero_le _, by omega, hidx.trans_le hfit⟩
    simp only [State.word, Output.store, State.storeBytes_mem, hcfg, Memory.peek, get_putSeq_bytes, if_pos hin]
  | toks ts =>
    cases sp <;> cases hsp
    have hidx : idx < 4 * ts.length := h
    have hlen : ts.length ≤ s.cfg.tMax := hfit
    have hin : 0 ≤ idx / 4 ∧ idx / 4 < 0 + ts.length ∧ idx / 4 < s.cfg.tMax := by omega
    simp only [State.word, Output.store, State.storeToks_mem, hcfg, Memory.peek, get_putSeq_tokDist, get_putSeq_tokLen,
      get_putSeq_tokLit, if_pos hin]
  | coded o =>
    simp only [State.word, Output.store, State.storeBits_mem, State.storeBits_cfg, State.storeCt_mem, State.storeCt_cfg, hcfg]
    cases sp <;> cases hsp
    · have hidx : idx < o.bits.length := h
      have hin : 0 ≤ idx ∧ idx < 0 + o.bits.length ∧ idx < s.cfg.bMax := ⟨Nat.zero_le _, by omega, hidx.trans_le hfit.1⟩
      simp only [Memory.peek, get_putSeq_bits, if_pos hin]
    · rw [peek_putBits_ct, peek_putBits_ct]
      exact peek_putSeq_ct_congr s.cfg o.codes u.mem s.mem hfit.2 idx h

/-- Two completions show the host the same: status, lengths, and the words of the result. -/
def SameResult (p : Config.Params) (c : Instr) (t v : State) : Prop :=
  v.err = t.err ∧ v.errcode = t.errcode ∧ v.errInfo = t.errInfo ∧ v.outLen = t.outLen ∧ (c = .hufEnc → v.ctLen = t.ctLen) ∧
    ∀ (sp : Space) (idx : Nat), writesSpace c sp = true → idx < resultWords p t.outLen.toNat t.ctLen.toNat sp → v.word sp idx = t.word sp idx

theorem eq_hufEnc_of_writes_ct {c : Instr} (h : writesSpace c .ct = true) : c = .hufEnc := by
  cases c <;> first | rfl | cases h

theorem raise_sameResult (s u : State) (c : Instr) (r : Raise) : SameResult s.cfg c (s.raise (some c) r) (u.raise (some c) r) := by
  refine ⟨rfl, rfl, rfl, rfl, ?_, ?_⟩
  · rintro rfl; rfl
  · intro sp idx hsp hidx
    refine absurd hidx (Nat.not_lt.2 ?_)
    cases sp with
    | ct => obtain rfl := eq_hufEnc_of_writes_ct hsp; exact Nat.zero_le _
    | _ => exact Nat.zero_le _

/-! Storing a result changes the buffers only. -/

theorem store_err (o : Output) (s : State) : (o.store s).err = s.err := by cases o <;> rfl
theorem store_errcode (o : Output) (s : State) : (o.store s).errcode = s.errcode := by cases o <;> rfl
theorem store_errInfo (o : Output) (s : State) : (o.store s).errInfo = s.errInfo := by cases o <;> rfl

theorem complete_sameResult {s u : State} (hcap : s.cfg.wf = true) (hcfg : u.cfg = s.cfg) (herr : u.err = s.err)
    (hcode : u.errcode = s.errcode) (hinfo : u.errInfo = s.errInfo) {c : Instr} {o : Output} (hfit : o.fits s.cfg)
    (hsp : ∀ sp, writesSpace c sp = o.inSpace sp) :
    SameResult s.cfg c (s.finish c (.ok o)) (u.finish c (.ok o)) := by
  obtain ⟨hn, hk⟩ := fits_lt hcap hfit
  refine ⟨?_, ?_, ?_, rfl, ?_, fun sp idx hw hidx => ?_⟩
  · exact (store_err o u).trans (herr.trans (store_err o s).symm)
  · exact (store_errcode o u).trans (hcode.trans (store_errcode o s).symm)
  · exact (store_errInfo o u).trans (hinfo.trans (store_errInfo o s).symm)
  · rintro rfl; rfl
  · refine word_store_congr hcfg hfit ((hsp sp).symm.trans hw) ?_
    have hlen : (s.finish c (.ok o)).outLen.toNat = o.len := wd_toNat _ hn
    have htbl : c = .hufEnc → (s.finish c (.ok o)).ctLen.toNat = o.tableLen := by
      rintro rfl; exact wd_toNat _ hk
    rw [hlen] at hidx
    cases sp with
    | ct => rwa [htbl (eq_hufEnc_of_writes_ct hw)] at hidx
    | _ => exact hidx

/-- The transform of a command reads its operands and input elements and nothing else. -/
theorem result_congr {s u : State} (c : Instr) (hcfg : u.cfg = s.cfg) (hn : u.nIn = s.nIn) (hk : c = .hufDec → u.kIn = s.kIn)
    (hw : c = .lzEnc → u.wIn = s.wIn) (htext : c = .hufEnc ∨ c = .lzEnc → u.textIn s.nIn = s.textIn s.nIn)
    (hbits : c = .hufDec ∨ c = .packBits → u.bitsIn s.nIn = s.bitsIn s.nIn) (hct : c = .hufDec → u.ctIn s.kIn = s.ctIn s.kIn)
    (htok : c = .lzDec ∨ c = .packTok → u.toksIn s.nIn = s.toksIn s.nIn)
    (hbytes : c = .unpackBits ∨ c = .unpackTok → u.bytesIn s.nIn = s.bytesIn s.nIn) : u.result c = s.result c := by
  cases c with
  | hufEnc => simp only [State.result, hcfg, hn, htext (.inl rfl)]
  | hufDec => simp only [State.result, hcfg, hn, hk rfl, hbits (.inl rfl), hct rfl]
  | lzEnc => simp only [State.result, hcfg, hn, hw rfl, htext (.inr rfl)]
  | lzDec => simp only [State.result, hcfg, hn, htok (.inl rfl)]
  | packBits => simp only [State.result, hcfg, hn, hbits (.inr rfl)]
  | unpackBits => simp only [State.result, hcfg, hn, hbytes (.inl rfl)]
  | packTok => simp only [State.result, hcfg, hn, htok (.inr rfl)]
  | unpackTok => simp only [State.result, hcfg, hn, hbytes (.inr rfl)]

/-- Settles O23: the result is a function of the operands and input elements, and both completions show the host nothing else. -/
theorem resultDependsOnInputsOnly : Obligations.ResultDependsOnInputsOnly := by
  intro c s u t v hcap hcfg hn hk hw htext hbits hct htok hbytes hs hu ht hv
  have hres : u.result c = s.result c :=
    result_congr c hcfg (congrArg BitVec.toNat hn) (fun h => congrArg BitVec.toNat (hk h)) (fun h => congrArg BitVec.toNat (hw h))
      htext hbits hct htok hbytes
  rw [exec_eq_finish] at ht hv
  cases ht
  cases hv
  rw [hres]
  obtain ⟨-, -, herr, hcode, hinfo, -⟩ := hs
  obtain ⟨-, -, herr', hcode', hinfo', -⟩ := hu
  cases hr : s.result c with
  | error r => exact raise_sameResult s u c r
  | ok o =>
    obtain ⟨hfit, hsp⟩ := result_fits hr
    exact complete_sameResult hcap hcfg (herr'.trans herr.symm) (hcode'.trans hcode.symm) (hinfo'.trans hinfo.symm) hfit hsp

end Sys2Proof.Machine
end

section
/-! SUPPORT. Runs of phase visits (00_scope.md R7): the states a command passes through, its input read one element after the other, and its output
written one element after the other. -/

namespace Sys2Proof.Machine

/-! Phase visits in a row. -/

/-- Some number of phase visits leads from one state to the other. -/
def Reaches (s t : State) : Prop := ∃ m, phaseRun m s = t

theorem Reaches.refl (s : State) : Reaches s s := ⟨0, rfl⟩

theorem Reaches.of_eq {s t : State} (h : s = t) : Reaches s t := ⟨0, h⟩

/-- One visit more in front. -/
theorem Reaches.visit {s t : State} (h : Reaches (phaseVisit s) t) : Reaches s t := by
  obtain ⟨m, hm⟩ := h
  exact ⟨m + 1, hm⟩

/-- Where the visits reach a command's completion, they compute its command-level meaning. -/
theorem phases_agree_of_reaches {c : Instr} {s : State} (h : Reaches s (s.finish c (s.result c))) :
    ∃ m, exec c s = .next (phaseRun m s) := by
  obtain ⟨m, hm⟩ := h
  exact ⟨m, by rw [exec_eq_finish, hm]⟩

/-! The states a command passes through. -/

/-- The state `s` under way: in a phase, with other buffers and other hidden registers. -/
def State.during (s : State) (ph : Phase) (m : Memory) (e : Engine) : State := { s with phase := ph, mem := m, eng := e }

/-- The operands sampled at acceptance are still in their registers. -/
def SameOperands (s : State) (e : Engine) : Prop := e.n = s.eng.n ∧ e.k = s.eng.k ∧ e.w = s.eng.w

section
variable {s : State} {ph : Phase} {m : Memory} {e : Engine}

@[simp] theorem during_cfg : (s.during ph m e).cfg = s.cfg := rfl
@[simp] theorem during_mem : (s.during ph m e).mem = m := rfl
@[simp] theorem during_eng : (s.during ph m e).eng = e := rfl

theorem during_nIn (h : SameOperands s e) : (s.during ph m e).nIn = s.nIn := congrArg BitVec.toNat h.1
theorem during_kIn (h : SameOperands s e) : (s.during ph m e).kIn = s.kIn := congrArg BitVec.toNat h.2.1
theorem during_wIn (h : SameOperands s e) : (s.during ph m e).wIn = s.wIn := congrArg BitVec.toNat h.2.2

theorem SameOperands.refl (s : State) : SameOperands s s.eng := ⟨rfl, rfl, rfl⟩

/-- The hidden registers are of no consequence from a completion on (10_state.md R42): what counts of them is the operands sampled. -/
theorem during_freeUse (h : SameOperands s e) : (s.during ph m e).freeUse = s.freeUse := by
  obtain ⟨hn, hk, -⟩ := h
  simp [State.freeUse, hn, hk]

theorem during_raise {c : Instr} (h : SameOperands s e) (hm : m.clearOutputs c = s.mem.clearOutputs c) (r : Raise) :
    (s.during ph m e).raise (some c) r = s.raise (some c) r := by
  unfold State.raise
  rw [during_freeUse h]
  simp only [State.during, State.freeHidden, Memory.clearOutputs?, hm]

theorem during_complete (h : SameOperands s e) (c : Instr) (n k : Nat) :
    (s.during ph m e).complete c n k = { s with mem := m }.complete c n k := by
  unfold State.complete
  rw [during_freeUse h]
  rfl

end

/-! Input sequences read one element after the other. -/

/-- At the end of a sequence there is no further element. -/
theorem le_of_drop_range_map_nil {α : Type} {f : Nat → α} {n i : Nat} (h : ((List.range n).map f).drop i = []) : n ≤ i := by
  simpa using h

/-- The head of what is left of a sequence is the element at the position reached. -/
theorem drop_range_map_cons {α : Type} {f : Nat → α} {n i : Nat} {x : α} {xs : List α} (h : ((List.range n).map f).drop i = x :: xs) :
    i < n ∧ f i = x ∧ ((List.range n).map f).drop (i + 1) = xs := by
  have hi : i < n := by
    by_contra hn
    rw [List.drop_eq_nil_of_le (by simpa using hn)] at h
    cases h
  rw [List.drop_eq_getElem_cons (by simpa using hi)] at h
  simp only [List.getElem_map, List.getElem_range, List.cons.injEq] at h
  exact ⟨hi, h⟩

/-- A sampled length is below `2^32`. -/
theorem nIn_lt (s : State) : s.nIn < 2 ^ 32 := s.eng.n.isLt

/-- A loop of a command before its iteration `i`, with `n` elements written: the counters, the operands, and the buffers. -/
structure LoopAt (s : State) (i n : Nat) (written m : Memory) (e : Engine) : Prop where
  ops : SameOperands s e
  mem : m = written
  i_eq : e.i = wd i
  out_eq : e.out = wd n

/-! A run of writes to an output buffer is undone when the command ends in an error. -/

theorem clearOutputs_putBytes (c : Instr) (hc : writesSpace c .bytes = true) (p : Config.Params) (ys : List Byte) (m : Memory) :
    (putSeq (Memory.putByte p) 0 ys m).clearOutputs c = m.clearOutputs c := by
  rw [putSeq_putByte_frame]
  cases c <;> first | rfl | cases hc

theorem clearOutputs_putBits (c : Instr) (hc : writesSpace c .bits = true) (p : Config.Params) (bs : List Bool) (m : Memory) :
    (putSeq (Memory.putBit p) 0 bs m).clearOutputs c = m.clearOutputs c := by
  rw [putSeq_putBit_frame]
  cases c <;> first | rfl | cases hc

theorem clearOutputs_putToks (c : Instr) (hc : writesSpace c .tok = true) (p : Config.Params) (ts : List Token) (m : Memory) :
    (putSeq (Memory.putTok p) 0 ts m).clearOutputs c = m.clearOutputs c := by
  rw [putSeq_putTok_frame]
  cases c <;> first | rfl | cases hc

theorem clearOutputs_putText (c : Instr) (hc : writesSpace c .text = true) (p : Config.Params) (xs : List Sym) (m : Memory) :
    (putSeq (Memory.putText p) 0 xs m).clearOutputs c = m.clearOutputs c := by
  rw [putSeq_putText_frame]
  cases c <;> first | rfl | cases hc

end Sys2Proof.Machine
end

section
/-! SUPPORT. The phases of Binary Packing (43_binary_packing.md R230) against its four command-level loops. -/

namespace Sys2Proof.Machine

/-! `PACK_BITS` and `UNPACK_BITS`. -/

/-- Appending one element to a result is one write behind those before. -/
theorem putSeq_snoc {α : Type} (put : Nat → α → Memory → Memory) (xs : List α) (x : α) (m : Memory) :
    putSeq put 0 (xs ++ [x]) m = put xs.length x (putSeq put 0 xs m) := by
  rw [putSeq_append, Nat.zero_add]; rfl

/-- Appending a part to a result is a run of writes behind the elements before. -/
theorem putSeq_append_zero {α : Type} (put : Nat → α → Memory → Memory) (xs ys : List α) (m : Memory) :
    putSeq put 0 (xs ++ ys) m = putSeq put xs.length ys (putSeq put 0 xs m) := by
  rw [putSeq_append, Nat.zero_add]

/-! `PACK_BITS` and `UNPACK_BITS`. -/

/-- The loop of `PACK_BITS` before bit `i`, with the bytes `out` written and `accN` bits in the accumulator. -/
structure PackBitsAt (s : State) (i : Nat) (acc : BitVec 8) (accN : Nat) (out : List Byte) (m : Memory) (e : Engine) : Prop
    extends LoopAt s i out.length (putSeq (Memory.putByte s.cfg) 0 out s.mem) m e where
  acc_eq : e.acc = acc
  accN_eq : e.accN = BitVec.ofNat 4 accN
  accN_lt : accN < 8
  out_le : out.length ≤ i

/-- An accumulator that is not yet a byte holds fewer than eight bits. -/
theorem packBit_more_lt {yMax i : Nat} {b : Bool} {acc acc' : BitVec 8} {accN accN' out : Nat} (h : accN < 8)
    (hp : packBit yMax i b acc accN out = .more acc' accN') : accN' < 8 := by
  unfold packBit at hp
  split_ifs at hp
  cases hp
  omega

/-- The last phase of `PACK_BITS` writes the partial byte, if there is one (43_binary_packing.md R212). -/
theorem pbFlush_reaches {s : State} {i accN : Nat} {acc : BitVec 8} {out : List Byte} {m : Memory} {e : Engine}
    (h : PackBitsAt s i acc accN out m e) (hi : i ≤ s.nIn) :
    Reaches (s.during .pbFlush m e) (s.finish .packBits (.ok (.bytes (out ++ packFlush acc accN)))) := by
  have hN := nIn_lt s
  have hout := h.out_le
  refine .visit (.of_eq ?_)
  show visitPbFlush _ = _
  have hacc : (BitVec.ofNat 4 accN).toNat = accN := by have := h.accN_lt; simp; omega
  have ho : (wd out.length).toNat = out.length := wd_toNat _ (by omega)
  simp only [visitPbFlush, during_eng, during_cfg, during_mem, h.out_eq, h.acc_eq, h.accN_eq, hacc, ho, h.mem,
    ← putSeq_append_zero, State.finish, Output.store, Output.len, List.length_append]
  exact during_complete h.ops .packBits _ 0

/-- Each visit of `PB_LOOP` is one bit. -/
theorem pbLoop_reaches (s : State) (bs : List Bool) : ∀ (i : Nat) (acc : BitVec 8) (accN : Nat) (out : List Byte) (m : Memory) (e : Engine),
    (s.bitsIn s.nIn).drop i = bs → i ≤ s.nIn → PackBitsAt s i acc accN out m e →
    Reaches (s.during .pbLoop m e) (s.finish .packBits ((packLoop s.cfg.yMax i bs acc accN out).map .bytes)) := by
  have hN := nIn_lt s
  induction bs with
  | nil =>
    intro i acc accN out m e hbs hi h
    have hiN := le_of_drop_range_map_nil hbs
    refine .visit ?_
    show Reaches (visitPbLoop _) _
    simp only [visitPbLoop, during_eng, during_nIn h.ops, h.i_eq, wd_toNat i (by omega), if_neg (Nat.not_lt.2 hiN)]
    exact pbFlush_reaches (e := e.fit s.cfg) { h with } hi
  | cons b bs ih =>
    intro i acc accN out m e hbs hi h
    obtain ⟨hiN, hb, hrest⟩ := drop_range_map_cons hbs
    refine .visit ?_
    show Reaches (visitPbLoop _) _
    have hclear : m.clearOutputs .packBits = s.mem.clearOutputs .packBits := by
      rw [h.mem, clearOutputs_putBytes _ rfl]
    have hbit : (s.during .pbLoop m e).bitAt i = b := by
      rw [← hb, h.mem, putSeq_putByte_frame]; rfl
    have hacc : (BitVec.ofNat 4 accN).toNat = accN := by have := h.accN_lt; simp; omega
    have hout := h.out_le
    simp only [visitPbLoop, packLoop, during_eng, during_nIn h.ops, during_cfg, during_mem, h.i_eq, h.out_eq, h.acc_eq, h.accN_eq, hbit, hacc,
      wd_toNat i (by omega), wd_toNat out.length (by omega), if_pos hiN]
    cases hp : packBit s.cfg.yMax i b acc accN out.length with
    | stop r => exact .of_eq (during_raise h.ops hclear r)
    | byte y =>
      exact ih (i + 1) 0#8 0 (out ++ [y]) _ _ hrest hiN
        { ops := h.ops, mem := by rw [h.mem, putSeq_snoc], i_eq := rfl, out_eq := by simp, acc_eq := rfl, accN_eq := rfl,
          accN_lt := by omega, out_le := by simp; omega }
    | more acc' accN' =>
      exact ih (i + 1) acc' accN' out _ _ hrest hiN
        { ops := h.ops, mem := h.mem, i_eq := rfl, out_eq := rfl, acc_eq := rfl, accN_eq := rfl,
          accN_lt := packBit_more_lt h.accN_lt hp, out_le := by omega }

theorem packBits_reaches (s : State) (hp : s.phase = .pbCheck) : Reaches s (s.finish .packBits (s.result .packBits)) := by
  refine .visit ?_
  rw [phaseVisit, hp]
  simp only [visitPbCheck, State.result]
  split_ifs
  · exact .refl _
  · exact pbLoop_reaches s _ 0 0#8 0 [] s.mem _ rfl (Nat.zero_le _)
      { ops := .refl s, mem := rfl, i_eq := rfl, out_eq := rfl, acc_eq := rfl, accN_eq := rfl, accN_lt := by omega, out_le := Nat.le_refl _ }

/-- Each visit of `UB_LOOP` is one byte. -/
theorem ubLoop_reaches (s : State) (hcap : s.cfg.wf = true) (ys : List Byte) : ∀ (i : Nat) (out : List Bool) (m : Memory) (e : Engine),
    (s.bytesIn s.nIn).drop i = ys → LoopAt s i out.length (putSeq (Memory.putBit s.cfg) 0 out s.mem) m e → i ≤ s.nIn →
    out.length ≤ s.cfg.bMax →
    Reaches (s.during .ubLoop m e) (s.finish .unpackBits ((unpackLoop s.cfg.bMax i ys out).map .bits)) := by
  have hN := nIn_lt s
  obtain ⟨-, -, hB, -, -⟩ := caps_lt hcap
  induction ys with
  | nil =>
    intro i out m e hys h hi hlen
    have hiN := le_of_drop_range_map_nil hys
    refine .visit (.of_eq ?_)
    show visitUbLoop _ = _
    simp only [visitUbLoop, unpackLoop, during_eng, during_nIn h.ops, h.i_eq, h.out_eq, h.mem, wd_toNat i (by omega),
      wd_toNat out.length (by omega), if_neg (Nat.not_lt.2 hiN)]
    exact during_complete h.ops .unpackBits _ 0
  | cons y ys ih =>
    intro i out m e hys h hi hlen
    obtain ⟨hiN, hy, hrest⟩ := drop_range_map_cons hys
    have hclear : m.clearOutputs .unpackBits = s.mem.clearOutputs .unpackBits := by
      rw [h.mem, clearOutputs_putBits _ rfl]
    have hbyte : (s.during .ubLoop m e).byteAt i = y := by
      rw [← hy, h.mem, putSeq_putBit_frame]; rfl
    refine .visit ?_
    show Reaches (visitUbLoop _) _
    simp only [visitUbLoop, unpackLoop, during_eng, during_nIn h.ops, during_cfg, during_mem, h.i_eq, h.out_eq, hbyte,
      wd_toNat i (by omega), wd_toNat out.length (by omega), if_pos hiN]
    split_ifs with hfull
    · exact .of_eq (during_raise h.ops hclear _)
    · exact ih (i + 1) (out ++ byteBits y) _ _ hrest
        { ops := h.ops, mem := by rw [h.mem, putSeq_append_zero], i_eq := rfl, out_eq := by simp [byteBits] } hiN (by simp [byteBits]; omega)

theorem unpackBits_reaches (s : State) (hcap : s.cfg.wf = true) (hp : s.phase = .ubCheck) :
    Reaches s (s.finish .unpackBits (s.result .unpackBits)) := by
  refine .visit ?_
  rw [phaseVisit, hp]
  simp only [visitUbCheck, State.result]
  split_ifs
  · exact .refl _
  · exact ubLoop_reaches s hcap _ 0 [] s.mem _ rfl { ops := .refl s, mem := rfl, i_eq := rfl, out_eq := rfl } (Nat.zero_le _) (Nat.zero_le _)

/-- Settles O59: each loop visit is one iteration of the command-level loop. -/
theorem bitPackingPhasesAgree : Obligations.BitPackingPhasesAgree :=
  ⟨fun s hp => phases_agree_of_reaches (packBits_reaches s hp),
    fun s hcap hp => phases_agree_of_reaches (unpackBits_reaches s hcap hp)⟩

/-! `PACK_TOK`. -/

/-- The bytes of a token that passes its checks fit `BYTES` behind those before. -/
theorem packTok1_room {yMax i out : Nat} {t : Token} {ys : List Byte} (h : packTok1 yMax i t out = .ok ys) : out + ys.length ≤ yMax := by
  unfold packTok1 at h
  split at h
  · cases h
  · split_ifs at h with hfull
    cases h
    rw [tokBytes_length]
    omega

/-- Each visit of `PT_LOOP` is one token. -/
theorem ptLoop_reaches (s : State) (hcap : s.cfg.wf = true) (ts : List Token) : ∀ (i : Nat) (out : List Byte) (m : Memory) (e : Engine),
    (s.toksIn s.nIn).drop i = ts → LoopAt s i out.length (putSeq (Memory.putByte s.cfg) 0 out s.mem) m e → i ≤ s.nIn →
    out.length ≤ s.cfg.yMax →
    Reaches (s.during .ptLoop m e) (s.finish .packTok ((packTokLoop s.cfg.yMax i ts out).map .bytes)) := by
  have hN := nIn_lt s
  obtain ⟨-, -, -, hY, -⟩ := caps_lt hcap
  induction ts with
  | nil =>
    intro i out m e hts h hi hlen
    have hiN := le_of_drop_range_map_nil hts
    refine .visit (.of_eq ?_)
    show visitPtLoop _ = _
    simp only [visitPtLoop, packTokLoop, during_eng, during_nIn h.ops, h.i_eq, h.out_eq, h.mem, wd_toNat i (by omega),
      wd_toNat out.length (by omega), if_neg (Nat.not_lt.2 hiN)]
    exact during_complete h.ops .packTok _ 0
  | cons t ts ih =>
    intro i out m e hts h hi hlen
    obtain ⟨hiN, ht, hrest⟩ := drop_range_map_cons hts
    have hclear : m.clearOutputs .packTok = s.mem.clearOutputs .packTok := by
      rw [h.mem, clearOutputs_putBytes _ rfl]
    have htok : (s.during .ptLoop m e).tokAt i = t := by
      rw [← ht, h.mem, putSeq_putByte_frame]; rfl
    refine .visit ?_
    show Reaches (visitPtLoop _) _
    simp only [visitPtLoop, packTokLoop, during_eng, during_nIn h.ops, during_cfg, during_mem, h.i_eq, h.out_eq, htok,
      wd_toNat i (by omega), wd_toNat out.length (by omega), if_pos hiN]
    cases hp : packTok1 s.cfg.yMax i t out.length with
    | error r => exact .of_eq (during_raise h.ops hclear r)
    | ok ys =>
      exact ih (i + 1) (out ++ ys) _ _ hrest
        { ops := h.ops, mem := by rw [h.mem, putSeq_append_zero], i_eq := rfl, out_eq := by simp } hiN
        (by rw [List.length_append]; exact packTok1_room hp)

theorem packTok_reaches (s : State) (hcap : s.cfg.wf = true) (hp : s.phase = .ptCheck) :
    Reaches s (s.finish .packTok (s.result .packTok)) := by
  refine .visit ?_
  rw [phaseVisit, hp]
  simp only [visitPtCheck, State.result]
  split_ifs
  · exact .refl _
  · exact ptLoop_reaches s hcap _ 0 [] s.mem _ rfl { ops := .refl s, mem := rfl, i_eq := rfl, out_eq := rfl } (Nat.zero_le _) (Nat.zero_le _)

/-! `UNPACK_TOK`. -/

/-- A sequence with a delimiter is its part before, the delimiter, and its part after. -/
theorem eq_of_splitDelim {ys lit rest : List Byte} (h : splitDelim ys = some (lit, rest)) : ys = lit ++ Config.delim :: rest := by
  induction ys generalizing lit with
  | nil => cases h
  | cons y ys ih =>
    unfold splitDelim at h
    split_ifs at h with hy
    · cases h
      rw [hy]; rfl
    · obtain ⟨⟨lit', rest'⟩, hsplit, heq⟩ := Option.map_eq_some_iff.1 h
      cases heq
      rw [ih hsplit]; rfl

/-- What follows a token in the byte stream is a proper tail of it. -/
theorem eq_append_of_parseTok {ys rest : List Byte} {t : Token} (h : parseTok ys = some (t, rest)) :
    ∃ pre, pre ≠ [] ∧ ys = pre ++ rest := by
  unfold parseTok at h
  split at h
  · rename_i b0 b1 b2 r
    split at h
    · cases h
    · rename_i lit rest' hsplit
      obtain ⟨t', -, heq⟩ := Option.map_eq_some_iff.1 h
      cases heq
      refine ⟨b0 :: b1 :: b2 :: (lit ++ [Config.delim]), List.cons_ne_nil _ _, ?_⟩
      rw [eq_of_splitDelim hsplit]
      simp
  · cases h

/-- The loop of `UNPACK_TOK` before byte `p`, with the tokens `out` written. -/
structure UnpackTokAt (s : State) (p : Nat) (out : List Token) (m : Memory) (e : Engine) : Prop where
  ops : SameOperands s e
  mem : m = putSeq (Memory.putTok s.cfg) 0 out s.mem
  p_eq : e.p = wd p
  out_eq : e.out = wd out.length
  out_le : out.length ≤ p

/-- At the end of the bytes the loop completes. -/
theorem utLoop_reaches_of_end {s : State} {p : Nat} {out : List Token} {m : Memory} {e : Engine} (h : UnpackTokAt s p out m e)
    (hp : p = s.nIn) : Reaches (s.during .utLoop m e) (s.finish .unpackTok (.ok (.toks out))) := by
  have hN := nIn_lt s
  have hout := h.out_le
  refine .visit (.of_eq ?_)
  show visitUtLoop _ = _
  simp only [visitUtLoop, during_eng, during_nIn h.ops, h.p_eq, h.out_eq, h.mem, wd_toNat p (by omega), wd_toNat out.length (by omega),
    if_neg (show ¬ p < s.nIn by omega)]
  exact during_complete h.ops .unpackTok _ 0

/-- Each visit of `UT_LOOP` is one token, as many bytes as it has. -/
theorem utLoop_reaches (s : State) (f : Nat) : ∀ (p : Nat) (ys : List Byte) (out : List Token) (m : Memory) (e : Engine),
    (s.bytesIn s.nIn).drop p = ys → p + ys.length = s.nIn → ys.length ≤ f → UnpackTokAt s p out m e →
    Reaches (s.during .utLoop m e) (s.finish .unpackTok ((unpackTokLoop s.cfg.tMax f p ys out).map .toks)) := by
  have hN := nIn_lt s
  induction f with
  | zero =>
    intro p ys out m e hys hlen hf h
    obtain rfl := List.length_eq_zero_iff.1 (Nat.le_zero.1 hf)
    exact utLoop_reaches_of_end h hlen
  | succ f ih =>
    intro p ys out m e hys hlen hf h
    have hout := h.out_le
    cases ys with
    | nil => exact utLoop_reaches_of_end h hlen
    | cons y ys =>
      have hp : p < s.nIn := by rw [List.length_cons] at hlen; omega
      have hclear : m.clearOutputs .unpackTok = s.mem.clearOutputs .unpackTok := by
        rw [h.mem, clearOutputs_putToks _ rfl]
      have hbytes : ((s.during .utLoop m e).bytesIn s.nIn).drop p = y :: ys := by
        rw [← hys, h.mem, putSeq_putTok_frame]; rfl
      refine .visit ?_
      show Reaches (visitUtLoop _) _
      simp only [visitUtLoop, unpackTokLoop, during_eng, during_nIn h.ops, during_cfg, during_mem, h.p_eq, h.out_eq, hbytes,
        wd_toNat p (by omega), wd_toNat out.length (by omega), if_pos hp]
      cases hparse : parseTok (y :: ys) with
      | none => exact .of_eq (during_raise h.ops hclear _)
      | some tr =>
        obtain ⟨t, rest⟩ := tr
        obtain ⟨pre, hpre, heq⟩ := eq_append_of_parseTok hparse
        have hpos := List.length_pos_of_ne_nil hpre
        rw [heq, List.length_append] at hlen hf
        have hnext : s.nIn - rest.length = p + pre.length := by omega
        simp only [hnext, heq, List.length_append, Nat.add_sub_cancel]
        split_ifs with hfull
        · exact .of_eq (during_raise h.ops hclear _)
        · exact ih (p + pre.length) rest (out ++ [t]) _ _ (by rw [← List.drop_drop, hys, heq, List.drop_left]) (by omega) (by omega)
            { ops := h.ops, mem := by rw [h.mem, putSeq_snoc], p_eq := rfl, out_eq := by simp, out_le := by simp; omega }

theorem unpackTok_reaches (s : State) (hp : s.phase = .utCheck) : Reaches s (s.finish .unpackTok (s.result .unpackTok)) := by
  refine .visit ?_
  rw [phaseVisit, hp]
  simp only [visitUtCheck, State.result]
  split_ifs
  · exact .refl _
  · exact utLoop_reaches s _ 0 _ [] s.mem _ rfl (by simp [State.bytesIn]) (Nat.le_refl _)
      { ops := .refl s, mem := rfl, p_eq := rfl, out_eq := rfl, out_le := Nat.le_refl _ }

/-- Settles O60: each loop visit is one token of the command-level loop. -/
theorem tokenPackingPhasesAgree : Obligations.TokenPackingPhasesAgree :=
  ⟨fun s hcap hp => phases_agree_of_reaches (packTok_reaches s hcap hp),
    fun s hp => phases_agree_of_reaches (unpackTok_reaches s hp)⟩

end Sys2Proof.Machine
end

section
/-! SUPPORT. The phases of `HUF_DEC` (41_huffman.md R159): one visit of `D_SCAN` per bit, with the candidate in its registers. -/

namespace Sys2Proof.Machine

section
variable {s u : State}

theorem codeFrom_congr (hb : u.mem.ctBits = s.mem.ctBits) (hc : u.cfg = s.cfg) (hf : u.free = s.free) (hn : u.nIn = s.nIn) (j c w : Nat) :
    u.codeFrom j c w = s.codeFrom j c w := by
  induction c generalizing w with
  | zero => rfl
  | succ c ih => simp only [State.codeFrom, ih, State.codeWordAt, State.ctFree, hb, hc, hf, hn]

/-- A code table is read from the three lists of `CT`, and where an element is unspecified from the free values. -/
theorem ctIn_congr (hs : u.mem.ctSym = s.mem.ctSym) (hl : u.mem.ctLen = s.mem.ctLen) (hb : u.mem.ctBits = s.mem.ctBits)
    (hc : u.cfg = s.cfg) (hf : u.free = s.free) (hn : u.nIn = s.nIn) (k : Nat) : u.ctIn k = s.ctIn k := by
  refine List.map_congr_left fun j _ => ?_
  simp only [State.ctAt, State.ctFree, codeFrom_congr hb hc hf hn, hs, hl, hc, hf, hn]

end

/-- The candidate before bit `i` is shorter than the longest code and fits its registers. -/
structure CandOk (lMax i : Nat) (c : Cand) : Prop where
  len_lt : c.len < lMax
  val_lt : c.val < 2 ^ c.len
  len_le : c.len ≤ i
  start_le : c.start ≤ i

theorem lMax_pos (p : Config.Params) : 0 < p.lMax := by
  unfold Config.Params.lMax; omega

theorem CandOk.empty (p : Config.Params) : CandOk p.lMax 0 Cand.empty :=
  ⟨lMax_pos p, by simp [Cand.empty], Nat.le_refl _, Nat.le_refl _⟩

/-- A symbol empties the candidate. -/
theorem CandOk.of_emit {nMax lMax i out : Nat} {tbl : List CtEntry} {b : Bool} {c c' : Cand} {x : Sym} (h : CandOk lMax i c)
    (hs : scanBit nMax lMax tbl i b c out = .emit x c') : CandOk lMax (i + 1) c' := by
  have hstart := h.start_le
  unfold scanBit at hs
  dsimp only at hs
  split at hs
  · split_ifs at hs
    all_goals cases hs; exact ⟨Nat.zero_lt_of_lt h.len_lt, Nat.one_pos, Nat.zero_le _, by dsimp only; omega⟩
  · split_ifs at hs

/-- A longer candidate is still shorter than the longest code (41_huffman.md R152). -/
theorem CandOk.of_more {nMax lMax i out : Nat} {tbl : List CtEntry} {b : Bool} {c c' : Cand} (h : CandOk lMax i c)
    (hs : scanBit nMax lMax tbl i b c out = .more c') : CandOk lMax (i + 1) c' := by
  have hstart := h.start_le
  have hlen := h.len_lt
  have hle := h.len_le
  have hbit : 2 * c.val + b.toNat < 2 ^ (c.len + 1) := by
    have := h.val_lt
    have := Bool.toNat_lt b
    rw [Nat.pow_succ]
    omega
  unfold scanBit at hs
  dsimp only at hs
  split at hs
  · split_ifs at hs
  · split_ifs at hs with hfull
    all_goals cases hs; exact ⟨by dsimp only; omega, hbit, by dsimp only; omega, by dsimp only; omega⟩

/-- The scan of `HUF_DEC` before bit `i`, with the symbols `out` written and the candidate in its registers. -/
structure ScanAt (s : State) (i : Nat) (c : Cand) (out : List Sym) (m : Memory) (e : Engine) : Prop
    extends LoopAt s i out.length (putSeq (Memory.putText s.cfg) 0 out s.mem) m e where
  cand_eq : e.cand = c.val
  candLen_eq : e.candLen = wd c.len
  candStart_eq : e.candStart = wd c.start
  ok : CandOk s.cfg.lMax i c
  out_le : out.length ≤ i

/-- A candidate of fewer than `L_MAX` bits is held as it is (10_state.md R40). -/
theorem setCand_fit_cand {p : Config.Params} {i : Nat} {c : Cand} (h : CandOk p.lMax i c) (e : Engine) :
    ((e.setCand c).fit p).cand = c.val :=
  Nat.mod_eq_of_lt (h.val_lt.trans (Nat.pow_lt_pow_right Nat.one_lt_two h.len_lt))

/-- The end of input (41_huffman.md R153). -/
theorem dEnd_reaches {s : State} {i : Nat} {c : Cand} {out : List Sym} {m : Memory} {e : Engine} (h : ScanAt s i c out m e) (hi : i ≤ s.nIn) :
    Reaches (s.during .dEnd m e) (s.finish .hufDec ((scanLoop s.cfg.nMax s.cfg.lMax (s.ctIn s.kIn) i [] c out).map .text)) := by
  have hN := nIn_lt s
  have hout := h.out_le
  have hlen := h.ok.len_le
  have hstart := h.ok.start_le
  refine .visit (.of_eq ?_)
  show visitDEnd _ = _
  have hzero : wd c.len ≠ 0#32 ↔ c.len > 0 := by
    rw [Ne, ← BitVec.toNat_inj, wd_toNat c.len (by omega)]
    exact Nat.pos_iff_ne_zero.symm
  simp only [visitDEnd, scanLoop, during_eng, h.candLen_eq, h.candStart_eq, h.out_eq, wd_toNat c.start (by omega),
    wd_toNat out.length (by omega), hzero]
  split_ifs
  · exact during_raise h.ops (by rw [h.mem, clearOutputs_putText _ rfl]) _
  · rw [h.mem]
    exact during_complete h.ops .hufDec _ 0

/-- Each visit of `D_SCAN` is one bit. -/
theorem dScan_reaches (s : State) (bs : List Bool) : ∀ (i : Nat) (c : Cand) (out : List Sym) (m : Memory) (e : Engine),
    (s.bitsIn s.nIn).drop i = bs → i ≤ s.nIn → ScanAt s i c out m e →
    Reaches (s.during .dScan m e) (s.finish .hufDec ((scanLoop s.cfg.nMax s.cfg.lMax (s.ctIn s.kIn) i bs c out).map .text)) := by
  have hN := nIn_lt s
  induction bs with
  | nil =>
    intro i c out m e hbs hi h
    have hiN := le_of_drop_range_map_nil hbs
    refine .visit ?_
    show Reaches (visitDScan _) _
    simp only [visitDScan, during_eng, during_nIn h.ops, h.i_eq, wd_toNat i (by omega), if_neg (Nat.not_lt.2 hiN)]
    exact dEnd_reaches (e := e.fit s.cfg) { h with
      cand_eq := by
        rw [← h.cand_eq]
        exact Nat.mod_eq_of_lt (by rw [h.cand_eq]; exact h.ok.val_lt.trans (Nat.pow_lt_pow_right Nat.one_lt_two h.ok.len_lt)) } hi
  | cons b bs ih =>
    intro i c out m e hbs hi h
    obtain ⟨hiN, hb, hrest⟩ := drop_range_map_cons hbs
    have hout := h.out_le
    have hlen := h.ok.len_le
    have hstart := h.ok.start_le
    have hclear : m.clearOutputs .hufDec = s.mem.clearOutputs .hufDec := by rw [h.mem, clearOutputs_putText _ rfl]
    have hbit : (s.during .dScan m e).bitAt i = b := by
      rw [← hb, h.mem, putSeq_putText_frame]; rfl
    have htbl : (s.during .dScan m e).ctIn s.kIn = s.ctIn s.kIn := by
      refine ctIn_congr (s := s) (u := s.during .dScan m e) ?_ ?_ ?_ rfl rfl (during_nIn h.ops) _ <;> rw [during_mem, h.mem, putSeq_putText_frame]
    have hcand : e.getCand = c := by
      rw [Engine.getCand, h.cand_eq, h.candLen_eq, h.candStart_eq, wd_toNat _ (by omega), wd_toNat _ (by omega)]
    refine .visit ?_
    show Reaches (visitDScan _) _
    simp only [visitDScan, scanLoop, during_eng, during_nIn h.ops, during_kIn h.ops, during_cfg, during_mem, h.i_eq, h.out_eq, hbit, htbl, hcand,
      wd_toNat i (by omega), wd_toNat out.length (by omega), if_pos hiN]
    cases hscan : scanBit s.cfg.nMax s.cfg.lMax (s.ctIn s.kIn) i b c out.length with
    | stop r => exact .of_eq (during_raise h.ops hclear r)
    | emit x c' =>
      have hok := h.ok.of_emit hscan
      exact ih (i + 1) c' (out ++ [x]) _ _ hrest hiN
        { ops := h.ops, mem := by rw [h.mem, putSeq_snoc], i_eq := rfl, out_eq := by simp; rfl, cand_eq := setCand_fit_cand hok _,
          candLen_eq := rfl, candStart_eq := rfl, ok := hok, out_le := by simp; omega }
    | more c' =>
      have hok := h.ok.of_more hscan
      exact ih (i + 1) c' out _ _ hrest hiN
        { ops := h.ops, mem := h.mem, i_eq := rfl, out_eq := rfl, cand_eq := setCand_fit_cand hok _,
          candLen_eq := rfl, candStart_eq := rfl, ok := hok, out_le := by omega }

theorem hufDec_reaches (s : State) (hp : s.phase = .dCheck) : Reaches s (s.finish .hufDec (s.result .hufDec)) := by
  refine .visit ?_
  rw [phaseVisit, hp]
  simp only [visitDCheck, State.result, hufDecode]
  split_ifs
  · exact .refl _
  · exact .refl _
  · cases checkTable s.cfg.lMax 0 (s.ctIn s.kIn) [] with
    | some j => exact .refl _
    | none =>
      exact dScan_reaches s _ 0 Cand.empty [] s.mem _ rfl (Nat.zero_le _)
        { ops := .refl s, mem := rfl, i_eq := rfl, out_eq := rfl, cand_eq := setCand_fit_cand (.empty _) _, candLen_eq := rfl,
          candStart_eq := rfl, ok := .empty _, out_le := Nat.le_refl _ }

/-- Settles O56: each visit of `D_SCAN` is one bit of the scan, whose candidate stays shorter than `L_MAX` bits. -/
theorem hufDecPhasesAgree : Obligations.HufDecPhasesAgree := fun s hp => phases_agree_of_reaches (hufDec_reaches s hp)

end Sys2Proof.Machine
end

section
/-! SUPPORT. The phases of `LZ_DEC` (42_lz77.md R203): a token is its copy, symbol by symbol, and its literal. -/

namespace Sys2Proof.Machine

/-- The command-level loop on a token: its copy, its literal, and the tokens after it. -/
theorem lzDecLoop_cons_map {β : Type} (f : List Sym → β) (nMax i : Nat) (t : Token) (ts : List Token) (out : List Sym) :
    (lzDecLoop nMax i (t :: ts) out).map f = (copyTok nMax t out).elim (.error ⟨.capacityExceeded, i⟩) fun out1 =>
      (litTok nMax t out1).elim (.error ⟨.capacityExceeded, i⟩) fun out2 => (lzDecLoop nMax (i + 1) ts out2).map f := by
  rw [lzDecLoop]
  cases copyTok nMax t out with
  | none => rfl
  | some out1 =>
    dsimp only [Option.elim_some]
    cases litTok nMax t out1 <;> rfl

/-- What has been written of a text reads back. -/
theorem textAt_written {s : State} {ph : Phase} {e : Engine} {out : List Sym} {k : Nat} (hk : k < out.length) (hcap : out.length ≤ s.cfg.nMax) :
    (s.during ph (putSeq (Memory.putText s.cfg) 0 out s.mem) e).textAt k = (out[k]?).getD 0#21 := by
  rw [State.textAt, during_mem, get_putSeq_text, if_pos ⟨Nat.zero_le _, by omega, by omega⟩, Nat.sub_zero, List.getElem?_eq_getElem hk]
  rfl

/-- `LZ_DEC` in token `i`, with the symbols `out` written. -/
structure LzDecAt (s : State) (i : Nat) (out : List Sym) (m : Memory) (e : Engine) : Prop
    extends LoopAt s i out.length (putSeq (Memory.putText s.cfg) 0 out s.mem) m e where
  i_lt : i < s.nIn
  out_le : out.length ≤ s.cfg.nMax

section
variable {s : State} {ph : Phase} {i : Nat} {out : List Sym} {m : Memory} {e : Engine}

theorem LzDecAt.tokAt (h : LzDecAt s i out m e) : (s.during ph m e).tokAt i = s.tokAt i := by
  rw [h.mem, putSeq_putText_frame]; rfl

theorem LzDecAt.raise (h : LzDecAt s i out m e) (r : Raise) : (s.during ph m e).raise (some .lzDec) r = s.raise (some .lzDec) r :=
  during_raise h.ops (by rw [h.mem, clearOutputs_putText _ rfl]) r

theorem LzDecAt.complete (h : LzDecAt s i out m e) :
    (s.during ph m e).complete .lzDec out.length 0 = s.finish .lzDec (.ok (.text out)) := by
  rw [during_complete h.ops, h.mem]; rfl

theorem LzDecAt.i_toNat (h : LzDecAt s i out m e) : e.i.toNat = i := by
  rw [h.i_eq, wd_toNat _ (h.i_lt.trans (nIn_lt s))]

theorem LzDecAt.out_toNat (h : LzDecAt s i out m e) (hcap : s.cfg.wf = true) : e.out.toNat = out.length := by
  rw [h.out_eq, wd_toNat _ (h.out_le.trans_lt (caps_lt hcap).1)]

end

/-- The copy of token `i` from its symbol `j` on: `l` symbols are left. `R` is what the command makes of the text after the copy. -/
theorem zCopy_reaches {s : State} (hcap : s.cfg.wf = true) {i start : Nat} {t : Token} (ht : s.tokAt i = t) (hd : t.dist ≠ 0#32)
    {R : List Sym → Except Raise Output}
    (hR : ∀ out1 m1 e1, LzDecAt s i out1 m1 e1 → Reaches (s.during .zLit m1 e1) (s.finish .lzDec (R out1))) (l : Nat) :
    ∀ (j : Nat) (out : List Sym) (m : Memory) (e : Engine), LzDecAt s i out m e → j + l = t.len.toNat → e.j = wd j →
      (if j = 0 then copyStart t.dist.toNat out.length else e.p.toNat) = start → start + j < out.length →
      Reaches (s.during .zCopy m e) (s.finish .lzDec ((copyLoop s.cfg.nMax start l j out).elim (.error ⟨.capacityExceeded, i⟩) R)) := by
  have hlen := t.len.isLt
  have hcap' := (caps_lt hcap).1
  induction l with
  | zero =>
    intro j out m e h hj hej hstart hlt
    refine .visit ?_
    show Reaches (visitZCopy _) _
    simp only [visitZCopy, during_eng, h.i_toNat, h.tokAt, ht, h.out_toNat hcap, hej, wd_toNat j (by omega),
      if_neg (show ¬ (t.dist ≠ 0#32 ∧ out.length ≠ 0 ∧ j < t.len.toNat) by omega)]
    exact hR out m (e.fit s.cfg) { h with }
  | succ l ih =>
    intro j out m e h hj hej hstart hlt
    have hout := h.out_le
    refine .visit ?_
    show Reaches (visitZCopy _) _
    simp only [visitZCopy, copyLoop, during_eng, during_cfg, during_mem, h.i_toNat, h.tokAt, ht, h.out_toNat hcap, hej, wd_toNat j (by omega), hstart,
      if_pos (show t.dist ≠ 0#32 ∧ out.length ≠ 0 ∧ j < t.len.toNat from ⟨hd, by omega, by omega⟩)]
    split_ifs with hfull
    · exact .of_eq (h.raise _)
    · have hsym : (s.during .zCopy m e).textAt (start + j) = (out[start + j]?).getD 0#21 := by
        rw [h.mem]; exact textAt_written hlt hout
      rw [hsym]
      refine ih (j + 1) (out ++ [(out[start + j]?).getD 0#21]) _ _ ?_ (by omega) rfl ?_ (by simp; omega)
      · exact { ops := h.ops, mem := by rw [h.mem, putSeq_snoc], i_eq := h.i_eq, out_eq := by simp, i_lt := h.i_lt, out_le := by simp; omega }
      · rw [if_neg (Nat.succ_ne_zero j)]
        exact wd_toNat start (by omega)

/-- A copy starts inside what has been produced (42_lz77.md R197). -/
theorem copyStart_lt {d out : Nat} (hd : d ≠ 0) (hout : out ≠ 0) : copyStart d out < out := by
  unfold copyStart
  split <;> omega

/-- The guarded copy of token `i` (42_lz77.md R199), and then its literal. -/
theorem zTok_reaches {s : State} (hcap : s.cfg.wf = true) {i : Nat} {t : Token} (ht : s.tokAt i = t) {R : List Sym → Except Raise Output}
    (hR : ∀ out1 m1 e1, LzDecAt s i out1 m1 e1 → Reaches (s.during .zLit m1 e1) (s.finish .lzDec (R out1)))
    {out : List Sym} {m : Memory} {e : Engine} (h : LzDecAt s i out m e) (hj : e.j = 0#32) :
    Reaches (s.during .zCopy m e) (s.finish .lzDec ((copyTok s.cfg.nMax t out).elim (.error ⟨.capacityExceeded, i⟩) R)) := by
  unfold copyTok
  split_ifs with hcopy
  · have hd : t.dist.toNat ≠ 0 := fun h0 => hcopy.1 (BitVec.eq_of_toNat_eq h0)
    exact zCopy_reaches hcap ht hcopy.1 hR _ 0 out m e h (Nat.zero_add _) hj rfl (copyStart_lt hd hcopy.2)
  · refine .visit ?_
    show Reaches (visitZCopy _) _
    simp only [visitZCopy, during_eng, h.i_toNat, h.tokAt, ht, h.out_toNat hcap, hj,
      if_neg (show ¬ (t.dist ≠ 0#32 ∧ out.length ≠ 0 ∧ (0#32).toNat < t.len.toNat) from fun hc => hcopy ⟨hc.1, hc.2.1⟩)]
    exact hR out m (e.fit s.cfg) { h with }

/-- The literal of token `i`. `R` is what the command makes of the text after it. -/
theorem zLit_reaches {s : State} (hcap : s.cfg.wf = true) {i : Nat} {t : Token} (ht : s.tokAt i = t) {R : List Sym → Except Raise Output}
    {out : List Sym} {m : Memory} {e : Engine} (h : LzDecAt s i out m e)
    (hR : ∀ out2 m2, m2 = putSeq (Memory.putText s.cfg) 0 out2 s.mem → out2.length ≤ s.cfg.nMax →
      Reaches (nextTok out2.length (s.during .zLit m2 e)) (s.finish .lzDec (R out2))) :
    Reaches (s.during .zLit m e) (s.finish .lzDec ((litTok s.cfg.nMax t out).elim (.error ⟨.capacityExceeded, i⟩) R)) := by
  have hout := h.out_le
  refine .visit ?_
  show Reaches (visitZLit _) _
  simp only [visitZLit, litTok, during_eng, during_cfg, during_mem, h.i_toNat, h.tokAt, ht, h.out_toNat hcap]
  split_ifs with hnext hfull
  · exact .of_eq (h.raise _)
  · have := hR (out ++ [t.next]) (m.putText s.cfg out.length t.next) (by rw [h.mem, putSeq_snoc]) (by simp; omega)
    rwa [List.length_append] at this
  · exact hR out m h.mem hout

/-- After the literal of token `i`, with `out` written: the next token, or completion. -/
theorem nextTok_reaches {s : State} {i : Nat} {out : List Sym} {m : Memory} {e : Engine} {ts : List Token}
    (hts : (s.toksIn s.nIn).drop (i + 1) = ts) (hops : SameOperands s e) (hi : e.i = wd i) (hiN : i < s.nIn)
    (hm : m = putSeq (Memory.putText s.cfg) 0 out s.mem) (hlen : out.length ≤ s.cfg.nMax)
    (ih : ∀ m' e', LzDecAt s (i + 1) out m' e' → e'.j = 0#32 →
      Reaches (s.during .zCopy m' e') (s.finish .lzDec ((lzDecLoop s.cfg.nMax (i + 1) ts out).map .text))) :
    Reaches (nextTok out.length (s.during .zLit m e)) (s.finish .lzDec ((lzDecLoop s.cfg.nMax (i + 1) ts out).map .text)) := by
  simp only [nextTok, during_eng, hi, wd_toNat i (hiN.trans (nIn_lt s)), during_nIn hops]
  split_ifs with hnext
  · exact ih _ _ { ops := hops, mem := hm, i_eq := rfl, out_eq := rfl, i_lt := hnext, out_le := hlen } rfl
  · have hnil : ts = [] := by
      rw [← hts]
      exact List.drop_eq_nil_of_le (by simpa [State.toksIn] using hnext)
    rw [hnil, during_complete hops, hm]
    exact .refl _

/-- The visits of one token after the other. -/
theorem lzDecLoop_reaches (s : State) (hcap : s.cfg.wf = true) (ts : List Token) : ∀ (i : Nat) (out : List Sym) (m : Memory) (e : Engine),
    (s.toksIn s.nIn).drop i = ts → LzDecAt s i out m e → e.j = 0#32 →
    Reaches (s.during .zCopy m e) (s.finish .lzDec ((lzDecLoop s.cfg.nMax i ts out).map .text)) := by
  induction ts with
  | nil =>
    intro i out m e hts h _
    exact absurd h.i_lt (Nat.not_lt.2 (le_of_drop_range_map_nil hts))
  | cons t ts ih =>
    intro i out m e hts h hj
    obtain ⟨-, ht, hrest⟩ := drop_range_map_cons hts
    rw [lzDecLoop_cons_map]
    refine zTok_reaches hcap ht (fun out1 m1 e1 h1 => zLit_reaches hcap ht h1 fun out2 m2 hm2 hlen2 => ?_) h hj
    exact nextTok_reaches hrest h1.ops h1.i_eq h1.i_lt hm2 hlen2 fun m' e' h' hj' => ih (i + 1) out2 m' e' hrest h' hj'

theorem lzDec_reaches (s : State) (hcap : s.cfg.wf = true) (hp : s.phase = .zInit) : Reaches s (s.finish .lzDec (s.result .lzDec)) := by
  refine .visit ?_
  rw [phaseVisit, hp]
  simp only [visitZInit, State.result]
  split_ifs with hbig hpos
  · exact .refl _
  · exact lzDecLoop_reaches s hcap _ 0 [] s.mem _ rfl
      { ops := .refl s, mem := rfl, i_eq := rfl, out_eq := rfl, i_lt := hpos, out_le := Nat.zero_le _ } rfl
  · have hnil : s.toksIn s.nIn = [] := by
      rw [Nat.eq_zero_of_not_pos hpos]; rfl
    rw [hnil]
    exact .refl _

/-- Settles O58: a token's copy is one visit per symbol, reading back what the visits before have written, and its literal is one more. -/
theorem lzDecPhasesAgree : Obligations.LzDecPhasesAgree := fun s hcap hp => phases_agree_of_reaches (lzDec_reaches s hcap hp)

end Sys2Proof.Machine
end

section
/-! SUPPORT. The phases of `LZ_ENC` (42_lz77.md R190): the comparison inside the search inside the main loop. -/

namespace Sys2Proof.Machine

/-- The matcher of `LZ_ENC` at position `p`, with the tokens `out` written: the next offset to try is `off` and the best match so far `b`. -/
structure SearchAt (s : State) (p : Nat) (out : List Token) (off : Nat) (b : Best) (m : Memory) (e : Engine) : Prop where
  ops : SameOperands s e
  mem : m = putSeq (Memory.putTok s.cfg) 0 out s.mem
  p_eq : e.p = wd p
  out_eq : e.out = wd out.length
  off_eq : e.off = wd off
  bestLen_eq : e.bestLen = wd b.len
  bestDist_eq : e.bestDist = wd b.dist
  p_lt : p < s.nIn
  out_le : out.length ≤ p
  off_le : off ≤ p + 1
  len_le : p + b.len ≤ s.nIn
  dist_le : b.dist ≤ p + 1

section
variable {s : State} {ph : Phase} {p off : Nat} {out : List Token} {b : Best} {m : Memory} {e : Engine}

theorem SearchAt.p_toNat (h : SearchAt s p out off b m e) : e.p.toNat = p := by
  rw [h.p_eq, wd_toNat _ (h.p_lt.trans (nIn_lt s))]

theorem SearchAt.out_toNat (h : SearchAt s p out off b m e) : e.out.toNat = out.length := by
  rw [h.out_eq, wd_toNat _ (h.out_le.trans_lt (h.p_lt.trans (nIn_lt s)))]

theorem SearchAt.off_toNat (h : SearchAt s p out off b m e) : e.off.toNat = off := by
  rw [h.off_eq, wd_toNat _ ((h.off_le.trans h.p_lt).trans_lt (nIn_lt s))]

theorem SearchAt.best_eq (h : SearchAt s p out off b m e) : e.best = b := by
  have hN := nIn_lt s
  have := h.len_le
  have := h.dist_le
  have := h.p_lt
  rw [Engine.best, h.bestLen_eq, h.bestDist_eq, wd_toNat _ (by omega), wd_toNat _ (by omega)]

theorem SearchAt.textAt (h : SearchAt s p out off b m e) (k : Nat) : (s.during ph m e).textAt k = s.textAt k := by
  rw [h.mem, putSeq_putTok_frame]; rfl

theorem SearchAt.inText (h : SearchAt s p out off b m e) : (s.during ph m e).inText = s.textIn s.nIn := by
  rw [State.inText, during_nIn h.ops, h.mem, putSeq_putTok_frame]; rfl

end

theorem drop_textIn (s : State) {n j : Nat} (h : j < n) : (s.textIn n).drop j = s.textAt j :: (s.textIn n).drop (j + 1) := by
  rw [List.drop_eq_getElem_cons (by simpa [State.textIn] using h)]
  simp [State.textIn]

theorem commonPrefix_nil_right (xs : List Sym) : commonPrefix xs [] = 0 := by
  cases xs <;> rfl

/-- The comparison at an offset ends after `k` symbols: the tie rule (42_lz77.md R185) and the next offset. -/
theorem lCompare_stops {s T : State} {p off k : Nat} {out : List Token} {b : Best} {m : Memory} {e : Engine} (h : SearchAt s p out off b m e)
    (hoff : off ≤ p) (hk : p + k ≤ s.nIn) (hmlen : e.mlen = wd k) (hstop : ¬ (p + k < s.nIn ∧ s.textAt (p - off + k) = s.textAt (p + k)))
    (hT : ∀ e', SearchAt s p out (off + 1) (b.update k off) m e' → Reaches (s.during .lSearch m e') T) :
    Reaches (s.during .lCompare m e) T := by
  have hN := nIn_lt s
  have hlen := h.len_le
  have hdist := h.dist_le
  refine .visit ?_
  show Reaches (visitLCompare _) _
  simp only [visitLCompare, during_eng, during_nIn h.ops, h.p_toNat, h.off_toNat, h.best_eq, h.textAt, hmlen, wd_toNat k (by omega),
    if_neg hstop]
  exact hT _
    { ops := h.ops, mem := h.mem, p_eq := h.p_eq, out_eq := h.out_eq, off_eq := rfl, bestLen_eq := rfl, bestDist_eq := rfl
      p_lt := h.p_lt, out_le := h.out_le, off_le := by omega
      len_le := by unfold Best.update; split <;> assumption
      dist_le := by unfold Best.update; split; exacts [Nat.le_succ_of_le hoff, hdist] }

/-- The comparison at an offset from its symbol `k` on: its visits go as far as the two positions of the text agree. -/
theorem lCompare_reaches {s T : State} {p off : Nat} {out : List Token} {b : Best} {m : Memory} (ys : List Sym) :
    ∀ (k : Nat) (e : Engine), (s.textIn s.nIn).drop (p + k) = ys → SearchAt s p out off b m e → off ≤ p → p + k ≤ s.nIn → e.mlen = wd k →
      (∀ e', SearchAt s p out (off + 1) (b.update (k + commonPrefix ((s.textIn s.nIn).drop (p - off + k)) ys) off) m e' →
        Reaches (s.during .lSearch m e') T) →
      Reaches (s.during .lCompare m e) T := by
  have hN := nIn_lt s
  induction ys with
  | nil =>
    intro k e hys h hoff hk hmlen hT
    have hend := le_of_drop_range_map_nil hys
    rw [commonPrefix_nil_right] at hT
    exact lCompare_stops h hoff hk hmlen (fun hc => absurd hc.1 (Nat.not_lt.2 hend)) hT
  | cons y ys ih =>
    intro k e hys h hoff hk hmlen hT
    obtain ⟨hkN, hy, hrest⟩ := drop_range_map_cons hys
    rw [drop_textIn s (show p - off + k < s.nIn by omega), commonPrefix, ← hy] at hT
    by_cases heq : s.textAt (p - off + k) = s.textAt (p + k)
    · rw [if_pos heq, ← Nat.add_assoc, Nat.add_right_comm] at hT
      refine .visit ?_
      show Reaches (visitLCompare _) _
      simp only [visitLCompare, during_eng, during_nIn h.ops, h.p_toNat, h.off_toNat, h.textAt, hmlen, wd_toNat k (by omega),
        if_pos (And.intro hkN heq)]
      exact ih (k + 1) _ hrest { h with } hoff hkN rfl hT
    · rw [if_neg heq] at hT
      exact lCompare_stops h hoff hk hmlen (fun hc => heq hc.2) hT

/-- The search at a position from offset `off` on, with `c` offsets left (42_lz77.md R183). -/
theorem lSearch_reaches {s T : State} {p : Nat} {out : List Token} {m : Memory} (c : Nat) : ∀ (off : Nat) (b : Best) (e : Engine),
    SearchAt s p out off b m e → off + c = min s.wIn p + 1 →
      (∀ off' e', SearchAt s p out off' (searchFrom (s.textIn s.nIn) p c off b) m e' → Reaches (s.during .lEmit m e') T) →
      Reaches (s.during .lSearch m e) T := by
  induction c with
  | zero =>
    intro off b e h hc hT
    refine .visit ?_
    show Reaches (visitLSearch _) _
    simp only [visitLSearch, during_eng, during_wIn h.ops, h.p_toNat, h.off_toNat, if_neg (show ¬ off ≤ min s.wIn p by omega)]
    exact hT off _ { h with }
  | succ c ih =>
    intro off b e h hc hT
    refine .visit ?_
    show Reaches (visitLSearch _) _
    simp only [visitLSearch, during_eng, during_wIn h.ops, h.p_toNat, h.off_toNat, if_pos (show off ≤ min s.wIn p by omega)]
    exact lCompare_reaches (s := s) (off := off) (b := b) (out := out) _ 0 _ rfl { h with } (by omega) (Nat.le_of_lt h.p_lt) rfl fun e' h' =>
      ih (off + 1) _ e' (by rw [Nat.zero_add] at h'; exact h') (by omega) hT

/-- Past the end of the text the main loop delivers what it has. -/
theorem lzLoop_of_length_le {tMax w f p : Nat} {text : List Sym} {out : List Token} (h : text.length ≤ p) :
    lzLoop tMax w text f p out = .ok out := by
  cases f with
  | zero => rfl
  | succ f => rw [lzLoop, if_neg (Nat.not_lt.2 h)]

theorem textIn_length (s : State) (n : Nat) : (s.textIn n).length = n := by simp [State.textIn]

/-- Each position of the main loop is a search and one token, and the position advances (42_lz77.md R182, R187). -/
theorem lzLoop_reaches (s : State) (f : Nat) : ∀ (p : Nat) (out : List Token) (m : Memory) (e : Engine),
    SearchAt s p out 1 Best.zero m e → s.nIn ≤ f + p →
    Reaches (s.during .lSearch m e) (s.finish .lzEnc ((lzLoop s.cfg.tMax s.wIn (s.textIn s.nIn) f p out).map .toks)) := by
  induction f with
  | zero =>
    intro p out m e h hf
    have := h.p_lt
    omega
  | succ f ih =>
    intro p out m e h hf
    refine lSearch_reaches (min s.wIn p) 1 Best.zero e h (Nat.add_comm _ _) fun off' e' h' => ?_
    change SearchAt s p out off' (search (s.textIn s.nIn) s.wIn p) m e' at h'
    rw [lzLoop, if_pos (by rw [textIn_length]; exact h.p_lt)]
    refine .visit ?_
    show Reaches (visitLEmit _) _
    simp only [visitLEmit, during_eng, during_cfg, during_mem, during_nIn h'.ops, h'.p_toNat, h'.out_toNat, h'.best_eq, h'.inText]
    split_ifs with hfull hmore
    · exact .of_eq (during_raise h'.ops (by rw [h'.mem, clearOutputs_putToks _ rfl]) _)
    · exact ih _ _ _ _
        { ops := h'.ops, mem := by rw [h'.mem, putSeq_snoc], p_eq := rfl, out_eq := by simp; rfl, off_eq := rfl, bestLen_eq := rfl,
          bestDist_eq := rfl, p_lt := hmore, out_le := by have := h'.out_le; simp; omega, off_le := by omega,
          len_le := Nat.le_of_lt hmore, dist_le := Nat.zero_le _ } (by omega)
    · have hlen : out.length + 1 = (out ++ [mkToken (s.textIn s.nIn) p (search (s.textIn s.nIn) s.wIn p)]).length := by simp
      rw [lzLoop_of_length_le (by rw [textIn_length]; omega), h'.mem, ← putSeq_snoc (Memory.putTok s.cfg), hlen]
      exact .of_eq (during_complete h'.ops .lzEnc _ 0)

theorem lzEnc_reaches (s : State) (hp : s.phase = .lInit) : Reaches s (s.finish .lzEnc (s.result .lzEnc)) := by
  refine .visit ?_
  rw [phaseVisit, hp]
  simp only [visitLInit, State.result]
  split_ifs with hw hbig hpos
  · exact .refl _
  · exact .refl _
  · exact lzLoop_reaches s _ 0 [] s.mem _
      { ops := .refl s, mem := rfl, p_eq := rfl, out_eq := rfl, off_eq := rfl, bestLen_eq := rfl, bestDist_eq := rfl, p_lt := hpos,
        out_le := Nat.le_refl _, off_le := Nat.le_refl _, len_le := Nat.zero_le _, dist_le := Nat.zero_le _ } (by rw [textIn_length]; omega)
  · have hnil : s.textIn s.nIn = [] := by
      rw [Nat.eq_zero_of_not_pos hpos]; rfl
    rw [hnil]
    exact .refl _

/-- Settles O57: a position's search visits every offset and every compared symbol once, and every counter stays below `IN_LEN`. -/
theorem lzEncPhasesAgree : Obligations.LzEncPhasesAgree := fun s hp => phases_agree_of_reaches (lzEnc_reaches s hp)

end Sys2Proof.Machine
end

section
/-! SUPPORT. The code tree of `HUF_ENC` (41_huffman.md R132 to R136): distinct symbols, live picks, and merges that keep
every leaf in one tree of a forest. -/

namespace Sys2Proof.Machine

/-! The frequency table has no symbol twice (41_huffman.md R132). -/

theorem ftBump_syms {x : Sym} {ft ft' : List FtEntry} (h : ftBump x ft = some ft') : ft'.map (·.sym) = ft.map (·.sym) := by
  induction ft generalizing ft' with
  | nil => cases h
  | cons e r ih =>
    unfold ftBump at h
    split_ifs at h with he
    · cases h; rfl
    · obtain ⟨r', hr, rfl⟩ := Option.map_eq_some_iff.1 h
      rw [List.map_cons, List.map_cons, ih hr]

theorem notMem_of_ftBump_none {x : Sym} {ft : List FtEntry} (h : ftBump x ft = none) : x ∉ ft.map (·.sym) := by
  induction ft with
  | nil => exact List.not_mem_nil
  | cons e r ih =>
    unfold ftBump at h
    split_ifs at h with he
    rw [List.map_cons, List.mem_cons, not_or]
    exact ⟨fun hx => he hx.symm, ih (Option.map_eq_none_iff.1 h)⟩

theorem countSym_nodup {kMax i : Nat} {x : Sym} {ft ft' : List FtEntry} (hd : (ft.map (·.sym)).Nodup) (h : countSym kMax i x ft = .ok ft') :
    (ft'.map (·.sym)).Nodup := by
  unfold countSym at h
  split at h
  · rename_i hbump
    cases h
    rwa [ftBump_syms hbump]
  · rename_i hbump
    split_ifs at h
    cases h
    rw [List.map_append]
    exact hd.append (List.nodup_singleton _) (List.disjoint_singleton.2 (notMem_of_ftBump_none hbump))

theorem countLoop_nodup {kMax : Nat} {xs : List Sym} {i : Nat} {ft ft' : List FtEntry} (hd : (ft.map (·.sym)).Nodup)
    (h : countLoop kMax i xs ft = .ok ft') : (ft'.map (·.sym)).Nodup := by
  induction xs generalizing i ft with
  | nil => cases h; exact hd
  | cons x xs ih =>
    unfold countLoop at h
    split at h
    · cases h
    · rename_i hc
      exact ih (countSym_nodup hd hc) h

theorem countLoop_length_le {kMax : Nat} {xs : List Sym} {ft : List FtEntry} (h : countLoop kMax 0 xs [] = .ok ft) : ft.length ≤ 2 ^ 21 := by
  simpa using nodup_syms_length _ (countLoop_nodup (ft := []) List.nodup_nil h)

/-! A pick (41_huffman.md R134) finds a live node where there is one. -/

theorem pickScan_isSome {nodes : List Node} {x : Nat} {best : Option (Nat × Word)}
    (h : best.isSome = true ∨ ∃ nd ∈ nodes, nd.live = true) : (pickScan nodes x best).isSome = true := by
  induction nodes generalizing x best with
  | nil => exact h.resolve_right (fun ⟨_, hnd, _⟩ => List.not_mem_nil hnd)
  | cons nd r ih =>
    unfold pickScan
    refine ih ?_
    split_ifs with hbetter
    · exact .inl rfl
    · rcases h with hbest | ⟨nd', hmem, hlive⟩
      · exact .inl hbest
      · rcases List.mem_cons.1 hmem with rfl | hr
        · rw [hlive, Bool.true_and] at hbetter
          cases best with
          | none => exact absurd rfl hbetter
          | some b => exact .inl rfl
        · exact .inr ⟨nd', hr, hlive⟩

theorem live_of_pickScan {nodes : List Node} {x a : Nat} {f : Word} {best : Option (Nat × Word)} (h : pickScan nodes x best = some (a, f)) :
    best = some (a, f) ∨ ∃ j nd, nodes[j]? = some nd ∧ nd.live = true ∧ a = x + j := by
  induction nodes generalizing x best with
  | nil => exact .inl h
  | cons nd r ih =>
    unfold pickScan at h
    rcases ih h with hbest | ⟨j, nd', hj, hlive, rfl⟩
    · split_ifs at hbest with hbetter
      · cases hbest
        exact .inr ⟨0, nd, rfl, (Bool.and_eq_true_iff.1 hbetter).1, rfl⟩
      · exact .inl hbest
    · exact .inr ⟨j + 1, nd', hj, hlive, by omega⟩

theorem exists_pick {nodes : List Node} {x : Nat} {nd : Node} (hx : nodes[x]? = some nd) (hlive : nd.live = true) :
    ∃ a f na, pickScan nodes 0 none = some (a, f) ∧ nodes[a]? = some na ∧ na.live = true := by
  have hsome := pickScan_isSome (x := 0) (best := none) (.inr ⟨nd, List.mem_of_getElem? hx, hlive⟩)
  obtain ⟨⟨a, f⟩, hpick⟩ := Option.isSome_iff_exists.1 hsome
  rcases live_of_pickScan hpick with hnone | ⟨j, na, hj, hna, rfl⟩
  · cases hnone
  · exact ⟨_, f, na, hpick, by rwa [Nat.zero_add], hna⟩

/-! The trees of the arena: each live node is the root of one, and together they have every leaf once (41_huffman.md R133 to R136). -/

/-- A code tree over the indices of the node arena. -/
inductive CodeTree where
  | leaf (x : Nat)
  | node (x : Nat) (l r : CodeTree)

/-- The arena index of the root. -/
def CodeTree.root : CodeTree → Nat
  | .leaf x => x
  | .node x _ _ => x

/-- The arena indices of the leaves, from left to right. -/
def CodeTree.leaves : CodeTree → List Nat
  | .leaf x => [x]
  | .node _ l r => l.leaves ++ r.leaves

/-- The number of nodes. -/
def CodeTree.size : CodeTree → Nat
  | .leaf _ => 1
  | .node _ l r => l.size + r.size + 1

/-- The arena holds the tree: leaves are leaves, and an internal node names the roots of its two subtrees. -/
def CodeTree.In (nodes : List Node) : CodeTree → Prop
  | .leaf x => ∃ nd, nodes[x]? = some nd ∧ nd.leaf = true
  | .node x l r =>
    (∃ nd, nodes[x]? = some nd ∧ nd.leaf = false ∧ nd.left.toNat = l.root ∧ nd.right.toNat = r.root) ∧ l.In nodes ∧ r.In nodes

theorem CodeTree.leaves_pos (t : CodeTree) : 0 < t.leaves.length := by
  induction t with
  | leaf x => exact Nat.one_pos
  | node x l r ihl ihr => rw [leaves, List.length_append]; omega

/-- A binary tree has one internal node fewer than it has leaves. -/
theorem CodeTree.size_add_one (t : CodeTree) : t.size + 1 = 2 * t.leaves.length := by
  induction t with
  | leaf x => rfl
  | node x l r ihl ihr => rw [size, leaves, List.length_append]; omega

theorem CodeTree.In.root_lt {nodes : List Node} {t : CodeTree} (h : t.In nodes) : t.root < nodes.length := by
  cases t with
  | leaf x => obtain ⟨nd, hx, -⟩ := h; exact (List.getElem?_eq_some_iff.1 hx).1
  | node x l r => obtain ⟨⟨nd, hx, -⟩, -⟩ := h; exact (List.getElem?_eq_some_iff.1 hx).1

/-- Every node stays as it is but for its live flag; new nodes may follow. -/
def SameShape (nodes nodes' : List Node) : Prop :=
  ∀ (x : Nat) (nd : Node), nodes[x]? = some nd →
    ∃ nd', nodes'[x]? = some nd' ∧ nd'.leaf = nd.leaf ∧ nd'.left = nd.left ∧ nd'.right = nd.right

theorem CodeTree.In.mono {nodes nodes' : List Node} (hs : SameShape nodes nodes') {t : CodeTree} (h : t.In nodes) : t.In nodes' := by
  induction t with
  | leaf x =>
    obtain ⟨nd, hx, hleaf⟩ := h
    obtain ⟨nd', hx', hleaf', -⟩ := hs x nd hx
    exact ⟨nd', hx', hleaf'.trans hleaf⟩
  | node x l r ihl ihr =>
    obtain ⟨⟨nd, hx, hleaf, hl, hr⟩, hinl, hinr⟩ := h
    obtain ⟨nd', hx', hleaf', hl', hr'⟩ := hs x nd hx
    exact ⟨⟨nd', hx', hleaf'.trans hleaf, by rw [hl', hl], by rw [hr', hr]⟩, ihl hinl, ihr hinr⟩

theorem sameShape_append (nodes more : List Node) : SameShape nodes (nodes ++ more) := fun x nd hx =>
  ⟨nd, by rw [List.getElem?_append_left (List.getElem?_eq_some_iff.1 hx).1, hx], rfl, rfl, rfl⟩

theorem unlive_eq_set {nodes : List Node} {x : Nat} {nd : Node} (hx : nodes[x]? = some nd) :
    unlive nodes x = nodes.set x { nd with live := false } := by
  rw [unlive, hx]

theorem unlive_length (nodes : List Node) (x : Nat) : (unlive nodes x).length = nodes.length := by
  unfold unlive
  split
  · exact List.length_set
  · rfl

/-- A live node afterwards is a live node before, other than the one that stopped. -/
theorem live_unlive_iff {nodes : List Node} {x : Nat} {nd : Node} (hx : nodes[x]? = some nd) (y : Nat) :
    (∃ m, (unlive nodes x)[y]? = some m ∧ m.live = true) ↔ y ≠ x ∧ ∃ m, nodes[y]? = some m ∧ m.live = true := by
  rw [unlive_eq_set hx, List.getElem?_set]
  split_ifs with hxy hlt
  · subst hxy; simp
  · subst hxy; simp
  · exact ⟨fun h => ⟨fun he => hxy he.symm, h⟩, fun h => h.2⟩

theorem sameShape_unlive (nodes : List Node) (x : Nat) : SameShape nodes (unlive nodes x) := by
  intro y nd hy
  cases hx : nodes[x]? with
  | none => exact ⟨nd, by rw [unlive, hx]; exact hy, rfl, rfl, rfl⟩
  | some m =>
    rw [unlive_eq_set hx, List.getElem?_set]
    split_ifs with hxy hlt
    · subst hxy
      cases hx.symm.trans hy
      exact ⟨_, rfl, rfl, rfl, rfl⟩
    · exact absurd (hxy ▸ (List.getElem?_eq_some_iff.1 hy).1) hlt
    · exact ⟨nd, hy, rfl, rfl, rfl⟩

/-- The live nodes are the roots of these trees, one each. -/
structure Forest (nodes : List Node) (ts : List CodeTree) : Prop where
  inArena : ∀ t ∈ ts, t.In nodes
  live_iff : ∀ x, (∃ nd, nodes[x]? = some nd ∧ nd.live = true) ↔ x ∈ ts.map CodeTree.root
  nodup : (ts.map CodeTree.root).Nodup

theorem Forest.perm {nodes : List Node} {ts ts' : List CodeTree} (h : Forest nodes ts) (hp : ts.Perm ts') : Forest nodes ts' where
  inArena t ht := h.inArena t (hp.mem_iff.2 ht)
  live_iff x := (h.live_iff x).trans (hp.map _).mem_iff
  nodup := (hp.map _).nodup_iff.1 h.nodup

/-- A pick takes one tree out of the forest. -/
theorem Forest.pick {nodes : List Node} {ts : List CodeTree} (h : Forest nodes ts) (hne : ts ≠ []) :
    ∃ f t ts', pickScan nodes 0 none = some (t.root, f) ∧ ts.Perm (t :: ts') ∧ t.In (unlive nodes t.root) ∧
      Forest (unlive nodes t.root) ts' := by
  obtain ⟨t0, ts0, rfl⟩ := List.exists_cons_of_ne_nil hne
  obtain ⟨nd0, hx0, hlive0⟩ := (h.live_iff t0.root).2 (List.mem_cons_self ..)
  obtain ⟨a, f, na, hpick, ha, hna⟩ := exists_pick hx0 hlive0
  obtain ⟨t, ht, rfl⟩ := List.mem_map.1 ((h.live_iff a).1 ⟨na, ha, hna⟩)
  obtain ⟨ts1, ts2, hsplit⟩ := List.append_of_mem ht
  have hp : (t0 :: ts0).Perm (t :: (ts1 ++ ts2)) := by rw [hsplit]; exact List.perm_middle
  have h' := h.perm hp
  have hnodup := List.nodup_cons.1 h'.nodup
  refine ⟨f, t, ts1 ++ ts2, hpick, hp, (h.inArena t ht).mono (sameShape_unlive _ _), ?_, fun x => ?_, hnodup.2⟩
  · exact fun t' ht' => (h'.inArena t' (List.mem_cons_of_mem _ ht')).mono (sameShape_unlive _ _)
  · rw [live_unlive_iff ha, h'.live_iff, List.map_cons, List.mem_cons]
    constructor
    · rintro ⟨hne, hmem⟩
      exact hmem.resolve_left hne
    · exact fun hmem => ⟨fun he => hnodup.1 (he ▸ hmem), .inr hmem⟩

/-- A new node joins two trees that are in the arena into one. -/
theorem Forest.join {nodes : List Node} {ts : List CodeTree} (h : Forest nodes ts) {l r : CodeTree} (hl : l.In nodes) (hr : r.In nodes)
    (hlt : nodes.length < 2 ^ 32) {nd : Node} (hleaf : nd.leaf = false) (hlive : nd.live = true) (hleft : nd.left = wd l.root)
    (hright : nd.right = wd r.root) : Forest (nodes ++ [nd]) (.node nodes.length l r :: ts) where
  inArena t ht := by
    rcases List.mem_cons.1 ht with rfl | ht
    · refine ⟨⟨nd, List.getElem?_concat_length, hleaf, ?_, ?_⟩, hl.mono (sameShape_append _ _), hr.mono (sameShape_append _ _)⟩
      · rw [hleft, wd_toNat _ (hl.root_lt.trans hlt)]
      · rw [hright, wd_toNat _ (hr.root_lt.trans hlt)]
    · exact (h.inArena t ht).mono (sameShape_append _ _)
  live_iff x := by
    rw [List.map_cons, List.mem_cons, ← h.live_iff]
    rcases Nat.lt_trichotomy x nodes.length with hx | rfl | hx
    · rw [List.getElem?_append_left hx]
      exact ⟨.inr, fun h => h.resolve_left (Nat.ne_of_lt hx)⟩
    · exact ⟨fun _ => .inl rfl, fun _ => ⟨nd, List.getElem?_concat_length, hlive⟩⟩
    · rw [List.getElem?_eq_none (by simp; omega), List.getElem?_eq_none (by omega)]
      simp only [CodeTree.root]
      constructor
      · rintro ⟨_, hc, _⟩; cases hc
      · rintro (rfl | ⟨_, hc, _⟩)
        · omega
        · cases hc
  nodup := by
    refine List.nodup_cons.2 ⟨fun hmem => ?_, h.nodup⟩
    obtain ⟨t, ht, hroot⟩ := List.mem_map.1 hmem
    exact absurd hroot (Nat.ne_of_lt (h.inArena t ht).root_lt)

/-- The arena of `k` leaves on its way to one tree: the trees of the forest have every leaf once, every merge so far has added one node, and the
node last appended is live. -/
structure ArenaAt (k : Nat) (nodes : List Node) (ts : List CodeTree) : Prop where
  forest : Forest nodes ts
  leaves : (ts.flatMap CodeTree.leaves).Perm (List.range k)
  size : nodes.length + ts.length = 2 * k
  last : ts ≠ [] → nodes.length - 1 ∈ ts.map CodeTree.root

/-- The trees before the first merge: one leaf per distinct symbol. -/
theorem arenaAt_leaves (ft : List FtEntry) : ArenaAt ft.length (Machine.leaves ft) ((List.range ft.length).map .leaf) := by
  have hget : ∀ x, x < ft.length → ∃ nd, (Machine.leaves ft)[x]? = some nd ∧ nd.leaf = true ∧ nd.live = true := by
    intro x hx
    exact ⟨_, by rw [Machine.leaves, List.getElem?_map, List.getElem?_eq_getElem hx]; rfl, rfl, rfl⟩
  have hroots : ((List.range ft.length).map CodeTree.leaf).map CodeTree.root = List.range ft.length := by
    rw [List.map_map]; exact List.map_id _
  refine ⟨⟨fun t ht => ?_, fun x => ?_, ?_⟩, ?_, ?_, fun hne => ?_⟩
  · obtain ⟨x, hx, rfl⟩ := List.mem_map.1 ht
    obtain ⟨nd, hnd, hleaf, -⟩ := hget x (List.mem_range.1 hx)
    exact ⟨nd, hnd, hleaf⟩
  · rw [hroots, List.mem_range]
    constructor
    · rintro ⟨nd, hnd, -⟩
      simpa [Machine.leaves] using (List.getElem?_eq_some_iff.1 hnd).1
    · intro hx
      obtain ⟨nd, hnd, -, hlive⟩ := hget x hx
      exact ⟨nd, hnd, hlive⟩
  · rw [hroots]; exact List.nodup_range
  · rw [List.flatMap_map]
    simp [CodeTree.leaves]
  · simp [Machine.leaves]; omega
  · rw [hroots, List.mem_range]
    cases ft with
    | nil => exact absurd rfl hne
    | cons e r => simp [Machine.leaves]

/-- A merge of an arena whose two picks are known (41_huffman.md R135). -/
theorem mergeOnce_eq {nodes : List Node} {a b live : Nat} {fa fb : Word} (ha : pickScan nodes 0 none = some (a, fa))
    (hb : pickScan (unlive nodes a) 0 none = some (b, fb)) :
    mergeOnce nodes live = some
      { a := a, b := b, live := live - 2 + 1,
        node := unlive (unlive nodes a) b ++
          [{ leaf := false, sym := 0#21, freq := wd (fa.toNat + fb.toNat), left := wd (if fa.toNat < fb.toNat then a else b),
             right := wd (if fa.toNat < fb.toNat then b else a), live := true }] } := by
  rw [mergeOnce, ha]
  dsimp only
  rw [hb]

/-- While there are two trees a merge finds its two picks and leaves one tree fewer. -/
theorem ArenaAt.merge {k : Nat} {nodes : List Node} {ts : List CodeTree} (h : ArenaAt k nodes ts) (hk : 2 * k < 2 ^ 32) (hts : 1 < ts.length) :
    ∃ mg ts', mergeOnce nodes ts.length = some mg ∧ mg.live = ts'.length ∧ ts'.length + 1 = ts.length ∧ ArenaAt k mg.node ts' := by
  have hsize := h.size
  obtain ⟨fa, ta, ts1, hpa, hp1, hina, hf1⟩ := h.forest.pick (List.ne_nil_of_length_pos (by omega))
  have hlen1 := hp1.length_eq
  rw [List.length_cons] at hlen1
  obtain ⟨fb, tb, ts2, hpb, hp2, hinb, hf2⟩ := hf1.pick (List.ne_nil_of_length_pos (by omega))
  have hlen2 := hp2.length_eq
  rw [List.length_cons] at hlen2
  have hina' := hina.mono (sameShape_unlive _ tb.root)
  obtain ⟨l, r, hl, hr, hinl, hinr, hlr⟩ : ∃ l r : CodeTree, (if fa.toNat < fb.toNat then ta.root else tb.root) = l.root ∧
      (if fa.toNat < fb.toNat then tb.root else ta.root) = r.root ∧ l.In (unlive (unlive nodes ta.root) tb.root) ∧
      r.In (unlive (unlive nodes ta.root) tb.root) ∧ (l.leaves ++ r.leaves).Perm (ta.leaves ++ tb.leaves) := by
    by_cases hlt : fa.toNat < fb.toNat
    · exact ⟨ta, tb, if_pos hlt, if_pos hlt, hina', hinb, .refl _⟩
    · exact ⟨tb, ta, if_neg hlt, if_neg hlt, hinb, hina', List.perm_append_comm⟩
  have hnodes : (unlive (unlive nodes ta.root) tb.root).length = nodes.length := by rw [unlive_length, unlive_length]
  refine ⟨_, .node nodes.length l r :: ts2, mergeOnce_eq hpa hpb, ?_, ?_, ?_, ?_, ?_, fun _ => ?_⟩
  · rw [List.length_cons]; dsimp only; omega
  · rw [List.length_cons]; omega
  · rw [← hnodes]
    exact hf2.join hinl hinr (by omega) rfl rfl (congrArg wd hl) (congrArg wd hr)
  · refine List.Perm.trans ?_ h.leaves
    calc (l.leaves ++ r.leaves) ++ ts2.flatMap CodeTree.leaves
      _ |>.Perm ((ta.leaves ++ tb.leaves) ++ ts2.flatMap CodeTree.leaves) := hlr.append_right _
      _ = (ta :: tb :: ts2).flatMap CodeTree.leaves := by simp [List.flatMap_cons]
      _ |>.Perm (ts.flatMap CodeTree.leaves) := ((hp1.trans (hp2.cons ta)).flatMap_right _).symm
  · simp only [List.length_append, List.length_cons, List.length_nil, hnodes]; omega
  · refine List.mem_cons.2 (.inl ?_)
    rw [List.length_append, hnodes]
    rfl

/-- The merges end with one tree, whose root is the node last appended (41_huffman.md R136). -/
theorem ArenaAt.mergeLoop {k : Nat} (hk : 2 * k < 2 ^ 32) (f : Nat) : ∀ {nodes : List Node} {ts : List CodeTree}, ArenaAt k nodes ts →
    ts ≠ [] → ts.length ≤ f + 1 → ∃ t, ArenaAt k (Machine.mergeLoop f nodes ts.length) [t] := by
  induction f with
  | zero =>
    intro nodes ts h hne hlen
    obtain ⟨t, rfl⟩ := List.length_eq_one_iff.1 (Nat.le_antisymm hlen (List.length_pos_of_ne_nil hne))
    exact ⟨t, h⟩
  | succ f ih =>
    intro nodes ts h hne hlen
    rw [Machine.mergeLoop]
    split_ifs with hlive
    · obtain ⟨mg, ts', hmg, hmgl, hlen', h'⟩ := h.merge hk hlive
      rw [hmg]
      dsimp only
      rw [hmgl]
      exact ih h' (List.ne_nil_of_length_pos (by omega)) (by omega)
    · have hpos := List.length_pos_of_ne_nil hne
      obtain ⟨t, rfl⟩ := List.length_eq_one_iff.1 (show ts.length = 1 by omega)
      exact ⟨t, h⟩

end Sys2Proof.Machine
end

section
/-! SUPPORT. The code table in `CT` (20_memory.md R66) entry by entry: written in any order it is the same table, and it reads back. -/

namespace Sys2Proof.Machine

/-- The words of an entry of `CT`, each by itself specified or not. -/
abbrev CtRow (p : Config.Params) : Type := Option Sym × Option Word × (Fin p.codeWords → Option Word)

/-- Entry `j` of `CT` as the buffers hold it. -/
def Memory.ctRow (p : Config.Params) (m : Memory) (j : Nat) : CtRow p :=
  (bufGet m.ctSym j, bufGet m.ctLen j, fun w => bufGet m.ctBits (j * p.codeWords + w))

/-- The words that a written entry leaves. -/
def CtEntry.row (p : Config.Params) (e : CtEntry) : CtRow p :=
  (some e.sym, some (BitVec.ofNat 32 e.clen), fun w => some (codeWordMask p w (codeWord e.cbits w)))

theorem ctRow_putSeq (p : Config.Params) (i : Nat) (es : List CtEntry) (m : Memory) (j : Nat) :
    (putSeq (Memory.putCt p) i es m).ctRow p j =
      if h : i ≤ j ∧ j < i + es.length ∧ j < p.kMax then (es[j - i]'(by omega)).row p else m.ctRow p j := by
  simp only [Memory.ctRow, get_putSeq_ctSym, get_putSeq_ctLen, get_putSeq_ctBits _ _ _ _ _ _ (Fin.isLt _)]
  split_ifs with h
  · rw [List.getElem?_eq_getElem (by omega)]; rfl
  · rfl

theorem ctRow_putSeq_of_lt {p : Config.Params} {es : List CtEntry} {j : Nat} (hj : j < es.length) (hk : es.length ≤ p.kMax) (m : Memory) :
    (putSeq (Memory.putCt p) 0 es m).ctRow p j = es[j].row p := by
  rw [ctRow_putSeq, dif_pos (by omega)]; rfl

theorem ctRow_putSeq_of_le {p : Config.Params} {es : List CtEntry} {j : Nat} (hj : es.length ≤ j) (m : Memory) :
    (putSeq (Memory.putCt p) 0 es m).ctRow p j = m.ctRow p j := by
  rw [ctRow_putSeq, dif_neg (by omega)]

theorem ctRow_putCt (p : Config.Params) (i : Nat) (e : CtEntry) (m : Memory) (j : Nat) :
    (m.putCt p i e).ctRow p j = if j = i ∧ i < p.kMax then e.row p else m.ctRow p j := by
  have h := ctRow_putSeq p i [e] m j
  rw [putSeq_cons, putSeq_nil] at h
  rw [h]
  by_cases hc : j = i ∧ i < p.kMax
  · obtain ⟨rfl, hk⟩ := hc
    rw [dif_pos (by simp; omega), if_pos ⟨rfl, hk⟩]
    simp
  · rw [dif_neg (by simp; omega), if_neg hc]

/-- Only the code table differs. -/
def SameButCt (m m' : Memory) : Prop :=
  m' = { m with ctSym := m'.ctSym, ctLen := m'.ctLen, ctBits := m'.ctBits }

theorem SameButCt.refl (m : Memory) : SameButCt m m := rfl

theorem SameButCt.putCt {m m' : Memory} (h : SameButCt m m') (p : Config.Params) (i : Nat) (e : CtEntry) : SameButCt m (m'.putCt p i e) := by
  unfold SameButCt at h ⊢
  rw [putCt_frame, h]

theorem sameButCt_putSeq (p : Config.Params) (es : List CtEntry) (m : Memory) : SameButCt m (putSeq (Memory.putCt p) 0 es m) :=
  putSeq_putCt_frame p 0 es m

/-- Buffers in canonical form whose code tables agree entry by entry, and that differ in nothing else, are equal. -/
theorem eq_of_ctRow_eq {p : Config.Params} {m m1 m2 : Memory} (h1 : m1.wf p = true) (h2 : m2.wf p = true) (hs1 : SameButCt m m1)
    (hs2 : SameButCt m m2) (h : ∀ j, m1.ctRow p j = m2.ctRow p j) : m1 = m2 := by
  obtain ⟨-, -, -, -, -, -, hs, hl, hb, -⟩ := (Memory.wf_iff p m1).1 h1
  obtain ⟨-, -, -, -, -, -, hs', hl', hb', -⟩ := (Memory.wf_iff p m2).1 h2
  have hsym : m1.ctSym = m2.ctSym := bufWf_ext _ _ _ hs hs' fun j => congrArg (·.1) (h j)
  have hlen : m1.ctLen = m2.ctLen := bufWf_ext _ _ _ hl hl' fun j => congrArg (·.2.1) (h j)
  have hbits : m1.ctBits = m2.ctBits := bufWf_ext _ _ _ hb hb' fun x => by
    have hw := Nat.mod_lt x (codeWords_pos p)
    have := congrFun (congrArg (·.2.2) (h (x / p.codeWords))) ⟨x % p.codeWords, hw⟩
    simpa [Memory.ctRow, Nat.div_add_mod'] using this
  rw [hs1, hs2, hsym, hlen, hbits]

/-! A code that fits `L_MAX` bits reads back (20_memory.md R66). -/

theorem lMax_le_codeWords (p : Config.Params) : p.lMax ≤ 32 * p.codeWords := by
  unfold Config.Params.codeWords ceilDiv
  omega

theorem codeWordMask_codeWord {p : Config.Params} {v : Nat} (hv : v < 2 ^ p.lMax) (w : Nat) : codeWordMask p w (codeWord v w) = codeWord v w := by
  have hx : v / 2 ^ (32 * w) < 2 ^ (p.lMax - 32 * w) := by
    rw [Nat.div_lt_iff_lt_mul (Nat.two_pow_pos _), ← Nat.pow_add]
    exact hv.trans_le (Nat.pow_le_pow_right Nat.two_pos (by omega))
  refine BitVec.eq_of_getLsbD_eq fun i hi => ?_
  rw [codeWordMask, lowBits, BitVec.getLsbD_and, codeWord, BitVec.getLsbD_ofNat, BitVec.getLsbD_ofNat, Nat.testBit_two_pow_sub_one]
  by_cases hlow : i < p.lMax - 32 * w
  · simp [hlow, hi]
  · rw [Nat.testBit_lt_two_pow (hx.trans_le (Nat.pow_le_pow_right Nat.two_pos (Nat.le_of_not_lt hlow)))]
    simp

theorem codeFrom_of_words {s : State} {j v : Nat} (hv : v < 2 ^ s.cfg.lMax) (hw : ∀ w, w < s.cfg.codeWords → s.codeWordAt j w = codeWord v w)
    (c : Nat) : ∀ w, w + c = s.cfg.codeWords → s.codeFrom j c w = v / 2 ^ (32 * w) * 2 ^ (32 * w) := by
  induction c with
  | zero =>
    intro w hc
    have hbig : v < 2 ^ (32 * w) := hv.trans_le (Nat.pow_le_pow_right Nat.two_pos (by have := lMax_le_codeWords s.cfg; omega))
    rw [Nat.div_eq_of_lt hbig, Nat.zero_mul]; rfl
  | succ c ih =>
    intro w hc
    have hpow : 2 ^ (32 * (w + 1)) = 2 ^ (32 * w) * 2 ^ 32 := by rw [← Nat.pow_add]; rfl
    rw [State.codeFrom, ih (w + 1) (by omega), hw w (by omega), codeWord, BitVec.toNat_ofNat, hpow, ← Nat.div_div_eq_div_mul,
      Nat.mul_comm (2 ^ (32 * w)) (2 ^ 32), ← Nat.mul_assoc, ← Nat.add_mul, Nat.add_comm, Nat.div_add_mod']

/-- The entries that fit their registers. -/
def CtEntry.Fits (p : Config.Params) (e : CtEntry) : Prop := e.clen < 2 ^ 32 ∧ e.cbits < 2 ^ p.lMax

theorem ctAt_of_row {s : State} {j : Nat} {e : CtEntry} (he : e.Fits s.cfg) (h : s.mem.ctRow s.cfg j = e.row s.cfg) : s.ctAt j = e := by
  have hsym : bufGet s.mem.ctSym j = some e.sym := congrArg (·.1) h
  have hlen : bufGet s.mem.ctLen j = some (BitVec.ofNat 32 e.clen) := congrArg (·.2.1) h
  have hword : ∀ w, w < s.cfg.codeWords → s.codeWordAt j w = codeWord e.cbits w := by
    intro w hw
    have hb : bufGet s.mem.ctBits (j * s.cfg.codeWords + w) = some (codeWordMask s.cfg w (codeWord e.cbits w)) :=
      congrFun (congrArg (·.2.2) h) ⟨w, hw⟩
    rw [State.codeWordAt, hb, Option.getD_some, codeWordMask_codeWord he.2]
  rw [State.ctAt, hsym, hlen, codeFrom_of_words he.2 hword _ 0 (Nat.zero_add _)]
  simp only [Option.getD_some, wd_toNat _ he.1, Nat.mul_zero, Nat.pow_zero, Nat.div_one, Nat.mul_one]

/-- A table that has been written reads back. -/
theorem ctIn_of_rows {s : State} {es : List CtEntry} (he : ∀ e ∈ es, e.Fits s.cfg)
    (h : ∀ (j : Nat) (hj : j < es.length), s.mem.ctRow s.cfg j = es[j].row s.cfg) : s.ctIn es.length = es := by
  refine List.ext_getElem (by simp [State.ctIn]) fun j hj hj' => ?_
  simp only [State.ctIn, List.getElem_map, List.getElem_range]
  exact ctAt_of_row (he _ (List.getElem_mem hj')) (h j hj')

end Sys2Proof.Machine
end

section
/-! SUPPORT. `H_MERGE` (41_huffman.md R144) against the merge loop, and the code table while the walk is under way. -/

namespace Sys2Proof.Machine

/-- A frequency table within `FT`, of different symbols. -/
structure FtOk (p : Config.Params) (ft : List FtEntry) : Prop where
  le_kMax : ft.length ≤ p.kMax
  le_syms : ft.length ≤ 2 ^ 21

/-! Tables within their sizes are held as they are (10_state.md R36 to R38). -/

theorem fit_ft {p : Config.Params} {e : Engine} (h : e.ft.length ≤ p.kMax) : (e.fit p).ft = e.ft := List.take_of_length_le h

theorem fit_node {p : Config.Params} {e : Engine} (h : e.node.length ≤ nodeRoom p) : (e.fit p).node = e.node := List.take_of_length_le h

theorem fit_stk {p : Config.Params} {e : Engine} (h : e.stk.length ≤ p.kMax) (hb : ∀ x ∈ e.stk, x.cbits < 2 ^ p.lMax) :
    (e.fit p).stk = e.stk := by
  show ((e.stk.drop (e.stk.length - p.kMax)).map (StkEntry.fit p)) = e.stk
  rw [Nat.sub_eq_zero_of_le h, List.drop_zero]
  refine (List.map_congr_left fun x hx => ?_).trans (List.map_id _)
  show StkEntry.fit p x = x
  rw [StkEntry.fit, Nat.mod_eq_of_lt (hb x hx)]

/-- An arena of `k` leaves never holds more than `2 k - 1` nodes (41_huffman.md R136). -/
theorem ArenaAt.length_le {k : Nat} {nodes : List Node} {ts : List CodeTree} (h : ArenaAt k nodes ts) : nodes.length ≤ 2 * k - 1 := by
  have hsize := h.size
  cases ts with
  | nil =>
    have hk := h.leaves.length_eq
    simp only [List.flatMap_nil, List.length_nil, List.length_range] at hk hsize
    omega
  | cons t ts =>
    rw [List.length_cons] at hsize
    omega

theorem FtOk.nodes_le {p : Config.Params} {ft : List FtEntry} (hft : FtOk p ft) {nodes : List Node} (h : nodes.length ≤ 2 * ft.length - 1) :
    nodes.length ≤ nodeRoom p := by
  have := hft.le_kMax
  have := hft.le_syms
  unfold nodeRoom Config.Params.nodeMax
  omega

/-- `H_MERGE` with `live` live nodes. -/
structure MergeAt (s : State) (ft : List FtEntry) (nodes : List Node) (live : Nat) (e : Engine) : Prop where
  ops : SameOperands s e
  ft_eq : e.ft = ft
  node_eq : e.node = nodes
  live_eq : e.live = wd live

section
variable {s T : State} {ft : List FtEntry}

/-- The live counter holds the number of trees. -/
theorem MergeAt.live_toNat {nodes : List Node} {ts : List CodeTree} {e : Engine} (h : MergeAt s ft nodes ts.length e) (hft : FtOk s.cfg ft)
    (ha : ArenaAt ft.length nodes ts) : e.live.toNat = ts.length := by
  have := ha.size
  have := hft.le_syms
  rw [h.live_eq, wd_toNat _ (by omega)]

/-- With at most one tree there is nothing to merge. -/
theorem hMerge_stops {nodes : List Node} {ts : List CodeTree} {e : Engine} (h : MergeAt s ft nodes ts.length e) (hft : FtOk s.cfg ft)
    (ha : ArenaAt ft.length nodes ts) (hle : ts.length ≤ 1) (hT : Reaches (enterHWalk (s.during .hMerge s.mem e)) T) :
    Reaches (s.during .hMerge s.mem e) T := by
  refine .visit ?_
  show Reaches (visitHMerge _) _
  rw [visitHMerge, during_eng, h.live_toNat hft ha, if_neg (Nat.not_lt.2 hle)]
  exact hT

/-- Each visit of `H_MERGE` is one merge, until one live node is left. -/
theorem hMerge_reaches (hft : FtOk s.cfg ft) (f : Nat) : ∀ (nodes : List Node) (ts : List CodeTree) (e : Engine),
    MergeAt s ft nodes ts.length e → ArenaAt ft.length nodes ts → ts.length ≤ f + 1 →
    (∀ e' live, MergeAt s ft (mergeLoop f nodes ts.length) live e' → Reaches (enterHWalk (s.during .hMerge s.mem e')) T) →
    Reaches (s.during .hMerge s.mem e) T := by
  have hsyms := hft.le_syms
  induction f with
  | zero =>
    intro nodes ts e h ha hlen hT
    exact hMerge_stops h hft ha hlen (hT e _ h)
  | succ f ih =>
    intro nodes ts e h ha hlen hT
    rw [mergeLoop] at hT
    by_cases hlive : ts.length > 1
    · obtain ⟨mg, ts', hmg, hmgl, hlen', ha'⟩ := ha.merge (by omega) hlive
      rw [if_pos hlive, hmg] at hT
      dsimp only at hT
      rw [hmgl] at hT
      refine .visit ?_
      show Reaches (visitHMerge _) _
      simp only [visitHMerge, during_eng, h.live_toNat hft ha, h.node_eq, if_pos hlive, hmg, hmgl]
      exact ih mg.node ts' _
        { ops := h.ops
          ft_eq := (fit_ft (by dsimp only; rw [h.ft_eq]; exact hft.le_kMax)).trans h.ft_eq
          node_eq := fit_node (hft.nodes_le ha'.length_le)
          live_eq := rfl } ha' (by omega) hT
    · rw [if_neg hlive] at hT
      exact hMerge_stops h hft ha (Nat.le_of_not_lt hlive) (hT e _ h)

end

/-! The code table during the walk. -/

/-- The code table while leaves of the walk are still to come: what has been reached is written, the rest is as it was. -/
structure TableAt (s : State) (todo : List Nat) (codes : List CtEntry) (m : Memory) : Prop where
  wf : m.wf s.cfg = true
  same : SameButCt s.mem m
  rows : ∀ j, m.ctRow s.cfg j = if j ∈ todo then s.mem.ctRow s.cfg j else (putSeq (Memory.putCt s.cfg) 0 codes s.mem).ctRow s.cfg j

/-- Before the walk nothing is written. -/
theorem TableAt.start {s : State} (hwf : s.mem.wf s.cfg = true) {todo : List Nat} {codes : List CtEntry} (h : todo.Perm (List.range codes.length)) :
    TableAt s todo codes s.mem where
  wf := hwf
  same := .refl _
  rows j := by
    split_ifs with hj
    · rfl
    · rw [ctRow_putSeq_of_le]
      rwa [h.mem_iff, List.mem_range, Nat.not_lt] at hj

/-- A leaf writes its own entry. -/
theorem TableAt.write {s : State} {x : Nat} {todo : List Nat} {codes : List CtEntry} {m : Memory} (h : TableAt s (x :: todo) codes m)
    (hx : x ∉ todo) (hlt : x < codes.length) (hk : codes.length ≤ s.cfg.kMax) (e : CtEntry) :
    TableAt s todo (codes.set x e) (m.putCt s.cfg x e) where
  wf := Memory.wf_putCt _ _ _ _ h.wf
  same := h.same.putCt ..
  rows j := by
    rw [ctRow_putCt]
    by_cases hj : j = x
    · subst hj
      rw [if_pos ⟨rfl, by omega⟩, if_neg hx, ctRow_putSeq_of_lt (by simpa using hlt) (by simpa using hk), List.getElem_set_self]
    · rw [if_neg (fun hc => hj hc.1), h.rows]
      simp only [List.mem_cons, hj, false_or, ctRow_putSeq, List.length_set]
      split_ifs with hmem hin
      · rfl
      · rw [List.getElem_set_ne (fun he => hj (by omega))]
      · rfl

/-- When every leaf has been reached the table stands as if written in order. -/
theorem TableAt.done {s : State} (hwf : s.mem.wf s.cfg = true) {codes : List CtEntry} {m : Memory} (h : TableAt s [] codes m) :
    m = putSeq (Memory.putCt s.cfg) 0 codes s.mem :=
  eq_of_ctRow_eq h.wf (Memory.wf_putSeq _ _ (Memory.wf_putCt _) _ _ _ hwf) h.same (sameButCt_putSeq ..) fun j => by
    rw [h.rows, if_neg List.not_mem_nil]

end Sys2Proof.Machine
end

section
/-! SUPPORT. `H_WALK` (41_huffman.md R137, R144): the visits pop every node of the tree once, and every code fits its registers. -/

namespace Sys2Proof.Machine

/-! One pop of the walk stack. -/

/-- A stack entry and the tree below its node: the path so far leaves room for the depth of the tree (41_huffman.md R137, R138). -/
structure Pending (k : Nat) (nodes : List Node) (q : StkEntry × CodeTree) : Prop where
  node_eq : q.1.node.toNat = q.2.root
  inArena : q.2.In nodes
  depth : q.1.clen.toNat + q.2.leaves.length ≤ k
  bits : q.1.cbits < 2 ^ q.1.clen.toNat

theorem Pending.clen_lt {k : Nat} {nodes : List Node} {q : StkEntry × CodeTree} (h : Pending k nodes q) : q.1.clen.toNat < k := by
  have := h.depth
  have := q.2.leaves_pos
  omega

/-- A code of the walk fits `L_MAX = max(1, K_MAX - 1)` bits (00_scope.md R11). -/
theorem Pending.cbits_lt {k : Nat} {nodes : List Node} {q : StkEntry × CodeTree} (h : Pending k nodes q) {p : Config.Params} (hk : k ≤ p.kMax) :
    q.1.cbits < 2 ^ p.lMax := by
  have := h.clen_lt
  refine h.bits.trans_le (Nat.pow_le_pow_right Nat.two_pos ?_)
  unfold Config.Params.lMax
  omega

theorem Pending.left {k x : Nat} {nodes : List Node} {e : StkEntry} {l r : CodeTree} {nd : Node} (h : Pending k nodes (e, .node x l r))
    (hk : k < 2 ^ 32) (hnd : nodes[x]? = some nd) : Pending k nodes (e.left nd, l) := by
  obtain ⟨⟨nd', hnd', -, hl, -⟩, hinl, -⟩ := h.inArena
  cases hnd.symm.trans hnd'
  have hdepth := h.depth
  have hr := r.leaves_pos
  simp only [CodeTree.leaves, List.length_append] at hdepth
  have hclen : (e.left nd).clen.toNat = e.clen.toNat + 1 := wd_toNat _ (by omega)
  have hbits : e.cbits < 2 ^ e.clen.toNat := h.bits
  refine ⟨hl, hinl, by dsimp only; omega, ?_⟩
  rw [hclen, Nat.pow_succ]
  show 2 * e.cbits < _
  omega

theorem Pending.right {k x : Nat} {nodes : List Node} {e : StkEntry} {l r : CodeTree} {nd : Node} (h : Pending k nodes (e, .node x l r))
    (hk : k < 2 ^ 32) (hnd : nodes[x]? = some nd) : Pending k nodes (e.right nd, r) := by
  obtain ⟨⟨nd', hnd', -, -, hr⟩, -, hinr⟩ := h.inArena
  cases hnd.symm.trans hnd'
  have hdepth := h.depth
  have hl := l.leaves_pos
  simp only [CodeTree.leaves, List.length_append] at hdepth
  have hclen : (e.right nd).clen.toNat = e.clen.toNat + 1 := wd_toNat _ (by omega)
  have hbits : e.cbits < 2 ^ e.clen.toNat := h.bits
  refine ⟨hr, hinr, by dsimp only; omega, ?_⟩
  rw [hclen, Nat.pow_succ]
  show 2 * e.cbits + 1 < _
  omega

theorem walkOnce_of_leaf {nodes : List Node} {e : StkEntry} {nd : Node} (hnd : nodes[e.node.toNat]? = some nd) (hleaf : nd.leaf = true)
    (stk : List StkEntry) (codes : List CtEntry) :
    walkOnce nodes e stk codes = (stk, codes.set e.node.toNat { sym := nd.sym, clen := e.clen.toNat, cbits := e.cbits }) := by
  rw [walkOnce, hnd]
  exact if_pos hleaf

theorem walkOnce_of_node {nodes : List Node} {e : StkEntry} {nd : Node} (hnd : nodes[e.node.toNat]? = some nd) (hleaf : nd.leaf = false)
    (stk : List StkEntry) (codes : List CtEntry) : walkOnce nodes e stk codes = (e.left nd :: e.right nd :: stk, codes) := by
  rw [walkOnce, hnd]
  exact if_neg (by simp [hleaf])

theorem walkLoop_nil (nodes : List Node) (f : Nat) (codes : List CtEntry) : walkLoop nodes f [] codes = codes := by
  cases f <;> rfl

/-! A visit of `H_WALK` in a tree of at least two leaves. -/

section
variable {u : State} {a b : FtEntry} {r : List FtEntry}

theorem visitHWalk_of_nil (hft : u.eng.ft = a :: b :: r) (hstk : u.eng.stk = []) : visitHWalk u = enterHEmit u := by
  simp only [visitHWalk, hft, hstk]

theorem visitHWalk_of_leaf {e : StkEntry} {stk : List StkEntry} {nd : Node} (hft : u.eng.ft = a :: b :: r) (hstk : u.eng.stk = e :: stk)
    (hnd : u.eng.node[e.node.toNat]? = some nd) (hleaf : nd.leaf = true) :
    visitHWalk u =
      { u with mem := u.mem.putCt u.cfg e.node.toNat { sym := nd.sym, clen := e.clen.toNat, cbits := e.cbits } }.goto .hWalk
        { u.eng with stk := stk } := by
  simp only [visitHWalk, hft, hstk, hnd, hleaf, if_true]

theorem visitHWalk_of_node {e : StkEntry} {stk : List StkEntry} {nd : Node} (hft : u.eng.ft = a :: b :: r) (hstk : u.eng.stk = e :: stk)
    (hnd : u.eng.node[e.node.toNat]? = some nd) (hleaf : nd.leaf = false) :
    visitHWalk u = u.goto .hWalk { u.eng with stk := e.left nd :: e.right nd :: stk } := by
  simp only [visitHWalk, hft, hstk, hnd, hleaf, Bool.false_eq_true, if_false]

end

theorem exists_two {ft : List FtEntry} (h : 2 ≤ ft.length) : ∃ a b r, ft = a :: b :: r := by
  match ft, h with
  | a :: b :: r, _ => exact ⟨a, b, r, rfl⟩

/-! `H_WALK`. -/

/-- The leaves that the stack still leads to. -/
def leavesOf (w : List (StkEntry × CodeTree)) : List Nat := w.flatMap fun q => q.2.leaves

/-- How many pops are left. -/
def popsOf (w : List (StkEntry × CodeTree)) : Nat := (w.map fun q => q.2.size).sum

/-- The walk with the stack `w`, each entry with the tree below it: the leaves still to come are different, and their entries of the table are
not yet written. -/
structure WalkAt (s : State) (ft : List FtEntry) (nodes : List Node) (codes : List CtEntry) (w : List (StkEntry × CodeTree)) (m : Memory)
    (e : Engine) : Prop where
  ops : SameOperands s e
  ft_eq : e.ft = ft
  node_eq : e.node = nodes
  stk_eq : e.stk = w.map Prod.fst
  pending : ∀ q ∈ w, Pending ft.length nodes q
  nodup : (leavesOf w).Nodup
  leaves_lt : ∀ x ∈ leavesOf w, x < ft.length
  table : TableAt s (leavesOf w) codes m
  codes_len : codes.length = ft.length
  codes_fit : ∀ c ∈ codes, c.Fits s.cfg

theorem length_le_leavesOf (w : List (StkEntry × CodeTree)) : w.length ≤ (leavesOf w).length := by
  induction w with
  | nil => exact Nat.le_refl _
  | cons q w ih =>
    have := q.2.leaves_pos
    rw [leavesOf, List.flatMap_cons, List.length_append, List.length_cons]
    change w.length ≤ (w.flatMap fun q => q.2.leaves).length at ih
    omega

/-- Entries within the arena's leaves fit the stack of `K_MAX` entries (10_state.md R38). -/
theorem fit_stk_of_pending {p : Config.Params} {k : Nat} (hk : k ≤ p.kMax) {nodes : List Node} {w : List (StkEntry × CodeTree)}
    (hpending : ∀ q ∈ w, Pending k nodes q) (hnodup : (leavesOf w).Nodup) (hlt : ∀ x ∈ leavesOf w, x < k) {e : Engine}
    (he : e.stk = w.map Prod.fst) : (e.fit p).stk = w.map Prod.fst := by
  have hlen : (leavesOf w).length ≤ k := by
    have := (List.subperm_of_subset hnodup (l₂ := List.range k) fun x hx => List.mem_range.2 (hlt x hx)).length_le
    rwa [List.length_range] at this
  have := length_le_leavesOf w
  refine (fit_stk ?_ ?_).trans he
  · rw [he, List.length_map]; omega
  · rw [he]
    intro x hx
    obtain ⟨q, hq, rfl⟩ := List.mem_map.1 hx
    exact (hpending q hq).cbits_lt hk

theorem leavesOf_cons (q : StkEntry × CodeTree) (w : List (StkEntry × CodeTree)) : leavesOf (q :: w) = q.2.leaves ++ leavesOf w := rfl

theorem popsOf_cons (q : StkEntry × CodeTree) (w : List (StkEntry × CodeTree)) : popsOf (q :: w) = q.2.size + popsOf w := rfl

section
variable {s : State} {ft : List FtEntry} {nodes : List Node} {codes : List CtEntry} {w : List (StkEntry × CodeTree)} {m : Memory} {e : Engine}

/-- A new stack over leaves of the arena is held as it is. -/
theorem WalkAt.push (h : WalkAt s ft nodes codes w m e) (hft : FtOk s.cfg ft) (hnodes : nodes.length ≤ nodeRoom s.cfg)
    {w' : List (StkEntry × CodeTree)} {codes' : List CtEntry} {m' : Memory} (hpending : ∀ q ∈ w', Pending ft.length nodes q)
    (hnodup : (leavesOf w').Nodup) (hlt : ∀ x ∈ leavesOf w', x < ft.length) (htable : TableAt s (leavesOf w') codes' m')
    (hlen : codes'.length = ft.length) (hfit : ∀ c ∈ codes', c.Fits s.cfg) :
    WalkAt s ft nodes codes' w' m' ({ e with stk := w'.map Prod.fst }.fit s.cfg) where
  ops := h.ops
  ft_eq := (fit_ft (by dsimp only; rw [h.ft_eq]; exact hft.le_kMax)).trans h.ft_eq
  node_eq := (fit_node (by dsimp only; rw [h.node_eq]; exact hnodes)).trans h.node_eq
  stk_eq := fit_stk_of_pending hft.le_kMax hpending hnodup hlt rfl
  pending := hpending
  nodup := hnodup
  leaves_lt := hlt
  table := htable
  codes_len := hlen
  codes_fit := hfit

/-- The entry that a leaf on top of the stack gives. -/
theorem WalkAt.leaf_fits {en : StkEntry} {x : Nat} (h : WalkAt s ft nodes codes ((en, .leaf x) :: w) m e) (hft : FtOk s.cfg ft) (y : Sym) :
    CtEntry.Fits s.cfg { sym := y, clen := en.clen.toNat, cbits := en.cbits } :=
  ⟨en.clen.isLt, (h.pending _ (List.mem_cons_self ..)).cbits_lt hft.le_kMax⟩

/-- A pop of a leaf writes its entry. -/
theorem WalkAt.popLeaf {en : StkEntry} {x : Nat} (h : WalkAt s ft nodes codes ((en, .leaf x) :: w) m e) (hft : FtOk s.cfg ft)
    (hnodes : nodes.length ≤ nodeRoom s.cfg) {c : CtEntry} (hc : c.Fits s.cfg) :
    WalkAt s ft nodes (codes.set x c) w (m.putCt s.cfg x c) ({ e with stk := w.map Prod.fst }.fit s.cfg) := by
  have hlen := h.codes_len
  have hlt := h.leaves_lt x (List.mem_cons_self ..)
  have hnodup := List.nodup_cons.1 h.nodup
  refine h.push hft hnodes (fun q hq => h.pending q (List.mem_cons_of_mem _ hq)) hnodup.2 (fun y hy => h.leaves_lt y (List.mem_cons_of_mem _ hy))
    (h.table.write hnodup.1 (by omega) (hlen.trans_le hft.le_kMax) c) (by rw [List.length_set, hlen]) fun c' hc' => ?_
  rcases List.mem_or_eq_of_mem_set hc' with hmem | rfl
  · exact h.codes_fit c' hmem
  · exact hc

/-- A pop of an internal node pushes its two subtrees. -/
theorem WalkAt.popNode {en : StkEntry} {x : Nat} {l r : CodeTree} (h : WalkAt s ft nodes codes ((en, .node x l r) :: w) m e)
    (hft : FtOk s.cfg ft) (hnodes : nodes.length ≤ nodeRoom s.cfg) {nd : Node} (hnd : nodes[x]? = some nd) :
    WalkAt s ft nodes codes ((en.left nd, l) :: (en.right nd, r) :: w) m
      ({ e with stk := ((en.left nd, l) :: (en.right nd, r) :: w).map Prod.fst }.fit s.cfg) := by
  have htop := h.pending _ (List.mem_cons_self ..)
  have hk : ft.length < 2 ^ 32 := by have := hft.le_syms; omega
  have hleaves : leavesOf ((en.left nd, l) :: (en.right nd, r) :: w) = leavesOf ((en, .node x l r) :: w) := by
    simp only [leavesOf_cons, CodeTree.leaves, List.append_assoc]
  refine h.push hft hnodes (fun q hq => ?_) (hleaves ▸ h.nodup) (hleaves ▸ h.leaves_lt) (hleaves ▸ h.table) h.codes_len h.codes_fit
  rcases List.mem_cons.1 hq with rfl | hq
  · exact htop.left hk hnd
  · rcases List.mem_cons.1 hq with rfl | hq
    · exact htop.right hk hnd
    · exact h.pending q (List.mem_cons_of_mem _ hq)

end

/-- The walk is over when the stack is empty, and then the whole table is written. -/
theorem hWalk_stops {s T : State} (hwf : s.mem.wf s.cfg = true) {ft : List FtEntry} (htwo : 2 ≤ ft.length) {nodes : List Node}
    {codes : List CtEntry} {m : Memory} {e : Engine} (h : WalkAt s ft nodes codes [] m e)
    (hT : ∀ e', SameOperands s e' → e'.ft = ft →
      Reaches (enterHEmit (s.during .hWalk (putSeq (Memory.putCt s.cfg) 0 codes s.mem) e')) T) : Reaches (s.during .hWalk m e) T := by
  refine .visit ?_
  show Reaches (visitHWalk _) _
  obtain ⟨a, b, r, htwo⟩ := exists_two htwo
  rw [visitHWalk_of_nil (h.ft_eq.trans htwo) h.stk_eq, h.table.done hwf]
  exact hT e h.ops h.ft_eq

theorem popsOf_pos (q : StkEntry × CodeTree) (w : List (StkEntry × CodeTree)) : 0 < popsOf (q :: w) := by
  have := q.2.size_add_one
  have := q.2.leaves_pos
  rw [popsOf_cons]
  omega

/-- Each visit of `H_WALK` is one pop, and the visits reach every leaf. -/
theorem hWalk_reaches {s T : State} (hwf : s.mem.wf s.cfg = true) {ft : List FtEntry} (hft : FtOk s.cfg ft) (htwo : 2 ≤ ft.length)
    {nodes : List Node} (hnodes : nodes.length ≤ nodeRoom s.cfg) (f : Nat) :
    ∀ (w : List (StkEntry × CodeTree)) (codes : List CtEntry) (m : Memory) (e : Engine), WalkAt s ft nodes codes w m e → popsOf w ≤ f →
      (∀ codes' e', codes' = walkLoop nodes f (w.map Prod.fst) codes → SameOperands s e' → e'.ft = ft → (∀ c ∈ codes', c.Fits s.cfg) →
        Reaches (enterHEmit (s.during .hWalk (putSeq (Memory.putCt s.cfg) 0 codes' s.mem) e')) T) →
      Reaches (s.during .hWalk m e) T := by
  induction f with
  | zero =>
    intro w codes m e h hf hT
    cases w with
    | nil => exact hWalk_stops hwf htwo h fun e' hops hft' => hT codes e' rfl hops hft' h.codes_fit
    | cons q w => exact absurd hf (Nat.not_le.2 (popsOf_pos q w))
  | succ f ih =>
    intro w codes m e h hf hT
    obtain ⟨a, b, r, hab⟩ := exists_two htwo
    have hft2 : e.ft = a :: b :: r := h.ft_eq.trans hab
    cases w with
    | nil => exact hWalk_stops hwf htwo h fun e' hops hft' => hT codes e' (walkLoop_nil ..).symm hops hft' h.codes_fit
    | cons q w =>
      obtain ⟨en, t⟩ := q
      have htop := h.pending _ (List.mem_cons_self ..)
      rw [popsOf_cons] at hf
      rw [List.map_cons, walkLoop] at hT
      refine .visit ?_
      show Reaches (visitHWalk _) _
      cases t with
      | leaf x =>
        obtain ⟨nd, hnd, hleaf⟩ := htop.inArena
        obtain rfl : en.node.toNat = x := htop.node_eq
        rw [walkOnce_of_leaf hnd hleaf] at hT
        rw [visitHWalk_of_leaf hft2 h.stk_eq (by rw [during_eng, h.node_eq, hnd]) hleaf]
        exact ih w _ _ _ (h.popLeaf hft hnodes (h.leaf_fits hft nd.sym)) (by simp only [CodeTree.size] at hf; omega) hT
      | node x l r =>
        obtain ⟨⟨nd, hnd, hleaf, -⟩, -⟩ := htop.inArena
        obtain rfl : en.node.toNat = x := htop.node_eq
        rw [walkOnce_of_node hnd hleaf] at hT
        rw [visitHWalk_of_node hft2 h.stk_eq (by rw [during_eng, h.node_eq, hnd]) hleaf]
        exact ih _ _ _ _ (h.popNode hft hnodes hnd) (by simp only [popsOf_cons, CodeTree.size] at hf ⊢; omega) hT

end Sys2Proof.Machine
end

section
/-! SUPPORT. `H_EMIT` (41_huffman.md R141, R144), and the whole of `HUF_ENC`. -/

namespace Sys2Proof.Machine

theorem ctRow_putBits (p : Config.Params) (i : Nat) (bs : List Bool) (m : Memory) (j : Nat) :
    (putSeq (Memory.putBit p) i bs m).ctRow p j = m.ctRow p j := by
  rw [putSeq_putBit_frame]; rfl

/-- The emitter before symbol `i`, with the bits `out` written behind a code table that has been written. -/
structure EmitAt (s : State) (codes : List CtEntry) (i : Nat) (out : List Bool) (m : Memory) (e : Engine) : Prop
    extends LoopAt s i out.length (putSeq (Memory.putBit s.cfg) 0 out (putSeq (Memory.putCt s.cfg) 0 codes s.mem)) m e where
  ft_len : e.ft.length = codes.length
  codes_le : codes.length ≤ s.cfg.kMax
  codes_fit : ∀ c ∈ codes, c.Fits s.cfg
  out_le : out.length ≤ s.cfg.bMax

/-- The emitter finds in `CT` the table that the walk has written. -/
theorem EmitAt.ctIn {s : State} {codes : List CtEntry} {i : Nat} {out : List Bool} {m : Memory} {e : Engine} (h : EmitAt s codes i out m e)
    {ph : Phase} : (s.during ph m e).ctIn e.ft.length = codes := by
  rw [h.ft_len]
  refine ctIn_of_rows h.codes_fit fun j hj => ?_
  rw [during_mem, during_cfg, h.mem, ctRow_putBits, ctRow_putSeq_of_lt hj h.codes_le]

theorem EmitAt.clearOutputs {s : State} {codes : List CtEntry} {i : Nat} {out : List Bool} {m : Memory} {e : Engine} (h : EmitAt s codes i out m e) :
    m.clearOutputs .hufEnc = s.mem.clearOutputs .hufEnc := by
  rw [h.mem, clearOutputs_putBits _ rfl, putSeq_putCt_frame]; rfl

theorem EmitAt.textAt {s : State} {codes : List CtEntry} {i : Nat} {out : List Bool} {m : Memory} {e : Engine} (h : EmitAt s codes i out m e)
    {ph : Phase} (k : Nat) : (s.during ph m e).textAt k = s.textAt k := by
  rw [h.mem, putSeq_putBit_frame, putSeq_putCt_frame]; rfl

/-- Each visit of `H_EMIT` is one symbol. -/
theorem hEmit_reaches (s : State) (hcap : s.cfg.wf = true) (codes : List CtEntry) (xs : List Sym) :
    ∀ (i : Nat) (out : List Bool) (m : Memory) (e : Engine), (s.textIn s.nIn).drop i = xs → i ≤ s.nIn → EmitAt s codes i out m e →
    Reaches (s.during .hEmit m e)
      (s.finish .hufEnc ((emitLoop s.cfg.bMax codes i xs out).map fun bits => .coded { bits := bits, codes := codes })) := by
  have hN := nIn_lt s
  obtain ⟨-, -, hB, -, -⟩ := caps_lt hcap
  induction xs with
  | nil =>
    intro i out m e hxs hi h
    have hout := h.out_le
    have hiN := le_of_drop_range_map_nil hxs
    refine .visit (.of_eq ?_)
    show visitHEmit _ = _
    simp only [visitHEmit, emitLoop, during_eng, during_nIn h.ops, h.i_eq, h.out_eq, h.ft_len, h.mem, wd_toNat i (by omega),
      wd_toNat out.length (by omega), if_neg (Nat.not_lt.2 hiN)]
    exact during_complete h.ops .hufEnc _ _
  | cons x xs ih =>
    intro i out m e hxs hi h
    have hout := h.out_le
    obtain ⟨hiN, hx, hrest⟩ := drop_range_map_cons hxs
    have hft : (e.ft.take s.cfg.kMax).length = codes.length := by
      rw [List.take_of_length_le (h.ft_len.trans_le h.codes_le), h.ft_len]
    refine .visit ?_
    show Reaches (visitHEmit _) _
    simp only [visitHEmit, emitLoop, during_eng, during_nIn h.ops, during_cfg, during_mem, h.i_eq, h.out_eq, h.ctIn, h.textAt, hx,
      wd_toNat i (by omega), wd_toNat out.length (by omega), if_pos hiN]
    cases codes.find? (fun e => e.sym == x) with
    | none =>
      exact ih (i + 1) out _ _ hrest hiN
        { ops := h.ops, mem := h.mem, i_eq := rfl, out_eq := rfl, ft_len := hft, codes_le := h.codes_le, codes_fit := h.codes_fit, out_le := hout }
    | some c =>
      dsimp only
      split_ifs with hfull
      · exact .of_eq (during_raise h.ops h.clearOutputs _)
      · exact ih (i + 1) (out ++ codeBits c) _ _ hrest hiN
          { ops := h.ops, mem := by rw [h.mem, putSeq_append_zero], i_eq := rfl, out_eq := by simp [codeBits_length], ft_len := hft,
            codes_le := h.codes_le, codes_fit := h.codes_fit, out_le := by rw [List.length_append, codeBits_length]; omega }

/-- The emitter starts behind the table the walk has written. -/
theorem enterHEmit_reaches {s : State} (hcap : s.cfg.wf = true) {ft : List FtEntry} (hft : FtOk s.cfg ft) {codes : List CtEntry}
    (hlen : codes.length = ft.length) (hfit : ∀ c ∈ codes, c.Fits s.cfg) {e : Engine} (hops : SameOperands s e) (he : e.ft = ft) :
    Reaches (enterHEmit (s.during .hWalk (putSeq (Memory.putCt s.cfg) 0 codes s.mem) e))
      (s.finish .hufEnc ((emitLoop s.cfg.bMax codes 0 (s.textIn s.nIn) []).map fun bits => .coded { bits := bits, codes := codes })) := by
  have hft' : (e.ft.take s.cfg.kMax).length = codes.length := by
    rw [he, List.take_of_length_le hft.le_kMax, hlen]
  exact hEmit_reaches s hcap codes _ 0 [] _ _ rfl (Nat.zero_le _)
    { ops := hops, mem := rfl, i_eq := rfl, out_eq := rfl, ft_len := hft', codes_le := hlen.trans_le hft.le_kMax, codes_fit := hfit,
      out_le := Nat.zero_le _ }

/-- The walk of at most one symbol (41_huffman.md R138, R139) is one visit. -/
theorem hWalk_reaches_of_short {s T : State} {ft : List FtEntry} (hshort : ft.length ≤ 1) {e : Engine} (hft : e.ft = ft)
    (hstk : e.stk = [])
    (hT : ∀ codes, codes = deriveCodes ft (buildTree ft) → (∀ c ∈ codes, c.Fits s.cfg) →
      Reaches (enterHEmit (s.during .hWalk (putSeq (Memory.putCt s.cfg) 0 codes s.mem) e)) T) :
    Reaches (s.during .hWalk s.mem e) T := by
  refine .visit ?_
  show Reaches (visitHWalk _) _
  match ft, hshort with
  | [], _ =>
    simp only [visitHWalk, during_eng, hft, hstk]
    exact hT [] rfl (fun _ hc => absurd hc List.not_mem_nil)
  | [a], _ =>
    simp only [visitHWalk, during_eng, hft]
    exact hT [{ sym := a.sym, clen := 1, cbits := 0 }] rfl fun c hc => by
      rw [List.mem_singleton.1 hc]
      exact ⟨Nat.one_lt_two_pow (by decide), Nat.two_pow_pos _⟩

theorem deriveCodes_of_two_le {ft : List FtEntry} (htwo : 2 ≤ ft.length) (nodes : List Node) :
    deriveCodes ft nodes = walkLoop nodes nodes.length [StkEntry.root nodes] (blankCodes ft) := by
  obtain ⟨a, b, r, rfl⟩ := exists_two htwo
  rfl

/-- The walk starts at the root of the one tree that the merges leave. -/
theorem walkAt_root {s : State} (hwf : s.mem.wf s.cfg = true) {ft : List FtEntry} (hft : FtOk s.cfg ft) {nodes : List Node} {t : CodeTree}
    (ha : ArenaAt ft.length nodes [t]) {e : Engine} (hops : SameOperands s e) (hfteq : e.ft = ft) (hnode : e.node = nodes)
    (hstk : e.stk = [StkEntry.root nodes]) : WalkAt s ft nodes (blankCodes ft) [(StkEntry.root nodes, t)] s.mem e := by
  have hleaves : (leavesOf [(StkEntry.root nodes, t)]).Perm (List.range ft.length) := ha.leaves
  have hroot : nodes.length - 1 = t.root := List.mem_singleton.1 (ha.last (List.cons_ne_nil _ _))
  have hsize := ha.size
  have hsyms := hft.le_syms
  have hk : t.leaves.length = ft.length := by
    have := hleaves.length_eq
    rwa [leavesOf, List.flatMap_singleton, List.length_range] at this
  have hpending : Pending ft.length nodes (StkEntry.root nodes, t) :=
    ⟨(wd_toNat _ (by omega)).trans hroot, ha.forest.inArena t (List.mem_singleton_self t), by
      rw [hk]; exact (Nat.zero_add _).le, Nat.one_pos⟩
  refine ⟨hops, hfteq, hnode, hstk, fun q hq => List.mem_singleton.1 hq ▸ hpending, hleaves.nodup_iff.2 List.nodup_range,
    fun x hx => List.mem_range.1 (hleaves.mem_iff.1 hx), .start hwf (hleaves.trans (by simp [blankCodes])), by simp [blankCodes], fun c hc => ?_⟩
  obtain ⟨a, -, rfl⟩ := List.mem_map.1 hc
  exact ⟨Nat.two_pow_pos _, Nat.two_pow_pos _⟩

/-- Into the walk with the arena that the merges leave: the table is derived and written. -/
theorem enterHWalk_reaches {s T : State} (hwf : s.mem.wf s.cfg = true) {ft : List FtEntry} (hft : FtOk s.cfg ft)
    {live : Nat} {e : Engine} (h : MergeAt s ft (buildTree ft) live e)
    (hT : ∀ codes e', codes = deriveCodes ft (buildTree ft) → SameOperands s e' → e'.ft = ft → (∀ c ∈ codes, c.Fits s.cfg) →
      Reaches (enterHEmit (s.during .hWalk (putSeq (Memory.putCt s.cfg) 0 codes s.mem) e')) T) :
    Reaches (enterHWalk (s.during .hMerge s.mem e)) T := by
  show Reaches (s.during .hWalk s.mem ({ e with stk := if e.ft.length ≤ 1 then [] else [StkEntry.root e.node] }.fit s.cfg)) T
  rw [h.ft_eq, h.node_eq]
  by_cases hshort : ft.length ≤ 1
  · rw [if_pos hshort]
    exact hWalk_reaches_of_short hshort (fit_ft hft.le_kMax) (fit_stk (Nat.zero_le _) nofun) fun codes hc hfit =>
      hT codes _ hc h.ops (fit_ft hft.le_kMax) hfit
  · have htwo : 2 ≤ ft.length := Nat.lt_of_not_le hshort
    have hsyms := hft.le_syms
    obtain ⟨t, ha⟩ := (arenaAt_leaves ft).mergeLoop (by omega) ft.length (List.ne_nil_of_length_pos (by simp; omega)) (by simp)
    rw [List.length_map, List.length_range] at ha
    change ArenaAt ft.length (buildTree ft) [t] at ha
    have hnodes := hft.nodes_le ha.length_le
    rw [if_neg hshort]
    have hstk : [StkEntry.root (buildTree ft)].length ≤ s.cfg.kMax := (Nat.le_of_lt htwo).trans hft.le_kMax
    have hw := walkAt_root hwf hft ha (e := { e with ft := ft, node := buildTree ft, stk := [StkEntry.root (buildTree ft)] }.fit s.cfg) h.ops
      (fit_ft hft.le_kMax) (fit_node hnodes) (fit_stk hstk fun x hx => by rw [List.mem_singleton.1 hx]; exact Nat.two_pow_pos _)
    have hpops : popsOf [(StkEntry.root (buildTree ft), t)] ≤ (buildTree ft).length := by
      have hsize := ha.size
      have htree := t.size_add_one
      have hk : t.leaves.length = ft.length := by simpa using ha.leaves.length_eq
      simp only [popsOf_cons, List.length_cons, List.length_nil] at hsize ⊢
      simp only [popsOf, List.map_nil, List.sum_nil]
      omega
    refine hWalk_reaches hwf hft htwo hnodes _ _ _ _ _ hw hpops fun codes e' hc => hT codes e' ?_
    rw [hc, deriveCodes_of_two_le htwo]
    rfl

/-- After the count, what `HUF_ENC` delivers is what the emitter makes of the derived table. -/
theorem hufEncode_map_of_count {β : Type} (f : HufOut → β) {p : Config.Params} {text : List Sym} {ft : List FtEntry}
    (h : countLoop p.kMax 0 text [] = .ok ft) :
    (hufEncode p text).map f =
      (emitLoop p.bMax (deriveCodes ft (buildTree ft)) 0 text []).map fun bits => f { bits := bits, codes := deriveCodes ft (buildTree ft) } := by
  rw [hufEncode, h]
  dsimp only
  cases emitLoop p.bMax (deriveCodes ft (buildTree ft)) 0 text [] <;> rfl

/-- `H_LEAVES` is one visit: a leaf per distinct symbol, all of them live (41_huffman.md R133). -/
theorem hLeaves_reaches {s T : State} {ft : List FtEntry} (hft : FtOk s.cfg ft) {e : Engine} (hops : SameOperands s e) (he : e.ft = ft)
    (hT : ∀ e', MergeAt s ft (leaves ft) ((List.range ft.length).map CodeTree.leaf).length e' → Reaches (s.during .hMerge s.mem e') T) :
    Reaches (s.during .hLeaves s.mem e) T := by
  refine .visit ?_
  show Reaches (s.during .hMerge s.mem ({ e with node := leaves e.ft, live := wd e.ft.length }.fit s.cfg)) T
  rw [he]
  exact hT _ { ops := hops, ft_eq := fit_ft hft.le_kMax, node_eq := fit_node (hft.nodes_le (arenaAt_leaves ft).length_le), live_eq := by simp }

theorem hufEnc_reaches (s : State) (hcap : s.cfg.wf = true) (hwf : s.mem.wf s.cfg = true) (hp : s.phase = .hCount) :
    Reaches s (s.finish .hufEnc (s.result .hufEnc)) := by
  refine .visit ?_
  rw [phaseVisit, hp]
  simp only [visitHCount, State.result, State.inText]
  split_ifs
  · exact .refl _
  · cases hcount : countLoop s.cfg.kMax 0 (s.textIn s.nIn) [] with
    | error r => rw [hufEncode, hcount]; exact .refl _
    | ok ft =>
      have hft : FtOk s.cfg ft := ⟨countLoop_length _ _ _ _ _ (Nat.zero_le _) hcount, countLoop_length_le hcount⟩
      rw [hufEncode_map_of_count _ hcount]
      refine hLeaves_reaches hft (e := { s.eng with ft := ft, node := [], live := 0#32, stk := [], out := 0#32 }.fit s.cfg) (.refl s)
        (fit_ft hft.le_kMax) fun e he => hMerge_reaches hft ft.length _ _ e he (arenaAt_leaves ft) (by simp) fun e' live he' => ?_
      rw [List.length_map, List.length_range] at he'
      exact enterHWalk_reaches hwf hft he' fun codes e'' hcodes hops heq hfit =>
        hcodes ▸ enterHEmit_reaches hcap hft (by rw [hcodes, deriveCodes_length]) hfit hops heq

/-- Settles O55: the walk reaches every leaf of the one tree that the merges leave, so the emitter finds the derived table in `CT`, and every
hidden table and code stays within its size. -/
theorem hufEncPhasesAgree : Obligations.HufEncPhasesAgree := fun s hcap hwf hp => phases_agree_of_reaches (hufEnc_reaches s hcap hwf hp)

end Sys2Proof.Machine
end

section
/-! SUPPORT. What one move of the core can do: raise an error, complete, or go on to a phase of the same command (60_exceptions.md R255, R256;
10_state.md R39). -/

namespace Sys2Proof.Machine

/-! The error codes that a core move can raise (93_implementation_defined.md U7). -/

theorem error_of_map_error {α β : Type} {f : α → β} {r : Except Raise α} {e : Raise} (h : r.map f = .error e) : r = .error e := by
  cases r with
  | error e' => exact congrArg Except.error (Except.error.inj h)
  | ok x => cases h

/-- No command raises the reserved code, nor the one kept for illegal words. -/
theorem result_code {s : State} {c : Instr} {r : Raise} (h : s.result c = .error r) :
    r.code ≠ .invalidBitCharacter ∧ r.code ≠ .illegalCommand := by
  cases c with
  | hufEnc =>
    simp only [State.result] at h
    split_ifs at h
    · cases h; exact ⟨nofun, nofun⟩
    · simp [hufEncode_code _ _ _ (error_of_map_error h)]
  | hufDec =>
    simp only [State.result] at h
    split_ifs at h
    · cases h; exact ⟨nofun, nofun⟩
    · cases h; exact ⟨nofun, nofun⟩
    · rcases hufDecode_code _ _ _ _ (error_of_map_error h) with hc | hc | hc <;> simp [hc]
  | lzEnc =>
    simp only [State.result] at h
    split_ifs at h
    · cases h; exact ⟨nofun, nofun⟩
    · cases h; exact ⟨nofun, nofun⟩
    · simp [lzLoop_code _ _ _ _ _ _ _ (error_of_map_error h)]
  | lzDec =>
    simp only [State.result] at h
    split_ifs at h
    · cases h; exact ⟨nofun, nofun⟩
    · simp [lzDecLoop_code _ _ _ _ _ (error_of_map_error h)]
  | packBits =>
    simp only [State.result] at h
    split_ifs at h
    · cases h; exact ⟨nofun, nofun⟩
    · simp [packLoop_code _ _ _ _ _ _ _ (error_of_map_error h)]
  | unpackBits =>
    simp only [State.result] at h
    split_ifs at h
    · cases h; exact ⟨nofun, nofun⟩
    · simp [unpackLoop_code _ _ _ _ _ (error_of_map_error h)]
  | packTok =>
    simp only [State.result] at h
    split_ifs at h
    · cases h; exact ⟨nofun, nofun⟩
    · rcases packTokLoop_code _ _ _ _ _ (error_of_map_error h) with hc | hc | hc <;> simp [hc]
  | unpackTok =>
    simp only [State.result] at h
    split_ifs at h
    · cases h; exact ⟨nofun, nofun⟩
    · rcases unpackTokLoop_code _ _ _ _ _ _ (error_of_map_error h) with hc | hc <;> simp [hc]

theorem packBit_code {yMax i accN out : Nat} {b : Bool} {acc : BitVec 8} {r : Raise} (h : packBit yMax i b acc accN out = .stop r) :
    r.code = .capacityExceeded := by
  unfold packBit at h
  split_ifs at h
  cases h
  rfl

/-! The moves of the core. -/

/-- Everything one move of the core can do in a phase of the command `c`: the error completion with a code that is produced, the success completion,
or a phase of the same command. The buffers are in canonical form before each. -/
inductive CoreMove (c : Instr) (s : State) : State → Prop where
  | raised {r : Raise} (hr : r.code ≠ .invalidBitCharacter) : CoreMove c s (s.raise (some c) r)
  | completed {m : Memory} {n k : Nat} (hm : m.wf s.cfg = true) : CoreMove c s ({ s with mem := m }.complete c n k)
  | moved {ph : Phase} {m : Memory} {e : Engine} (hph : ph.owner = some c) (hm : m.wf s.cfg = true) :
      CoreMove c s ({ s with mem := m }.goto ph e)

/-- Storing a result changes the buffers only. -/
theorem store_eq (o : Output) (s : State) : o.store s = { s with mem := (o.store s).mem } := by cases o <;> rfl

/-- Storing a result keeps the canonical form of the buffers. -/
theorem store_mem_wf (o : Output) {s : State} (h : s.mem.wf s.cfg = true) : (o.store s).mem.wf s.cfg = true := by
  cases o with
  | text xs => exact Memory.wf_putSeq _ _ (Memory.wf_putText _) _ _ _ h
  | bits bs => exact Memory.wf_putSeq _ _ (Memory.wf_putBit _) _ _ _ h
  | bytes ys => exact Memory.wf_putSeq _ _ (Memory.wf_putByte _) _ _ _ h
  | toks ts => exact Memory.wf_putSeq _ _ (Memory.wf_putTok _) _ _ _ h
  | coded o => exact Memory.wf_putSeq _ _ (Memory.wf_putBit _) _ _ _ (Memory.wf_putSeq _ _ (Memory.wf_putCt _) _ _ _ h)

/-- A whole command is one such move. -/
theorem exec_coreMove {c : Instr} {s t : State} (hm : s.mem.wf s.cfg = true) (h : exec c s = .next t) : CoreMove c s t := by
  rw [exec_eq_finish] at h
  cases h
  cases hr : s.result c with
  | error r => exact .raised (result_code hr).1
  | ok o =>
    rw [State.finish, store_eq]
    exact .completed (store_mem_wf o hm)

/-! The visits, each in the phase it belongs to. -/

section
variable {s : State} (hm : s.mem.wf s.cfg = true)
include hm

theorem visitHCount_coreMove : CoreMove .hufEnc s (visitHCount s) := by
  unfold visitHCount
  split
  · exact .raised nofun
  · split
    next hc => exact .raised (by simp [countLoop_code _ _ _ _ _ hc])
    next => exact .moved rfl hm

theorem visitHLeaves_coreMove : CoreMove .hufEnc s (visitHLeaves s) := .moved rfl hm

theorem enterHWalk_coreMove : CoreMove .hufEnc s (enterHWalk s) := .moved rfl hm

theorem visitHMerge_coreMove : CoreMove .hufEnc s (visitHMerge s) := by
  unfold visitHMerge
  split
  · split
    · exact .moved rfl hm
    · exact enterHWalk_coreMove hm
  · exact enterHWalk_coreMove hm

theorem visitHWalk_coreMove : CoreMove .hufEnc s (visitHWalk s) := by
  unfold visitHWalk
  split
  · exact .moved rfl (Memory.wf_putCt _ _ _ _ hm)
  · exact .moved rfl hm
  · split
    · exact .moved rfl hm
    · split
      · exact .moved rfl (Memory.wf_putCt _ _ _ _ hm)
      · exact .moved rfl hm

theorem visitHEmit_coreMove : CoreMove .hufEnc s (visitHEmit s) := by
  unfold visitHEmit
  dsimp only
  split
  · split
    · exact .moved rfl hm
    · split
      · exact .raised nofun
      · exact .moved rfl (Memory.wf_putSeq _ _ (Memory.wf_putBit _) _ _ _ hm)
  · exact .completed hm

theorem visitDCheck_coreMove : CoreMove .hufDec s (visitDCheck s) := by
  unfold visitDCheck
  split
  · exact .raised nofun
  · split
    · exact .raised nofun
    · split
      · exact .raised nofun
      · exact .moved rfl hm

theorem visitDScan_coreMove : CoreMove .hufDec s (visitDScan s) := by
  unfold visitDScan
  dsimp only
  split
  · split
    next hc => exact .raised (by rcases scanBit_code _ _ _ _ _ _ _ _ hc with h | h <;> simp [h])
    next => exact .moved rfl (Memory.wf_putText _ _ _ _ hm)
    next => exact .moved rfl hm
  · exact .moved rfl hm

theorem visitDEnd_coreMove : CoreMove .hufDec s (visitDEnd s) := by
  unfold visitDEnd
  split
  · exact .raised nofun
  · exact .completed hm

theorem visitLInit_coreMove : CoreMove .lzEnc s (visitLInit s) := by
  unfold visitLInit
  split
  · exact .raised nofun
  · split
    · exact .raised nofun
    · split
      · exact .moved rfl hm
      · exact .completed hm

theorem visitLSearch_coreMove : CoreMove .lzEnc s (visitLSearch s) := by
  unfold visitLSearch
  split <;> exact .moved rfl hm

theorem visitLCompare_coreMove : CoreMove .lzEnc s (visitLCompare s) := by
  unfold visitLCompare
  dsimp only
  split <;> exact .moved rfl hm

theorem visitLEmit_coreMove : CoreMove .lzEnc s (visitLEmit s) := by
  unfold visitLEmit
  dsimp only
  split
  · exact .raised nofun
  · split
    · exact .moved rfl (Memory.wf_putTok _ _ _ _ hm)
    · exact .completed (Memory.wf_putTok _ _ _ _ hm)

theorem visitZInit_coreMove : CoreMove .lzDec s (visitZInit s) := by
  unfold visitZInit
  split
  · exact .raised nofun
  · split
    · exact .moved rfl hm
    · exact .completed hm

theorem visitZCopy_coreMove : CoreMove .lzDec s (visitZCopy s) := by
  unfold visitZCopy
  dsimp only
  split
  · split
    · exact .raised nofun
    · exact .moved rfl (Memory.wf_putText _ _ _ _ hm)
  · exact .moved rfl hm

omit hm in
theorem nextTok_coreMove {m : Memory} (hm : m.wf s.cfg = true) (out : Nat) : CoreMove .lzDec s (nextTok out { s with mem := m }) := by
  unfold nextTok
  split
  · exact .moved rfl hm
  · exact .completed hm

theorem visitZLit_coreMove : CoreMove .lzDec s (visitZLit s) := by
  unfold visitZLit
  dsimp only
  split
  · split
    · exact .raised nofun
    · exact nextTok_coreMove (Memory.wf_putText _ _ _ _ hm) _
  · exact nextTok_coreMove hm _

theorem visitPbCheck_coreMove : CoreMove .packBits s (visitPbCheck s) := by
  unfold visitPbCheck
  split
  · exact .raised nofun
  · exact .moved rfl hm

theorem visitPbLoop_coreMove : CoreMove .packBits s (visitPbLoop s) := by
  unfold visitPbLoop
  dsimp only
  split
  · split
    next hc => exact .raised (by simp [packBit_code hc])
    next => exact .moved rfl (Memory.wf_putByte _ _ _ _ hm)
    next => exact .moved rfl hm
  · exact .moved rfl hm

theorem visitPbFlush_coreMove : CoreMove .packBits s (visitPbFlush s) := .completed (Memory.wf_putSeq _ _ (Memory.wf_putByte _) _ _ _ hm)

theorem visitUbCheck_coreMove : CoreMove .unpackBits s (visitUbCheck s) := by
  unfold visitUbCheck
  split
  · exact .raised nofun
  · exact .moved rfl hm

theorem visitUbLoop_coreMove : CoreMove .unpackBits s (visitUbLoop s) := by
  unfold visitUbLoop
  dsimp only
  split
  · split
    · exact .raised nofun
    · exact .moved rfl (Memory.wf_putSeq _ _ (Memory.wf_putBit _) _ _ _ hm)
  · exact .completed hm

theorem visitPtCheck_coreMove : CoreMove .packTok s (visitPtCheck s) := by
  unfold visitPtCheck
  split
  · exact .raised nofun
  · exact .moved rfl hm

theorem visitPtLoop_coreMove : CoreMove .packTok s (visitPtLoop s) := by
  unfold visitPtLoop
  dsimp only
  split
  · split
    next hc => exact .raised (by rcases packTok1_code _ _ _ _ _ hc with h | h | h <;> simp [h])
    next => exact .moved rfl (Memory.wf_putSeq _ _ (Memory.wf_putByte _) _ _ _ hm)
  · exact .completed hm

theorem visitUtCheck_coreMove : CoreMove .unpackTok s (visitUtCheck s) := by
  unfold visitUtCheck
  split
  · exact .raised nofun
  · exact .moved rfl hm

theorem visitUtLoop_coreMove : CoreMove .unpackTok s (visitUtLoop s) := by
  unfold visitUtLoop
  dsimp only
  split
  · split
    · exact .raised nofun
    · split
      · exact .raised nofun
      · exact .moved rfl (Memory.wf_putTok _ _ _ _ hm)
  · exact .completed hm

/-- Every visit of a phase of a command is one such move. -/
theorem phaseVisit_coreMove {c : Instr} (hc : s.phase.owner = some c) : CoreMove c s (phaseVisit s) := by
  unfold phaseVisit
  split <;> rename_i hph <;> rw [hph] at hc <;> cases hc
  · exact visitHCount_coreMove hm
  · exact visitHLeaves_coreMove hm
  · exact visitHMerge_coreMove hm
  · exact visitHWalk_coreMove hm
  · exact visitHEmit_coreMove hm
  · exact visitDCheck_coreMove hm
  · exact visitDScan_coreMove hm
  · exact visitDEnd_coreMove hm
  · exact visitLInit_coreMove hm
  · exact visitLSearch_coreMove hm
  · exact visitLCompare_coreMove hm
  · exact visitLEmit_coreMove hm
  · exact visitZInit_coreMove hm
  · exact visitZCopy_coreMove hm
  · exact visitZLit_coreMove hm
  · exact visitPbCheck_coreMove hm
  · exact visitPbLoop_coreMove hm
  · exact visitPbFlush_coreMove hm
  · exact visitUbCheck_coreMove hm
  · exact visitUbLoop_coreMove hm
  · exact visitPtCheck_coreMove hm
  · exact visitPtLoop_coreMove hm
  · exact visitUtCheck_coreMove hm
  · exact visitUtLoop_coreMove hm

end

end Sys2Proof.Machine
end

section
/-! SUPPORT. The invariant under every operation of the core, the host and the platform (10_state.md R23, R29, R41; 20_memory.md R61). -/

namespace Sys2Proof.Machine

/-! What the clauses of the invariant say of a code, a phase and an opcode. -/

theorem legalCode_toBits {c : ErrCode} (h : c ≠ .invalidBitCharacter) : legalCode c.toBits = true := by
  cases c with
  | invalidBitCharacter => exact absurd rfl h
  | _ => rfl

theorem toBits_ne_zero (c : ErrCode) : c.toBits ≠ 0#4 := by cases c <;> decide

/-- Clearing flags keeps at most one of them set. -/
theorem atMostOne_of_cleared {b d e x y : Bool} (h : atMostOne b d e = true) : atMostOne b (d && x) (e && y) = true := by
  revert b d e x y
  decide

theorem firstPhase_owner (i : Instr) : (firstPhase i).owner = some i := by cases i <;> rfl

theorem ne_idle_of_owner {ph : Phase} {c : Instr} (h : ph.owner = some c) : ph ≠ .idle := by rintro rfl; cases h

theorem eq_idle_or_illegal_of_owner {ph : Phase} (h : ph.owner = none) : ph = .idle ∨ ph = .illegal := by
  cases ph with
  | idle => exact .inl rfl
  | illegal => exact .inr rfl
  | _ => cases h

theorem opMatches_of_owner {ph : Phase} {c : Instr} (h : ph.owner = some c) (op : BitVec 4) : opMatches ph op = true ↔ op = c.opcode := by
  simp [opMatches, h]

theorem eq_opcode_of_opcodeInstr {c : BitVec 4} {i : Instr} (h : opcodeInstr c = some i) : c = i.opcode := by
  unfold opcodeInstr at h
  split at h <;> cases h <;> exact BitVec.eq_of_toNat_eq ‹_›

/-- A legal command word has the opcode of its command in its low bits (30_encoding.md R90, R91). -/
theorem opcode_of_decode? {w : Word} {i : Instr} (h : decode? w = some i) : w.extractLsb' 0 4 = i.opcode := by
  unfold decode? decode at h
  split at h
  next j hj =>
    cases h
    split at hj
    · split at hj <;> cases hj
      exact eq_opcode_of_opcodeInstr ‹_›
    · cases hj
  next => cases h

/-- Acceptance selects a phase of the command that the low bits of the word name, and never `IDLE` (60_exceptions.md R254). -/
theorem acceptPhase_sound (w : Word) : acceptPhase w ≠ .idle ∧ opMatches (acceptPhase w) (w.extractLsb' 0 4) = true := by
  unfold acceptPhase
  split
  next i hi =>
    have ho := firstPhase_owner i
    exact ⟨ne_idle_of_owner ho, (opMatches_of_owner ho _).2 (opcode_of_decode? hi)⟩
  next => exact ⟨nofun, rfl⟩

/-! What the invariant says of a state in which a command runs. -/

section
variable {s : State}

/-- While a command runs, nothing is reported (10_state.md R23, R29). -/
theorem State.Inv.running (h : s.Inv) (hb : s.busy = true) : s.done = false ∧ s.err = false ∧ s.errcode = 0#4 ∧ s.errInfo = 0#32 := by
  obtain ⟨-, hone, hcode, hinfo, -⟩ := h
  simp only [atMostOne, hb, Bool.true_and, Bool.and_eq_true, Bool.not_eq_true'] at hone
  obtain ⟨⟨hdone, herr⟩, -⟩ := hone
  refine ⟨hdone, herr, ?_, hinfo herr⟩
  by_contra hne
  exact absurd (hcode.1 hne) (by simp [herr])

theorem State.Inv.busy_of_phase (h : s.Inv) (hph : s.phase ≠ .idle) : s.busy = true := by
  obtain ⟨-, -, -, -, -, hidle, -⟩ := h
  exact Bool.eq_true_of_not_eq_false fun hb => hph (hidle.2 hb)

theorem State.Inv.op_of_owner (h : s.Inv) {c : Instr} (hc : s.phase.owner = some c) : s.op = c.opcode := by
  obtain ⟨-, -, -, -, -, -, hop, -⟩ := h
  exact (opMatches_of_owner hc s.op).1 hop

theorem State.Inv.mem_wf (h : s.Inv) : s.mem.wf s.cfg = true := by
  obtain ⟨-, -, -, -, -, -, -, hmem, -⟩ := h
  exact hmem

/-! The shared operations of the core. -/

theorem State.Inv.setMem (h : s.Inv) {m : Memory} (hm : m.wf s.cfg = true) : State.Inv { s with mem := m } := by
  obtain ⟨hcap, hone, hcode, hinfo, hlegal, hidle, hop, -, heng⟩ := h
  exact ⟨hcap, hone, hcode, hinfo, hlegal, hidle, hop, hm, heng⟩

theorem State.Inv.raise (h : s.Inv) (hb : s.busy = true) (c : Option Instr) {r : Raise} (hr : r.code ≠ .invalidBitCharacter) :
    (s.raise c r).Inv := by
  obtain ⟨hdone, -⟩ := h.running hb
  obtain ⟨hcap, -, -, -, -, -, -, hmem, -⟩ := h
  refine ⟨hcap, ?_, ?_, nofun, legalCode_toBits hr, ⟨fun _ => rfl, fun _ => rfl⟩, rfl, Memory.wf_clearOutputs? _ _ _ hmem, s.freeHidden_fits⟩
  · simp [atMostOne, hdone]
  · simp [toBits_ne_zero]

theorem State.Inv.complete (h : s.Inv) (hb : s.busy = true) (c : Instr) (n k : Nat) : (s.complete c n k).Inv := by
  obtain ⟨-, herr, -⟩ := h.running hb
  obtain ⟨hcap, -, hcode, hinfo, hlegal, -, -, hmem, -⟩ := h
  refine ⟨hcap, ?_, hcode, hinfo, hlegal, ⟨fun _ => rfl, fun _ => rfl⟩, rfl, hmem, s.freeHidden_fits⟩
  simp [State.complete, atMostOne, herr]

theorem State.Inv.goto (h : s.Inv) (hb : s.busy = true) {ph : Phase} (hidle : ph ≠ .idle) (hop : opMatches ph s.op = true) (e : Engine) :
    (s.goto ph e).Inv := by
  obtain ⟨hcap, hone, hcode, hinfo, hlegal, -, -, hmem, -⟩ := h
  exact ⟨hcap, hone, hcode, hinfo, hlegal, by simp [State.goto, hidle, hb], hop, hmem, Engine.fit_fits _ _⟩

/-- Every move of the core in a phase of a command keeps the invariant. -/
theorem CoreMove.inv {c : Instr} {t : State} (hmove : CoreMove c s t) (h : s.Inv) (hc : s.phase.owner = some c) : t.Inv := by
  have hb := h.busy_of_phase (ne_idle_of_owner hc)
  cases hmove with
  | raised hr => exact h.raise hb _ hr
  | completed hm => exact (h.setMem hm).complete hb _ _ _
  | moved hph hm =>
    exact (h.setMem hm).goto hb (ne_idle_of_owner hph) ((opMatches_of_owner hph s.op).2 (h.op_of_owner hc)) _

/-! The agents. -/

theorem phaseVisit_inv (h : s.Inv) : (phaseVisit s).Inv := by
  cases hc : s.phase.owner with
  | some c => exact (phaseVisit_coreMove h.mem_wf hc).inv h hc
  | none =>
    rcases eq_idle_or_illegal_of_owner hc with hph | hph
    · rwa [phaseVisit, hph]
    · rw [phaseVisit, hph]
      exact h.raise (h.busy_of_phase (by simp [hph])) _ nofun

theorem phase_of_fetched {i : Instr} (h : s.fetched = some i) : s.phase = firstPhase i := by
  unfold State.fetched at h
  split at h
  · split at h <;> cases h
    assumption
  · cases h

theorem coreStep_inv (h : s.Inv) {t : State} (ht : coreStep s = .next t) : t.Inv := by
  unfold coreStep at ht
  split at ht
  · cases ht; exact h
  · split at ht
    next i hi => exact (exec_coreMove h.mem_wf ht).inv h (by rw [phase_of_fetched hi, firstPhase_owner])
    next => cases ht; exact phaseVisit_inv h

theorem phaseStep_inv (h : s.Inv) {t : State} (ht : phaseStep s = .next t) : t.Inv := by
  unfold phaseStep at ht
  split at ht <;> cases ht
  · exact h
  · exact phaseVisit_inv h

theorem State.Inv.ackStatus (h : s.Inv) (v : Word) : (s.ackStatus v).Inv := by
  obtain ⟨hcap, hone, hcode, hinfo, hlegal, hidle, hop, hmem, heng⟩ := h
  refine ⟨hcap, atMostOne_of_cleared hone, ?_, ?_, ?_, hidle, hop, hmem, heng⟩ <;>
    simp only [State.ackStatus_err, State.ackStatus_errcode, State.ackStatus_errInfo]
  · cases v.getLsbD 2 with
    | false => simpa using hcode
    | true => simp
  · cases v.getLsbD 2 with
    | false => simpa using hinfo
    | true => simp
  · cases v.getLsbD 2 with
    | false => simpa using hlegal
    | true => rfl

theorem State.Inv.accept (h : s.Inv) (w : Word) : (s.accept w).Inv := by
  obtain ⟨hcap, -, -, -, -, -, -, hmem, heng⟩ := h
  obtain ⟨hidle, hop⟩ := acceptPhase_sound w
  exact ⟨hcap, rfl, by simp, fun _ => rfl, rfl, by simp [hidle], hop, hmem, heng⟩

/-- A reset of the registers makes the invariant hold, whatever they held. -/
theorem resetRegs_inv (hcap : s.cfg.wf = true) (hmem : s.mem.wf s.cfg = true) : s.resetRegs.Inv :=
  ⟨hcap, rfl, by simp, fun _ => rfl, rfl, by simp, rfl, hmem, s.freeHidden_fits⟩

theorem State.Inv.softReset (h : s.Inv) : s.softReset.Inv := by
  have hmem := h.mem_wf
  obtain ⟨hcap, -⟩ := h
  refine resetRegs_inv hcap ?_
  dsimp only
  split
  · exact Memory.wf_clearOutputs? _ _ _ hmem
  · exact hmem

theorem State.Inv.powerOn (h : s.Inv) : s.powerOn.Inv := by
  obtain ⟨hcap, -⟩ := h
  exact resetRegs_inv hcap (Memory.empty_wf _)

theorem State.Inv.writeCtrl (h : s.Inv) (v : Word) : (s.writeCtrl v).Inv := by
  unfold State.writeCtrl
  split
  · exact h.softReset
  · exact h

theorem State.Inv.regWrite (h : s.Inv) (i : Nat) (v : Word) : (s.regWrite i v).Inv := by
  unfold State.regWrite
  split
  · split
    · exact h
    · exact h.accept v
  · exact h.ackStatus v
  · exact h.writeCtrl v
  · split <;> exact h
  · split <;> exact h
  · split <;> exact h
  · exact h

theorem State.Inv.memRead (h : s.Inv) (sp : Space) (idx : Nat) : (s.memRead sp idx).Inv := by
  unfold State.memRead
  split
  · exact h
  · split <;> exact h

theorem State.Inv.memWrite (h : s.Inv) (sp : Space) (idx : Nat) (v : Word) : (s.memWrite sp idx v).Inv := by
  unfold State.memWrite
  split
  · exact h.regWrite idx v
  · split
    · exact h
    · exact h.setMem (Memory.wf_poke _ _ _ _ _ h.mem_wf)

theorem hostOp_inv (h : s.Inv) (op : HostOp) : (hostOp op s).Inv := by
  unfold hostOp
  split
  case h_1 sp idx =>
    split
    · exact h
    · exact h.memRead sp idx
  case h_2 sp idx v =>
    split
    · exact h
    · exact h.memWrite sp idx v
  case h_3 => split <;> exact h
  case h_4 => split <;> exact h
  case h_5 =>
    split
    · exact h
    · split <;> exact h
  case h_6 => exact h
  case h_7 =>
    split
    · exact h.powerOn
    · exact h

theorem hostStep_inv (h : s.Inv) : (hostStep s).Inv := by
  unfold hostStep
  split
  next => exact h
  next op rest _ =>
    have hnext : State.Inv { s with script := rest } := h
    exact hostOp_inv hnext op

theorem agentStep_inv (h : s.Inv) {a : Agent} {t : State} (ht : agentStep a s = .next t) : t.Inv := by
  cases a with
  | host => cases ht; exact hostStep_inv h
  | core => exact coreStep_inv h ht
  | phase => exact phaseStep_inv h ht

end

/-- Settles O8: a core move is a completion or a phase of the same command, and a host operation writes one register or one buffer word, or resets. -/
theorem stepKeepsInvariant : Obligations.StepKeepsInvariant := by
  intro s t h ht
  have hpop : s.popSched.Inv := h
  exact agentStep_inv hpop ht

/-- Settles O7: the capacities of REF are in range, nothing runs and nothing is reported, and the buffers and hidden tables are empty. -/
theorem resetSatisfiesInvariant : Obligations.ResetSatisfiesInvariant :=
  ⟨by decide, rfl, by decide, fun _ => rfl, rfl, by decide, rfl, reset_mem_wf, Engine.zero_fits _⟩

end Sys2Proof.Machine
end

section
/-! SUPPORT. The registers as the host sees them: the words of `STATUS` and `CTRL` (10_state.md R23, R24), reserved indices (R30), the interrupt output
(R43) and the state after power-on reset (R44). -/

namespace Sys2Proof.Machine

/-! The words of `STATUS` and `CTRL`. -/

theorem toNat_append_eq_add {m n : Nat} (x : BitVec m) (y : BitVec n) : (x ++ y).toNat = x.toNat * 2 ^ n + y.toNat := by
  rw [BitVec.toNat_append, ← Nat.shiftLeft_add_eq_or_of_lt y.isLt, Nat.shiftLeft_eq]

theorem statusWord_toNat (s : State) :
    s.statusWord.toNat = s.busy.toNat + 2 * s.done.toNat + 4 * s.err.toNat + 8 * s.haz.toNat + 16 * s.errcode.toNat + 256 * s.lastop.toNat := by
  simp only [State.statusWord, toNat_append_eq_add, BitVec.toNat_ofBool, BitVec.toNat_ofNat]
  omega

theorem ctrlWord_toNat (s : State) : s.ctrlWord.toNat = s.irqEn.toNat := by
  simp only [State.ctrlWord, toNat_append_eq_add, BitVec.toNat_ofBool, BitVec.toNat_ofNat]
  omega

/-! Register accesses through the port. -/

theorem memRead_reg (s : State) (i : Nat) : s.memRead .reg i = s.giveWord (s.regRead i) := rfl

theorem memWrite_reg (s : State) (i : Nat) (v : Word) : s.memWrite .reg i v = s.regWrite i v := rfl

theorem regRead_reserved (s : State) {i : Nat} (h : 8 ≤ i) : s.regRead i = 0#32 := by
  obtain ⟨k, rfl⟩ := Nat.exists_eq_add_of_le' h
  rfl

theorem regWrite_ignored (s : State) {i : Nat} (h : 6 ≤ i) (v : Word) : s.regWrite i v = s := by
  obtain ⟨k, rfl⟩ := Nat.exists_eq_add_of_le' h
  rfl

theorem regWrite_cmd {s : State} (hb : s.busy = false) (w : Word) : s.regWrite 0 w = s.accept w := by
  simp [State.regWrite, hb]

/-- Settles O18: index by index. -/
theorem registerIndices : Obligations.RegisterIndices := by
  intro s
  refine ⟨rfl, rfl, rfl, ctrlWord_toNat s, rfl, rfl, rfl, rfl, rfl, fun i hi => ?_, fun i v hi => ?_⟩
  · rw [memRead_reg, regRead_reserved s hi]
  · rw [memWrite_reg, regWrite_ignored s hi]

theorem and_not_eq_ite (a b : Bool) : (a && !b) = if b then false else a := by cases b <;> simp

/-- Settles O19: the fields of `STATUS` stand side by side, and a write of index 1 is the acknowledgement whatever `BUSY` is. -/
theorem statusFieldsAndAcknowledge : Obligations.StatusFieldsAndAcknowledge := by
  intro s v
  refine ⟨statusWord_toNat s, ?_⟩
  rw [memWrite_reg]
  show s.ackStatus v = _
  simp only [State.ackStatus, and_not_eq_ite]

/-! The interrupt output. -/

theorem irq_eq_true_iff (s : State) : s.irq = true ↔ s.irqEn = true ∧ (s.done = true ∨ s.err = true) := by
  simp [State.irq]

theorem irq_of_quiet {s : State} (hdone : s.done = false) (herr : s.err = false) : s.irq = false := by
  simp [State.irq, hdone, herr]

/-- A command ends with `DONE` or `ERR` set and leaves `IRQ_EN`. -/
theorem exec_irq {c : Instr} {s t : State} (h : exec c s = .next t) : t.irq = s.irqEn := by
  rw [exec_eq_finish] at h
  cases h
  cases s.result c with
  | error r => simp [State.finish, State.irq]
  | ok o =>
    rw [State.finish, store_eq]
    simp [State.irq, State.complete]

/-- Settles O20: a completion raises `irq` and the three acts of the host lower it. -/
theorem interruptFollowsCompletion : Obligations.InterruptFollowsCompletion := by
  intro s h
  refine ⟨irq_eq_true_iff s, fun hb => ?_, fun i t ht => exec_irq ht, ?_, ?_, fun hb w => ?_⟩
  · obtain ⟨hdone, herr, -⟩ := h.running hb
    exact irq_of_quiet hdone herr
  · rw [memWrite_reg]
    exact irq_of_quiet (Bool.and_false _) (Bool.and_false _)
  · rw [memWrite_reg]
    rfl
  · rw [memWrite_reg, regWrite_cmd hb]
    exact irq_of_quiet rfl rfl

/-! Power-on. -/

/-- In empty buffers no element is specified: they are what an error of a command that writes the space leaves of them. -/
theorem peek_empty (p : Config.Params) {sp : Space} {idx : Nat} (h : sp = .tok → idx % 4 ≠ 3) : Memory.empty.peek p sp idx = none := by
  cases sp with
  | reg => rfl
  | text => exact (peek_clearOutputs p .hufDec .empty .text idx).2 rfl h
  | bits => exact (peek_clearOutputs p .unpackBits .empty .bits idx).2 rfl h
  | bytes => exact (peek_clearOutputs p .packBits .empty .bytes idx).2 rfl h
  | tok => exact (peek_clearOutputs p .lzEnc .empty .tok idx).2 rfl h
  | ct => exact (peek_clearOutputs p .hufEnc .empty .ct idx).2 rfl h

/-- Settles O9: `STATUS` and `CTRL` are words of zeros, no buffer lists an element, and the host has nothing to do. -/
theorem powerOnState : Obligations.PowerOnState :=
  ⟨rfl, rfl, rfl, rfl, rfl, rfl, rfl, rfl, rfl, rfl, fun _ _ h => peek_empty _ h, rfl⟩

end Sys2Proof.Machine
end

section
/-! SUPPORT. Every command's frame (30_encoding.md R93, 20_memory.md R73), from its two completions. -/

namespace Sys2Proof.Machine

/-- A command that delivers a result ends well, having written its R93 buffers and nothing else. -/
theorem finish_ok_ends {c : Instr} {o : Output} (hsp : ∀ sp, writesSpace c sp = o.inSpace sp) (s : State) :
    EndsWell c s (s.finish c (.ok o)) o.len o.tableLen := by
  cases o with
  | text xs => exact storeText_ends c (hsp .text) s xs
  | bits bs => exact storeBits_ends c (hsp .bits) s bs
  | bytes ys => exact storeBytes_ends c (hsp .bytes) s ys
  | toks ts => exact storeToks_ends c (hsp .tok) s ts
  | coded o =>
    obtain rfl := eq_hufEnc_of_writes_ct (hsp .ct)
    exact storeHuf_ends s o.codes o.bits

theorem EndsWell.frame {c : Instr} {s t : State} {n k : Nat} (h : EndsWell c s t n k) : CommandFrame c s t := by
  obtain ⟨-, -, -, -, -, -, -, -, hframe, -⟩ := h
  exact hframe

theorem EndsInError.frame {c : Instr} {s t : State} {e : ErrCode} {info : Nat} (h : EndsInError c s t e info) : CommandFrame c s t := by
  obtain ⟨-, -, -, -, -, -, -, -, hframe, -⟩ := h
  exact hframe

/-- Settles O22: a command ends in one of the two completions, and each keeps the frame. -/
theorem commandLeavesTheRestAlone : Obligations.CommandLeavesTheRestAlone := by
  intro c s t h
  rw [exec_eq_finish] at h
  cases h
  cases hr : s.result c with
  | error r => exact (raise_ends c r s).frame
  | ok o => exact (finish_ok_ends (result_fits hr).2 s).frame

end Sys2Proof.Machine
end

section
/-! SUPPORT. The accesses of the host port (20_memory.md R60, R68, R72): which ones TLC refuses, and what a refused and a performed one do. -/

namespace Sys2Proof.Machine

theorem inRange_iff (p : Config.Params) (sp : Space) (idx : Nat) : inRange p sp idx = true ↔ ∀ n, spaceWords p sp = some n → idx < n := by
  unfold inRange
  cases spaceWords p sp <;> simp

theorem inRange_of_lt {p : Config.Params} {sp : Space} {idx n : Nat} (hn : spaceWords p sp = some n) (h : idx < n) : inRange p sp idx = true := by
  simp [inRange, hn, h]

theorem inRange_of_le {p : Config.Params} {sp : Space} {idx n : Nat} (hn : spaceWords p sp = some n) (h : n ≤ idx) : inRange p sp idx = false := by
  simp [inRange, hn, h]

/-! Which accesses are refused. -/

theorem refuses_of_busy {s : State} (hb : s.busy = true) (sp : Space) (idx : Nat) : s.refuses sp idx = true := by
  simp [State.refuses, hb]

theorem refuses_of_outOfRange {s : State} {sp : Space} {idx : Nat} (h : inRange s.cfg sp idx = false) : s.refuses sp idx = true := by
  simp [State.refuses, h]

theorem not_refuses {s : State} (hb : s.busy = false) {sp : Space} {idx : Nat} (h : inRange s.cfg sp idx = true) : s.refuses sp idx = false := by
  simp [State.refuses, hb, h]

/-! What an access of a buffer space does. -/

section
variable {s : State} {sp : Space} {idx : Nat} (hsp : sp ≠ .reg)
include hsp

theorem memRead_refused (h : s.refuses sp idx = true) : s.memRead sp idx = (s.giveWord 0#32).setHaz := by
  rw [State.memRead, if_neg hsp, if_pos h]

theorem memWrite_refused (h : s.refuses sp idx = true) (v : Word) : s.memWrite sp idx v = s.setHaz := by
  rw [State.memWrite, if_neg hsp, if_pos h]

theorem memRead_performed (hb : s.busy = false) (h : inRange s.cfg sp idx = true) : s.memRead sp idx = s.bufRead sp idx := by
  rw [State.memRead, if_neg hsp, not_refuses hb h, if_neg Bool.false_ne_true]

theorem memWrite_performed (hb : s.busy = false) (h : inRange s.cfg sp idx = true) (v : Word) :
    s.memWrite sp idx v = { s with mem := s.mem.poke s.cfg sp idx v } := by
  rw [State.memWrite, if_neg hsp, not_refuses hb h, if_neg Bool.false_ne_true]

/-- A read of a specified word returns it. -/
theorem memRead_rdata_of_word (hb : s.busy = false) (h : inRange s.cfg sp idx = true) {v : Word} (hv : s.word sp idx = some v) :
    (s.memRead sp idx).rdata = v := by
  rw [memRead_performed hsp hb h, State.bufRead_rdata, ← State.word, hv, Option.getD_some]

/-- A performed write shows at its own index of its own space, with the bits that exist there, and nowhere else (20_memory.md R61 to R66). -/
theorem memWrite_word (hb : s.busy = false) (h : inRange s.cfg sp idx = true) (v : Word) (sp' : Space) (idx' : Nat) :
    (s.memWrite sp idx v).word sp' idx' = if sp' = sp ∧ idx' = idx then some (portMask s.cfg sp idx v) else s.word sp' idx' := by
  rw [memWrite_performed hsp hb h]
  exact Memory.peek_poke _ _ _ _ _ _ _ hsp ((inRange_iff _ _ _).1 h)

theorem memRead_memWrite_rdata (hb : s.busy = false) (h : inRange s.cfg sp idx = true) (v : Word) :
    ((s.memWrite sp idx v).memRead sp idx).rdata = portMask s.cfg sp idx v := by
  have hword := memWrite_word hsp hb h v sp idx
  rw [if_pos ⟨rfl, rfl⟩] at hword
  refine memRead_rdata_of_word (s := s.memWrite sp idx v) hsp ?_ ?_ hword <;> rw [memWrite_performed hsp hb h]
  · exact hb
  · exact h

end

/-! Register writes under the interlock (20_memory.md R72 (c)). -/

theorem regWrite_busy {s : State} (hb : s.busy = true) {i : Nat} (hi : i = 0 ∨ i = 3 ∨ i = 4 ∨ i = 5) (v : Word) : s.regWrite i v = s.setHaz := by
  rcases hi with rfl | rfl | rfl | rfl <;> exact if_pos hb

theorem regWrite_ctrl_reset (s : State) {v : Word} (h : v.getLsbD 1 = true) : s.regWrite 2 v = s.softReset := if_pos h

theorem regWrite_ctrl_irqEn (s : State) {v : Word} (h : v.getLsbD 1 = false) : s.regWrite 2 v = { s with irqEn := v.getLsbD 0 } :=
  if_neg (ne_true_of_eq_false h)

section
variable {s : State} (hb : s.busy = false)
include hb

theorem regWrite_window (v : Word) : s.regWrite 3 v = { s with window := v } := if_neg (ne_true_of_eq_false hb)

theorem regWrite_inLen (v : Word) : s.regWrite 4 v = { s with inLen := v } := if_neg (ne_true_of_eq_false hb)

theorem regWrite_ctLen (v : Word) : s.regWrite 5 v = { s with ctLen := v } := if_neg (ne_true_of_eq_false hb)

end

/-- Settles O12: while a command runs every buffer access is refused and so are four register writes; otherwise each access is performed, and a buffer read
answers with the word, or a free value where none is specified. -/
theorem busyInterlock : Obligations.BusyInterlock := by
  intro s
  refine ⟨fun hb => ⟨?_, ?_, ?_⟩, memRead_reg s, fun _ => rfl, fun v => regWrite_ctrl_reset s, fun v => regWrite_ctrl_irqEn s,
    fun i v hi => regWrite_ignored s hi v,
    fun hb => ⟨regWrite_cmd hb, regWrite_window hb, regWrite_inLen hb, regWrite_ctLen hb, ?_, ?_, ?_⟩⟩
  · exact fun sp idx hsp => memRead_refused hsp (refuses_of_busy hb sp idx)
  · exact fun sp idx v hsp => memWrite_refused hsp (refuses_of_busy hb sp idx) v
  · exact fun i v hi => regWrite_busy hb hi v
  · exact fun sp idx v hsp hin => memWrite_performed hsp hb hin v
  · intro sp idx v hsp hin hv
    rw [memRead_performed hsp hb hin, State.bufRead, ← State.word, hv]
    rfl
  · intro sp idx hsp hin hv
    rw [memRead_performed hsp hb hin, State.bufRead, ← State.word, hv]
    rfl

/-- The five ways to be outside a buffer space (20_memory.md R61, R68). -/
theorem outOfRange_of_capacity_le {p : Config.Params} {sp : Space} {idx : Nat}
    (h : (sp = .text ∧ p.nMax ≤ idx) ∨ (sp = .bits ∧ p.bMax ≤ idx) ∨ (sp = .bytes ∧ p.yMax ≤ idx) ∨
      (sp = .tok ∧ 4 * p.tMax ≤ idx) ∨ (sp = .ct ∧ p.ctStride * p.kMax ≤ idx)) :
    sp ≠ .reg ∧ inRange p sp idx = false := by
  rcases h with ⟨rfl, hle⟩ | ⟨rfl, hle⟩ | ⟨rfl, hle⟩ | ⟨rfl, hle⟩ | ⟨rfl, hle⟩ <;> exact ⟨nofun, inRange_of_le rfl hle⟩

/-- Settles O13: an index outside its space is refused, and a non-word access is a refusal by itself. -/
theorem outOfRangeAndNonWordAccesses : Obligations.OutOfRangeAndNonWordAccesses := by
  intro s
  refine ⟨fun sp idx v hout => ?_, fun hrst => ⟨?_, ?_⟩⟩
  · obtain ⟨hsp, hin⟩ := outOfRange_of_capacity_le hout
    exact ⟨memRead_refused hsp (refuses_of_outOfRange hin), memWrite_refused hsp (refuses_of_outOfRange hin) v⟩
  · exact if_neg (ne_true_of_eq_false hrst)
  · exact if_neg (ne_true_of_eq_false hrst)

/-- Settles O17: a refused write stores nothing, and a performed one is read back at its own index of its own space only. -/
theorem spacesDoNotAlias : Obligations.SpacesDoNotAlias := by
  intro s sp idx v sp' idx' hb hsp hne
  cases hin : inRange s.cfg sp idx with
  | false => rw [memWrite_refused hsp (refuses_of_outOfRange hin)]; rfl
  | true =>
    have hother : ¬ (sp' = sp ∧ idx' = idx) := by
      rintro ⟨rfl, rfl⟩
      exact hne rfl
    rw [memWrite_word hsp hb hin, if_neg hother]

end Sys2Proof.Machine
end

section
/-! SUPPORT. The words of `TEXT`, `BITS`, `BYTES` and `TOK` (20_memory.md R62 to R65), written and read back. -/

namespace Sys2Proof.Machine

theorem toNat_low_bits (v : Word) {n : Nat} (hn : n ≤ 32) : ((v.extractLsb' 0 n).setWidth 32).toNat = v.toNat % 2 ^ n := by
  rw [BitVec.toNat_setWidth_of_le hn, BitVec.extractLsb'_toNat, Nat.shiftRight_zero]

/-- Settles O14: each write puts the truncated element, and the port shows an element with zeros above it. -/
theorem textBitsAndBytesWords : Obligations.TextBitsAndBytesWords := by
  intro s i v hb
  refine ⟨fun hi => ?_, fun hi => ?_, fun hi => ?_⟩
  · have hsp : Space.text ≠ .reg := nofun
    have hin : inRange s.cfg .text i = true := inRange_of_lt rfl hi
    refine ⟨?_, ?_, fun x hx => ?_⟩
    · rw [memWrite_performed hsp hb hin]
      exact (get_putText ..).trans (if_pos ⟨rfl, hi⟩)
    · rw [memRead_memWrite_rdata hsp hb hin]
      exact toNat_low_bits v (by decide)
    · have hword : s.word .text i = some (x.setWidth 32) := congrArg (Option.map (BitVec.setWidth 32)) hx
      rw [memRead_rdata_of_word hsp hb hin hword]
      exact BitVec.toNat_setWidth_of_le (by decide)
  · have hsp : Space.bits ≠ .reg := nofun
    have hin : inRange s.cfg .bits i = true := inRange_of_lt rfl hi
    refine ⟨?_, ?_, fun x hx => ?_⟩
    · rw [memWrite_performed hsp hb hin]
      exact (get_putBit ..).trans (if_pos ⟨rfl, hi⟩)
    · rw [memRead_memWrite_rdata hsp hb hin]
      exact toNat_low_bits v (by decide)
    · have hword : s.word .bits i = some ((BitVec.ofBool x).setWidth 32) := congrArg (Option.map (fun b => (BitVec.ofBool b).setWidth 32)) hx
      rw [memRead_rdata_of_word hsp hb hin hword]
      exact (BitVec.toNat_setWidth_of_le (by decide)).trans (BitVec.toNat_ofBool x)
  · have hsp : Space.bytes ≠ .reg := nofun
    have hin : inRange s.cfg .bytes i = true := inRange_of_lt rfl hi
    refine ⟨?_, ?_, fun x hx => ?_⟩
    · rw [memWrite_performed hsp hb hin]
      exact (get_putByte ..).trans (if_pos ⟨rfl, hi⟩)
    · rw [memRead_memWrite_rdata hsp hb hin]
      exact toNat_low_bits v (by decide)
    · have hword : s.word .bytes i = some (x.setWidth 32) := congrArg (Option.map (BitVec.setWidth 32)) hx
      rw [memRead_rdata_of_word hsp hb hin hword]
      exact BitVec.toNat_setWidth_of_le (by decide)

/-! The words of a token. -/

/-- Each token is a row of four words. -/
theorem tok_index (t : Nat) {f : Nat} (hf : f < 4) : (4 * t + f) / 4 = t ∧ (4 * t + f) % 4 = f := by omega

theorem inRange_tok {p : Config.Params} {t f : Nat} (ht : t < p.tMax) (hf : f < 4) : inRange p .tok (4 * t + f) = true :=
  inRange_of_lt rfl (by omega)

section
variable (p : Config.Params) (m : Memory) (t : Nat) (v : Word)

theorem poke_tok_dist : m.poke p .tok (4 * t) v = m.putTokDist p t v := by
  obtain ⟨hdiv, hmod⟩ := tok_index t (f := 0) (by decide)
  rw [Nat.add_zero] at hdiv hmod
  simp only [Memory.poke, hdiv, hmod]

theorem poke_tok_len : m.poke p .tok (4 * t + 1) v = m.putTokLen p t v := by
  obtain ⟨hdiv, hmod⟩ := tok_index t (f := 1) (by decide)
  simp only [Memory.poke, hdiv, hmod]

theorem poke_tok_lit : m.poke p .tok (4 * t + 2) v = m.putTokLit p t (Lit.ofWord v) := by
  obtain ⟨hdiv, hmod⟩ := tok_index t (f := 2) (by decide)
  simp only [Memory.poke, hdiv, hmod]

theorem poke_tok_reserved : m.poke p .tok (4 * t + 3) v = m := by
  obtain ⟨-, hmod⟩ := tok_index t (f := 3) (by decide)
  simp only [Memory.poke, hmod]

theorem peek_tok_reserved : m.peek p .tok (4 * t + 3) = some 0#32 := by
  obtain ⟨-, hmod⟩ := tok_index t (f := 3) (by decide)
  simp only [Memory.peek, hmod]

theorem portMask_tok_dist : portMask p .tok (4 * t) v = v := by
  obtain ⟨-, hmod⟩ := tok_index t (f := 0) (by decide)
  rw [Nat.add_zero] at hmod
  simp only [portMask, hmod]

theorem portMask_tok_len : portMask p .tok (4 * t + 1) v = v := by
  obtain ⟨-, hmod⟩ := tok_index t (f := 1) (by decide)
  simp only [portMask, hmod]

theorem portMask_tok_lit : portMask p .tok (4 * t + 2) v = (Lit.ofWord v).toWord := by
  obtain ⟨-, hmod⟩ := tok_index t (f := 2) (by decide)
  simp only [portMask, hmod]

end

/-- The bits that exist in a literal's word: `has_next` in bit 31, `next` in bits 20:0 (20_memory.md R65). -/
theorem litMask_getLsbD : ∀ i < 32, (0x801FFFFF#32).getLsbD i = (decide (i < 21) || decide (i = 31)) := by decide

theorem Lit.toWord_ofWord (v : Word) : (Lit.ofWord v).toWord = v &&& 0x801FFFFF#32 := by
  refine BitVec.eq_of_getLsbD_eq fun i hi => ?_
  rw [BitVec.getLsbD_and, litMask_getLsbD i hi, Lit.toWord, Lit.ofWord, BitVec.getLsbD_append]
  by_cases hlow : i < 21
  · simp [hlow]
  · rw [if_neg hlow, BitVec.getLsbD_append]
    by_cases hmid : i - 21 < 10
    · have htop : i ≠ 31 := by omega
      simp [hmid, hlow, htop]
    · obtain rfl : i = 31 := by omega
      simp

/-- Settles O15: field by field. -/
theorem tokenWords : Obligations.TokenWords := by
  intro s t v hb ht
  have hsp : Space.tok ≠ .reg := nofun
  have hdist : inRange s.cfg .tok (4 * t) = true := inRange_tok (f := 0) ht (by decide)
  have hlen : inRange s.cfg .tok (4 * t + 1) = true := inRange_tok ht (by decide)
  have hlit : inRange s.cfg .tok (4 * t + 2) = true := inRange_tok ht (by decide)
  have hres : inRange s.cfg .tok (4 * t + 3) = true := inRange_tok ht (by decide)
  refine ⟨?_, ?_, ?_, ?_, ?_, ?_, ?_, ?_⟩
  · rw [memWrite_performed hsp hb hdist, poke_tok_dist]
    exact (get_putTokDist ..).trans (if_pos ⟨rfl, ht⟩)
  · rw [memRead_memWrite_rdata hsp hb hdist, portMask_tok_dist]
  · rw [memWrite_performed hsp hb hlen, poke_tok_len]
    exact (get_putTokLen ..).trans (if_pos ⟨rfl, ht⟩)
  · rw [memRead_memWrite_rdata hsp hb hlen, portMask_tok_len]
  · rw [memWrite_performed hsp hb hlit, poke_tok_lit]
    exact (get_putTokLit ..).trans (if_pos ⟨rfl, ht⟩)
  · rw [memRead_memWrite_rdata hsp hb hlit, portMask_tok_lit, Lit.toWord_ofWord]
  · rw [memWrite_performed hsp hb hres, poke_tok_reserved]
  · exact memRead_rdata_of_word hsp hb hres (peek_tok_reserved ..)

end Sys2Proof.Machine
end

section
/-! SUPPORT. The words of a code-table entry (20_memory.md R66): its fields at the port, and a code value as the number whose digits to base `2^32` are its
words. -/

namespace Sys2Proof.Machine

section
variable (p : Config.Params) (j : Nat)

theorem inRange_ct {f : Nat} (hj : j < p.kMax) (hf : f < p.ctStride) : inRange p .ct (j * p.ctStride + f) = true := by
  refine inRange_of_lt rfl ?_
  calc j * p.ctStride + f < (j + 1) * p.ctStride := by rw [Nat.add_mul, Nat.one_mul]; omega
    _ ≤ p.kMax * p.ctStride := Nat.mul_le_mul_right _ hj
    _ = p.ctStride * p.kMax := Nat.mul_comm ..

theorem two_add_lt_ctStride {w : Nat} (hw : w < p.codeWords) : 2 + w < p.ctStride := Nat.add_lt_add_left hw 2

theorem one_lt_ctStride : 1 < p.ctStride := Nat.lt_add_right _ (by decide)

theorem poke_ct_sym (m : Memory) (v : Word) : m.poke p .ct (j * p.ctStride) v = m.putCtSym p j (v.extractLsb' 0 21) :=
  Memory.poke_ct p m j 0 v (ctStride_pos p)

theorem poke_ct_len (m : Memory) (v : Word) : m.poke p .ct (j * p.ctStride + 1) v = m.putCtLen p j v :=
  Memory.poke_ct p m j 1 v (one_lt_ctStride p)

theorem poke_ct_word (m : Memory) (v : Word) {w : Nat} (hw : w < p.codeWords) :
    m.poke p .ct (j * p.ctStride + 2 + w) v = m.putCtWord p j w v := by
  rw [Nat.add_assoc, Nat.add_comm 2 w]
  exact Memory.poke_ct p m j (w + 2) v (Nat.add_comm 2 w ▸ two_add_lt_ctStride p hw)

theorem portMask_ct_sym (v : Word) : portMask p .ct (j * p.ctStride) v = (v.extractLsb' 0 21).setWidth 32 := by
  simp only [portMask, Nat.mul_mod_left]

theorem portMask_ct_len (v : Word) : portMask p .ct (j * p.ctStride + 1) v = v := by
  simp only [portMask, (ct_index p j 1 (one_lt_ctStride p)).2]

theorem portMask_ct_word (v : Word) {w : Nat} (hw : w < p.codeWords) : portMask p .ct (j * p.ctStride + 2 + w) v = codeWordMask p w v := by
  have hmod := (ct_index p j (2 + w) (two_add_lt_ctStride p hw)).2
  rw [← Nat.add_assoc, Nat.add_comm 2 w] at hmod
  simp only [portMask, hmod]
  rfl

end

/-- The bits of a code word that exist: those of the code below position `L_MAX`. -/
theorem codeWordMask_getLsbD (p : Config.Params) (w : Nat) (v : Word) {b : Nat} (hb : b < 32) :
    (codeWordMask p w v).getLsbD b = (v.getLsbD b && decide (32 * w + b < p.lMax)) := by
  have hpos : b < p.lMax - 32 * w ↔ 32 * w + b < p.lMax := by omega
  rw [codeWordMask, lowBits, BitVec.getLsbD_and, BitVec.getLsbD_ofNat, Nat.testBit_two_pow_sub_one, decide_eq_true hb, Bool.true_and]
  simp only [hpos]

/-- The last bit of a code is bit 0 of its value. -/
theorem codeBits_getLast? {e : CtEntry} (h : 1 ≤ e.clen) : (codeBits e).getLast? = some (e.cbits.testBit 0) := by
  obtain ⟨n, hn⟩ := Nat.exists_eq_add_of_le' h
  simp [codeBits, hn, List.range_succ]

/-- The words from `w` on make a multiple of `2^(32 w)`. -/
theorem dvd_codeFrom (s : State) (j c w : Nat) : 2 ^ (32 * w) ∣ s.codeFrom j c w := by
  induction c generalizing w with
  | zero => exact Nat.dvd_zero _
  | succ c ih =>
    have hpow : 2 ^ (32 * w) ∣ 2 ^ (32 * (w + 1)) := Nat.pow_dvd_pow 2 (by omega)
    exact Nat.dvd_add (Nat.dvd_mul_left _ _) (hpow.trans (ih (w + 1)))

/-- Word `x` of a code is the digit of its value at `2^(32 x)`. -/
theorem codeFrom_digit (s : State) (j c : Nat) : ∀ w x, w ≤ x → x < w + c → s.codeFrom j c w / 2 ^ (32 * x) % 2 ^ 32 = (s.codeWordAt j x).toNat := by
  induction c with
  | zero => intro w x hle hlt; omega
  | succ c ih =>
    intro w x hle hlt
    have hword := (s.codeWordAt j w).isLt
    have hpos : 0 < 2 ^ (32 * w) := Nat.two_pow_pos _
    have hpow : 2 ^ (32 * (w + 1)) = 2 ^ (32 * w) * 2 ^ 32 := by rw [← Nat.pow_add]; rfl
    rw [State.codeFrom]
    rcases Nat.eq_or_lt_of_le hle with rfl | hgt
    · obtain ⟨q, hq⟩ := dvd_codeFrom s j c (w + 1)
      rw [hq, hpow, Nat.mul_assoc, Nat.add_comm, Nat.mul_add_div hpos]
      rw [Nat.mul_div_cancel _ hpos, Nat.mul_add_mod, Nat.mod_eq_of_lt hword]
    · obtain ⟨d, rfl⟩ := Nat.exists_eq_add_of_le hgt
      rw [← ih (w + 1) (w + 1 + d) (by omega) (by omega)]
      have hd : 2 ^ (32 * (w + 1 + d)) = 2 ^ (32 * (w + 1)) * 2 ^ (32 * d) := by rw [← Nat.pow_add, ← Nat.mul_add]
      obtain ⟨q, hq⟩ := dvd_codeFrom s j c (w + 1)
      have hlow : (s.codeWordAt j w).toNat * 2 ^ (32 * w) < 2 ^ (32 * (w + 1)) := by
        rw [hpow, Nat.mul_comm]
        exact Nat.mul_lt_mul_of_pos_left hword hpos
      rw [hd, ← Nat.div_div_eq_div_mul, ← Nat.div_div_eq_div_mul, hq, Nat.add_comm, Nat.mul_add_div (Nat.two_pow_pos _),
        Nat.div_eq_of_lt hlow, Nat.add_zero, Nat.mul_div_cancel_left _ (Nat.two_pow_pos _)]

/-- Settles O16: each word is stored in its list, and a word of the code is a digit of the value that the words make. -/
theorem codeTableWords : Obligations.CodeTableWords := by
  intro s j v hb hj
  have hsp : Space.ct ≠ .reg := nofun
  have hsym : inRange s.cfg .ct (j * s.cfg.ctStride) = true := inRange_ct s.cfg j (f := 0) hj (ctStride_pos _)
  have hlen : inRange s.cfg .ct (j * s.cfg.ctStride + 1) = true := inRange_ct s.cfg j hj (one_lt_ctStride _)
  refine ⟨?_, ?_, ?_, ?_, fun e he => codeBits_getLast? he, fun w hw => ?_⟩
  · rw [memWrite_performed hsp hb hsym, poke_ct_sym]
    simp only [State.ctAt, get_putCtSym, hj, and_self, if_true, Option.getD_some]
  · rw [memRead_memWrite_rdata hsp hb hsym, portMask_ct_sym]
  · rw [memWrite_performed hsp hb hlen, poke_ct_len]
    simp only [State.ctAt, get_putCtLen, hj, and_self, if_true, Option.getD_some]
  · rw [memRead_memWrite_rdata hsp hb hlen, portMask_ct_len]
  · have hin : inRange s.cfg .ct (j * s.cfg.ctStride + 2 + w) = true := by
      rw [Nat.add_assoc]
      exact inRange_ct s.cfg j hj (two_add_lt_ctStride _ hw)
    rw [memRead_memWrite_rdata hsp hb hin, portMask_ct_word _ _ _ hw]
    refine ⟨fun b hlt => codeWordMask_getLsbD s.cfg w v hlt, ?_⟩
    rw [memWrite_performed hsp hb hin, poke_ct_word _ _ _ _ hw]
    refine (codeFrom_digit _ j _ 0 w (Nat.zero_le _) (by simpa using hw)).trans (congrArg BitVec.toNat ?_)
    simp only [State.codeWordAt, get_putCtWord, hj, hw, and_self, if_true, Option.getD_some]

end Sys2Proof.Machine
end

section
/-! SUPPORT. The command word (30_encoding.md R90 to R92): which words decode, and what an illegal one does. -/

namespace Sys2Proof.Machine

theorem opcodeInstr_eq_some_iff {c : BitVec 4} {i : Instr} : opcodeInstr c = some i ↔ c = i.opcode := by
  refine ⟨eq_opcode_of_opcodeInstr, ?_⟩
  rintro rfl
  cases i <;> rfl

/-- The opcode map is defined on 1 to 8. -/
theorem opcodeInstr_isSome : ∀ c : BitVec 4, (opcodeInstr c).isSome = true ↔ 1 ≤ c.toNat ∧ c.toNat ≤ 8 := by decide

/-- Legal words: bits 31:4 zero, and the command's opcode in bits 3:0. -/
theorem decode_eq_ok_iff {w : Word} {i : Instr} : decode w = .ok i ↔ w.extractLsb' 4 28 = 0#28 ∧ w.extractLsb' 0 4 = i.opcode := by
  rw [← opcodeInstr_eq_some_iff]
  simp only [decode, splitWord]
  split_ifs with hzero
  · cases opcodeInstr (w.extractLsb' 0 4) <;> simp [hzero]
  · simp [hzero]

/-- A command word is its two fields, one above the other. -/
theorem eq_append_iff_fields {w : Word} {hi : BitVec 28} {lo : BitVec 4} : w = hi ++ lo ↔ w.extractLsb' 4 28 = hi ∧ w.extractLsb' 0 4 = lo := by
  have hhi := hi.isLt
  have hlo := lo.isLt
  have hw := w.isLt
  simp only [← BitVec.toNat_inj, BitVec.extractLsb'_toNat, toNat_append_eq_add, Nat.shiftRight_eq_div_pow]
  omega

theorem decode_encode_iff {w : Word} {i : Instr} : decode w = .ok i ↔ w = encode i := by
  rw [decode_eq_ok_iff]
  exact eq_append_iff_fields.symm

theorem exists_decode_iff {w : Word} :
    (∃ i, decode w = .ok i) ↔ w.extractLsb' 4 28 = 0#28 ∧ 1 ≤ (w.extractLsb' 0 4).toNat ∧ (w.extractLsb' 0 4).toNat ≤ 8 := by
  simp only [decode_eq_ok_iff, ← opcodeInstr_eq_some_iff, exists_and_left]
  rw [← Option.isSome_iff_exists, opcodeInstr_isSome]

/-- Settles O1: the decoder reads the two fields, and they make up the word. -/
theorem opcodeMapDecodes : Obligations.OpcodeMapDecodes :=
  ⟨rfl, rfl, rfl, rfl, rfl, rfl, rfl, rfl, fun _ _ => decode_encode_iff, fun _ => exists_decode_iff⟩

/-! An illegal word. -/

theorem acceptPhase_of_illegal {w : Word} (h : ∀ i, decode w ≠ .ok i) : acceptPhase w = .illegal := by
  unfold acceptPhase decode?
  cases hd : decode w with
  | ok i => exact absurd hd (h i)
  | error e => rfl

theorem phaseVisit_illegal {s : State} (h : s.phase = .illegal) : phaseVisit s = s.raise none ⟨.illegalCommand, 0⟩ := by
  rw [phaseVisit, h]

/-- There is no command to run whole where the word was illegal, even if its low bits are an opcode. -/
theorem fetched_illegal {s : State} (h : s.phase = .illegal) : s.fetched = none := by
  cases hf : s.fetched with
  | none => rfl
  | some i =>
    have howner := firstPhase_owner i
    rw [← phase_of_fetched hf, h] at howner
    cases howner

theorem coreStep_illegal {s : State} (hrst : s.rst = false) (h : s.phase = .illegal) :
    coreStep s = .next (s.raise none ⟨.illegalCommand, 0⟩) := by
  rw [coreStep, hrst, if_neg Bool.false_ne_true, fetched_illegal h, ← phaseVisit_illegal h]

theorem phaseStep_illegal {s : State} (hrst : s.rst = false) (h : s.phase = .illegal) :
    phaseStep s = .next (s.raise none ⟨.illegalCommand, 0⟩) := by
  rw [phaseStep, hrst, if_neg Bool.false_ne_true, phaseVisit_illegal h]

/-- Settles O2: acceptance selects the phase whose one move is the error completion of no command, so no buffer is cleared. -/
theorem illegalWordIsAcceptedAndFails : Obligations.IllegalWordIsAcceptedAndFails := by
  intro s w hrst hb hw
  have hillegal : ∀ i, decode w ≠ .ok i := fun i hi => by
    obtain ⟨hzero, hlow, hhigh⟩ := exists_decode_iff.1 ⟨i, hi⟩
    rcases hw with h | h | h
    · omega
    · omega
    · exact h hzero
  have hph : (s.accept w).phase = .illegal := acceptPhase_of_illegal hillegal
  rw [memWrite_reg, regWrite_cmd hb]
  exact ⟨hillegal, rfl, rfl, _, coreStep_illegal hrst hph, phaseStep_illegal hrst hph, rfl, rfl, rfl, rfl, rfl, rfl, rfl, rfl, rfl, rfl⟩

end Sys2Proof.Machine
end

section
/-! SUPPORT. The text encoding of a literal (30_encoding.md R100, R101): its four forms as arithmetic on the symbol's value, and reading a form back. -/

namespace Sys2Proof.Machine

theorem isScalar_iff (c : Sym) : isScalar c = true ↔ c.toNat ≤ 0x10FFFF ∧ ¬ (0xD800 ≤ c.toNat ∧ c.toNat ≤ 0xDFFF) := by
  simp only [isScalar, Bool.and_eq_true, Bool.not_eq_true', Bool.and_eq_false_iff, decide_eq_true_eq, decide_eq_false_iff_not, not_and_or]

/-- The field of `n` bits of a word at bit `k`, as a number. -/
theorem toNat_extractLsb' {m : Nat} (x : BitVec m) (k n : Nat) : (x.extractLsb' k n).toNat = x.toNat / 2 ^ k % 2 ^ n := by
  rw [BitVec.extractLsb'_toNat, Nat.shiftRight_eq_div_pow]

/-- The bytes of the four forms of R100, as numbers. -/
def utf8Form (v : Nat) : List Nat :=
  if v ≤ 0x7F then [v]
  else if v ≤ 0x7FF then [192 + v / 64, 128 + v % 64]
  else if v ≤ 0xFFFF then [224 + v / 4096, 128 + v / 64 % 64, 128 + v % 64]
  else [240 + v / 262144, 128 + v / 4096 % 64, 128 + v / 64 % 64, 128 + v % 64]

/-- Each form is a tag and the payload bits, byte by byte. -/
theorem utf8Enc_map_toNat (c : Sym) : (utf8Enc c).map BitVec.toNat = utf8Form c.toNat := by
  have hc := c.isLt
  unfold utf8Enc utf8Form
  split_ifs <;>
    simp only [List.map_cons, List.map_nil, toNat_append_eq_add, toNat_extractLsb', BitVec.toNat_ofNat, List.cons.injEq, and_true] <;> omega

theorem utf8Enc_eq_form (c : Sym) : utf8Enc c = (utf8Form c.toNat).map (BitVec.ofNat 8) := by
  simp [← utf8Enc_map_toNat, Function.comp_def]

theorem zero_mem_utf8Form (v : Nat) : 0 ∈ utf8Form v ↔ v = 0 := by
  unfold utf8Form
  split_ifs <;> simp only [List.mem_cons, List.not_mem_nil, or_false] <;> omega

/-- The delimiter is a byte of the encoding of U+0000 alone (30_encoding.md R100). -/
theorem zero_mem_utf8Enc (c : Sym) : (0x00#8 : Byte) ∈ utf8Enc c ↔ c = 0#21 :=
  calc (0x00#8 : Byte) ∈ utf8Enc c
    _ ↔ (0x00#8 : Byte).toNat ∈ (utf8Enc c).map BitVec.toNat := (List.mem_map_of_injective fun _ _ => BitVec.eq_of_toNat_eq).symm
    _ ↔ c.toNat = 0 := by rw [utf8Enc_map_toNat]; exact zero_mem_utf8Form _
    _ ↔ c = 0#21 := BitVec.toNat_inj (y := 0#21)

/-- The payload bits of a symbol's encoding make up the symbol. -/
theorem utf8Candidate_utf8Enc (c : Sym) : utf8Candidate (utf8Enc c) = some c := by
  have hc := c.isLt
  unfold utf8Enc
  split_ifs with h1 h2 h3 <;> refine congrArg some (BitVec.eq_of_toNat_eq ?_) <;>
    simp only [toNat_append_eq_add, toNat_extractLsb', BitVec.toNat_ofNat] <;> omega

/-- `Utf8Dec` is the exact inverse of `Utf8Enc` on scalars (30_encoding.md R101). -/
theorem utf8Dec_eq_some_iff (lit : List Byte) (c : Sym) : utf8Dec lit = some c ↔ isScalar c = true ∧ utf8Enc c = lit := by
  constructor
  · intro h
    unfold utf8Dec at h
    split at h
    · split_ifs at h with hok
      cases h
      exact hok
    · cases h
  · rintro ⟨hscalar, rfl⟩
    simp only [utf8Dec, utf8Candidate_utf8Enc, hscalar, and_self, if_true]

/-- Settles O30: the forms as numbers, the delimiter among them, and the payload bits read back. -/
theorem utf8DecodesExactlyItsEncodings : Obligations.Utf8DecodesExactlyItsEncodings :=
  ⟨isScalar_iff, fun c _ => ⟨utf8Enc_eq_form c, zero_mem_utf8Enc c⟩, utf8Dec_eq_some_iff⟩

end Sys2Proof.Machine
end

section
/-! SUPPORT. The token stream of `PACK_TOK` (30_encoding.md R99, 43_binary_packing.md R221): the bytes of one token, and the loop over packable tokens. -/

namespace Sys2Proof.Machine

theorem utf8Enc_length_le (c : Sym) : (utf8Enc c).length ≤ 4 := by
  unfold utf8Enc
  split_ifs <;> simp

/-- The serializer's bytes of a token are those of R99. -/
theorem tokBytes_eq (t : Token) : tokBytes t = tokenStreamBytes t := by
  have hhigh : t.dist.extractLsb' 8 8 = BitVec.ofNat 8 (t.dist.toNat / 256) := by
    simp [← BitVec.toNat_inj, Nat.shiftRight_eq_div_pow]
  have hlow : t.dist.extractLsb' 0 8 = BitVec.ofNat 8 (t.dist.toNat % 256) := by simp [← BitVec.toNat_inj]
  have hlen : t.len.extractLsb' 0 8 = BitVec.ofNat 8 t.len.toNat := by simp [← BitVec.toNat_inj]
  rw [tokBytes, hhigh, hlow, hlen]
  rfl

theorem tokenStreamBytes_length (t : Token) : (tokenStreamBytes t).length = 4 + (litBytes t).length := by
  rw [← tokBytes_eq, tokBytes_length]

theorem litBytes_length_le (t : Token) : (litBytes t).length ≤ 4 := by
  unfold litBytes
  split_ifs
  · exact utf8Enc_length_le _
  · exact Nat.zero_le _

/-- `PACK_TOK` checks exactly what makes a token packable. -/
theorem tokCheck_eq_none_iff (t : Token) : tokCheck t = none ↔ packable t := by
  unfold tokCheck packable Config.packDistMax Config.packLenMax
  split_ifs with hdist hlen hlit
  · simp; omega
  · simp; omega
  · simp [hlit]
  · simp only [true_iff]
    exact ⟨Nat.le_of_not_lt hdist, Nat.le_of_not_lt hlen, by simpa using hlit⟩

/-- A packable token with room for its bytes becomes those bytes. -/
theorem packTok1_of_packable {yMax i out : Nat} {t : Token} (ht : packable t) (hroom : out + (tokenStreamBytes t).length ≤ yMax) :
    packTok1 yMax i t out = .ok (tokenStreamBytes t) := by
  rw [tokenStreamBytes_length] at hroom
  rw [packTok1, (tokCheck_eq_none_iff t).2 ht, ← tokBytes_eq]
  exact if_neg (by omega)

/-- The loop passes packable tokens that fit, their bytes appended one token after the other, and goes on with the rest. -/
theorem packTokLoop_append {yMax : Nat} {ts : List Token} (us : List Token) (i : Nat) (out : List Byte) (hts : ∀ t ∈ ts, packable t)
    (hroom : out.length + (ts.flatMap tokenStreamBytes).length ≤ yMax) :
    packTokLoop yMax i (ts ++ us) out = packTokLoop yMax (i + ts.length) us (out ++ ts.flatMap tokenStreamBytes) := by
  induction ts generalizing i out with
  | nil => simp
  | cons t ts ih =>
    rw [List.flatMap_cons, List.length_append] at hroom
    rw [List.cons_append, packTokLoop, packTok1_of_packable (hts t List.mem_cons_self) (by omega)]
    show packTokLoop yMax (i + 1) (ts ++ us) (out ++ tokenStreamBytes t) = _
    rw [ih (i + 1) _ (fun u hu => hts u (List.mem_cons_of_mem _ hu)) (by rw [List.length_append]; omega)]
    rw [List.flatMap_cons, List.append_assoc, List.length_cons, Nat.add_assoc, Nat.add_comm 1]

theorem packToks_of_packable {p : Config.Params} {ts : List Token} (hts : ∀ t ∈ ts, packable t)
    (hroom : (ts.flatMap tokenStreamBytes).length ≤ p.yMax) : packToks p ts = .ok (ts.flatMap tokenStreamBytes) := by
  have h := packTokLoop_append [] 0 [] hts (by simpa using hroom)
  rwa [List.append_nil] at h

/-- A command that delivers bytes ends well, with them in `BYTES`. -/
theorem exec_bytes {c : Instr} {s : State} {ys : List Byte} (h : s.result c = .ok (.bytes ys)) :
    ∃ t : State, exec c s = .next t ∧ EndsWell c s t ys.length 0 ∧ bufHolds t.mem.bytes ys := by
  obtain ⟨hfit, hsp⟩ := result_fits h
  refine ⟨s.finish c (.ok (.bytes ys)), ?_, finish_ok_ends hsp s, storeBytes_holds s ys hfit⟩
  rw [exec_eq_finish, h]

/-- Settles O31: the loop passes every token. -/
theorem packTokResult : Obligations.PackTokResult := by
  intro s hN hts hroom
  have hres : s.result .packTok = .ok (.bytes ((s.toksIn s.nIn).flatMap tokenStreamBytes)) := by
    rw [State.result, if_neg (Nat.not_lt.2 hN), packToks_of_packable hts hroom]
    rfl
  obtain ⟨t, hexec, hends, hholds⟩ := exec_bytes hres
  refine ⟨t, hexec, hends, hholds, fun tk _ => ?_⟩
  rw [tokenStreamBytes_length]
  have := litBytes_length_le tk
  omega

end Sys2Proof.Machine
end

section
/-! SUPPORT. The packed form of a bit sequence (30_encoding.md R98, 43_binary_packing.md R211, R212): the bits of the bytes, most significant first, are
the bits packed and zeros up to a whole byte. -/

namespace Sys2Proof.Machine

/-- The `n` bits that an accumulator holds (43_binary_packing.md R211), the first one most significant. -/
def accBits (acc : BitVec 8) (n : Nat) : List Bool := (List.range n).map fun t => acc.getLsbD (n - 1 - t)

@[simp] theorem accBits_zero (acc : BitVec 8) : accBits acc 0 = [] := rfl

@[simp] theorem accBits_length (acc : BitVec 8) (n : Nat) : (accBits acc n).length = n := by simp [accBits]

@[simp] theorem accBits_getElem (acc : BitVec 8) (n t : Nat) (h : t < (accBits acc n).length) : (accBits acc n)[t] = acc.getLsbD (n - 1 - t) := by
  simp [accBits]

/-- A byte is a full accumulator. -/
theorem byteBits_eq_accBits (y : Byte) : byteBits y = accBits y 8 := rfl

@[simp] theorem byteBits_length (y : Byte) : (byteBits y).length = 8 := rfl

/-- A push puts the new bit at the bottom, and moves every other one up. -/
theorem accPush_getLsbD (acc : BitVec 8) (b : Bool) {k : Nat} (h : k < 8) :
    (accPush acc b).getLsbD k = if k = 0 then b else acc.getLsbD (k - 1) := by
  unfold accPush
  cases k with
  | zero => simp
  | succ k => simp [h, BitVec.getLsbD_eq_getElem (show k < 8 by omega)]

/-- A push appends one bit. -/
theorem accBits_accPush (acc : BitVec 8) (b : Bool) {n : Nat} (h : n < 8) : accBits (accPush acc b) (n + 1) = accBits acc n ++ [b] := by
  refine List.ext_getElem (by simp) fun t h1 h2 => ?_
  rw [accBits_length] at h1
  rw [accBits_getElem, accPush_getLsbD _ _ (by omega), List.getElem_append]
  simp only [accBits_length, accBits_getElem, List.getElem_singleton]
  split_ifs
  · omega
  · rfl
  · congr 1; omega
  · omega

/-- The flush fills an accumulator up with zeros. -/
theorem byteBits_shiftLeft (acc : BitVec 8) {n : Nat} (h : n ≤ 8) :
    byteBits (acc <<< (8 - n)) = accBits acc n ++ List.replicate (8 - n) false := by
  rw [byteBits_eq_accBits]
  refine List.ext_getElem (by simp; omega) fun t h1 h2 => ?_
  rw [accBits_length] at h1
  rw [accBits_getElem, BitVec.getLsbD_shiftLeft, List.getElem_append]
  simp only [accBits_length, accBits_getElem, List.getElem_replicate]
  have hpos : 8 - 1 - t < 8 := by omega
  split_ifs with ht
  · have hshift : ¬ 8 - 1 - t < 8 - n := by omega
    have hbit : 8 - 1 - t - (8 - n) = n - 1 - t := by omega
    simp only [hpos, hshift, hbit, decide_true, decide_false, Bool.not_false, Bool.true_and]
  · have hshift : 8 - 1 - t < 8 - n := by omega
    simp only [hshift, decide_true, Bool.not_true, Bool.and_false, Bool.false_and]

/-- The partial byte at the end holds the accumulator's bits and fewer than eight zeros. -/
theorem packFlush_bits (acc : BitVec 8) {n : Nat} (h : n < 8) :
    ∃ pad < 8, (packFlush acc n).flatMap byteBits = accBits acc n ++ List.replicate pad false := by
  unfold packFlush
  split_ifs with hn
  · exact ⟨8 - n, by omega, by rw [List.flatMap_singleton, byteBits_shiftLeft acc h.le]⟩
  · obtain rfl : n = 0 := by omega
    exact ⟨0, by omega, rfl⟩

/-- One bit of the packer (43_binary_packing.md R211): no byte to go to, a byte finished, or a fuller accumulator. -/
theorem packLoop_cons (yMax i : Nat) (b : Bool) (bs : List Bool) (acc : BitVec 8) (accN : Nat) (out : List Byte) :
    packLoop yMax i (b :: bs) acc accN out =
      if accN = 0 ∧ out.length = yMax then .error ⟨.capacityExceeded, i⟩
      else if accN + 1 = 8 then packLoop yMax (i + 1) bs 0#8 0 (out ++ [accPush acc b])
      else packLoop yMax (i + 1) bs (accPush acc b) (accN + 1) out := by
  rw [packLoop, packBit]
  split_ifs <;> rfl

/-- The packer's result, read as bits, is the bytes before, the accumulator, and the bits to come, filled up to a whole byte (30_encoding.md R98). -/
theorem packLoop_bits {yMax : Nat} {bs : List Bool} {i : Nat} {acc : BitVec 8} {accN : Nat} {out ys : List Byte} (hacc : accN < 8)
    (h : packLoop yMax i bs acc accN out = .ok ys) :
    ∃ pad < 8, ys.flatMap byteBits = out.flatMap byteBits ++ accBits acc accN ++ bs ++ List.replicate pad false := by
  induction bs generalizing i acc accN out with
  | nil =>
    cases h
    obtain ⟨pad, hpad, hflush⟩ := packFlush_bits acc hacc
    exact ⟨pad, hpad, by rw [List.flatMap_append, hflush, List.append_nil, List.append_assoc]⟩
  | cons b bs ih =>
    rw [packLoop_cons] at h
    split_ifs at h with hfull hbyte
    · obtain ⟨pad, hpad, hys⟩ := ih (by omega) h
      refine ⟨pad, hpad, hys.trans ?_⟩
      have hpush := accBits_accPush acc b hacc
      rw [hbyte, ← byteBits_eq_accBits] at hpush
      simp [hpush]
    · obtain ⟨pad, hpad, hys⟩ := ih (by omega) h
      refine ⟨pad, hpad, hys.trans ?_⟩
      simp [accBits_accPush acc b hacc]

/-- The packer succeeds where there is a byte for every bit (43_binary_packing.md R211). -/
theorem packLoop_ok {yMax : Nat} {bs : List Bool} {i : Nat} {acc : BitVec 8} {accN : Nat} {out : List Byte} (hacc : accN < 8)
    (hroom : accN + bs.length ≤ 8 * (yMax - out.length)) : ∃ ys, packLoop yMax i bs acc accN out = .ok ys := by
  induction bs generalizing i acc accN out with
  | nil => exact ⟨_, rfl⟩
  | cons b bs ih =>
    rw [List.length_cons] at hroom
    rw [packLoop_cons]
    split_ifs with hfull hbyte
    · omega
    · exact ih (by omega) (by rw [List.length_append, List.length_singleton]; omega)
    · exact ih (by omega) (by omega)

/-- A bit of a byte sequence, in its byte. -/
theorem flatMap_byteBits_getElem? (ys : List Byte) (i : Nat) {k : Nat} (hk : k ≤ 7) :
    (ys.flatMap byteBits)[8 * i + k]? = ys[i]?.map fun y => y.getLsbD (7 - k) := by
  induction ys generalizing i with
  | nil => rfl
  | cons y ys ih =>
    rw [List.flatMap_cons]
    cases i with
    | zero =>
      rw [List.getElem?_append_left (by rw [byteBits_length]; omega), byteBits_eq_accBits, List.getElem?_eq_getElem (by simp; omega)]
      simp
    | succ i =>
      rw [List.getElem?_append_right (by rw [byteBits_length]; omega), byteBits_length, Nat.mul_succ, Nat.add_right_comm,
        Nat.add_sub_cancel, ih, List.getElem?_cons_succ]

theorem flatMap_byteBits_length (ys : List Byte) : (ys.flatMap byteBits).length = 8 * ys.length := by
  simp [List.length_flatMap, Nat.mul_comm]

/-- The packed form of `n` bits has `ceil(n / 8)` bytes, and holds the bits followed by zeros (30_encoding.md R98). -/
theorem packBits_ok {p : Config.Params} {bs : List Bool} (hroom : ceilDiv bs.length 8 ≤ p.yMax) :
    ∃ ys, packBits p bs = .ok ys ∧ ys.length = ceilDiv bs.length 8 ∧
      ∃ pad, ys.flatMap byteBits = bs ++ List.replicate pad false := by
  unfold ceilDiv at hroom ⊢
  obtain ⟨ys, hys⟩ := packLoop_ok (yMax := p.yMax) (bs := bs) (i := 0) (acc := 0#8) (out := []) (Nat.two_pow_pos 3)
    (by rw [List.length_nil]; omega)
  obtain ⟨pad, hpad, hbits⟩ := packLoop_bits (Nat.two_pow_pos 3) hys
  have hlen := congrArg List.length hbits
  simp only [flatMap_byteBits_length, List.flatMap_nil, accBits_zero, List.nil_append, List.length_append, List.length_replicate] at hlen
  exact ⟨ys, hys, by omega, pad, hbits⟩

theorem bitsIn_length (s : State) (n : Nat) : (s.bitsIn n).length = n := by simp [State.bitsIn]

/-- An input with zeros behind it, bit by bit. -/
theorem bitsIn_padded_getElem? (s : State) {n pad j : Nat} (hj : j < n + pad) :
    (s.bitsIn n ++ List.replicate pad false)[j]? = some (if j < n then s.bitAt j else false) := by
  rw [List.getElem?_append, bitsIn_length]
  split_ifs with h
  · simp [State.bitsIn, h]
  · rw [List.getElem?_replicate_of_lt (by omega)]

/-- Settles O26: byte `i` is the bits from `8 i` on of the padded input. -/
theorem packBitsResult : Obligations.PackBitsResult := by
  intro s hN hroom
  obtain ⟨ys, hys, hlen, pad, hbits⟩ := packBits_ok (p := s.cfg) (bs := s.bitsIn s.nIn) (by rwa [bitsIn_length])
  rw [bitsIn_length] at hlen
  have hres : s.result .packBits = .ok (.bytes ys) := by
    rw [State.result, if_neg (Nat.not_lt.2 hN), hys]
    rfl
  obtain ⟨t, hexec, hends, hholds⟩ := exec_bytes hres
  rw [hlen] at hends
  refine ⟨t, hexec, hends, fun i hi => ?_⟩
  have hi' : i < ys.length := hlen ▸ hi
  refine ⟨ys[i], by rw [hholds i hi', List.getElem?_eq_getElem hi'], fun k hk => ?_⟩
  have hbit := flatMap_byteBits_getElem? ys i hk
  have htotal := congrArg List.length hbits
  rw [flatMap_byteBits_length, List.length_append, bitsIn_length, List.length_replicate] at htotal
  rw [hbits, bitsIn_padded_getElem? s (by omega), List.getElem?_eq_getElem hi'] at hbit
  exact (Option.some.inj hbit).symm

end Sys2Proof.Machine
end

section
/-! SUPPORT. `H_COUNT` (41_huffman.md R132): the frequency table lists the distinct symbols in order of first occurrence, each with its count; where a new
symbol finds the table full, the command ends. -/

namespace Sys2Proof.Machine

/-! Distinct symbols. -/

theorem firstOcc_append (xs ys : List Sym) : firstOcc (xs ++ ys) = firstOcc xs ++ (firstOcc ys).filter (fun y => y ∉ xs) := by
  induction xs with
  | nil => simp [firstOcc]
  | cons x xs ih =>
    simp only [List.cons_append, firstOcc, ih, List.filter_append, List.filter_filter]
    congr 2
    refine List.filter_congr fun y _ => ?_
    simp

theorem firstOcc_snoc (xs : List Sym) (x : Sym) : firstOcc (xs ++ [x]) = if x ∈ xs then firstOcc xs else firstOcc xs ++ [x] := by
  rw [firstOcc_append]
  split_ifs with h <;> simp [firstOcc, h]

@[simp] theorem mem_firstOcc (xs : List Sym) (x : Sym) : x ∈ firstOcc xs ↔ x ∈ xs := by
  induction xs with
  | nil => simp [firstOcc]
  | cons y xs ih =>
    simp only [firstOcc, List.mem_cons, List.mem_filter, ih, decide_eq_true_eq]
    tauto

theorem nodup_firstOcc (xs : List Sym) : (firstOcc xs).Nodup := by
  induction xs with
  | nil => exact List.nodup_nil
  | cons x xs ih => exact List.nodup_cons.2 ⟨by simp, ih.filter _⟩

theorem firstOcc_length_append (xs ys : List Sym) : (firstOcc xs).length ≤ (firstOcc (xs ++ ys)).length := by
  rw [firstOcc_append, List.length_append]
  exact Nat.le_add_right ..

/-- Every symbol is counted once under its distinct symbol. -/
theorem sum_count_firstOcc (xs : List Sym) : ((firstOcc xs).map fun x => xs.count x).sum = xs.length := by
  have hperm : (firstOcc xs).Perm xs.dedup :=
    (List.perm_ext_iff_of_nodup (nodup_firstOcc xs) xs.nodup_dedup).2 fun x => by rw [mem_firstOcc, List.mem_dedup]
  rw [(hperm.map _).sum_eq, List.sum_map_count_dedup_eq_length]

/-! The table. -/

/-- A frequency table has counted a text: its distinct symbols in order of first occurrence, each with its count as a 32-bit register holds it. -/
structure Counts (ft : List FtEntry) (text : List Sym) : Prop where
  syms : ft.map (·.sym) = firstOcc text
  cnts : ∀ e ∈ ft, e.cnt = wd (text.count e.sym)

theorem Counts.empty : Counts [] [] := ⟨rfl, nofun⟩

theorem Counts.length_eq {ft : List FtEntry} {text : List Sym} (h : Counts ft text) : ft.length = (firstOcc text).length := by
  rw [← h.syms, List.length_map]

theorem wd_succ (n : Nat) : wd ((wd n).toNat + 1) = wd (n + 1) := by
  simp [← BitVec.toNat_inj]

/-- A bump finds the entry of a symbol wherever there is one, and adds one to it alone. -/
theorem ftBump_eq_some {x : Sym} {ft : List FtEntry} (hx : x ∈ ft.map (·.sym)) (hd : (ft.map (·.sym)).Nodup) :
    ftBump x ft = some (ft.map fun e => if e.sym = x then { e with cnt := wd (e.cnt.toNat + 1) } else e) := by
  induction ft with
  | nil => exact absurd hx List.not_mem_nil
  | cons e r ih =>
    rw [List.map_cons, List.nodup_cons] at hd
    unfold ftBump
    split_ifs with he
    · rw [List.map_cons, if_pos he]
      congr 2
      refine ((List.map_congr_left fun a ha => if_neg ?_).trans (List.map_id _)).symm
      rintro rfl
      exact hd.1 (he ▸ List.mem_map_of_mem ha)
    · have hxr : x ∈ r.map (·.sym) := by
        rw [List.map_cons, List.mem_cons] at hx
        exact hx.resolve_left fun h => he h.symm
      rw [ih hxr hd.2, List.map_cons, if_neg he]
      rfl

theorem ftBump_eq_none {x : Sym} {ft : List FtEntry} (hx : x ∉ ft.map (·.sym)) : ftBump x ft = none := by
  induction ft with
  | nil => rfl
  | cons e r ih =>
    rw [List.map_cons, List.mem_cons, not_or] at hx
    rw [ftBump, if_neg fun he => hx.1 he.symm, ih hx.2]
    rfl

/-- One more occurrence of a symbol of the text. -/
theorem Counts.bump {ft : List FtEntry} {text : List Sym} (h : Counts ft text) {x : Sym} (hx : x ∈ text) :
    ∃ ft', ftBump x ft = some ft' ∧ Counts ft' (text ++ [x]) := by
  have hmem : x ∈ ft.map (·.sym) := by rwa [h.syms, mem_firstOcc]
  refine ⟨_, ftBump_eq_some hmem (h.syms ▸ nodup_firstOcc text), ?_, fun e he => ?_⟩
  · rw [firstOcc_snoc, if_pos hx, ← h.syms, List.map_map]
    refine List.map_congr_left fun e _ => ?_
    dsimp only [Function.comp_apply]
    split_ifs <;> rfl
  · obtain ⟨e0, he0, rfl⟩ := List.mem_map.1 he
    have hcnt := h.cnts e0 he0
    by_cases hsym : e0.sym = x
    · subst hsym
      rw [if_pos rfl]
      dsimp only
      rw [hcnt, wd_succ, List.count_append, List.count_singleton_self]
    · rw [if_neg hsym, hcnt, List.count_append, List.count_singleton, if_neg (by simpa using Ne.symm hsym), Nat.add_zero]

/-- The first occurrence of a symbol. -/
theorem Counts.new {ft : List FtEntry} {text : List Sym} (h : Counts ft text) {x : Sym} (hx : x ∉ text) :
    Counts (ft ++ [{ sym := x, cnt := 1#32 }]) (text ++ [x]) where
  syms := by rw [firstOcc_snoc, if_neg hx, List.map_append, h.syms]; rfl
  cnts e he := by
    rw [List.count_append, List.count_singleton]
    rcases List.mem_append.1 he with hin | hnew
    · have hne : ¬ x = e.sym := by
        rintro rfl
        exact hx ((mem_firstOcc text _).1 (h.syms ▸ List.mem_map_of_mem hin))
      rw [if_neg (by simpa using hne), h.cnts e hin, Nat.add_zero]
    · obtain rfl := List.mem_singleton.1 hnew
      simp [List.count_eq_zero_of_not_mem hx]

/-- One symbol of the counter (41_huffman.md R132): bumped where it is not new, and a new entry where there is room. -/
theorem countSym_cases {kMax : Nat} (i : Nat) {ft : List FtEntry} {text : List Sym} (h : Counts ft text) (x : Sym) :
    (x ∉ text ∧ ft.length = kMax ∧ countSym kMax i x ft = .error ⟨.capacityExceeded, i⟩) ∨
      ((x ∈ text ∨ ft.length ≠ kMax) ∧ ∃ ft', countSym kMax i x ft = .ok ft' ∧ Counts ft' (text ++ [x])) := by
  by_cases hx : x ∈ text
  · obtain ⟨ft', hbump, h'⟩ := h.bump hx
    exact .inr ⟨.inl hx, ft', by rw [countSym, hbump], h'⟩
  · have hnone : ftBump x ft = none := ftBump_eq_none (by rwa [h.syms, mem_firstOcc])
    by_cases hfull : ft.length = kMax
    · exact .inl ⟨hx, hfull, by rw [countSym, hnone]; exact if_pos hfull⟩
    · exact .inr ⟨.inr hfull, _, by rw [countSym, hnone]; exact if_neg hfull, h.new hx⟩

/-- A table that the counter delivers has counted the text. -/
theorem Counts.of_countLoop {kMax : Nat} {xs : List Sym} : ∀ {i : Nat} {ft ft' : List FtEntry} {text : List Sym}, Counts ft text →
    countLoop kMax i xs ft = .ok ft' → Counts ft' (text ++ xs) := by
  induction xs with
  | nil =>
    intro i ft ft' text h hc
    cases hc
    rwa [List.append_nil]
  | cons x xs ih =>
    intro i ft ft' text h hc
    rcases countSym_cases (kMax := kMax) i h x with ⟨-, -, herr⟩ | ⟨-, ft1, hok, h1⟩
    · rw [countLoop, herr] at hc
      cases hc
    · rw [countLoop, hok] at hc
      rw [List.append_cons]
      exact ih h1 hc

/-- The counter passes symbols of which there are at most `K_MAX` different ones, and goes on with the rest. -/
theorem countLoop_append {kMax : Nat} {xs : List Sym} (ys : List Sym) : ∀ (i : Nat) {ft : List FtEntry} {text : List Sym}, Counts ft text →
    (firstOcc (text ++ xs)).length ≤ kMax →
    ∃ ft', Counts ft' (text ++ xs) ∧ countLoop kMax i (xs ++ ys) ft = countLoop kMax (i + xs.length) ys ft' := by
  induction xs with
  | nil =>
    intro i ft text h _
    exact ⟨ft, by rwa [List.append_nil], rfl⟩
  | cons x xs ih =>
    intro i ft text h hle
    rw [List.append_cons] at hle ⊢
    rcases countSym_cases (kMax := kMax) i h x with ⟨hnew, hfull, -⟩ | ⟨-, ft1, hok, h1⟩
    · have hmore := firstOcc_length_append (text ++ [x]) xs
      rw [firstOcc_snoc, if_neg hnew, List.length_append, ← h.length_eq, List.length_singleton] at hmore
      omega
    · obtain ⟨ft', h', heq⟩ := ih (i + 1) h1 hle
      refine ⟨ft', h', ?_⟩
      rw [List.cons_append, countLoop, hok]
      dsimp only
      rw [heq, List.length_cons, Nat.add_assoc, Nat.add_comm 1]

/-- With at most `K_MAX` different symbols the counter delivers. -/
theorem countLoop_ok {kMax : Nat} {text : List Sym} (h : (firstOcc text).length ≤ kMax) :
    ∃ ft, countLoop kMax 0 text [] = .ok ft ∧ Counts ft text := by
  obtain ⟨ft, hft, heq⟩ := countLoop_append [] 0 Counts.empty (xs := text) h
  rw [List.append_nil] at heq
  exact ⟨ft, heq, hft⟩

/-- Different symbol number `K_MAX + 1` ends the count. -/
theorem countLoop_error {kMax : Nat} {xs ys : List Sym} {x : Sym} (hx : x ∉ xs) (hfull : (firstOcc xs).length = kMax) :
    countLoop kMax 0 (xs ++ x :: ys) [] = .error ⟨.capacityExceeded, xs.length⟩ := by
  obtain ⟨ft, hft, heq⟩ := countLoop_append (x :: ys) 0 Counts.empty (xs := xs) hfull.le
  rw [List.nil_append, Nat.zero_add] at *
  rw [heq, countLoop]
  rcases countSym_cases (kMax := kMax) xs.length hft x with ⟨-, -, herr⟩ | ⟨hroom, -⟩
  · rw [herr]
  · exact absurd hroom (not_or.2 ⟨hx, not_not.2 (hft.length_eq.trans hfull)⟩)

/-- A command whose prechecks or transform raise an error ends in it. -/
theorem finish_error_ends {c : Instr} {s : State} {r : Raise} (h : s.result c = .error r) :
    EndsInError c s (s.finish c (s.result c)) r.code r.info := by
  rw [h]
  exact raise_ends c r s

theorem exec_error {c : Instr} {s : State} {r : Raise} (h : s.result c = .error r) :
    ∃ t : State, exec c s = .next t ∧ EndsInError c s t r.code r.info :=
  ⟨_, exec_eq_finish c s, finish_error_ends h⟩

/-- Settles O49: the counter passes the text before the symbol, and finds no room for it. -/
theorem hufEncTooManySymbols : Obligations.HufEncTooManySymbols := by
  intro s i x hN hx hfull hnew
  obtain ⟨hi, rfl⟩ := List.getElem?_eq_some_iff.1 hx
  have hcount := countLoop_error (ys := (s.textIn s.nIn).drop (i + 1)) hnew hfull
  rw [← List.drop_eq_getElem_cons hi, List.take_append_drop, List.length_take_of_le hi.le] at hcount
  refine exec_error (r := ⟨.capacityExceeded, i⟩) ?_
  rw [State.result, if_neg (Nat.not_lt.2 hN), hufEncode, hcount]
  rfl

end Sys2Proof.Machine
end

section
/-! SUPPORT. A pick and a merge (41_huffman.md R134, R135): the scan answers with the smallest live node, of equal ones the last, and a merge
joins two picks. -/

namespace Sys2Proof.Machine

/-! The scan of a pick. -/

theorem isPick.get {nodes : List Node} {a : Nat} {na : Node} (h : isPick nodes a na) : nodes[a]? = some na := h.1

theorem isPick.live {nodes : List Node} {a : Nat} {na : Node} (h : isPick nodes a na) : na.live = true := h.2.1

theorem isPick.min {nodes : List Node} {a : Nat} {na : Node} (h : isPick nodes a na) {x : Nat} {m : Node} (hx : nodes[x]? = some m)
    (hm : m.live = true) : na.freq.toNat ≤ m.freq.toNat ∧ (m.freq = na.freq → x ≤ a) := h.2.2 x m hx hm

/-- The scan's answer for the nodes it has seen: their pick, or none where no node is live. -/
def PickOf (nodes : List Node) : Option (Nat × Word) → Prop
  | none => ∀ nd ∈ nodes, nd.live = false
  | some (a, f) => ∃ nd, isPick nodes a nd ∧ nd.freq = f

theorem getElem?_snoc_eq_some {α : Type} {l : List α} {y z : α} {x : Nat} :
    (l ++ [y])[x]? = some z ↔ l[x]? = some z ∨ (x = l.length ∧ y = z) := by
  rcases Nat.lt_trichotomy x l.length with hx | rfl | hx
  · rw [List.getElem?_append_left hx]
    exact ⟨.inl, fun h => h.resolve_right fun h => hx.ne h.1⟩
  · simp
  · rw [List.getElem?_eq_none (by simp; omega), List.getElem?_eq_none hx.le]
    simp; omega

/-- A node that does not come before the pick leaves it the pick. -/
theorem isPick.snoc {nodes : List Node} {a : Nat} {na : Node} (h : isPick nodes a na) {nd : Node}
    (hnd : nd.live = true → na.freq.toNat < nd.freq.toNat) : isPick (nodes ++ [nd]) a na := by
  obtain ⟨ha, hlive, hmin⟩ := h
  refine ⟨getElem?_snoc_eq_some.2 (.inl ha), hlive, fun x m hx hm => ?_⟩
  rcases getElem?_snoc_eq_some.1 hx with hx | ⟨-, rfl⟩
  · exact hmin x m hx hm
  · exact ⟨(hnd hm).le, fun heq => absurd (heq ▸ hnd hm) (Nat.lt_irrefl _)⟩

/-- A live node that is no larger than any before it is the pick. -/
theorem isPick_snoc_last {nodes : List Node} {nd : Node} (hlive : nd.live = true)
    (hmin : ∀ (x : Nat) (m : Node), nodes[x]? = some m → m.live = true → nd.freq.toNat ≤ m.freq.toNat) :
    isPick (nodes ++ [nd]) nodes.length nd := by
  refine ⟨getElem?_snoc_eq_some.2 (.inr ⟨rfl, rfl⟩), hlive, fun x m hx hm => ?_⟩
  rcases getElem?_snoc_eq_some.1 hx with hx | ⟨rfl, rfl⟩
  · exact ⟨hmin x m hx hm, fun _ => (List.getElem?_eq_some_iff.1 hx).1.le⟩
  · exact ⟨Nat.le_refl _, fun _ => Nat.le_refl _⟩

theorem pickScan_cons (nd : Node) (r : List Node) (x : Nat) (best : Option (Nat × Word)) :
    pickScan (nd :: r) x best = pickScan r (x + 1) (pickScan [nd] x best) := rfl

theorem pickScan_singleton_none (nd : Node) (x : Nat) : pickScan [nd] x none = if nd.live then some (x, nd.freq) else none := by
  simp [pickScan]

theorem pickScan_singleton_some (nd : Node) (x a : Nat) (f : Word) :
    pickScan [nd] x (some (a, f)) = if nd.live = true ∧ nd.freq.toNat ≤ f.toNat then some (x, nd.freq) else some (a, f) := by
  simp [pickScan]

/-- One node of the scan. -/
theorem PickOf.snoc {nodes : List Node} {best : Option (Nat × Word)} (h : PickOf nodes best) (nd : Node) :
    PickOf (nodes ++ [nd]) (pickScan [nd] nodes.length best) := by
  cases best with
  | none =>
    rw [pickScan_singleton_none]
    split_ifs with hlive
    · refine ⟨nd, isPick_snoc_last hlive fun x m hx hm => ?_, rfl⟩
      exact absurd hm (ne_true_of_eq_false (h m (List.mem_of_getElem? hx)))
    · intro m hm
      rcases List.mem_append.1 hm with hm | hm
      · exact h m hm
      · exact List.mem_singleton.1 hm ▸ Bool.eq_false_of_not_eq_true hlive
  | some p =>
    obtain ⟨a, f⟩ := p
    obtain ⟨na, hpick, rfl⟩ := h
    rw [pickScan_singleton_some]
    split_ifs with hbetter
    · exact ⟨nd, isPick_snoc_last hbetter.1 fun x m hx hm => hbetter.2.trans (hpick.min hx hm).1, rfl⟩
    · exact ⟨na, hpick.snoc fun hlive => Nat.lt_of_not_le fun hle => hbetter ⟨hlive, hle⟩, rfl⟩

theorem PickOf.scan {r : List Node} : ∀ {nodes : List Node} {best : Option (Nat × Word)}, PickOf nodes best →
    PickOf (nodes ++ r) (pickScan r nodes.length best) := by
  induction r with
  | nil =>
    intro nodes best h
    rwa [List.append_nil]
  | cons nd r ih =>
    intro nodes best h
    have h' := ih (h.snoc nd)
    rwa [List.length_append, List.length_singleton, List.append_assoc, ← pickScan_cons] at h'

theorem pickOf_pickScan (nodes : List Node) : PickOf nodes (pickScan nodes 0 none) :=
  PickOf.scan (nodes := []) (best := none) nofun

theorem isPick_unique {nodes : List Node} {a b : Nat} {na nb : Node} (ha : isPick nodes a na) (hb : isPick nodes b nb) : a = b ∧ na = nb := by
  obtain ⟨hfa, hla⟩ := ha.min hb.get hb.live
  obtain ⟨hfb, hlb⟩ := hb.min ha.get ha.live
  have hfreq : na.freq = nb.freq := BitVec.eq_of_toNat_eq (Nat.le_antisymm hfa hfb)
  obtain rfl : a = b := Nat.le_antisymm (hlb hfreq) (hla hfreq.symm)
  exact ⟨rfl, Option.some.inj (ha.get.symm.trans hb.get)⟩

/-- The scan answers with the pick and its frequency. -/
theorem pickScan_eq_some_iff {nodes : List Node} {a : Nat} {f : Word} :
    pickScan nodes 0 none = some (a, f) ↔ ∃ nd, isPick nodes a nd ∧ nd.freq = f := by
  have hscan := pickOf_pickScan nodes
  constructor
  · intro h
    rwa [h] at hscan
  · rintro ⟨nd, hpick, rfl⟩
    cases h : pickScan nodes 0 none with
    | none =>
      rw [h] at hscan
      exact absurd hpick.live (ne_true_of_eq_false (hscan nd (List.mem_of_getElem? hpick.get)))
    | some p =>
      obtain ⟨b, g⟩ := p
      rw [h] at hscan
      obtain ⟨nb, hb, rfl⟩ := hscan
      obtain ⟨rfl, rfl⟩ := isPick_unique hpick hb
      rfl

/-- The scan answers with nothing where no node is live. -/
theorem pickScan_eq_none_iff {nodes : List Node} : pickScan nodes 0 none = none ↔ nodes.filter (·.live) = [] := by
  rw [List.filter_eq_nil_iff]
  have hscan := pickOf_pickScan nodes
  constructor
  · intro h nd hnd
    rw [h] at hscan
    exact ne_true_of_eq_false (hscan nd hnd)
  · intro hdead
    cases h : pickScan nodes 0 none with
    | none => rfl
    | some p =>
      obtain ⟨nd, hpick, -⟩ := pickScan_eq_some_iff.1 h
      exact absurd hpick.live (hdead nd (List.mem_of_getElem? hpick.get))

/-! A merge. -/

/-- The node that stops being live is one of the live ones, and the others stay. -/
theorem live_perm_unlive {nodes : List Node} {a : Nat} {na : Node} (ha : nodes[a]? = some na) (hlive : na.live = true) :
    (nodes.filter (·.live)).Perm (na :: (unlive nodes a).filter (·.live)) := by
  obtain ⟨hlt, hna⟩ := List.getElem?_eq_some_iff.1 ha
  have hsplit : nodes = nodes.take a ++ na :: nodes.drop (a + 1) := by
    rw [← hna, ← List.drop_eq_getElem_cons hlt, List.take_append_drop]
  rw [unlive_eq_set ha, List.set_eq_take_append_cons_drop, if_pos hlt]
  conv_lhs => rw [hsplit]
  simp only [List.filter_append, List.filter_cons, hlive, if_true]
  exact List.perm_middle

/-- The second pick comes no earlier under (frequency, index) than the first, so where the frequencies are equal its index is smaller. -/
theorem second_pick_lt {nodes : List Node} {a b : Nat} {na nb : Node} (ha : isPick nodes a na) (hb : isPick (unlive nodes a) b nb)
    (hfreq : na.freq = nb.freq) : b < a := by
  obtain ⟨hne, m, hm, hlive⟩ := (live_unlive_iff ha.get b).1 ⟨nb, hb.get, hb.live⟩
  have hmb : m = nb := by
    have hb' := hb.get
    rw [unlive_eq_set ha.get, List.getElem?_set_ne (Ne.symm hne), hm] at hb'
    exact Option.some.inj hb'
  exact Nat.lt_of_le_of_ne ((ha.min hm hlive).2 (hmb ▸ hfreq.symm)) hne

/-- The merge that two picks in a row give. -/
theorem mergeOnce_of_picks {nodes : List Node} {a b : Nat} {na nb : Node} (ha : isPick nodes a na) (hb : isPick (unlive nodes a) b nb) (live : Nat) :
    mergeOnce nodes live = some
      { a := a, b := b, live := live - 2 + 1,
        node := unlive (unlive nodes a) b ++
          [{ leaf := false, sym := 0#21, freq := wd (na.freq.toNat + nb.freq.toNat), left := wd (if na.freq.toNat < nb.freq.toNat then a else b),
             right := wd (if na.freq.toNat < nb.freq.toNat then b else a), live := true }] } :=
  mergeOnce_eq (pickScan_eq_some_iff.2 ⟨na, ha, rfl⟩) (pickScan_eq_some_iff.2 ⟨nb, hb, rfl⟩)

/-- A merge is made of two picks in a row, the one of smaller frequency on the left, and of equal ones the second. -/
theorem isMerge_iff {nodes nodes' : List Node} {a b : Nat} :
    isMerge nodes a b nodes' ↔ ∃ na nb, isPick nodes a na ∧ isPick (unlive nodes a) b nb ∧
      nodes' = unlive (unlive nodes a) b ++
        [{ leaf := false, sym := 0#21, freq := wd (na.freq.toNat + nb.freq.toNat), left := wd (if na.freq.toNat < nb.freq.toNat then a else b),
           right := wd (if na.freq.toNat < nb.freq.toNat then b else a), live := true }] := by
  unfold isMerge
  refine exists_congr fun na => exists_congr fun nb => and_congr_right fun ha => ?_
  rw [← unlive_eq_set ha.get]
  refine and_congr_right fun hb => ?_
  rw [← unlive_eq_set hb.get]
  have horder : na.freq.toNat < nb.freq.toNat ∨ (na.freq = nb.freq ∧ a < b) ↔ na.freq.toNat < nb.freq.toNat :=
    or_iff_left fun ⟨hfreq, hlt⟩ => Nat.lt_asymm hlt (second_pick_lt ha hb hfreq)
  simp only [horder]
  constructor
  · rintro ⟨l, r, hlr, rfl⟩
    split_ifs at hlr ⊢ <;> cases hlr <;> rfl
  · rintro rfl
    exact ⟨_, _, by split_ifs <;> rfl, rfl⟩

theorem mergeOnce_of_no_pick {nodes : List Node} (h : pickScan nodes 0 none = none) (live : Nat) : mergeOnce nodes live = none := by
  rw [mergeOnce, h]

theorem mergeOnce_of_one_pick {nodes : List Node} {a : Nat} {fa : Word} (ha : pickScan nodes 0 none = some (a, fa))
    (hb : pickScan (unlive nodes a) 0 none = none) (live : Nat) : mergeOnce nodes live = none := by
  rw [mergeOnce, ha]
  dsimp only
  rw [hb]

/-- A merge step makes no merge with fewer than two live nodes, and the merge of its two picks otherwise. -/
theorem mergeOnce_cases (nodes : List Node) (live : Nat) :
    ((nodes.filter (·.live)).length < 2 ∧ mergeOnce nodes live = none) ∨
      (2 ≤ (nodes.filter (·.live)).length ∧ ∃ mg, mergeOnce nodes live = some mg ∧ isMerge nodes mg.a mg.b mg.node) := by
  cases hpa : pickScan nodes 0 none with
  | none => exact .inl ⟨by rw [pickScan_eq_none_iff.1 hpa]; exact Nat.two_pos, mergeOnce_of_no_pick hpa live⟩
  | some p =>
    obtain ⟨a, fa⟩ := p
    obtain ⟨na, ha, rfl⟩ := pickScan_eq_some_iff.1 hpa
    rw [(live_perm_unlive ha.get ha.live).length_eq, List.length_cons]
    cases hpb : pickScan (unlive nodes a) 0 none with
    | none => exact .inl ⟨by rw [pickScan_eq_none_iff.1 hpb]; exact Nat.one_lt_two, mergeOnce_of_one_pick hpa hpb live⟩
    | some q =>
      obtain ⟨b, fb⟩ := q
      obtain ⟨nb, hb, rfl⟩ := pickScan_eq_some_iff.1 hpb
      rw [(live_perm_unlive hb.get hb.live).length_eq, List.length_cons]
      exact .inr ⟨by omega, _, mergeOnce_of_picks ha hb live, isMerge_iff.2 ⟨na, nb, ha, hb, rfl⟩⟩

theorem isMerge_of_mergeOnce {nodes : List Node} {live : Nat} {mg : Merge} (h : mergeOnce nodes live = some mg) :
    isMerge nodes mg.a mg.b mg.node := by
  rcases mergeOnce_cases nodes live with ⟨-, hnone⟩ | ⟨-, mg', hmg, hmerge⟩
  · cases hnone.symm.trans h
  · cases hmg.symm.trans h
    exact hmerge

theorem mergeOnce_eq_none_iff {nodes : List Node} {live : Nat} : mergeOnce nodes live = none ↔ (nodes.filter (·.live)).length < 2 := by
  rcases mergeOnce_cases nodes live with ⟨hfew, hnone⟩ | ⟨htwo, mg, hmg, -⟩
  · exact iff_of_true hnone hfew
  · exact iff_of_false (by rw [hmg]; exact nofun) (Nat.not_lt.2 htwo)

/-- Settles O45: by the scan's answer for the nodes it has seen, and the order of two picks in a row. -/
theorem pickTakesSmallestThenLatest : Obligations.PickTakesSmallestThenLatest := by
  refine ⟨fun nodes a fa => pickScan_eq_some_iff, fun nodes nodes' live a b hlive h => ?_, fun nodes live => mergeOnce_eq_none_iff⟩
  obtain ⟨na, nb, ha, hb, rfl⟩ := isMerge_iff.1 h
  rw [mergeOnce_of_picks ha hb, show live - 2 + 1 = live - 1 by omega]

end Sys2Proof.Machine
end

section
/-! SUPPORT. A code as a bit sequence (30_encoding.md R102) and as the number that a candidate register holds, and the lookup of a candidate
(41_huffman.md R152, R154). -/

namespace Sys2Proof.Machine

/-- The number whose binary digits are these, first bit first. -/
def codeVal (p : List Bool) : Nat := p.foldl (fun v b => 2 * v + b.toNat) 0

@[simp] theorem codeVal_nil : codeVal [] = 0 := rfl

@[simp] theorem codeVal_snoc (p : List Bool) (b : Bool) : codeVal (p ++ [b]) = 2 * codeVal p + b.toNat := by
  simp [codeVal]

/-- A code with one bit more. -/
theorem codeBits_snoc (y : Sym) (n c : Nat) (b : Bool) :
    codeBits { sym := y, clen := n + 1, cbits := 2 * c + b.toNat } = codeBits { sym := y, clen := n, cbits := c } ++ [b] := by
  have hhalf : (2 * c + b.toNat) / 2 = c := by have := b.toNat_lt; omega
  simp only [codeBits, List.range_succ, List.map_append, List.map_cons, List.map_nil]
  congr 1
  · refine List.map_congr_left fun t ht => ?_
    have ht' := List.mem_range.1 ht
    rw [show n + 1 - 1 - t = (n - 1 - t) + 1 by omega, Nat.testBit_succ, hhalf]
  · rw [show n + 1 - 1 - n = 0 by omega, Nat.testBit_zero]
    cases b <;> simp

/-- A bit sequence is the code of its own length and value. -/
theorem codeBits_codeVal (y : Sym) (p : List Bool) : codeBits { sym := y, clen := p.length, cbits := codeVal p } = p := by
  induction p using List.reverseRecOn with
  | nil => rfl
  | append_singleton p b ih => rw [List.length_append, List.length_singleton, codeVal_snoc, codeBits_snoc, ih]

/-- The value of a code is the low bits of its register (20_memory.md R66). -/
theorem codeVal_codeBits (y : Sym) (n : Nat) : ∀ c : Nat, codeVal (codeBits { sym := y, clen := n, cbits := c }) = c % 2 ^ n := by
  induction n with
  | zero =>
    intro c
    rw [Nat.pow_zero, Nat.mod_one]
    rfl
  | succ n ih =>
    intro c
    obtain ⟨b, hb⟩ : ∃ b : Bool, c % 2 = b.toNat := by
      rcases Nat.mod_two_eq_zero_or_one c with h | h
      · exact ⟨false, h⟩
      · exact ⟨true, h⟩
    have hc : c = 2 * (c / 2) + b.toNat := by omega
    conv_lhs => rw [hc]
    rw [codeBits_snoc, codeVal_snoc, ih, Nat.pow_succ']
    have := Nat.mod_mul (x := c) (a := 2) (b := 2 ^ n)
    omega

/-- A code is a bit sequence when its length and its value are. -/
theorem codeBits_eq_iff (e : CtEntry) (p : List Bool) : codeBits e = p ↔ e.clen = p.length ∧ e.cbits % 2 ^ p.length = codeVal p := by
  have hval : codeVal (codeBits e) = e.cbits % 2 ^ e.clen := codeVal_codeBits e.sym e.clen e.cbits
  constructor
  · rintro rfl
    rw [codeBits_length, hval]
    exact ⟨rfl, rfl⟩
  · rintro ⟨hlen, hbits⟩
    rw [← hlen, ← hval] at hbits
    rw [← codeBits_codeVal 0#21 (codeBits e), codeBits_length, hbits, hlen, codeBits_codeVal]

/-- The lookup of a candidate finds the entry of smallest index whose code is the candidate's bits. -/
theorem matchCode_eq_find? (tbl : List CtEntry) (p : List Bool) :
    matchCode tbl (codeVal p) p.length = tbl.find? fun e => codeBits e == p := by
  refine congrArg (tbl.find? ·) (funext fun e => ?_)
  rw [Bool.eq_iff_iff, Bool.and_eq_true, beq_iff_eq, beq_iff_eq, beq_iff_eq, codeBits_eq_iff]

/-- The code of a symbol of the table is that of an entry with this symbol. -/
theorem exists_codeOf_eq {cs : List CtEntry} {x : Sym} (hx : x ∈ cs.map (·.sym)) :
    ∃ (j : Nat) (e : CtEntry), cs[j]? = some e ∧ e.sym = x ∧ codeOf cs x = codeBits e := by
  obtain ⟨e0, he0, rfl⟩ := List.mem_map.1 hx
  cases hfind : cs.find? (fun e => e.sym == e0.sym) with
  | none => exact absurd (List.find?_eq_none.1 hfind e0 he0) (by simp)
  | some e =>
    obtain ⟨j, hj⟩ := List.mem_iff_getElem?.1 (List.mem_of_find?_eq_some hfind)
    exact ⟨j, e, hj, by simpa using List.find?_some hfind, by rw [codeOf, hfind]⟩

@[simp] theorem codedText_nil (cs : List CtEntry) : codedText cs [] = [] := rfl

theorem codedText_append (cs : List CtEntry) (xs ys : List Sym) : codedText cs (xs ++ ys) = codedText cs xs ++ codedText cs ys :=
  List.flatMap_append

theorem codedText_cons (cs : List CtEntry) (x : Sym) (xs : List Sym) : codedText cs (x :: xs) = codeOf cs x ++ codedText cs xs := rfl

end Sys2Proof.Machine
end

section
/-! SUPPORT. `HUF_DEC` (41_huffman.md R150 to R157): the table checks, and the scan as a lookup of bit sequences. -/

namespace Sys2Proof.Machine

/-! `D_CHECK` (R151). -/

/-- The checks pass a valid part of the table, whose symbols are new, and go on with the rest. -/
theorem checkTable_append {lMax : Nat} {pre : List CtEntry} (post : List CtEntry) : ∀ (i : Nat) {seen : List Sym}, validTable lMax pre →
    (∀ e ∈ pre, e.sym ∉ seen) →
    checkTable lMax i (pre ++ post) seen = checkTable lMax (i + pre.length) post ((pre.map (·.sym)).reverse ++ seen) := by
  induction pre with
  | nil => intro i seen _ _; rfl
  | cons e es ih =>
    rintro i seen ⟨hlen, hdistinct⟩ hnew
    obtain ⟨hfirst, hdistinct⟩ := List.nodup_cons.1 hdistinct
    have he : ¬ (e.clen = 0 ∨ e.clen > lMax) := by have := hlen e List.mem_cons_self; omega
    rw [List.cons_append, checkTable, if_neg he, if_neg (hnew e List.mem_cons_self),
      ih (i + 1) ⟨fun a ha => hlen a (List.mem_cons_of_mem _ ha), hdistinct⟩ fun a ha => ?_]
    · simp [Nat.add_assoc, Nat.add_comm 1]
    · rw [List.mem_cons, not_or]
      exact ⟨fun heq => hfirst (List.mem_map.2 ⟨a, ha, heq⟩), hnew a (List.mem_cons_of_mem _ ha)⟩

/-- A valid table passes the checks. -/
theorem checkTable_of_valid {lMax : Nat} {cs : List CtEntry} (h : validTable lMax cs) : checkTable lMax 0 cs [] = none := by
  have hcheck := checkTable_append [] 0 h (seen := []) fun _ _ => List.not_mem_nil
  rwa [List.append_nil] at hcheck

/-- The first entry that fails a check is found. -/
theorem checkTable_of_invalid {lMax : Nat} {pre post : List CtEntry} {e : CtEntry} (h : validTable lMax pre)
    (he : e.clen = 0 ∨ lMax < e.clen ∨ e.sym ∈ pre.map (·.sym)) : checkTable lMax 0 (pre ++ e :: post) [] = some pre.length := by
  rw [checkTable_append _ 0 h fun _ _ => List.not_mem_nil, Nat.zero_add, checkTable]
  split_ifs with hlen hseen
  · rfl
  · rfl
  · simp only [List.append_nil, List.mem_reverse] at hseen
    exact absurd he (by rw [← or_assoc]; exact not_or.2 ⟨hlen, hseen⟩)

/-- Settles O51: the checks pass the valid part before the entry. -/
theorem hufDecTableChecks : Obligations.HufDecTableChecks := by
  intro s hN
  refine ⟨fun hK => ?_, fun j e hK hj hvalid he => ?_⟩
  · refine exec_error (r := ⟨.malformedCodeTable, 0⟩) ?_
    rw [State.result, if_neg (Nat.not_lt.2 hN), if_pos hK]
  · obtain ⟨hlt, rfl⟩ := List.getElem?_eq_some_iff.1 hj
    have hcheck := checkTable_of_invalid (post := (s.ctIn s.kIn).drop (j + 1)) hvalid he
    rw [← List.drop_eq_getElem_cons hlt, List.take_append_drop, List.length_take_of_le hlt.le] at hcheck
    refine exec_error (r := ⟨.malformedCodeTable, j⟩) ?_
    rw [State.result, if_neg (Nat.not_lt.2 hN), if_neg (Nat.not_lt.2 hK), hufDecode, hcheck]
    rfl

/-! `D_SCAN` and `D_END` (R152, R153). -/

/-- The candidate that holds the bits `p`. -/
def Cand.of (p : List Bool) (start : Nat) : Cand := { val := codeVal p, len := p.length, start := start }

/-- Where the candidate starts, once it holds the bit at `i` after the bits `p`. -/
def Cand.startAt (i : Nat) (p : List Bool) (start : Nat) : Nat := if p = [] then i else start

section
variable {nMax lMax : Nat} {tbl : List CtEntry} {p : List Bool} {b : Bool}

/-- The end of input (R153). -/
theorem scanLoop_end (i start : Nat) (out : List Sym) :
    scanLoop nMax lMax tbl i [] (.of p start) out = if p = [] then .ok out else .error ⟨.malformedStream, start⟩ := by
  cases p <;> rfl

/-- A bit that completes a code gives its symbol, or finds no room for it. -/
theorem scanLoop_hit {e : CtEntry} (h : tbl.find? (fun e => codeBits e == p ++ [b]) = some e) (i : Nat) (bs : List Bool) (start : Nat)
    (out : List Sym) :
    scanLoop nMax lMax tbl i (b :: bs) (.of p start) out =
      if out.length = nMax then .error ⟨.capacityExceeded, i⟩
      else scanLoop nMax lMax tbl (i + 1) bs (.of [] (Cand.startAt i p start)) (out ++ [e.sym]) := by
  rw [← matchCode_eq_find?, codeVal_snoc, List.length_append, List.length_singleton] at h
  simp only [scanLoop, scanBit, Cand.of, h, Cand.startAt, List.length_eq_zero_iff]
  split_ifs <;> rfl

/-- A bit that completes no code makes the candidate longer, or as long as no code is. -/
theorem scanLoop_miss (h : tbl.find? (fun e => codeBits e == p ++ [b]) = none) (i : Nat) (bs : List Bool) (start : Nat) (out : List Sym) :
    scanLoop nMax lMax tbl i (b :: bs) (.of p start) out =
      if p.length + 1 = lMax then .error ⟨.malformedStream, Cand.startAt i p start⟩
      else scanLoop nMax lMax tbl (i + 1) bs (.of (p ++ [b]) (Cand.startAt i p start)) out := by
  rw [← matchCode_eq_find?, codeVal_snoc, List.length_append, List.length_singleton] at h
  simp only [scanLoop, scanBit, Cand.of, h, Cand.startAt, List.length_eq_zero_iff, codeVal_snoc, List.length_append, List.length_singleton]
  split_ifs <;> rfl

/-- The start of an empty candidate is not read (41_huffman.md R152). -/
theorem scanLoop_empty_start (i : Nat) (bs : List Bool) (start start' : Nat) (out : List Sym) :
    scanLoop nMax lMax tbl i bs (.of [] start) out = scanLoop nMax lMax tbl i bs (.of [] start') out := by
  cases bs with
  | nil => rfl
  | cons b bs => simp only [scanLoop, scanBit, Cand.of, List.length_nil, if_true]

/-! A whole code. -/

/-- The scan gives entry `j` for its code: it begins with no shorter code, and no equal one has a smaller index (41_huffman.md R154). -/
def Wins (tbl : List CtEntry) (j : Nat) (e : CtEntry) : Prop :=
  tbl[j]? = some e ∧ ∀ (k : Nat) (e' : CtEntry), tbl[k]? = some e' → codeBits e' <+: codeBits e → codeBits e' = codeBits e ∧ j ≤ k

theorem Wins.find?_code {j : Nat} {e : CtEntry} (h : Wins tbl j e) : tbl.find? (fun e' => codeBits e' == codeBits e) = some e := by
  obtain ⟨hj, hwin⟩ := h
  obtain ⟨hlt, rfl⟩ := List.getElem?_eq_some_iff.1 hj
  refine List.find?_eq_some_iff_getElem.2 ⟨beq_self_eq_true _, j, hlt, rfl, fun k hk => ?_⟩
  rw [Bool.not_eq_true', beq_eq_false_iff_ne]
  intro heq
  have hle := (hwin k _ (List.getElem?_eq_getElem (hk.trans hlt)) (heq ▸ List.prefix_refl _)).2
  omega

theorem Wins.find?_prefix {j : Nat} {e : CtEntry} (h : Wins tbl j e) {q : List Bool} (hq : q ≠ []) (he : codeBits e = p ++ q) :
    tbl.find? (fun e' => codeBits e' == p) = none := by
  refine List.find?_eq_none.2 fun e' he' heq => ?_
  obtain ⟨k, hk⟩ := List.mem_iff_getElem?.1 he'
  obtain rfl := beq_iff_eq.1 heq
  have hsame := (h.2 k e' hk ⟨q, he.symm⟩).1
  exact hq (List.append_cancel_left ((List.append_nil _).trans (hsame.trans he))).symm

/-- The scan of what is left of a winning code. -/
theorem scanLoop_rest_of_code {j : Nat} {e : CtEntry} (h : Wins tbl j e) (hlen : e.clen ≤ lMax) (rest : List Bool) (out : List Sym) (q : List Bool) :
    ∀ (b : Bool) (p : List Bool) (i start : Nat), codeBits e = p ++ b :: q →
      scanLoop nMax lMax tbl i (b :: q ++ rest) (.of p start) out =
        if out.length = nMax then .error ⟨.capacityExceeded, i + q.length⟩
        else scanLoop nMax lMax tbl (i + q.length + 1) rest (.of [] 0) (out ++ [e.sym]) := by
  induction q with
  | nil =>
    intro b p i start he
    rw [List.singleton_append, scanLoop_hit (he ▸ h.find?_code), scanLoop_empty_start _ _ _ 0]
    rfl
  | cons b' q ih =>
    intro b p i start he
    rw [List.append_cons] at he
    have hroom := congrArg List.length he
    simp only [codeBits_length, List.length_append, List.length_cons, List.length_nil] at hroom
    rw [List.cons_append, scanLoop_miss (h.find?_prefix (List.cons_ne_nil _ _) he), if_neg (by omega), ih b' (p ++ [b]) (i + 1) _ he,
      List.length_cons, Nat.add_assoc i 1, Nat.add_comm 1]

/-- The scan of a winning code is its symbol, if there is room for it. -/
theorem scanLoop_codeBits {j : Nat} {e : CtEntry} (h : Wins tbl j e) (hpos : 1 ≤ e.clen) (hlen : e.clen ≤ lMax) (i : Nat) (rest : List Bool)
    (out : List Sym) :
    scanLoop nMax lMax tbl i (codeBits e ++ rest) (.of [] 0) out =
      if out.length = nMax then .error ⟨.capacityExceeded, i + (codeBits e).length - 1⟩
      else scanLoop nMax lMax tbl (i + (codeBits e).length) rest (.of [] 0) (out ++ [e.sym]) := by
  cases hcode : codeBits e with
  | nil =>
    have := codeBits_length e
    rw [hcode, List.length_nil] at this
    omega
  | cons b q =>
    rw [scanLoop_rest_of_code h hlen rest out q b [] i 0 hcode]
    rfl

/-- A longer list of symbols before, and room for it: the scan gives the same symbols after it. -/
theorem scanLoop_ok_cons {bs : List Bool} : ∀ {i i' : Nat} {p : List Bool} {start start' : Nat} {out xs : List Sym} (x : Sym),
    scanLoop nMax lMax tbl i bs (.of p start) out = .ok xs →
    scanLoop (nMax + 1) lMax tbl i' bs (.of p start') (x :: out) = .ok (x :: xs) := by
  induction bs with
  | nil =>
    intro i i' p start start' out xs x h
    rw [scanLoop_end] at h ⊢
    split_ifs at h ⊢
    cases h
    rfl
  | cons b bs ih =>
    intro i i' p start start' out xs x h
    cases hfind : tbl.find? (fun e => codeBits e == p ++ [b]) with
    | some e =>
      rw [scanLoop_hit hfind] at h ⊢
      split_ifs at h with hfull
      rw [List.length_cons, if_neg (by omega)]
      exact ih x h
    | none =>
      rw [scanLoop_miss hfind] at h ⊢
      split_ifs at h ⊢
      exact ih x h

/-! Bits that begin with no code. -/

/-- The scan runs to the end of input or to the longest code, and the error names the first of the bits. -/
theorem scanLoop_unresolved {bs : List Bool} : ∀ {i : Nat} {p : List Bool} {start : Nat} (out : List Sym), (∀ e ∈ tbl, ¬ codeBits e <+: p ++ bs) →
    p.length < lMax → p ++ bs ≠ [] → scanLoop nMax lMax tbl i bs (.of p start) out = .error ⟨.malformedStream, Cand.startAt i p start⟩ := by
  induction bs with
  | nil =>
    intro i p start out _ _ hne
    rw [List.append_nil] at hne
    rw [scanLoop_end, Cand.startAt, if_neg hne, if_neg hne]
  | cons b bs ih =>
    intro i p start out hno hp _
    have hmiss : tbl.find? (fun e => codeBits e == p ++ [b]) = none := by
      refine List.find?_eq_none.2 fun e he heq => hno e he ?_
      rw [beq_iff_eq.1 heq]
      exact ⟨bs, (List.append_cons ..).symm⟩
    rw [scanLoop_miss hmiss]
    split_ifs with hfull
    · rfl
    · rw [ih out (by rwa [← List.append_cons]) (by rw [List.length_append, List.length_singleton]; omega) (by simp)]
      simp [Cand.startAt]

end

/-- Where no code begins with another, every code wins. -/
theorem wins_of_prefixFree {tbl : List CtEntry} (h : prefixFree tbl) {j : Nat} {e : CtEntry} (hj : tbl[j]? = some e) : Wins tbl j e := by
  refine ⟨hj, fun k e' hk hpre => ?_⟩
  obtain rfl : k = j := by
    by_contra hne
    exact h k j e' e hk hj hne hpre
  obtain rfl := Option.some.inj (hk.symm.trans hj)
  exact ⟨rfl, Nat.le_refl _⟩

section
variable {nMax lMax : Nat} {tbl : List CtEntry} (hvalid : validTable lMax tbl) (hfree : prefixFree tbl)
include hvalid hfree

/-- The code of a symbol is its symbol, if there is room for it. -/
theorem scanLoop_codeOf {x : Sym} (hx : x ∈ tbl.map (·.sym)) (i : Nat) (rest : List Bool) (out : List Sym) :
    scanLoop nMax lMax tbl i (codeOf tbl x ++ rest) (.of [] 0) out =
      if out.length = nMax then .error ⟨.capacityExceeded, i + (codeOf tbl x).length - 1⟩
      else scanLoop nMax lMax tbl (i + (codeOf tbl x).length) rest (.of [] 0) (out ++ [x]) := by
  obtain ⟨j, e, hj, rfl, hcode⟩ := exists_codeOf_eq hx
  obtain ⟨hpos, hlen⟩ := hvalid.1 e (List.mem_of_getElem? hj)
  rw [hcode]
  exact scanLoop_codeBits (wins_of_prefixFree hfree hj) hpos hlen i rest out

/-- The codes of a symbol sequence are the sequence, if there is room for it. -/
theorem scanLoop_codedText {xs : List Sym} (rest : List Bool) : ∀ (i : Nat) (out : List Sym), (∀ x ∈ xs, x ∈ tbl.map (·.sym)) →
    out.length + xs.length ≤ nMax →
    scanLoop nMax lMax tbl i (codedText tbl xs ++ rest) (.of [] 0) out =
      scanLoop nMax lMax tbl (i + (codedText tbl xs).length) rest (.of [] 0) (out ++ xs) := by
  induction xs with
  | nil =>
    intro i out _ _
    rw [List.append_nil]
    rfl
  | cons x xs ih =>
    intro i out hmem hroom
    rw [List.length_cons] at hroom
    rw [codedText_cons, List.append_assoc, scanLoop_codeOf hvalid hfree (hmem x List.mem_cons_self), if_neg (by omega),
      ih _ _ (fun y hy => hmem y (List.mem_cons_of_mem _ hy)) (by rw [List.length_append, List.length_singleton]; omega), ← List.append_cons,
      List.length_append, Nat.add_assoc]

end

/-- The decoder on the codes of a symbol sequence and further bits goes on with the further bits. -/
theorem hufDecode_codedText {p : Config.Params} {tbl : List CtEntry} (hvalid : validTable p.lMax tbl) (hfree : prefixFree tbl) {xs : List Sym}
    (hmem : ∀ x ∈ xs, x ∈ tbl.map (·.sym)) (hroom : xs.length ≤ p.nMax) (rest : List Bool) :
    hufDecode p (codedText tbl xs ++ rest) tbl = scanLoop p.nMax p.lMax tbl (codedText tbl xs).length rest (.of [] 0) xs := by
  have hscan := scanLoop_codedText (nMax := p.nMax) hvalid hfree rest 0 [] hmem (by rwa [List.length_nil, Nat.zero_add])
  rw [Nat.zero_add] at hscan
  rw [hufDecode, checkTable_of_valid hvalid]
  exact hscan

/-- A command that delivers text ends well, with it in `TEXT`. -/
theorem finish_text_ends {c : Instr} {s : State} {xs : List Sym} (h : s.result c = .ok (.text xs)) :
    EndsWell c s (s.finish c (s.result c)) xs.length 0 ∧ bufHolds (s.finish c (s.result c)).mem.text xs := by
  obtain ⟨hfit, hsp⟩ := result_fits h
  rw [h]
  exact ⟨finish_ok_ends hsp s, storeText_holds s xs hfit⟩

/-- With a table and an input within their buffers `HUF_DEC` ends as the decoder does. -/
theorem result_hufDec {s : State} (hN : s.nIn ≤ s.cfg.bMax) (hK : s.kIn ≤ s.cfg.kMax) :
    s.result .hufDec = (hufDecode s.cfg (s.bitsIn s.nIn) (s.ctIn s.kIn)).map .text := by
  rw [State.result, if_neg (Nat.not_lt.2 hN), if_neg (Nat.not_lt.2 hK)]

/-- Settles O52: each code in turn is its symbol, and the rest runs to its end, to the longest code or to a code without room. -/
theorem hufDecResult : Obligations.HufDecResult := by
  intro s xs rest hN hK hvalid hfree hbits hmem hroom
  have hdec := result_hufDec hN hK
  rw [hbits, hufDecode_codedText hvalid hfree hmem hroom] at hdec
  refine ⟨_, exec_eq_finish .hufDec s, ?_, fun hne hno => ?_, fun x r2 hfull hx hrest => ?_⟩
  · rintro rfl
    exact finish_text_ends hdec
  · rw [scanLoop_unresolved (p := []) xs hno (lMax_pos _) hne] at hdec
    exact finish_error_ends hdec
  · rw [hrest, scanLoop_codeOf hvalid hfree hx, if_pos hfull] at hdec
    exact finish_error_ends hdec

/-- Settles O53: a winning code is its symbol, and room for one symbol more makes no difference to the rest. -/
theorem hufDecTakesShortestThenLowest : Obligations.HufDecTakesShortestThenLowest := by
  intro nMax lMax tbl j e rest xs hvalid hj hn hwin hrest
  obtain ⟨hpos, hlen⟩ := hvalid.1 e (List.mem_of_getElem? hj)
  obtain ⟨n, rfl⟩ := Nat.exists_eq_add_of_le' hn
  have hcode := scanLoop_codeBits (nMax := n + 1) ⟨hj, hwin⟩ hpos hlen 0 rest []
  rw [List.length_nil, if_neg (Nat.succ_ne_zero n).symm] at hcode
  exact hcode.trans (scanLoop_ok_cons e.sym hrest)

end Sys2Proof.Machine
end

section
/-! SUPPORT. The arena of `H_LEAVES` and `H_MERGE` (41_huffman.md R133 to R136) merge by merge: its leaves keep their symbols, and its live nodes together
count the whole text. -/

namespace Sys2Proof.Machine

/-! What every merge keeps. -/

/-- What one merge keeps, the merge loop keeps. -/
theorem mergeLoop_keeps {P : List Node → Prop} (hP : ∀ {nodes nodes' : List Node} {a b : Nat}, isMerge nodes a b nodes' → P nodes → P nodes')
    (f : Nat) : ∀ {nodes : List Node} (live : Nat), P nodes → P (mergeLoop f nodes live) := by
  induction f with
  | zero => exact fun live h => h
  | succ f ih =>
    intro nodes live h
    rw [mergeLoop]
    split_ifs with hlive
    · cases hmg : mergeOnce nodes live with
      | none => exact h
      | some mg => exact ih mg.live (hP (isMerge_of_mergeOnce hmg) h)
    · exact h

theorem unlive_syms (nodes : List Node) (x : Nat) : (unlive nodes x).map (·.sym) = nodes.map (·.sym) := by
  cases hx : nodes[x]? with
  | none => rw [unlive, hx]
  | some nd =>
    rw [unlive_eq_set hx, List.map_set]
    refine List.ext_getElem? fun y => ?_
    rw [List.getElem?_set]
    split_ifs with hxy hlt
    · rw [← hxy, List.getElem?_map, hx, Option.map_some]
    · rw [List.getElem?_eq_none (hxy ▸ Nat.le_of_not_lt hlt)]
    · rfl

/-- A merge keeps the symbols of the nodes there are. -/
theorem isMerge.syms {nodes nodes' : List Node} {a b : Nat} (h : isMerge nodes a b nodes') : nodes.map (·.sym) <+: nodes'.map (·.sym) := by
  obtain ⟨na, nb, -, -, rfl⟩ := isMerge_iff.1 h
  rw [List.map_append, unlive_syms, unlive_syms]
  exact List.prefix_append ..

/-- The frequencies of the live nodes together, as a 32-bit register holds them. -/
def liveFreq (nodes : List Node) : Word := ((nodes.filter (·.live)).map (·.freq)).sum

theorem liveFreq_unlive {nodes : List Node} {a : Nat} {na : Node} (ha : isPick nodes a na) :
    liveFreq nodes = na.freq + liveFreq (unlive nodes a) := by
  rw [liveFreq, ((live_perm_unlive ha.get ha.live).map _).sum_eq, List.map_cons, List.sum_cons]
  rfl

theorem wd_add (m n : Nat) : wd (m + n) = wd m + wd n := BitVec.ofNat_add ..

/-- The new node of a merge has the frequencies of the two it replaces. -/
theorem isMerge.liveFreq_eq {nodes nodes' : List Node} {a b : Nat} (h : isMerge nodes a b nodes') : liveFreq nodes' = liveFreq nodes := by
  obtain ⟨na, nb, ha, hb, rfl⟩ := isMerge_iff.1 h
  rw [liveFreq_unlive ha, liveFreq_unlive hb]
  simp only [liveFreq, List.filter_append, List.map_append, List.sum_append, List.filter_cons, List.filter_nil, if_true, List.map_cons, List.map_nil,
    List.sum_cons, List.sum_nil, wd_add, BitVec.ofNat_toNat, BitVec.setWidth_eq]
  ring

/-! The arena of a frequency table. -/

theorem leaves_syms (ft : List FtEntry) : (leaves ft).map (·.sym) = ft.map (·.sym) := by
  rw [leaves, List.map_map]
  rfl

/-- Leaf `j` of the arena has the symbol of entry `j`. -/
theorem buildTree_syms (ft : List FtEntry) : ft.map (·.sym) <+: (buildTree ft).map (·.sym) :=
  mergeLoop_keeps (P := fun nodes => ft.map FtEntry.sym <+: nodes.map Node.sym) (fun hm h => List.IsPrefix.trans h hm.syms) _ _
    (leaves_syms ft ▸ List.prefix_refl _)

theorem liveFreq_buildTree (ft : List FtEntry) : liveFreq (buildTree ft) = (ft.map (·.cnt)).sum := by
  refine mergeLoop_keeps (P := fun nodes => liveFreq nodes = (ft.map (·.cnt)).sum) (fun hm h => hm.liveFreq_eq.trans h) _ _ ?_
  have hlive : (leaves ft).filter (·.live) = leaves ft := by
    refine List.filter_eq_self.2 fun nd hnd => ?_
    obtain ⟨e, -, rfl⟩ := List.mem_map.1 hnd
    rfl
  rw [liveFreq, hlive, leaves, List.map_map]
  rfl

/-- The merges of a frequency table leave one tree (41_huffman.md R136). -/
theorem arenaAt_buildTree {ft : List FtEntry} (hlen : ft.length ≤ 2 ^ 21) (hne : ft ≠ []) : ∃ t, ArenaAt ft.length (buildTree ft) [t] := by
  have hpos := List.length_pos_of_ne_nil hne
  obtain ⟨t, ha⟩ := (arenaAt_leaves ft).mergeLoop (by omega) ft.length (List.ne_nil_of_length_pos (by simpa using hpos)) (by simp)
  rw [List.length_map, List.length_range] at ha
  exact ⟨t, ha⟩

theorem ArenaAt.root_eq {k : Nat} {nodes : List Node} {t : CodeTree} (h : ArenaAt k nodes [t]) : t.root = nodes.length - 1 :=
  (List.mem_singleton.1 (h.last (List.cons_ne_nil _ _))).symm

theorem ArenaAt.leaves_length {k : Nat} {nodes : List Node} {t : CodeTree} (h : ArenaAt k nodes [t]) : t.leaves.length = k := by
  simpa using h.leaves.length_eq

/-- When one tree is left, its root has all the frequencies. -/
theorem ArenaAt.liveFreq_eq_root {k : Nat} {nodes : List Node} {t : CodeTree} (h : ArenaAt k nodes [t]) {root : Node}
    (hroot : nodes[nodes.length - 1]? = some root) : liveFreq nodes = root.freq := by
  rw [← h.root_eq] at hroot
  obtain ⟨nd, hnd, hlive⟩ := (h.forest.live_iff t.root).2 List.mem_cons_self
  obtain rfl := Option.some.inj (hroot.symm.trans hnd)
  have hdead : (unlive nodes t.root).filter (·.live) = [] := by
    refine List.filter_eq_nil_iff.2 fun m hm hmlive => ?_
    obtain ⟨y, hy⟩ := List.mem_iff_getElem?.1 hm
    obtain ⟨hne, hother⟩ := (live_unlive_iff hroot y).1 ⟨m, hy, hmlive⟩
    exact hne (List.mem_singleton.1 ((h.forest.live_iff y).1 hother))
  rw [liveFreq, ((live_perm_unlive hroot hlive).map _).sum_eq, hdead]
  simp

theorem sum_map_wd (l : List Nat) : (l.map wd).sum = wd l.sum := by
  induction l with
  | nil => rfl
  | cons n l ih => rw [List.map_cons, List.sum_cons, List.sum_cons, ih, wd_add]

/-- The counts of a text's symbols together are its length. -/
theorem Counts.sum_cnt {ft : List FtEntry} {text : List Sym} (h : Counts ft text) : (ft.map (·.cnt)).sum = wd text.length := by
  have hcnt : ft.map (·.cnt) = ((firstOcc text).map fun x => text.count x).map wd := by
    rw [← h.syms, List.map_map, List.map_map]
    exact List.map_congr_left h.cnts
  rw [hcnt, sum_map_wd, sum_count_firstOcc]

/-- The root of the tree counts the whole text. -/
theorem Counts.root_freq {ft : List FtEntry} {text : List Sym} (h : Counts ft text) (hlen : ft.length ≤ 2 ^ 21) {root : Node}
    (hroot : (buildTree ft)[(buildTree ft).length - 1]? = some root) : root.freq = wd text.length := by
  have hne : ft ≠ [] := by
    rintro rfl
    cases hroot
  obtain ⟨t, ha⟩ := arenaAt_buildTree hlen hne
  rw [← ha.liveFreq_eq_root hroot, liveFreq_buildTree, h.sum_cnt]

/-! Merge by merge. -/

theorem mergeLoop_of_le_one (f : Nat) (nodes : List Node) {live : Nat} (h : live ≤ 1) : mergeLoop f nodes live = nodes := by
  cases f with
  | zero => rfl
  | succ f => rw [mergeLoop, if_neg (Nat.not_lt.2 h)]

/-- The merge loop makes one merge fewer than there are trees. -/
theorem ArenaAt.exists_merges {k : Nat} (hk : 2 * k < 2 ^ 32) (f : Nat) : ∀ {nodes : List Node} {ts : List CodeTree}, ArenaAt k nodes ts →
    ts.length ≤ f + 1 →
    ∃ ar : Nat → List Node, ar 0 = nodes ∧ ar (ts.length - 1) = Machine.mergeLoop f nodes ts.length ∧
      ∀ m, m + 1 < ts.length → ∃ a b : Nat, isMerge (ar m) a b (ar (m + 1)) := by
  induction f with
  | zero =>
    intro nodes ts h hlen
    exact ⟨fun _ => nodes, rfl, rfl, fun m hm => by omega⟩
  | succ f ih =>
    intro nodes ts h hlen
    by_cases hlive : 1 < ts.length
    · obtain ⟨mg, ts', hmg, hmgl, hlen', h'⟩ := h.merge hk hlive
      obtain ⟨ar, har0, harn, hstep⟩ := ih h' (by omega)
      refine ⟨fun m => if m = 0 then nodes else ar (m - 1), rfl, ?_, fun m hm => ?_⟩
      · rw [Machine.mergeLoop, if_pos hlive, hmg]
        dsimp only
        rw [if_neg (by omega), hmgl, ← harn]
        congr 1
        omega
      · cases m with
        | zero =>
          refine ⟨mg.a, mg.b, ?_⟩
          show isMerge nodes mg.a mg.b (ar 0)
          rw [har0]
          exact isMerge_of_mergeOnce hmg
        | succ m => exact hstep m (by omega)
    · exact ⟨fun _ => nodes, rfl, (mergeLoop_of_le_one _ _ (Nat.le_of_not_lt hlive)).symm, fun m hm => by omega⟩

/-- The arena that `HUF_ENC` builds is the tree of its frequency table. -/
theorem isTreeOf_buildTree {ft : List FtEntry} (hlen : ft.length ≤ 2 ^ 21) : isTreeOf ft (buildTree ft) := by
  obtain ⟨ar, har0, harn, hstep⟩ := (arenaAt_leaves ft).exists_merges (by omega) ft.length (by simp)
  rw [List.length_map, List.length_range] at harn hstep
  exact ⟨ar, har0, harn, hstep⟩

end Sys2Proof.Machine
end

section
/-! SUPPORT. The code table as paths of the tree (41_huffman.md R137, R138, R143): the walk gives leaf `j` the labels of the path to it, so no code
begins with another. -/

namespace Sys2Proof.Machine

/-! Paths. -/

/-- A path that goes on from the end of another ends at the same leaf: a leaf has no edges. -/
theorem pathTo_append_unique {nodes : List Node} {j k : Nat} {p r : List Bool} : ∀ {x : Nat}, pathTo nodes x p j → pathTo nodes x (p ++ r) k →
    j = k := by
  induction p with
  | nil =>
    rintro x ⟨rfl, nd, hnd, hleaf⟩ hk
    cases r with
    | nil => exact hk.1
    | cons b r =>
      obtain ⟨nd', hnd', hnode, -⟩ := hk
      obtain rfl := Option.some.inj (hnd.symm.trans hnd')
      rw [hleaf] at hnode
      cases hnode
  | cons b p ih =>
    rintro x ⟨nd, hnd, -, hj⟩ ⟨nd', hnd', -, hk⟩
    obtain rfl := Option.some.inj (hnd.symm.trans hnd')
    exact ih hj hk

/-- In a table whose codes are paths from one node to their own leaves, no code begins with another. -/
theorem prefixFree_of_paths {nodes : List Node} {x : Nat} {cs : List CtEntry}
    (h : ∀ (j : Nat) (e : CtEntry), cs[j]? = some e → pathTo nodes x (codeBits e) j) : prefixFree cs := by
  rintro j k a b ha hb hne ⟨r, hr⟩
  exact hne (pathTo_append_unique (h j a ha) (hr ▸ h k b hb))

/-- The bits `p` lead from the root to node `x`: every path from there goes on with them. -/
def LeadsTo (nodes : List Node) (root : Nat) (p : List Bool) (x : Nat) : Prop :=
  ∀ (q : List Bool) (j : Nat), pathTo nodes x q j → pathTo nodes root (p ++ q) j

theorem LeadsTo.refl (nodes : List Node) (x : Nat) : LeadsTo nodes x [] x := fun _ _ h => h

theorem LeadsTo.child {nodes : List Node} {root x : Nat} {p : List Bool} (h : LeadsTo nodes root p x) {nd : Node} (hnd : nodes[x]? = some nd)
    (hnode : nd.leaf = false) (b : Bool) : LeadsTo nodes root (p ++ [b]) (if b then nd.right.toNat else nd.left.toNat) := by
  intro q j hq
  rw [List.append_assoc]
  exact h (b :: q) j ⟨nd, hnd, hnode, hq⟩

/-- The path of a stack entry, as bits. -/
def StkEntry.path (e : StkEntry) : List Bool := codeBits { sym := 0#21, clen := e.clen.toNat, cbits := e.cbits }

theorem StkEntry.path_left {e : StkEntry} (h : e.clen.toNat + 1 < 2 ^ 32) (nd : Node) : (e.left nd).path = e.path ++ [false] := by
  rw [path, StkEntry.left, wd_toNat _ h]
  exact codeBits_snoc _ _ _ false

theorem StkEntry.path_right {e : StkEntry} (h : e.clen.toNat + 1 < 2 ^ 32) (nd : Node) : (e.right nd).path = e.path ++ [true] := by
  rw [path, StkEntry.right, wd_toNat _ h]
  exact codeBits_snoc _ _ _ true

/-! The walk. -/

/-- What the walk writes for leaf `j` of a tree of `k` leaves. -/
structure CodeAt (k : Nat) (nodes : List Node) (root j : Nat) (e : CtEntry) : Prop where
  path : pathTo nodes root (codeBits e) j
  clen_lt : e.clen < k
  cbits_lt : e.cbits < 2 ^ e.clen

/-- The walk with the stack `w`, each entry with the tree below it: the path so far leads to each of them, and the leaves reached have their codes. -/
structure Walking (ft : List FtEntry) (nodes : List Node) (root : Nat) (w : List (StkEntry × CodeTree)) (codes : List CtEntry) : Prop where
  pending : ∀ q ∈ w, Pending ft.length nodes q
  leads : ∀ q ∈ w, LeadsTo nodes root q.1.path q.2.root
  syms : codes.map (·.sym) = ft.map (·.sym)
  done : ∀ (j : Nat) (e : CtEntry), codes[j]? = some e → j ∉ leavesOf w → CodeAt ft.length nodes root j e

section
variable {ft : List FtEntry} {nodes : List Node} {root : Nat} {codes : List CtEntry} {w : List (StkEntry × CodeTree)}

/-- A pop of a leaf writes its code. -/
theorem Walking.popLeaf {en : StkEntry} {x : Nat} (h : Walking ft nodes root ((en, .leaf x) :: w) codes)
    (hsyms : ft.map (·.sym) <+: nodes.map (·.sym)) {nd : Node} (hnd : nodes[x]? = some nd) (hleaf : nd.leaf = true) :
    Walking ft nodes root w (codes.set x { sym := nd.sym, clen := en.clen.toNat, cbits := en.cbits }) where
  pending q hq := h.pending q (List.mem_cons_of_mem _ hq)
  leads q hq := h.leads q (List.mem_cons_of_mem _ hq)
  syms := by
    rw [List.map_set, h.syms]
    refine List.ext_getElem? fun y => ?_
    rw [List.getElem?_set]
    split_ifs with hxy hlt
    · obtain rfl := hxy
      rw [List.getElem?_eq_getElem hlt, hsyms.getElem hlt, List.getElem_map, (List.getElem?_eq_some_iff.1 hnd).2]
    · rw [List.getElem?_eq_none (hxy ▸ Nat.le_of_not_lt hlt)]
    · rfl
  done j e hj hout := by
    have htop := h.pending _ List.mem_cons_self
    rw [List.getElem?_set] at hj
    split_ifs at hj with hxj hlt
    · cases hxj
      cases hj
      have hpath := h.leads _ List.mem_cons_self [] x ⟨rfl, nd, hnd, hleaf⟩
      rw [List.append_nil] at hpath
      exact ⟨hpath, htop.clen_lt, htop.bits⟩
    · refine h.done j e hj fun hmem => ?_
      rcases List.mem_cons.1 hmem with rfl | hmem
      · exact hxj rfl
      · exact hout hmem

/-- A pop of an internal node leads to its two subtrees. -/
theorem Walking.popNode {en : StkEntry} {x : Nat} {l r : CodeTree} (h : Walking ft nodes root ((en, .node x l r) :: w) codes)
    (hk : ft.length < 2 ^ 32) {nd : Node} (hnd : nodes[x]? = some nd) (hnode : nd.leaf = false) (hl : nd.left.toNat = l.root)
    (hr : nd.right.toNat = r.root) : Walking ft nodes root ((en.left nd, l) :: (en.right nd, r) :: w) codes := by
  have htop := h.pending _ List.mem_cons_self
  have hlead := h.leads _ List.mem_cons_self
  have hclen : en.clen.toNat + 1 < 2 ^ 32 := Nat.lt_of_le_of_lt htop.clen_lt hk
  refine ⟨fun q hq => ?_, fun q hq => ?_, h.syms, fun j e hj hout => h.done j e hj ?_⟩
  · rcases List.mem_cons.1 hq with rfl | hq
    · exact htop.left hk hnd
    · rcases List.mem_cons.1 hq with rfl | hq
      · exact htop.right hk hnd
      · exact h.pending q (List.mem_cons_of_mem _ hq)
  · rcases List.mem_cons.1 hq with rfl | hq
    · have hleft := hlead.child hnd hnode false
      rw [← en.path_left hclen nd] at hleft
      exact hl ▸ hleft
    · rcases List.mem_cons.1 hq with rfl | hq
      · have hright := hlead.child hnd hnode true
        rw [← en.path_right hclen nd] at hright
        exact hr ▸ hright
      · exact h.leads q (List.mem_cons_of_mem _ hq)
  · simpa only [leavesOf_cons, CodeTree.leaves, List.append_assoc] using hout

end

/-- The walk pops every node, and leaves no leaf without its code. -/
theorem Walking.walkLoop {ft : List FtEntry} {nodes : List Node} {root : Nat} (hk : ft.length < 2 ^ 32)
    (hsyms : ft.map (·.sym) <+: nodes.map (·.sym)) (f : Nat) : ∀ {w : List (StkEntry × CodeTree)} {codes : List CtEntry},
    Walking ft nodes root w codes → popsOf w ≤ f → Walking ft nodes root [] (Machine.walkLoop nodes f (w.map Prod.fst) codes) := by
  induction f with
  | zero =>
    intro w codes h hf
    cases w with
    | nil => exact h
    | cons q w => exact absurd hf (Nat.not_le.2 (popsOf_pos q w))
  | succ f ih =>
    intro w codes h hf
    cases w with
    | nil => exact h
    | cons q w =>
      obtain ⟨en, t⟩ := q
      have htop := h.pending _ List.mem_cons_self
      rw [popsOf_cons] at hf
      rw [List.map_cons, Machine.walkLoop]
      cases t with
      | leaf x =>
        obtain ⟨nd, hnd, hleaf⟩ := htop.inArena
        obtain rfl : en.node.toNat = x := htop.node_eq
        rw [walkOnce_of_leaf hnd hleaf]
        exact ih (h.popLeaf hsyms hnd hleaf) (by simp only [CodeTree.size] at hf; omega)
      | node x l r =>
        obtain ⟨⟨nd, hnd, hnode, hl, hr⟩, -⟩ := htop.inArena
        obtain rfl : en.node.toNat = x := htop.node_eq
        rw [walkOnce_of_node hnd hnode]
        exact ih (h.popNode hk hnd hnode hl hr) (by simp only [popsOf_cons, CodeTree.size] at hf ⊢; omega)

/-- The walk starts with the root of the tree, and the empty path. -/
theorem Walking.start {ft : List FtEntry} (hlen : ft.length ≤ 2 ^ 21) {nodes : List Node} {t : CodeTree} (ha : ArenaAt ft.length nodes [t]) :
    Walking ft nodes (nodes.length - 1) [(StkEntry.root nodes, t)] (blankCodes ft) where
  pending q hq := by
    obtain rfl := List.mem_singleton.1 hq
    have hsize := ha.size
    refine ⟨(wd_toNat _ (by omega)).trans ha.root_eq.symm, ha.forest.inArena t List.mem_cons_self, ?_, Nat.one_pos⟩
    rw [ha.leaves_length]
    exact (Nat.zero_add _).le
  leads q hq := by
    obtain rfl := List.mem_singleton.1 hq
    exact ha.root_eq ▸ .refl nodes _
  syms := by
    rw [blankCodes, List.map_map]
    rfl
  done j e hj hout := by
    have hlt := (List.getElem?_eq_some_iff.1 hj).1
    rw [blankCodes, List.length_map] at hlt
    exact absurd (ha.leaves.mem_iff.2 (List.mem_range.2 hlt)) hout

/-- The code table of two or more symbols: each leaf's code is the path to it. -/
theorem walking_deriveCodes {ft : List FtEntry} (hlen : ft.length ≤ 2 ^ 21) (htwo : 2 ≤ ft.length) :
    Walking ft (buildTree ft) ((buildTree ft).length - 1) [] (deriveCodes ft (buildTree ft)) := by
  obtain ⟨t, ha⟩ := arenaAt_buildTree hlen (List.ne_nil_of_length_pos (by omega))
  have hpops : popsOf [(StkEntry.root (buildTree ft), t)] ≤ (buildTree ft).length := by
    have hsize := ha.size
    have htree := t.size_add_one
    have hleaves := ha.leaves_length
    rw [List.length_singleton] at hsize
    simp only [popsOf, List.map_cons, List.map_nil, List.sum_cons, List.sum_nil]
    omega
  rw [deriveCodes_of_two_le htwo]
  exact (Walking.start hlen ha).walkLoop (by omega) (buildTree_syms ft) _ hpops

section
variable {ft : List FtEntry} (hlen : ft.length ≤ 2 ^ 21)
include hlen

theorem deriveCodes_path (htwo : 2 ≤ ft.length) {j : Nat} {e : CtEntry} (hj : (deriveCodes ft (buildTree ft))[j]? = some e) :
    CodeAt ft.length (buildTree ft) ((buildTree ft).length - 1) j e :=
  (walking_deriveCodes hlen htwo).done j e hj List.not_mem_nil

theorem deriveCodes_syms : (deriveCodes ft (buildTree ft)).map (·.sym) = ft.map (·.sym) := by
  match ft with
  | [] => rfl
  | [_] => rfl
  | _ :: _ :: _ => exact (walking_deriveCodes hlen (by simp)).syms

/-- The root of a tree of two or more leaves is no leaf, so no code is empty. -/
theorem deriveCodes_clen_pos (htwo : 2 ≤ ft.length) {j : Nat} {e : CtEntry} (hj : (deriveCodes ft (buildTree ft))[j]? = some e) : 1 ≤ e.clen := by
  have hpath := (deriveCodes_path hlen htwo hj).path
  rw [Nat.one_le_iff_ne_zero]
  intro hzero
  obtain ⟨t, ha⟩ := arenaAt_buildTree hlen (List.ne_nil_of_length_pos (by omega))
  rw [List.length_eq_zero_iff.1 ((codeBits_length e).trans hzero), ← ha.root_eq] at hpath
  obtain ⟨-, nd, hnd, hleaf⟩ := hpath
  have htree := ha.forest.inArena t List.mem_cons_self
  have hleaves := ha.leaves_length
  cases t with
  | leaf x =>
    rw [CodeTree.leaves, List.length_singleton] at hleaves
    omega
  | node x l r =>
    obtain ⟨⟨nd', hnd', hnode, -⟩, -⟩ := htree
    obtain rfl := Option.some.inj (hnd.symm.trans hnd')
    rw [hleaf] at hnode
    cases hnode

/-- Every code has from 1 to `L_MAX` bits (41_huffman.md R140). -/
theorem deriveCodes_bounds {p : Config.Params} (hk : ft.length ≤ p.kMax) {e : CtEntry} (he : e ∈ deriveCodes ft (buildTree ft)) :
    1 ≤ e.clen ∧ e.clen ≤ p.lMax ∧ e.cbits < 2 ^ e.clen := by
  by_cases htwo : 2 ≤ ft.length
  · obtain ⟨j, hj⟩ := List.mem_iff_getElem?.1 he
    obtain ⟨-, hclen, hcbits⟩ := deriveCodes_path hlen htwo hj
    refine ⟨deriveCodes_clen_pos hlen htwo hj, ?_, hcbits⟩
    unfold Config.Params.lMax
    omega
  · match ft with
    | [] => cases he
    | [a] =>
      obtain rfl := List.mem_singleton.1 he
      exact ⟨Nat.le_refl 1, lMax_pos p, Nat.two_pos⟩
    | _ :: _ :: _ => exact absurd (by simp) htwo

/-- No code of the table begins with another (41_huffman.md R143). -/
theorem deriveCodes_prefixFree : prefixFree (deriveCodes ft (buildTree ft)) := by
  by_cases htwo : 2 ≤ ft.length
  · exact prefixFree_of_paths fun j e hj => (deriveCodes_path hlen htwo hj).path
  · intro j k a b ha hb hne
    have hj := (List.getElem?_eq_some_iff.1 ha).1
    have hk := (List.getElem?_eq_some_iff.1 hb).1
    rw [deriveCodes_length] at hj hk
    omega

end

end Sys2Proof.Machine
end

section
/-! SUPPORT. `H_EMIT` (41_huffman.md R141), and what `HUF_ENC` delivers and where its bits run out of room. -/

namespace Sys2Proof.Machine

/-! The emitter. -/

/-- One symbol of the emitter: its code, if there is room for it. -/
theorem emitLoop_cons {bMax : Nat} (cs : List CtEntry) (i : Nat) (x : Sym) (xs : List Sym) {out : List Bool} (hout : out.length ≤ bMax) :
    emitLoop bMax cs i (x :: xs) out =
      if out.length + (codeOf cs x).length > bMax then .error ⟨.capacityExceeded, i⟩ else emitLoop bMax cs (i + 1) xs (out ++ codeOf cs x) := by
  rw [emitLoop, codeOf]
  cases cs.find? (fun e => e.sym == x) with
  | none => simp [Nat.not_lt.2 hout]
  | some e => simp only [codeBits_length]

/-- The emitter passes symbols whose codes fit, and goes on with the rest. -/
theorem emitLoop_append {bMax : Nat} (cs : List CtEntry) {xs : List Sym} (ys : List Sym) : ∀ (i : Nat) {out : List Bool},
    out.length + (codedText cs xs).length ≤ bMax →
    emitLoop bMax cs i (xs ++ ys) out = emitLoop bMax cs (i + xs.length) ys (out ++ codedText cs xs) := by
  induction xs with
  | nil =>
    intro i out _
    rw [codedText_nil, List.append_nil]
    rfl
  | cons x xs ih =>
    intro i out hroom
    rw [codedText_cons, List.length_append] at hroom
    rw [List.cons_append, emitLoop_cons _ _ _ _ (by omega), if_neg (by omega), ih (i + 1) (by rw [List.length_append]; omega), codedText_cons,
      List.append_assoc, List.length_cons, Nat.add_assoc, Nat.add_comm 1]

theorem emitLoop_ok {bMax : Nat} {cs : List CtEntry} {text : List Sym} (h : (codedText cs text).length ≤ bMax) :
    emitLoop bMax cs 0 text [] = .ok (codedText cs text) := by
  have hemit := emitLoop_append (bMax := bMax) cs (xs := text) [] 0 (out := []) (by rwa [List.length_nil, Nat.zero_add])
  rwa [List.append_nil] at hemit

/-- The first symbol whose code does not fit ends the emission. -/
theorem emitLoop_error {bMax : Nat} {cs : List CtEntry} {text : List Sym} {i : Nat} (hi : i < text.length)
    (hfit : (codedText cs (text.take i)).length ≤ bMax) (hfull : bMax < (codedText cs (text.take (i + 1))).length) :
    emitLoop bMax cs 0 text [] = .error ⟨.capacityExceeded, i⟩ := by
  have hemit := emitLoop_append (bMax := bMax) cs (xs := text.take i) (text.drop i) 0 (out := []) (by rwa [List.length_nil, Nat.zero_add])
  rw [List.take_append_drop, List.length_take_of_le hi.le, Nat.zero_add, List.nil_append, List.drop_eq_getElem_cons hi,
    emitLoop_cons _ _ _ _ hfit] at hemit
  rw [List.take_succ_eq_append_getElem hi, codedText_append, codedText_cons, codedText_nil, List.append_nil,
    List.length_append] at hfull
  rw [hemit, if_pos hfull]

theorem eq_of_emitLoop_ok {bMax : Nat} {cs : List CtEntry} {xs : List Sym} {bits : List Bool} : ∀ {i : Nat} {out : List Bool}, out.length ≤ bMax →
    emitLoop bMax cs i xs out = .ok bits → bits = out ++ codedText cs xs := by
  induction xs with
  | nil =>
    intro i out _ h
    cases h
    rw [codedText_nil, List.append_nil]
  | cons x xs ih =>
    intro i out hout h
    rw [emitLoop_cons _ _ _ _ hout] at h
    split_ifs at h with hfull
    rw [ih (by rw [List.length_append]; omega) h, codedText_cons, List.append_assoc]

/-- Bits that the emitter delivers are the codes of the text, and fit. -/
theorem emitLoop_eq_ok_iff {bMax : Nat} {cs : List CtEntry} {text : List Sym} {bits : List Bool} :
    emitLoop bMax cs 0 text [] = .ok bits ↔ bits = codedText cs text ∧ (codedText cs text).length ≤ bMax := by
  constructor
  · intro h
    obtain rfl := eq_of_emitLoop_ok (Nat.zero_le _) h
    exact ⟨rfl, emitLoop_length _ _ _ _ _ _ (Nat.zero_le _) h⟩
  · rintro ⟨rfl, hle⟩
    exact emitLoop_ok hle

/-! What `HUF_ENC` delivers. -/

/-- With a text within its buffer `HUF_ENC` counts, derives and emits. -/
theorem result_hufEnc {s : State} (hN : s.nIn ≤ s.cfg.nMax) {ft : List FtEntry} (hft : countLoop s.cfg.kMax 0 (s.textIn s.nIn) [] = .ok ft) :
    s.result .hufEnc = (emitLoop s.cfg.bMax (deriveCodes ft (buildTree ft)) 0 (s.textIn s.nIn) []).map fun bits =>
      .coded { bits := bits, codes := deriveCodes ft (buildTree ft) } := by
  rw [State.result, if_neg (Nat.not_lt.2 hN), hufEncode_map_of_count _ hft]

/-- A code table written by `HUF_ENC`, entry by entry. -/
theorem finish_coded_ctRow (s : State) {o : HufOut} (hk : o.codes.length ≤ s.cfg.kMax) {j : Nat} (hj : j < o.codes.length) :
    (s.finish .hufEnc (.ok (.coded o))).mem.ctRow s.cfg j = o.codes[j].row s.cfg := by
  show (putSeq (Memory.putBit s.cfg) 0 o.bits (putSeq (Memory.putCt s.cfg) 0 o.codes s.mem)).ctRow s.cfg j = _
  rw [ctRow_putBits, ctRow_putSeq_of_lt hj hk]

/-- The bits written by `HUF_ENC`. -/
theorem finish_coded_bits (s : State) {o : HufOut} (hb : o.bits.length ≤ s.cfg.bMax) :
    bufHolds (s.finish .hufEnc (.ok (.coded o))).mem.bits o.bits := storeBits_holds (s.storeCt o.codes) o.bits hb

/-- Entries that fit their registers stand in `CT` as they are. -/
theorem ctHolds_of_rows {p : Config.Params} {m : Memory} {cs : List CtEntry} (hfit : ∀ e ∈ cs, e.cbits < 2 ^ p.lMax)
    (h : ∀ (j : Nat) (hj : j < cs.length), m.ctRow p j = cs[j].row p) : ctHolds p m cs := by
  refine ⟨fun j hj => ?_, fun j hj => ?_, fun j e hj w hw => ?_⟩
  · rw [List.length_map] at hj
    rw [List.getElem?_map, List.getElem?_eq_getElem hj]
    exact congrArg Prod.fst (h j hj)
  · rw [List.length_map] at hj
    rw [List.getElem?_map, List.getElem?_eq_getElem hj]
    exact congrArg (fun r => r.2.1) (h j hj)
  · obtain ⟨hlt, rfl⟩ := List.getElem?_eq_some_iff.1 hj
    have hword := congrFun (congrArg (fun r => r.2.2) (h j hlt)) ⟨w, hw⟩
    exact hword.trans (congrArg some (codeWordMask_codeWord (hfit _ (List.getElem_mem hlt)) w))

/-- The frequency table that `HUF_ENC` counts: at most `K_MAX` entries, and no more than there are symbols. -/
theorem Counts.length_le {ft : List FtEntry} {text : List Sym} (h : Counts ft text) : ft.length ≤ 2 ^ 21 := by
  rw [h.length_eq]
  exact nodup_syms_length _ (nodup_firstOcc text)

section
variable {s : State} {ft : List FtEntry} (hN : s.nIn ≤ s.cfg.nMax) (hft : countLoop s.cfg.kMax 0 (s.textIn s.nIn) [] = .ok ft)
include hN hft

/-- `HUF_ENC` with room for its bits. -/
theorem hufEnc_ends_well (hroom : (codedText (deriveCodes ft (buildTree ft)) (s.textIn s.nIn)).length ≤ s.cfg.bMax) :
    EndsWell .hufEnc s (s.finish .hufEnc (s.result .hufEnc)) (codedText (deriveCodes ft (buildTree ft)) (s.textIn s.nIn)).length ft.length ∧
      ctHolds s.cfg (s.finish .hufEnc (s.result .hufEnc)).mem (deriveCodes ft (buildTree ft)) ∧
      bufHolds (s.finish .hufEnc (s.result .hufEnc)).mem.bits (codedText (deriveCodes ft (buildTree ft)) (s.textIn s.nIn)) := by
  have hcounts := Counts.of_countLoop Counts.empty hft
  have hk : ft.length ≤ s.cfg.kMax := countLoop_length _ _ _ _ _ (Nat.zero_le _) hft
  rw [result_hufEnc hN hft, emitLoop_ok hroom]
  refine ⟨?_, ctHolds_of_rows (fun e he => ?_) fun j hj => ?_, finish_coded_bits s hroom⟩
  · rw [← deriveCodes_length ft (buildTree ft)]
    exact storeHuf_ends s _ _
  · obtain ⟨-, hlen, hbits⟩ := deriveCodes_bounds hcounts.length_le hk he
    exact hbits.trans_le (Nat.pow_le_pow_right Nat.two_pos hlen)
  · exact finish_coded_ctRow s (o := ⟨_, deriveCodes ft (buildTree ft)⟩) ((deriveCodes_length ..).trans_le hk) hj

/-- `HUF_ENC` without room for a code. -/
theorem hufEnc_ends_in_error {i : Nat} (hi : i < s.nIn)
    (hfit : (codedText (deriveCodes ft (buildTree ft)) ((s.textIn s.nIn).take i)).length ≤ s.cfg.bMax)
    (hfull : s.cfg.bMax < (codedText (deriveCodes ft (buildTree ft)) ((s.textIn s.nIn).take (i + 1))).length) :
    EndsInError .hufEnc s (s.finish .hufEnc (s.result .hufEnc)) .capacityExceeded i := by
  refine finish_error_ends (r := ⟨.capacityExceeded, i⟩) ?_
  rw [result_hufEnc hN hft, emitLoop_error (by rwa [textIn_length]) hfit hfull]
  rfl

end

/-- A count of a text that `HUF_ENC` accepts is held as it is. -/
theorem Counts.cnt_toNat {s : State} {ft : List FtEntry} (h : Counts ft (s.textIn s.nIn)) {e : FtEntry} (he : e ∈ ft) :
    e.cnt.toNat = (s.textIn s.nIn).count e.sym := by
  have hle := List.count_le_length (a := e.sym) (l := s.textIn s.nIn)
  rw [textIn_length] at hle
  rw [h.cnts e he, wd_toNat _ (Nat.lt_of_le_of_lt hle (nIn_lt s))]

/-- Settles O44: the count, the merges and the walk each as they are stated, and the emitter at its end or where it stops. -/
theorem hufEncResult : Obligations.HufEncResult := by
  intro s hcap hN hK
  obtain ⟨ft, hcount, h⟩ := countLoop_ok hK
  have hlen := h.length_le
  have hk : ft.length ≤ s.cfg.kMax := h.length_eq.trans_le hK
  refine ⟨ft, _, _, _, exec_eq_finish .hufEnc s, hcount, rfl, rfl, h.syms, fun e he => h.cnt_toNat he, isTreeOf_buildTree hlen, fun root hroot => ?_,
    fun htwo j e hj => (deriveCodes_path hlen htwo hj).path, (deriveCodes_syms hlen).trans h.syms, fun e he => deriveCodes_bounds hlen hk he,
    fun hroom => ?_, fun i hi => hufEnc_ends_in_error hN hcount hi⟩
  · rw [h.root_freq hlen hroot, textIn_length, wd_toNat _ (nIn_lt s)]
  · rw [deriveCodes_length]
    exact hufEnc_ends_well hN hcount hroom

/-! One symbol and two symbols (41_huffman.md R138, R145). -/

/-- A text whose codes all have one bit. -/
theorem codedText_length_of_one_bit {cs : List CtEntry} {text : List Sym} (h : ∀ x ∈ text, (codeOf cs x).length = 1) :
    (codedText cs text).length = text.length := by
  rw [codedText, List.length_flatMap, List.map_congr_left h]
  simp

theorem firstOcc_replicate (x : Sym) (n : Nat) : firstOcc (List.replicate (n + 1) x) = [x] := by
  rw [List.replicate_succ, firstOcc]
  refine congrArg (x :: ·) (List.filter_eq_nil_iff.2 fun y hy => ?_)
  rw [mem_firstOcc] at hy
  simp [List.eq_of_mem_replicate hy]

/-- Settles O47: the table has one entry, whose code every symbol emits. -/
theorem hufEncOneSymbol : Obligations.HufEncOneSymbol := by
  intro s x hcap hpos hN hB htext
  obtain ⟨n, hn⟩ := Nat.exists_eq_add_of_le' hpos
  have hocc : firstOcc (s.textIn s.nIn) = [x] := by rw [htext, hn, firstOcc_replicate]
  have hkMax : 1 ≤ s.cfg.kMax := by
    simp only [Config.Params.wf, Config.capOk, Bool.and_eq_true, decide_eq_true_eq] at hcap
    omega
  obtain ⟨ft, hcount, h⟩ := countLoop_ok (kMax := s.cfg.kMax) (text := s.textIn s.nIn) (by rwa [hocc])
  obtain ⟨e, rfl⟩ := List.length_eq_one_iff.1 (h.length_eq.trans (congrArg List.length hocc))
  obtain rfl : e.sym = x := by simpa [hocc] using h.syms
  have hcoded : codedText (deriveCodes [e] (buildTree [e])) (s.textIn s.nIn) = List.replicate s.nIn false := by
    have hcode : codeOf (deriveCodes [e] (buildTree [e])) e.sym = [false] := by simp [deriveCodes, codeOf, codeBits]
    rw [htext, codedText, List.flatMap_replicate, hcode]
    simp
  have hends := hufEnc_ends_well hN hcount (by rwa [hcoded, List.length_replicate])
  rw [hcoded, List.length_replicate] at hends
  exact ⟨_, exec_eq_finish .hufEnc s, hends⟩

/-- The tree of two symbols: the rarer one, and of equally frequent ones the first, is the left leaf (41_huffman.md R134, R135). -/
theorem buildTree_two (a b : FtEntry) :
    buildTree [a, b] =
      [{ leaf := true, sym := a.sym, freq := a.cnt, left := 0#32, right := 0#32, live := false },
       { leaf := true, sym := b.sym, freq := b.cnt, left := 0#32, right := 0#32, live := false },
       { leaf := false, sym := 0#21, freq := wd (a.cnt.toNat + b.cnt.toNat), left := if a.cnt.toNat ≤ b.cnt.toNat then 0#32 else 1#32,
         right := if a.cnt.toNat ≤ b.cnt.toNat then 1#32 else 0#32, live := true }] := by
  rcases Nat.lt_trichotomy a.cnt.toNat b.cnt.toNat with hlt | heq | hlt
  · simp [buildTree, mergeLoop, mergeOnce, leaves, pickScan, unlive, hlt, hlt.le, Nat.not_le.2 hlt]
  · simp [buildTree, mergeLoop, mergeOnce, leaves, pickScan, unlive, heq]
  · simp [buildTree, mergeLoop, mergeOnce, leaves, pickScan, unlive, hlt, hlt.le, Nat.not_le.2 hlt, Nat.add_comm]

/-- The code table of two symbols. -/
theorem deriveCodes_two (a b : FtEntry) :
    deriveCodes [a, b] (buildTree [a, b]) =
      [{ sym := a.sym, clen := 1, cbits := if a.cnt.toNat ≤ b.cnt.toNat then 0 else 1 },
       { sym := b.sym, clen := 1, cbits := if a.cnt.toNat ≤ b.cnt.toNat then 1 else 0 }] := by
  rw [buildTree_two]
  split_ifs <;> rfl

/-- Settles O48: each symbol emits one bit. -/
theorem hufEncTwoSymbols : Obligations.HufEncTwoSymbols := by
  intro s x y hcap hN hB hK hocc
  obtain ⟨ft, hcount, h⟩ := countLoop_ok (kMax := s.cfg.kMax) (text := s.textIn s.nIn) (by rwa [hocc])
  obtain ⟨a, b, rfl⟩ := List.length_eq_two.1 (h.length_eq.trans (congrArg List.length hocc))
  obtain ⟨rfl, rfl⟩ : a.sym = x ∧ b.sym = y := by simpa [hocc] using h.syms
  have hcodes := deriveCodes_two a b
  rw [h.cnt_toNat (e := a) (by simp), h.cnt_toNat (e := b) (by simp)] at hcodes
  have hlen : (codedText (deriveCodes [a, b] (buildTree [a, b])) (s.textIn s.nIn)).length = s.nIn := by
    rw [codedText_length_of_one_bit, textIn_length]
    intro x hx
    rw [← mem_firstOcc, ← h.syms, ← deriveCodes_syms h.length_le] at hx
    obtain ⟨j, e, hj, -, hcode⟩ := exists_codeOf_eq hx
    rw [hcode, codeBits_length]
    have he := List.mem_of_getElem? hj
    rw [hcodes] at he
    rcases List.mem_cons.1 he with rfl | he
    · rfl
    · rw [List.mem_singleton.1 he]
  obtain ⟨hends, hholds, -⟩ := hufEnc_ends_well hN hcount (by rwa [hlen])
  rw [hlen] at hends
  rw [hcodes] at hholds
  exact ⟨_, exec_eq_finish .hufEnc s, hends, hholds⟩

end Sys2Proof.Machine
end

section
/-! SUPPORT. What a successful `HUF_ENC` leaves, as the next command reads it (41_huffman.md R143, 70_reset_and_hazards.md R296). -/

namespace Sys2Proof.Machine

/-- What a successful `HUF_ENC` leaves: the registers count the bits and the entries, and the buffers hold the codes of the text and the derived table. -/
structure HufEncLeaves (s t : State) (ft : List FtEntry) : Prop where
  nIn_le : s.nIn ≤ s.cfg.nMax
  counts : Counts ft (s.textIn s.nIn)
  ft_le : ft.length ≤ s.cfg.kMax
  room : (codedText (deriveCodes ft (buildTree ft)) (s.textIn s.nIn)).length ≤ s.cfg.bMax
  cfg_eq : t.cfg = s.cfg
  outLen_eq : t.outLen.toNat = (codedText (deriveCodes ft (buildTree ft)) (s.textIn s.nIn)).length
  ctLen_eq : t.ctLen.toNat = ft.length
  bits : bufHolds t.mem.bits (codedText (deriveCodes ft (buildTree ft)) (s.textIn s.nIn))
  rows : ∀ (j : Nat) (hj : j < (deriveCodes ft (buildTree ft)).length), t.mem.ctRow s.cfg j = (deriveCodes ft (buildTree ft))[j].row s.cfg

theorem exists_hufEncLeaves {s t : State} (hcap : s.cfg.wf = true) (h : exec .hufEnc s = .next t) (herr : t.err = false) :
    ∃ ft, HufEncLeaves s t ft := by
  rw [exec_eq_finish] at h
  cases h
  cases hr : s.result .hufEnc with
  | error r =>
    rw [hr] at herr
    cases herr
  | ok o =>
    rw [State.result] at hr
    split_ifs at hr with hN
    obtain ⟨out, hout, rfl⟩ := exists_ok_of_map_ok hr
    rw [hufEncode] at hout
    split at hout
    · cases hout
    · rename_i ft hft
      split at hout
      · cases hout
      · rename_i bits hbits
        cases hout
        obtain ⟨rfl, hroom⟩ := emitLoop_eq_ok_iff.1 hbits
        obtain ⟨-, hK, hB, -, -⟩ := caps_lt hcap
        have hk : ft.length ≤ s.cfg.kMax := countLoop_length _ _ _ _ _ (Nat.zero_le _) hft
        have hcs := deriveCodes_length ft (buildTree ft)
        exact ⟨ft,
          { nIn_le := Nat.le_of_not_lt hN
            counts := Counts.empty.of_countLoop hft
            ft_le := hk
            room := hroom
            cfg_eq := rfl
            outLen_eq := wd_toNat _ (Nat.lt_of_le_of_lt hroom hB)
            ctLen_eq := (wd_toNat _ (Nat.lt_of_le_of_lt (hcs.trans_le hk) hK)).trans hcs
            bits := finish_coded_bits s hroom
            rows := fun j hj => finish_coded_ctRow s (hcs.trans_le hk) hj }⟩

/-- Bits that stand in `BITS` are what a command reads there. -/
theorem bitsIn_of_holds {u : State} {bits : List Bool} (h : bufHolds u.mem.bits bits) : u.bitsIn bits.length = bits := by
  refine List.ext_getElem (bitsIn_length ..) fun i _ hi => ?_
  simp only [State.bitsIn, List.getElem_map, List.getElem_range, State.bitAt]
  rw [h i hi, List.getElem?_eq_getElem hi, Option.getD_some]

section
variable {p : Config.Params} {ft : List FtEntry} (hlen : ft.length ≤ 2 ^ 21) (hk : ft.length ≤ p.kMax)
include hlen hk

/-- The codes of a derived table fit the words of `CT`. -/
theorem deriveCodes_fits {e : CtEntry} (he : e ∈ deriveCodes ft (buildTree ft)) : e.Fits p := by
  obtain ⟨-, hl, hb⟩ := deriveCodes_bounds hlen hk he
  refine ⟨?_, hb.trans_le (Nat.pow_le_pow_right Nat.two_pos hl)⟩
  obtain ⟨-, hself, -⟩ := deriveCodes_bounds (p := { p with kMax := ft.length }) hlen (Nat.le_refl _) he
  simp only [Config.Params.lMax] at hself
  omega

/-- A derived table passes the checks of `HUF_DEC` (41_huffman.md R151). -/
theorem deriveCodes_valid (hnodup : (ft.map (·.sym)).Nodup) : validTable p.lMax (deriveCodes ft (buildTree ft)) := by
  refine ⟨fun e he => ?_, deriveCodes_syms hlen ▸ hnodup⟩
  obtain ⟨hpos, hl, -⟩ := deriveCodes_bounds hlen hk he
  exact ⟨hpos, hl⟩

end

/-- The table of a successful `HUF_ENC`, as the next command reads it. -/
theorem HufEncLeaves.ctIn {s t : State} {ft : List FtEntry} (h : HufEncLeaves s t ft) {u : State} (hcfg : u.cfg = s.cfg) (hmem : u.mem = t.mem) :
    u.ctIn ft.length = deriveCodes ft (buildTree ft) := by
  rw [← deriveCodes_length ft (buildTree ft)]
  refine ctIn_of_rows (fun e he => ?_) fun j hj => ?_
  · exact hcfg ▸ deriveCodes_fits h.counts.length_le h.ft_le he
  · exact hcfg ▸ hmem ▸ h.rows j hj

/-- Settles O50: the table read back is the derived one, whose codes are paths of one tree. -/
theorem hufEncPrefixFree : Obligations.HufEncPrefixFree := by
  intro s t hcap _ hexec herr
  obtain ⟨ft, h⟩ := exists_hufEncLeaves hcap hexec herr
  rw [h.ctLen_eq, h.ctIn h.cfg_eq rfl]
  exact deriveCodes_prefixFree h.counts.length_le

/-- Settles O54: the bits and the table read back are the codes of the text and the derived table, which O52 decodes. -/
theorem hufRoundTrip : Obligations.HufRoundTrip := by
  intro s t hcap _ hexec herr
  obtain ⟨ft, h⟩ := exists_hufEncLeaves hcap hexec herr
  have hlen := h.counts.length_le
  have hsyms := h.counts.syms
  have hcfg : (t.chain .hufDec).cfg = s.cfg := h.cfg_eq
  have hn : (t.chain .hufDec).nIn = (codedText (deriveCodes ft (buildTree ft)) (s.textIn s.nIn)).length := h.outLen_eq
  have hk : (t.chain .hufDec).kIn = ft.length := h.ctLen_eq
  have hbits : (t.chain .hufDec).bitsIn (t.chain .hufDec).nIn = codedText (deriveCodes ft (buildTree ft)) (s.textIn s.nIn) := by
    rw [hn]
    exact bitsIn_of_holds h.bits
  have hct : (t.chain .hufDec).ctIn (t.chain .hufDec).kIn = deriveCodes ft (buildTree ft) := by
    rw [hk]
    exact h.ctIn hcfg rfl
  have hdec := hufDecResult (t.chain .hufDec) (s.textIn s.nIn) []
  rw [hct, hbits, hcfg, hn, hk, textIn_length] at hdec
  obtain ⟨v, hv, hdone, -⟩ := hdec h.room h.ft_le (deriveCodes_valid hlen h.ft_le (hsyms ▸ nodup_firstOcc _)) (deriveCodes_prefixFree hlen)
    (List.append_nil _).symm (fun x hx => by rwa [deriveCodes_syms hlen, hsyms, mem_firstOcc]) h.nIn_le
  exact ⟨v, hv, hdone rfl⟩

end Sys2Proof.Machine
end

section
/-! SUPPORT. `HUF_ENC` under a renaming of the symbols (41_huffman.md R145): each step does the same with the new names. -/

namespace Sys2Proof.Machine

/-! The renamed tables. Only a leaf has a symbol; the symbol field of an internal node is 0 whatever the text. -/

def FtEntry.rename (f : Sym → Sym) (e : FtEntry) : FtEntry := { e with sym := f e.sym }

def Node.rename (f : Sym → Sym) (nd : Node) : Node := { nd with sym := if nd.leaf then f nd.sym else nd.sym }

def CtEntry.rename (f : Sym → Sym) (e : CtEntry) : CtEntry := { e with sym := f e.sym }

def Merge.rename (f : Sym → Sym) (mg : Merge) : Merge := { mg with node := mg.node.map (Node.rename f) }

def HufOut.rename (f : Sym → Sym) (o : HufOut) : HufOut := { o with codes := o.codes.map (CtEntry.rename f) }

section
variable (f : Sym → Sym)

/-! The count. -/

theorem ftBump_rename {x : Sym} {ft : List FtEntry} (hinj : ∀ e ∈ ft, f e.sym = f x → e.sym = x) :
    ftBump (f x) (ft.map (FtEntry.rename f)) = (ftBump x ft).map (List.map (FtEntry.rename f)) := by
  induction ft with
  | nil => rfl
  | cons e r ih =>
    rw [List.map_cons, ftBump, ftBump, ih fun a ha => hinj a (List.mem_cons_of_mem _ ha)]
    by_cases he : e.sym = x
    · have he' : (e.rename f).sym = f x := congrArg f he
      rw [if_pos he, if_pos he']
      rfl
    · have he' : ¬ (e.rename f).sym = f x := fun h => he (hinj e List.mem_cons_self h)
      rw [if_neg he, if_neg he', Option.map_map, Option.map_map]
      rfl

theorem countSym_rename {kMax i : Nat} {x : Sym} {ft : List FtEntry} (hinj : ∀ e ∈ ft, f e.sym = f x → e.sym = x) :
    countSym kMax i (f x) (ft.map (FtEntry.rename f)) = (countSym kMax i x ft).map (List.map (FtEntry.rename f)) := by
  rw [countSym, countSym, ftBump_rename f hinj, List.length_map]
  cases ftBump x ft with
  | some ft' => rfl
  | none =>
    dsimp only [Option.map_none]
    split_ifs
    · rfl
    · simp [Except.map, FtEntry.rename]

/-- The counter adds no symbol but the one it counts. -/
theorem countSym_syms_subset {kMax i : Nat} {x : Sym} {ft ft' : List FtEntry} (h : countSym kMax i x ft = .ok ft') {e : FtEntry} (he : e ∈ ft') :
    e.sym = x ∨ e.sym ∈ ft.map (·.sym) := by
  have hmem := List.mem_map_of_mem (f := FtEntry.sym) he
  unfold countSym at h
  split at h
  · rename_i hbump
    cases h
    exact .inr (ftBump_syms hbump ▸ hmem)
  · split_ifs at h
    cases h
    rw [List.map_append, List.mem_append] at hmem
    exact hmem.symm.imp List.mem_singleton.1 id

theorem countLoop_rename {kMax : Nat} {text xs : List Sym} (hinj : ∀ x ∈ text, ∀ y ∈ text, f x = f y → x = y) :
    ∀ {i : Nat} {ft : List FtEntry}, (∀ x ∈ xs, x ∈ text) → (∀ e ∈ ft, e.sym ∈ text) →
    countLoop kMax i (xs.map f) (ft.map (FtEntry.rename f)) = (countLoop kMax i xs ft).map (List.map (FtEntry.rename f)) := by
  induction xs with
  | nil => intro i ft _ _; rfl
  | cons x xs ih =>
    intro i ft hxs hft
    have hx := hxs x List.mem_cons_self
    rw [List.map_cons, countLoop, countLoop, countSym_rename f fun e he => hinj _ (hft e he) _ hx]
    cases hc : countSym kMax i x ft with
    | error r => rfl
    | ok ft' =>
      refine ih (fun y hy => hxs y (List.mem_cons_of_mem _ hy)) fun e he => ?_
      rcases countSym_syms_subset hc he with heq | hmem
      · exact heq ▸ hx
      · obtain ⟨e', he', heq⟩ := List.mem_map.1 hmem
        exact heq ▸ hft e' he'

/-! The tree. -/

theorem leaves_rename (ft : List FtEntry) : leaves (ft.map (FtEntry.rename f)) = (leaves ft).map (Node.rename f) := by
  rw [leaves, leaves, List.map_map, List.map_map]
  rfl

/-- A pick looks at frequencies and indices alone. -/
theorem pickScan_rename (nodes : List Node) (x : Nat) (best : Option (Nat × Word)) :
    pickScan (nodes.map (Node.rename f)) x best = pickScan nodes x best := by
  induction nodes generalizing x best with
  | nil => rfl
  | cons nd r ih =>
    rw [List.map_cons, pickScan_cons, ih]
    rfl

theorem unlive_rename (nodes : List Node) (x : Nat) : unlive (nodes.map (Node.rename f)) x = (unlive nodes x).map (Node.rename f) := by
  cases hx : nodes[x]? with
  | none => rw [unlive, unlive, List.getElem?_map, hx, Option.map_none]
  | some nd =>
    have hx' : (nodes.map (Node.rename f))[x]? = some (nd.rename f) := by rw [List.getElem?_map, hx, Option.map_some]
    rw [unlive_eq_set hx, unlive_eq_set hx', List.map_set]
    rfl

theorem mergeOnce_rename (nodes : List Node) (live : Nat) : mergeOnce (nodes.map (Node.rename f)) live = (mergeOnce nodes live).map (Merge.rename f) := by
  simp only [mergeOnce, pickScan_rename, unlive_rename]
  cases pickScan nodes 0 none with
  | none => rfl
  | some p =>
    obtain ⟨a, fa⟩ := p
    dsimp only
    cases pickScan (unlive nodes a) 0 none with
    | none => rfl
    | some q =>
      obtain ⟨b, fb⟩ := q
      simp [Merge.rename, Node.rename]

theorem mergeLoop_rename (g : Nat) : ∀ (nodes : List Node) (live : Nat),
    mergeLoop g (nodes.map (Node.rename f)) live = (mergeLoop g nodes live).map (Node.rename f) := by
  induction g with
  | zero => intro nodes live; rfl
  | succ g ih =>
    intro nodes live
    rw [mergeLoop, mergeLoop, mergeOnce_rename]
    split_ifs
    · cases mergeOnce nodes live with
      | none => rfl
      | some mg => exact ih mg.node mg.live
    · rfl

theorem buildTree_rename (ft : List FtEntry) : buildTree (ft.map (FtEntry.rename f)) = (buildTree ft).map (Node.rename f) := by
  rw [buildTree, leaves_rename, mergeLoop_rename, List.length_map]
  rfl

/-! The walk. -/

theorem walkOnce_rename (nodes : List Node) (e : StkEntry) (stk : List StkEntry) (codes : List CtEntry) :
    walkOnce (nodes.map (Node.rename f)) e stk (codes.map (CtEntry.rename f)) =
      ((walkOnce nodes e stk codes).1, (walkOnce nodes e stk codes).2.map (CtEntry.rename f)) := by
  rw [walkOnce, walkOnce, List.getElem?_map]
  cases nodes[e.node.toNat]? with
  | none => rfl
  | some nd =>
    cases hleaf : nd.leaf with
    | true => simp [Node.rename, CtEntry.rename, hleaf, List.map_set]
    | false => simp [Node.rename, hleaf, StkEntry.left, StkEntry.right]

theorem walkLoop_rename (nodes : List Node) (g : Nat) : ∀ (stk : List StkEntry) (codes : List CtEntry),
    walkLoop (nodes.map (Node.rename f)) g stk (codes.map (CtEntry.rename f)) = (walkLoop nodes g stk codes).map (CtEntry.rename f) := by
  induction g with
  | zero => intro stk codes; rfl
  | succ g ih =>
    intro stk codes
    cases stk with
    | nil => rfl
    | cons e stk => rw [walkLoop, walkLoop, walkOnce_rename, ih]

theorem deriveCodes_rename (ft : List FtEntry) (nodes : List Node) :
    deriveCodes (ft.map (FtEntry.rename f)) (nodes.map (Node.rename f)) = (deriveCodes ft nodes).map (CtEntry.rename f) := by
  match ft with
  | [] => rfl
  | [_] => rfl
  | a :: b :: r =>
    have hblank : blankCodes ((a :: b :: r).map (FtEntry.rename f)) = (blankCodes (a :: b :: r)).map (CtEntry.rename f) := by
      rw [blankCodes, blankCodes, List.map_map, List.map_map]
      rfl
    have hroot : StkEntry.root (nodes.map (Node.rename f)) = StkEntry.root nodes := by rw [StkEntry.root, StkEntry.root, List.length_map]
    rw [deriveCodes_of_two_le (by simp), deriveCodes_of_two_le (by simp), hblank, hroot, List.length_map, walkLoop_rename]

/-! The emission, and the whole. -/

theorem codeOf_rename {cs : List CtEntry} {x : Sym} (hinj : ∀ e ∈ cs, f e.sym = f x → e.sym = x) :
    codeOf (cs.map (CtEntry.rename f)) (f x) = codeOf cs x := by
  have hfind : cs.find? ((fun e => e.sym == f x) ∘ CtEntry.rename f) = cs.find? (fun e => e.sym == x) := by
    refine List.find?_congr fun e he => ?_
    rw [Bool.eq_iff_iff, Function.comp_apply, beq_iff_eq, beq_iff_eq]
    exact ⟨hinj e he, congrArg f⟩
  rw [codeOf, List.find?_map, hfind, codeOf]
  cases cs.find? (fun e => e.sym == x) <;> rfl

theorem emitLoop_rename {bMax : Nat} {cs : List CtEntry} {xs : List Sym} (hinj : ∀ x ∈ xs, ∀ e ∈ cs, f e.sym = f x → e.sym = x) :
    ∀ (i : Nat) {out : List Bool}, out.length ≤ bMax →
      emitLoop bMax (cs.map (CtEntry.rename f)) i (xs.map f) out = emitLoop bMax cs i xs out := by
  induction xs with
  | nil => intro i out _; rfl
  | cons x xs ih =>
    intro i out hout
    rw [List.map_cons, emitLoop_cons _ _ _ _ hout, emitLoop_cons _ _ _ _ hout, codeOf_rename f (hinj x List.mem_cons_self)]
    split_ifs with hfull
    · rfl
    · exact ih (fun y hy => hinj y (List.mem_cons_of_mem _ hy)) (i + 1) (by rw [List.length_append]; omega)

/-- A renaming that keeps the symbols of the text apart renames the table that `HUF_ENC` delivers, and changes nothing else. -/
theorem hufEncode_rename (p : Config.Params) {text : List Sym} (hinj : ∀ x ∈ text, ∀ y ∈ text, f x = f y → x = y) :
    hufEncode p (text.map f) = (hufEncode p text).map (HufOut.rename f) := by
  have hcount : countLoop p.kMax 0 (text.map f) [] = (countLoop p.kMax 0 text []).map (List.map (FtEntry.rename f)) :=
    countLoop_rename f hinj (ft := []) (fun x hx => hx) nofun
  rw [hufEncode, hufEncode, hcount]
  cases hft : countLoop p.kMax 0 text [] with
  | error r => rfl
  | ok ft =>
    have hcounts := Counts.empty.of_countLoop hft
    have hsyms := (deriveCodes_syms hcounts.length_le).trans hcounts.syms
    have hemit := emitLoop_rename f (bMax := p.bMax) (cs := deriveCodes ft (buildTree ft)) (xs := text) (out := [])
      (fun x hx e he => hinj _ ((mem_firstOcc _ _).1 (hsyms ▸ List.mem_map_of_mem he)) _ hx) 0 (Nat.zero_le _)
    dsimp only [Except.map]
    rw [buildTree_rename, deriveCodes_rename, hemit]
    cases emitLoop p.bMax (deriveCodes ft (buildTree ft)) 0 text [] <;> rfl

end

/-- Two states whose texts differ by a renaming get the same error, or the same result but for the names. -/
theorem result_rename {s u : State} {f : Sym → Sym} (hcfg : u.cfg = s.cfg) (hn : u.nIn = s.nIn)
    (hinj : ∀ x ∈ s.textIn s.nIn, ∀ y ∈ s.textIn s.nIn, f x = f y → x = y) (htext : u.textIn s.nIn = (s.textIn s.nIn).map f) :
    (∃ r, s.result .hufEnc = .error r ∧ u.result .hufEnc = .error r) ∨
      ∃ o, s.result .hufEnc = .ok (.coded o) ∧ u.result .hufEnc = .ok (.coded (o.rename f)) := by
  simp only [State.result, hn, hcfg, htext, hufEncode_rename f s.cfg hinj]
  split_ifs
  · exact .inl ⟨_, rfl, rfl⟩
  · cases hufEncode s.cfg (s.textIn s.nIn) with
    | error r => exact .inl ⟨r, rfl, rfl⟩
    | ok o => exact .inr ⟨o, rfl, rfl⟩

/-- Settles O46: both states end in the same error, or with the same bits and tables that differ in their symbols alone. -/
theorem hufEncIgnoresSymbolValues : Obligations.HufEncIgnoresSymbolValues := by
  intro s u t v f hcap hcfg hn hs hu hinj htext ht hv
  obtain ⟨-, -, herr, hcode, hinfo, -⟩ := hs
  obtain ⟨-, -, herr', hcode', hinfo', -⟩ := hu
  rw [exec_eq_finish] at ht hv
  cases ht
  cases hv
  rcases result_rename hcfg (congrArg BitVec.toNat hn) hinj htext with ⟨r, hr, hr'⟩ | ⟨o, hr, hr'⟩
  · rw [hr, hr']
    exact ⟨rfl, rfl, rfl, rfl, rfl, fun i hi => absurd hi (Nat.not_lt_zero i), fun j hj => absurd hj (Nat.not_lt_zero j)⟩
  · obtain ⟨⟨hbits, hcodes⟩, -⟩ := result_fits hr
    obtain ⟨-, hK, hB, -, -⟩ := caps_lt hcap
    have hlen : (o.rename f).codes.length = o.codes.length := List.length_map ..
    have houtLen : (wd o.bits.length).toNat = o.bits.length := wd_toNat _ (hbits.trans_lt hB)
    have hctLen : (wd o.codes.length).toNat = o.codes.length := wd_toNat _ (hcodes.trans_lt hK)
    rw [hr, hr']
    refine ⟨herr'.trans herr.symm, hcode'.trans hcode.symm, hinfo'.trans hinfo.symm, rfl, congrArg wd hlen, fun i hi => ?_, fun j hj => ?_⟩
    · have hi' : i < o.bits.length := houtLen ▸ hi
      rw [finish_coded_bits s hbits i hi', finish_coded_bits u (o := o.rename f) (hcfg ▸ hbits) i hi']
      rfl
    · have hj' : j < o.codes.length := hctLen ▸ hj
      have hrow := finish_coded_ctRow s hcodes hj'
      have hrow' := finish_coded_ctRow u (o := o.rename f) (hcfg ▸ hlen.trans_le hcodes) (hlen.symm ▸ hj')
      have hsame : ((o.rename f).codes[j]'(hlen.symm ▸ hj')).row s.cfg = (some (f o.codes[j].sym), (o.codes[j].row s.cfg).2) := by
        simp [HufOut.rename, CtEntry.rename, CtEntry.row]
      rw [hcfg, hsame, ← hrow] at hrow'
      have hwords := congrArg Prod.snd hrow'
      exact ⟨congrArg Prod.fst hwords, fun w hw => congrFun (congrArg Prod.snd hwords) ⟨w, hw⟩⟩

end Sys2Proof.Machine
end

section
/-! SUPPORT. The match search of `LZ_ENC` (42_lz77.md R183 to R186): a match length is the longest agreement of two places of the text, the search keeps
the longest one at its smallest offset, and the token made of it is the one owed at the position. -/

namespace Sys2Proof.Machine

/-- Two sequences begin alike for `m` symbols exactly when the second one has so many and the first agrees with it there. -/
theorem le_commonPrefix_iff {xs ys : List Sym} {m : Nat} : m ≤ commonPrefix xs ys ↔ m ≤ ys.length ∧ ∀ q, q < m → xs[q]? = ys[q]? := by
  induction ys generalizing xs m with
  | nil =>
    rw [commonPrefix_nil_right]
    refine ⟨fun h => ⟨h, fun q hq => absurd hq (by omega)⟩, fun h => h.1⟩
  | cons y ys ih =>
    cases m with
    | zero => simp
    | succ m =>
      cases xs with
      | nil =>
        refine ⟨fun h => absurd h (Nat.not_succ_le_zero m), fun h => ?_⟩
        simpa using h.2 0 (Nat.succ_pos m)
      | cons x xs =>
        rw [commonPrefix, Nat.forall_lt_succ_left]
        simp only [List.getElem?_cons_zero, Option.some.injEq, List.getElem?_cons_succ, List.length_cons]
        split_ifs with hxy
        · rw [Nat.add_le_add_iff_right, Nat.add_le_add_iff_right, ih]
          simp [hxy]
        · simp [hxy]

/-- The match length at an offset is the longest agreement there (R184). -/
theorem matchesFor_iff_le_matchLen {text : List Sym} {p : Nat} (hp : p ≤ text.length) (off m : Nat) :
    matchesFor text p off m ↔ m ≤ matchLen text p off := by
  rw [matchesFor, matchLen, le_commonPrefix_iff, List.length_drop]
  simp only [List.getElem?_drop]
  refine and_congr_left fun _ => ?_
  omega

/-- The best match of the offsets `1 .. n` at a position: the longest, at its smallest offset (R183, R185). -/
structure BestOf (text : List Sym) (p n : Nat) (b : Best) : Prop where
  longest : ∀ off, 1 ≤ off → off ≤ n → matchLen text p off ≤ b.len
  dist_zero : b.len = 0 → b.dist = 0
  dist_pos : b.len ≠ 0 → 1 ≤ b.dist
  dist_le : b.dist ≤ n
  attained : b.len ≠ 0 → matchLen text p b.dist = b.len
  nearest : ∀ off, 1 ≤ off → off < b.dist → matchLen text p off < b.len

theorem BestOf.zero (text : List Sym) (p : Nat) : BestOf text p 0 Best.zero where
  longest _ h1 h2 := absurd h2 (by omega)
  dist_zero _ := rfl
  dist_pos h := absurd rfl h
  dist_le := Nat.le_refl 0
  attained h := absurd rfl h
  nearest _ _ h := absurd h (Nat.not_lt_zero _)

/-- One more offset: the tie rule keeps the smaller one (R185). -/
theorem BestOf.update {text : List Sym} {p n : Nat} {b : Best} (h : BestOf text p n b) :
    BestOf text p (n + 1) (b.update (matchLen text p (n + 1)) (n + 1)) := by
  unfold Best.update
  split_ifs with hlt
  · have hold : ∀ off, 1 ≤ off → off ≤ n → matchLen text p off < matchLen text p (n + 1) := fun off h1 h2 => (h.longest off h1 h2).trans_lt hlt
    exact
      { longest := fun off h1 h2 => (Nat.le_succ_iff.1 h2).elim (fun h2 => (hold off h1 h2).le) fun h2 => h2 ▸ Nat.le_refl _
        dist_zero := fun h0 => absurd h0 (Nat.ne_of_gt (Nat.zero_lt_of_lt hlt))
        dist_pos := fun _ => Nat.succ_pos n
        dist_le := Nat.le_refl _
        attained := fun _ => rfl
        nearest := fun off h1 h2 => hold off h1 (Nat.le_of_lt_succ h2) }
  · exact
      { h with
        longest := fun off h1 h2 => (Nat.le_succ_iff.1 h2).elim (h.longest off h1) fun h2 => h2 ▸ Nat.le_of_not_lt hlt
        dist_le := Nat.le_succ_of_le h.dist_le }

theorem searchFrom_bestOf {text : List Sym} {p : Nat} (c : Nat) : ∀ {n : Nat} {b : Best}, BestOf text p n b →
    BestOf text p (n + c) (searchFrom text p c (n + 1) b) := by
  induction c with
  | zero => exact fun h => h
  | succ c ih =>
    intro n b h
    rw [searchFrom, ← Nat.succ_add_eq_add_succ]
    exact ih h.update

/-- The search finds the best match of its window (R183). -/
theorem search_bestOf (text : List Sym) (w p : Nat) : BestOf text p (min w p) (search text w p) := by
  have h := searchFrom_bestOf (min w p) (BestOf.zero text p)
  rwa [Nat.zero_add] at h

/-- The best match stays inside the text (R184). -/
theorem BestOf.len_le {text : List Sym} {p n : Nat} {b : Best} (h : BestOf text p n b) (hp : p ≤ text.length) : p + b.len ≤ text.length := by
  by_cases h0 : b.len = 0
  · rwa [h0]
  · obtain ⟨hle, -⟩ := (matchesFor_iff_le_matchLen hp _ _).2 (h.attained h0).ge
    exact hle

/-- How many symbols a token stands for when its match is as long as it says. -/
def Token.span (t : Token) : Nat := t.len.toNat + t.hasNext.toNat

@[simp] theorem tokSpan_nil : tokSpan [] = 0 := rfl

@[simp] theorem tokSpan_cons (t : Token) (ts : List Token) : tokSpan (t :: ts) = t.span + tokSpan ts := by
  simp [tokSpan, Token.span]

/-- The fields of the token that `LZ_ENC` writes at a position (R186). -/
theorem mkToken_fields (text : List Sym) (p : Nat) (b : Best) :
    (mkToken text p b).dist = wd b.dist ∧ (mkToken text p b).len = wd b.len ∧
      text[p + b.len]? = (if (mkToken text p b).hasNext then some (mkToken text p b).next else none) ∧
      ((mkToken text p b).hasNext = false → (mkToken text p b).next = 0#21) := by
  unfold mkToken
  cases text[p + b.len]? with
  | none => exact ⟨rfl, rfl, rfl, fun _ => rfl⟩
  | some x => exact ⟨rfl, rfl, rfl, nofun⟩

theorem wd_eq_zero_iff (n : Nat) (h : n < 2 ^ 32) : wd n = 0#32 ↔ n = 0 := by
  rw [← BitVec.toNat_inj, wd_toNat n h, BitVec.toNat_zero]

/-- The token that `LZ_ENC` writes at a position is the one it owes there. -/
theorem mkToken_greedyAt {text : List Sym} (hlen : text.length < 2 ^ 32) (w : Nat) {p : Nat} (hp : p < text.length) :
    greedyAt w text p (mkToken text p (search text w p)) := by
  have hbest := search_bestOf text w p
  obtain ⟨hdist, hmatch, hlit, hnone⟩ := mkToken_fields text p (search text w p)
  generalize search text w p = b at *
  have hmax := hbest.len_le hp.le
  have hdist_le := hbest.dist_le
  simp only [greedyAt, hmatch, hdist, wd_toNat b.len (by omega), wd_toNat b.dist (by omega), wd_eq_zero_iff b.len (by omega),
    wd_eq_zero_iff b.dist (by omega), ne_eq, matchesFor_iff_le_matchLen hp.le]
  exact ⟨hp, fun off m h1 h2 hm => hm.trans (hbest.longest off h1 h2), hbest.dist_zero,
    fun h0 => ⟨hbest.dist_pos h0, hdist_le, (hbest.attained h0).ge, fun off h1 h2 => Nat.not_le.2 (hbest.nearest off h1 h2)⟩, hlit, hnone⟩

/-- The length of the best match is the length of the token made of it. -/
theorem search_len_eq {text : List Sym} (hlen : text.length < 2 ^ 32) (w : Nat) {p : Nat} (hp : p < text.length) :
    (search text w p).len = (mkToken text p (search text w p)).len.toNat := by
  have hmax := (search_bestOf text w p).len_le hp.le
  obtain ⟨-, hmatch, -⟩ := mkToken_fields text p (search text w p)
  rw [hmatch, wd_toNat _ (by omega)]

end Sys2Proof.Machine
end

section
/-! SUPPORT. The greedy encoding of a text (42_lz77.md R182 to R187): token by token, it exists, it is the only one, and the main loop of `LZ_ENC` produces
it as far as `TOK` has room. -/

namespace Sys2Proof.Machine

/-- A token sequence is the greedy encoding of a text from position `p` on, token by token. -/
def greedyFrom (w : Nat) (text : List Sym) : Nat → List Token → Prop
  | p, [] => p = text.length
  | p, t :: ts => greedyAt w text p t ∧ greedyFrom w text (p + t.span) ts

theorem greedyFrom_iff {w : Nat} {text : List Sym} {ts : List Token} : ∀ {p : Nat}, greedyFrom w text p ts ↔
    p + tokSpan ts = text.length ∧ ∀ (j : Nat) (tk : Token), ts[j]? = some tk → greedyAt w text (p + tokSpan (ts.take j)) tk := by
  induction ts with
  | nil => simp [greedyFrom]
  | cons t ts ih =>
    intro p
    rw [greedyFrom, ih, tokSpan_cons, Nat.add_assoc]
    constructor
    · rintro ⟨ht, hspan, hts⟩
      refine ⟨hspan, fun j tk hj => ?_⟩
      cases j with
      | zero => exact Option.some.inj hj ▸ ht
      | succ j =>
        rw [List.take_succ_cons, tokSpan_cons, ← Nat.add_assoc]
        exact hts j tk hj
    · rintro ⟨hspan, h⟩
      refine ⟨h 0 t rfl, hspan, fun j tk hj => ?_⟩
      have htk := h (j + 1) tk hj
      rwa [List.take_succ_cons, tokSpan_cons, ← Nat.add_assoc] at htk

theorem greedyTokens_iff {w : Nat} {text : List Sym} {ts : List Token} : greedyTokens w text ts ↔ greedyFrom w text 0 ts := by
  rw [greedyFrom_iff, greedyTokens, Nat.zero_add]
  simp only [Nat.zero_add]

theorem greedyAt.lt {w p : Nat} {text : List Sym} {t : Token} (h : greedyAt w text p t) : p < text.length := by
  obtain ⟨hp, -⟩ := h
  exact hp

/-- The match owed at a position stays inside the text. -/
theorem greedyAt.match_le {w p : Nat} {text : List Sym} {t : Token} (h : greedyAt w text p t) : p + t.len.toNat ≤ text.length := by
  obtain ⟨hp, -, -, hmatch, -⟩ := h
  by_cases h0 : t.len = 0#32
  · rw [h0, BitVec.toNat_zero]
    exact hp.le
  · obtain ⟨-, -, ⟨hle, -⟩, -⟩ := hmatch h0
    exact hle

/-- The literal owed at a position is absent exactly where the match reaches the end of the text (R186). -/
theorem greedyAt.hasNext_iff {w p : Nat} {text : List Sym} {t : Token} (h : greedyAt w text p t) :
    t.hasNext = true ↔ p + t.len.toNat < text.length := by
  obtain ⟨-, -, -, -, hlit, -⟩ := h
  cases hb : t.hasNext with
  | true =>
    rw [hb, if_pos rfl] at hlit
    obtain ⟨hlt, -⟩ := List.getElem?_eq_some_iff.1 hlit
    exact ⟨fun _ => hlt, fun _ => rfl⟩
  | false =>
    rw [hb, if_neg Bool.false_ne_true] at hlit
    exact ⟨nofun, fun hlt => absurd (List.getElem?_eq_none_iff.1 hlit) (Nat.not_le.2 hlt)⟩

/-- The position after an owed token is past its literal, or at the end of the text. -/
theorem greedyAt.next_eq {w p : Nat} {text : List Sym} {t : Token} (h : greedyAt w text p t) :
    p + t.span = min (p + t.len.toNat + 1) text.length := by
  have hle := h.match_le
  rw [Token.span]
  by_cases hlt : p + t.len.toNat < text.length
  · rw [h.hasNext_iff.2 hlt, Bool.toNat_true, Nat.min_eq_left hlt]
    rfl
  · rw [Bool.eq_false_iff.2 (mt h.hasNext_iff.1 hlt), Bool.toNat_false, Nat.min_eq_right (by omega), Nat.add_zero]
    omega

theorem greedyAt.span_pos {w p : Nat} {text : List Sym} {t : Token} (h : greedyAt w text p t) : 0 < t.span := by
  have hnext := h.next_eq
  have hp := h.lt
  omega

/-- Of two tokens owed at one position neither has the longer match. -/
theorem greedyAt.len_le {w p : Nat} {text : List Sym} {t u : Token} (ht : greedyAt w text p t) (hu : greedyAt w text p u) :
    t.len.toNat ≤ u.len.toNat := by
  obtain ⟨-, -, -, hmatch, -⟩ := ht
  obtain ⟨-, hlongest, -⟩ := hu
  by_cases h0 : t.len = 0#32
  · rw [h0]; exact Nat.zero_le _
  · obtain ⟨h1, h2, hm, -⟩ := hmatch h0
    exact hlongest _ _ h1 h2 hm

/-- Of two tokens owed at one position with a match neither has the larger distance. -/
theorem greedyAt.dist_le {w p : Nat} {text : List Sym} {t u : Token} (ht : greedyAt w text p t) (hu : greedyAt w text p u)
    (hlen : t.len = u.len) (h0 : t.len ≠ 0#32) : t.dist.toNat ≤ u.dist.toNat := by
  obtain ⟨-, -, -, hmatch, -⟩ := ht
  obtain ⟨-, -, -, hmatch', -⟩ := hu
  obtain ⟨-, -, -, hnearest⟩ := hmatch h0
  obtain ⟨h1, -, hm, -⟩ := hmatch' (hlen ▸ h0)
  exact Nat.le_of_not_lt fun hlt => hnearest _ h1 hlt (hlen ▸ hm)

/-- What `LZ_ENC` owes at a position is one token. -/
theorem greedyAt.unique {w p : Nat} {text : List Sym} {t u : Token} (ht : greedyAt w text p t) (hu : greedyAt w text p u) : t = u := by
  have hlen : t.len = u.len := BitVec.eq_of_toNat_eq (Nat.le_antisymm (ht.len_le hu) (hu.len_le ht))
  have hdist : t.dist = u.dist := by
    by_cases h0 : t.len = 0#32
    · obtain ⟨-, -, hzero, -⟩ := ht
      obtain ⟨-, -, hzero', -⟩ := hu
      rw [hzero h0, hzero' (hlen ▸ h0)]
    · exact BitVec.eq_of_toNat_eq (Nat.le_antisymm (ht.dist_le hu hlen h0) (hu.dist_le ht hlen.symm (hlen ▸ h0)))
  have hnext : t.hasNext = u.hasNext := by
    rw [Bool.eq_iff_iff, ht.hasNext_iff, hu.hasNext_iff, hlen]
  have hsym : t.next = u.next := by
    obtain ⟨-, -, -, -, hlit, hnone⟩ := ht
    obtain ⟨-, -, -, -, hlit', hnone'⟩ := hu
    cases hb : t.hasNext with
    | false => rw [hnone hb, hnone' (hnext ▸ hb)]
    | true =>
      rw [if_pos hb] at hlit
      rw [if_pos (hnext ▸ hb), ← hlen, hlit] at hlit'
      exact Option.some.inj hlit'
  obtain ⟨_, _, _, _⟩ := t
  obtain ⟨_, _, _, _⟩ := u
  simp_all

theorem greedyFrom.le {w p : Nat} {text : List Sym} {ts : List Token} (h : greedyFrom w text p ts) : p + ts.length ≤ text.length := by
  induction ts generalizing p with
  | nil => exact Nat.le_of_eq h
  | cons t ts ih =>
    obtain ⟨ht, hts⟩ := h
    have hpos := ht.span_pos
    have hle := ih hts
    rw [List.length_cons]
    omega

/-- Every text that a 32-bit position reaches has a greedy encoding. -/
theorem exists_greedyFrom {text : List Sym} (hlen : text.length < 2 ^ 32) (w : Nat) {p : Nat} (hp : p ≤ text.length) :
    ∃ ts, greedyFrom w text p ts := by
  induction hn : text.length - p using Nat.strongRecOn generalizing p with
  | ind n ih =>
    rcases hp.eq_or_lt with rfl | hlt
    · exact ⟨[], rfl⟩
    · have ht := mkToken_greedyAt hlen w hlt
      have hpos := ht.span_pos
      have hnext := ht.next_eq
      have hle : p + (mkToken text p (search text w p)).span ≤ text.length := hnext ▸ Nat.min_le_right ..
      obtain ⟨ts, hts⟩ := ih _ (by omega) hle rfl
      exact ⟨_ :: ts, ht, hts⟩

/-- Past a token the main loop goes on where the token ends: a longer step would be past the end of the text. -/
theorem lzLoop_next {tMax w f p : Nat} {text : List Sym} {t : Token} (ht : greedyAt w text p t) (out : List Token) :
    lzLoop tMax w text f (p + t.len.toNat + 1) out = lzLoop tMax w text f (p + t.span) out := by
  have hnext := ht.next_eq
  by_cases hlt : p + t.len.toNat + 1 ≤ text.length
  · rw [hnext, Nat.min_eq_left hlt]
  · rw [lzLoop_of_length_le (by omega), lzLoop_of_length_le (by omega)]

/-- The main loop produces the greedy encoding, or stops at the first token without room (R187, R188). -/
theorem lzLoop_of_greedyFrom {tMax w : Nat} {text : List Sym} (hlen : text.length < 2 ^ 32) {ts : List Token} : ∀ {f p : Nat} {out : List Token},
    greedyFrom w text p ts → text.length ≤ f + p → out.length ≤ tMax →
    lzLoop tMax w text f p out = if out.length + ts.length ≤ tMax then .ok (out ++ ts)
      else .error ⟨.capacityExceeded, p + tokSpan (ts.take (tMax - out.length))⟩ := by
  induction ts with
  | nil =>
    intro f p out hts _ hout
    rw [lzLoop_of_length_le (Nat.le_of_eq hts.symm), List.append_nil]
    exact (if_pos hout).symm
  | cons t ts ih =>
    intro f p out h hf hout
    obtain ⟨ht, hts⟩ := h
    have hp := ht.lt
    obtain ⟨f, rfl⟩ : ∃ g, f = g + 1 := Nat.exists_eq_add_of_le' (by omega)
    obtain rfl := (mkToken_greedyAt hlen w hp).unique ht
    rw [lzLoop, if_pos hp, search_len_eq hlen w hp, lzLoop_next ht]
    have hpos := ht.span_pos
    have hlen' : (out ++ [mkToken text p (search text w p)]).length = out.length + 1 := List.length_append
    rw [List.length_cons]
    split_ifs with hfull hroom hroom
    · omega
    · rw [hfull, Nat.sub_self]
      rfl
    · rw [ih hts (by omega) (by rw [hlen']; omega), hlen', if_pos (by omega), List.append_assoc, List.singleton_append]
    · rw [ih hts (by omega) (by rw [hlen']; omega), hlen', if_neg (by omega)]
      obtain ⟨d, hd⟩ : ∃ d, tMax - out.length = d + 1 := Nat.exists_eq_add_of_le' (by omega)
      rw [hd, List.take_succ_cons, tokSpan_cons, ← Nat.add_assoc, Nat.sub_add_eq, hd, Nat.add_sub_cancel]

end Sys2Proof.Machine
end

section
/-! SUPPORT. `LZ_ENC` (42_lz77.md R180 to R191): how it ends is decided by the greedy encoding of its text. -/

namespace Sys2Proof.Machine

theorem textIn_lt (s : State) : (s.textIn s.nIn).length < 2 ^ 32 := (textIn_length s s.nIn).trans_lt (nIn_lt s)

/-- Past its prechecks `LZ_ENC` delivers the greedy encoding, or stops at the first token without room. -/
theorem result_lzEnc {s : State} (hw : s.wIn ≠ 0) (hN : s.nIn ≤ s.cfg.nMax) {ts : List Token} (hts : greedyFrom s.wIn (s.textIn s.nIn) 0 ts) :
    s.result .lzEnc = if ts.length ≤ s.cfg.tMax then .ok (.toks ts) else .error ⟨.capacityExceeded, tokSpan (ts.take s.cfg.tMax)⟩ := by
  rw [State.result, if_neg hw, if_neg (Nat.not_lt.2 hN), lzEncode, lzLoop_of_greedyFrom (textIn_lt s) hts (Nat.le_refl _) (Nat.zero_le _)]
  simp only [List.length_nil, Nat.zero_add, List.nil_append, Nat.sub_zero]
  split_ifs <;> rfl

/-- A command that delivers tokens ends well, with them in `TOK`. -/
theorem exec_toks {c : Instr} {s : State} {ts : List Token} (h : s.result c = .ok (.toks ts)) :
    ∃ t : State, exec c s = .next t ∧ EndsWell c s t ts.length 0 ∧ tokHolds t.mem ts := by
  obtain ⟨hfit, hsp⟩ := result_fits h
  refine ⟨s.finish c (.ok (.toks ts)), ?_, finish_ok_ends hsp s, storeToks_holds s ts hfit⟩
  rw [exec_eq_finish, h]

theorem exists_greedy_textIn (s : State) : ∃ ts, greedyFrom s.wIn (s.textIn s.nIn) 0 ts :=
  exists_greedyFrom (textIn_lt s) s.wIn (Nat.zero_le _)

theorem greedyFrom.length_le_nIn {s : State} {w : Nat} {ts : List Token} (h : greedyFrom w (s.textIn s.nIn) 0 ts) : ts.length ≤ s.nIn := by
  have hle := h.le
  rwa [Nat.zero_add, textIn_length] at hle

/-- What a successful `LZ_ENC` leaves: `OUT_LEN` counts the tokens of the greedy encoding, which stand in `TOK`. -/
structure LzEncLeaves (s t : State) (ts : List Token) : Prop where
  nIn_le : s.nIn ≤ s.cfg.nMax
  greedy : greedyFrom s.wIn (s.textIn s.nIn) 0 ts
  toks_le : ts.length ≤ s.cfg.tMax
  cfg_eq : t.cfg = s.cfg
  outLen_eq : t.outLen = wd ts.length
  toks : tokHolds t.mem ts

theorem exists_lzEncLeaves {s t : State} (h : exec .lzEnc s = .next t) (herr : t.err = false) : ∃ ts, LzEncLeaves s t ts := by
  rw [exec_eq_finish] at h
  cases h
  cases hr : s.result .lzEnc with
  | error r =>
    rw [hr] at herr
    cases herr
  | ok o =>
    obtain ⟨hw, hN⟩ : s.wIn ≠ 0 ∧ s.nIn ≤ s.cfg.nMax := by
      rw [State.result] at hr
      split_ifs at hr with hw hN
      exact ⟨hw, Nat.le_of_not_lt hN⟩
    obtain ⟨ts, hts⟩ := exists_greedy_textIn s
    rw [result_lzEnc hw hN hts] at hr
    split_ifs at hr with hroom
    cases hr
    exact ⟨ts, { nIn_le := hN, greedy := hts, toks_le := hroom, cfg_eq := rfl, outLen_eq := rfl, toks := storeToks_holds s ts hroom }⟩

/-- Settles O38: the search at each position finds the best match there, and the main loop covers the text with the tokens made of them. -/
theorem lzEncIsGreedyAndNearest : Obligations.LzEncIsGreedyAndNearest := by
  intro s t _ _ hexec herr
  obtain ⟨ts, h⟩ := exists_lzEncLeaves hexec herr
  exact ⟨ts, h.toks, h.outLen_eq, h.greedy.length_le_nIn, greedyTokens_iff.2 h.greedy⟩

/-- The distance of an owed token stays inside the window and inside the text before it (R183). -/
theorem greedyAt.dist_le_min {w p : Nat} {text : List Sym} {t : Token} (h : greedyAt w text p t) : t.dist.toNat ≤ min w p := by
  obtain ⟨-, -, hzero, hmatch, -⟩ := h
  by_cases h0 : t.len = 0#32
  · rw [hzero h0]
    exact Nat.zero_le _
  · obtain ⟨-, hle, -⟩ := hmatch h0
    exact hle

/-- Only the last token of an encoding can lack its literal: such a token reaches the end of the text (R186). -/
theorem greedyFrom.last_of_no_literal {w p : Nat} {text : List Sym} {ts : List Token} (h : greedyFrom w text p ts) {j : Nat} {tk : Token}
    (hj : ts[j]? = some tk) (hnone : tk.hasNext = false) : j + 1 = ts.length := by
  induction ts generalizing p j with
  | nil => cases hj
  | cons t ts ih =>
    obtain ⟨ht, hts⟩ := h
    cases j with
    | succ j => exact congrArg (· + 1) (ih hts hj)
    | zero =>
      obtain rfl : t = tk := Option.some.inj hj
      have hend := ht.hasNext_iff.not.1 (Bool.eq_false_iff.1 hnone)
      have hle := hts.le
      have hmatch := ht.match_le
      rw [ht.next_eq] at hle
      rw [List.length_cons]
      omega

/-- Settles O37: an encoding has at most one token per symbol, so it fits. -/
theorem lzEncPartitionsTheInput : Obligations.LzEncPartitionsTheInput := by
  intro s _ hw hN hT
  obtain ⟨ts, hts⟩ := exists_greedy_textIn s
  have hlen := hts.length_le_nIn
  obtain ⟨t, hexec, hends, hholds⟩ := exec_toks ((result_lzEnc hw hN hts).trans (if_pos (hlen.trans hT)))
  obtain ⟨hspan, hgreedy⟩ := greedyTokens_iff.2 hts
  refine ⟨t, ts, hexec, hends, hholds, hlen, hspan.trans (textIn_length ..), fun j tk hj => ?_⟩
  have htk := hgreedy j tk hj
  obtain ⟨hdw, hdp⟩ := Nat.le_min.1 htk.dist_le_min
  obtain ⟨-, -, hzero, hmatch, -, hnone⟩ := htk
  refine ⟨hzero, fun h0 => ?_, hdw, hdp, fun hb => ⟨hts.last_of_no_literal hj hb, hnone hb⟩⟩
  obtain ⟨hpos, -⟩ := hmatch h0
  exact hpos

/-- The first token of a text has nothing to copy (R183, R186). -/
theorem greedyAt_start (w : Nat) (x : Sym) (text : List Sym) :
    greedyAt w (x :: text) 0 { dist := 0#32, len := 0#32, hasNext := true, next := x } :=
  ⟨Nat.succ_pos _, fun off m h1 h2 => absurd h2 (by rw [Nat.min_zero]; omega), fun _ => rfl, fun h => absurd rfl h, rfl, nofun⟩

/-- After its first symbol a run of one symbol copies itself up to its end, from the symbol before (R184). -/
theorem greedyAt_run {w n : Nat} (hw : w ≠ 0) (h2 : 2 ≤ n) (hn : n < 2 ^ 32) (x : Sym) :
    greedyAt w (List.replicate n x) 1 { dist := 1#32, len := wd (n - 1), hasNext := false, next := 0#21 } := by
  have hlen : (wd (n - 1)).toNat = n - 1 := wd_toNat _ (by omega)
  have hcopy : matchesFor (List.replicate n x) 1 1 (n - 1) := by
    refine ⟨by rw [List.length_replicate]; omega, fun q hq => ?_⟩
    rw [List.getElem?_replicate_of_lt (by omega), List.getElem?_replicate_of_lt (by omega)]
  rw [greedyAt, hlen, List.length_replicate]
  refine ⟨h2, fun off m _ _ hm => ?_, fun h0 => ?_, fun _ => ⟨Nat.le_refl 1, ?_, hcopy, fun off h1 hlt => absurd hlt (Nat.not_lt.2 h1)⟩, ?_, fun _ => rfl⟩
  · obtain ⟨hle, -⟩ := hm
    rw [List.length_replicate] at hle
    omega
  · exact absurd ((wd_eq_zero_iff _ (by omega)).1 h0) (by omega)
  · exact Nat.le_min.2 ⟨Nat.one_le_iff_ne_zero.2 hw, Nat.le_refl 1⟩
  · rw [List.getElem?_eq_none (by rw [List.length_replicate]; omega)]
    rfl

/-- The greedy encoding of a run of one symbol: the symbol, and then a copy of it up to the end. -/
theorem greedyFrom_run {w n : Nat} (hw : w ≠ 0) (h2 : 2 ≤ n) (hn : n < 2 ^ 32) (x : Sym) :
    greedyFrom w (List.replicate n x) 0 [{ dist := 0#32, len := 0#32, hasNext := true, next := x },
      { dist := 1#32, len := wd (n - 1), hasNext := false, next := 0#21 }] := by
  refine ⟨?_, greedyAt_run hw h2 hn x, ?_⟩
  · obtain ⟨m, rfl⟩ := Nat.exists_eq_add_of_le' h2
    exact greedyAt_start w x _
  · show 1 + ((wd (n - 1)).toNat + 0) = (List.replicate n x).length
    rw [wd_toNat _ (by omega), List.length_replicate]
    omega

/-- Settles O39: there is one greedy encoding, and that of a run has two tokens. -/
theorem lzEncOfARun : Obligations.LzEncOfARun := by
  intro s x hw hN h2 hT htext
  have hts := greedyFrom_run hw h2 (nIn_lt s) x
  rw [← htext] at hts
  exact exec_toks ((result_lzEnc hw hN hts).trans (if_pos hT))

/-- In a text of different symbols no two places agree, so an owed token is one literal. -/
theorem greedyAt.span_of_nodup {w p : Nat} {text : List Sym} {t : Token} (h : greedyAt w text p t) (hnodup : text.Nodup) : t.span = 1 := by
  have hlen : t.len = 0#32 := by
    by_contra h0
    have hdist := h.dist_le_min
    obtain ⟨hp, -, -, hmatch, -⟩ := h
    obtain ⟨hpos, -, ⟨-, hagree⟩, -⟩ := hmatch h0
    have hsame := hagree 0 (Nat.pos_of_ne_zero fun h => h0 (BitVec.eq_of_toNat_eq h))
    have hplace := (List.getElem?_inj hp hnodup).1 hsame.symm
    omega
  have hnext := h.hasNext_iff.2 (by rw [hlen]; exact h.lt)
  rw [Token.span, hlen, hnext]
  rfl

theorem tokSpan_of_span_one {ts : List Token} (h : ∀ t ∈ ts, t.span = 1) : tokSpan ts = ts.length := by
  induction ts with
  | nil => rfl
  | cons t ts ih =>
    rw [tokSpan_cons, h t List.mem_cons_self, ih fun u hu => h u (List.mem_cons_of_mem _ hu), List.length_cons, Nat.add_comm]

/-- A text of different symbols is encoded one symbol per token. -/
theorem greedyFrom.spans_of_nodup {w : Nat} {text : List Sym} (hnodup : text.Nodup) {ts : List Token} : ∀ {p : Nat}, greedyFrom w text p ts →
    ∀ t ∈ ts, t.span = 1 := by
  induction ts with
  | nil => exact fun _ => nofun
  | cons t ts ih =>
    rintro p ⟨ht, hts⟩
    exact List.forall_mem_cons.2 ⟨ht.span_of_nodup hnodup, ih hts⟩

/-- Settles O40: the greedy encoding is what the main loop produces as far as there is room. -/
theorem lzEncCapacity : Obligations.LzEncCapacity := by
  intro s hw hN
  obtain ⟨ts, hts⟩ := exists_greedy_textIn s
  have hres := result_lzEnc hw hN hts
  have hgreedy := greedyTokens_iff.2 hts
  have hspans : (s.textIn s.nIn).Nodup → ts.length = s.nIn ∧ ∀ j, j ≤ s.nIn → tokSpan (ts.take j) = j := by
    intro hnodup
    have hone := hts.spans_of_nodup hnodup
    obtain ⟨hspan, -⟩ := hgreedy
    have hlen : ts.length = s.nIn := by
      rw [← tokSpan_of_span_one hone, hspan, textIn_length]
    refine ⟨hlen, fun j hj => ?_⟩
    rw [tokSpan_of_span_one fun t ht => hone t (List.mem_of_mem_take ht), List.length_take_of_le (hlen ▸ hj)]
  by_cases hroom : ts.length ≤ s.cfg.tMax
  · obtain ⟨t, hexec, hwell⟩ := exec_toks (hres.trans (if_pos hroom))
    exact ⟨t, ts, hexec, hgreedy, fun _ => hwell, fun h => absurd hroom (Nat.not_le.2 h), hspans⟩
  · obtain ⟨t, hexec, herr⟩ := exec_error (hres.trans (if_neg hroom))
    exact ⟨t, ts, hexec, hgreedy, fun h => absurd h hroom, fun _ => herr, hspans⟩

end Sys2Proof.Machine
end

section
/-! SUPPORT. `LZ_DEC` (42_lz77.md R195 to R202): what a token appends, and the loop over the tokens up to the first one whose text does not fit. -/

namespace Sys2Proof.Machine

/-- A text has at `n` what a token appends there: the copy, read from the text itself, and the literal (R197 to R200). -/
def tokenTextAt (t : Token) (n : Nat) (xs : List Sym) : Prop :=
  (∀ m, m < copied t n → xs[n + m]? = xs[copyStart t.dist.toNat n + m]?) ∧ (t.hasNext = true → xs[n + copied t n]? = some t.next)

/-- How many symbols there are after one token, starting from `n`. -/
def tokenEnd (t : Token) (n : Nat) : Nat := n + copied t n + t.hasNext.toNat

theorem lzLength_cons (t : Token) (ts : List Token) (n : Nat) : lzLength (t :: ts) n = lzLength ts (tokenEnd t n) := rfl

theorem lzLength_append (ts us : List Token) (n : Nat) : lzLength (ts ++ us) n = lzLength us (lzLength ts n) := by
  induction ts generalizing n with
  | nil => rfl
  | cons t ts ih => exact ih _

theorem le_tokenEnd (t : Token) (n : Nat) : n ≤ tokenEnd t n := by
  unfold tokenEnd
  omega

theorem le_lzLength (ts : List Token) (n : Nat) : n ≤ lzLength ts n := by
  induction ts generalizing n with
  | nil => exact Nat.le_refl n
  | cons t ts ih => exact (le_tokenEnd t n).trans (ih _)

/-- A longer text agrees with its beginning. -/
theorem getElem?_of_prefix {xs ys : List Sym} (h : xs <+: ys) {i : Nat} (hi : i < xs.length) : ys[i]? = xs[i]? := by
  rw [List.getElem?_eq_getElem hi]
  exact List.prefix_iff_getElem?.1 h i hi

/-- A copy with room for it: each symbol is read from what stands in the text by then (R197). -/
theorem copyLoop_ok {nMax start l : Nat} : ∀ {m : Nat} {out : List Sym}, out.length + l ≤ nMax → start + m < out.length →
    ∃ out', copyLoop nMax start l m out = some out' ∧ out <+: out' ∧ out'.length = out.length + l ∧
      ∀ q, q < l → out'[out.length + q]? = out'[start + m + q]? := by
  induction l with
  | zero => exact fun {_ out} _ _ => ⟨out, rfl, List.prefix_refl out, rfl, nofun⟩
  | succ l ih =>
    intro m out hroom hstart
    obtain ⟨out', hcopy, hpre, hlen, hsame⟩ := ih (m := m + 1) (out := out ++ [(out[start + m]?).getD 0#21])
      (by rw [List.length_append, List.length_singleton]; omega) (by rw [List.length_append, List.length_singleton]; omega)
    rw [List.length_append, List.length_singleton] at hlen
    refine ⟨out', ?_, (List.prefix_append ..).trans hpre, by omega, fun q hq => ?_⟩
    · rw [copyLoop, if_neg (by omega), hcopy]
    · cases q with
      | zero =>
        have hfirst := getElem?_of_prefix hpre (i := out.length) (by simp)
        have hread := getElem?_of_prefix ((List.prefix_append ..).trans hpre) hstart
        rw [Nat.add_zero, Nat.add_zero, hfirst, hread, List.getElem?_concat_length, List.getElem?_eq_getElem hstart, Option.getD_some]
      | succ q =>
        have hnext := hsame q (by omega)
        rw [List.length_append, List.length_singleton] at hnext
        rw [show out.length + (q + 1) = out.length + 1 + q by omega, hnext, show start + m + (q + 1) = start + (m + 1) + q by omega]

theorem copyLoop_none {nMax start l : Nat} : ∀ {m : Nat} {out : List Sym}, out.length ≤ nMax → nMax < out.length + l →
    copyLoop nMax start l m out = none := by
  induction l with
  | zero => exact fun hout hfull => absurd hfull (Nat.not_lt.2 hout)
  | succ l ih =>
    intro m out hout hfull
    rw [copyLoop]
    split_ifs with hlen
    · rfl
    · exact ih (by rw [List.length_append, List.length_singleton]; omega) (by rw [List.length_append, List.length_singleton]; omega)

/-- The guard of a copy (R199). -/
theorem copyTok_eq (nMax : Nat) (t : Token) (out : List Sym) :
    copyTok nMax t out = if copied t out.length = 0 then some out else copyLoop nMax (copyStart t.dist.toNat out.length) (copied t out.length) 0 out := by
  unfold copyTok copied
  by_cases hguard : t.dist = 0#32 ∨ out.length = 0
  · rw [if_pos hguard, if_pos rfl, if_neg (by tauto)]
  · rw [if_neg hguard, if_pos (by tauto)]
    split_ifs with hlen
    · rw [hlen]
      rfl
    · rfl

/-- A token that copies has a distance, and something before it (R199). -/
theorem copyStart_lt_of_copied {t : Token} {n : Nat} (h : copied t n ≠ 0) : copyStart t.dist.toNat n < n := by
  unfold copied at h
  split_ifs at h with hguard
  · exact absurd rfl h
  · obtain ⟨hd, hn⟩ := not_or.1 hguard
    exact copyStart_lt (fun h0 => hd (BitVec.eq_of_toNat_eq h0)) hn

/-- A token's copy with room for it. -/
theorem copyTok_ok {nMax : Nat} {t : Token} {out : List Sym} (hroom : out.length + copied t out.length ≤ nMax) :
    ∃ out', copyTok nMax t out = some out' ∧ out <+: out' ∧ out'.length = out.length + copied t out.length ∧
      ∀ q, q < copied t out.length → out'[out.length + q]? = out'[copyStart t.dist.toNat out.length + q]? := by
  rw [copyTok_eq]
  split_ifs with h0
  · exact ⟨out, rfl, List.prefix_refl out, by omega, fun q hq => absurd hq (by omega)⟩
  · exact copyLoop_ok hroom (copyStart_lt_of_copied h0)

theorem copyTok_none {nMax : Nat} {t : Token} {out : List Sym} (hout : out.length ≤ nMax) (hfull : nMax < out.length + copied t out.length) :
    copyTok nMax t out = none := by
  rw [copyTok_eq, if_neg (by omega), copyLoop_none hout hfull]

/-- A token's literal with room for it (R200). -/
theorem litTok_ok {nMax : Nat} {t : Token} {out : List Sym} (hroom : out.length + t.hasNext.toNat ≤ nMax) :
    ∃ out', litTok nMax t out = some out' ∧ out <+: out' ∧ out'.length = out.length + t.hasNext.toNat ∧
      (t.hasNext = true → out'[out.length]? = some t.next) := by
  unfold litTok
  cases hb : t.hasNext with
  | false => exact ⟨out, rfl, List.prefix_refl out, rfl, nofun⟩
  | true =>
    rw [hb, Bool.toNat_true] at hroom
    exact ⟨out ++ [t.next], by rw [if_pos rfl, if_neg (by omega)], List.prefix_append .., by simp, fun _ => List.getElem?_concat_length⟩

theorem litTok_none {nMax : Nat} {t : Token} {out : List Sym} (hout : out.length ≤ nMax) (hfull : nMax < out.length + t.hasNext.toNat) :
    litTok nMax t out = none := by
  unfold litTok
  cases hb : t.hasNext with
  | false =>
    rw [hb, Bool.toNat_false] at hfull
    omega
  | true =>
    rw [hb, Bool.toNat_true] at hfull
    rw [if_pos rfl, if_pos (by omega)]

/-- What a token appends stays where it is when the text grows. -/
theorem tokenTextAt.mono {t : Token} {n : Nat} {xs ys : List Sym} (h : tokenTextAt t n xs) (hpre : xs <+: ys) (hlen : tokenEnd t n ≤ xs.length) :
    tokenTextAt t n ys := by
  obtain ⟨hcopy, hlit⟩ := h
  unfold tokenEnd at hlen
  refine ⟨fun m hm => ?_, fun hb => ?_⟩
  · have hstart := copyStart_lt_of_copied (t := t) (n := n) (by omega)
    rw [getElem?_of_prefix hpre (by omega), getElem?_of_prefix hpre (by omega), hcopy m hm]
  · rw [hb, Bool.toNat_true] at hlen
    rw [getElem?_of_prefix hpre (by omega), hlit hb]

/-- A token whose text fits is appended, and the loop goes on. -/
theorem lzDecLoop_token {nMax : Nat} {t : Token} {out : List Sym} (hroom : tokenEnd t out.length ≤ nMax) :
    ∃ out', out <+: out' ∧ out'.length = tokenEnd t out.length ∧ tokenTextAt t out.length out' ∧
      ∀ i ts, lzDecLoop nMax i (t :: ts) out = lzDecLoop nMax (i + 1) ts out' := by
  unfold tokenEnd at hroom ⊢
  obtain ⟨out1, hcopy, hpre1, hlen1, hsame⟩ := copyTok_ok (show out.length + copied t out.length ≤ nMax by omega)
  obtain ⟨out2, hlit, hpre2, hlen2, hnext⟩ := litTok_ok (show out1.length + t.hasNext.toNat ≤ nMax by omega)
  refine ⟨out2, hpre1.trans hpre2, by omega, ⟨fun m hm => ?_, fun hb => hlen1 ▸ hnext hb⟩, fun i ts => ?_⟩
  · have hstart := copyStart_lt_of_copied (t := t) (n := out.length) (by omega)
    rw [getElem?_of_prefix hpre2 (by omega), getElem?_of_prefix hpre2 (by omega), hsame m hm]
  · rw [lzDecLoop, hcopy]
    simp only [hlit]

/-- A token whose text does not fit ends the loop (R201). -/
theorem lzDecLoop_full {nMax : Nat} {t : Token} {out : List Sym} (hout : out.length ≤ nMax) (hfull : nMax < tokenEnd t out.length)
    (i : Nat) (ts : List Token) : lzDecLoop nMax i (t :: ts) out = .error ⟨.capacityExceeded, i⟩ := by
  unfold tokenEnd at hfull
  rw [lzDecLoop]
  by_cases hroom : out.length + copied t out.length ≤ nMax
  · obtain ⟨out1, hcopy, -, hlen1, -⟩ := copyTok_ok hroom
    simp only [hcopy, litTok_none (show out1.length ≤ nMax by omega) (show nMax < out1.length + t.hasNext.toNat by omega)]
  · rw [copyTok_none hout (Nat.lt_of_not_le hroom)]

/-- A text has, from `n` on, what each token of a sequence appends there. -/
def tokensTextAt (ts : List Token) (n : Nat) (xs : List Sym) : Prop :=
  ∀ (j : Nat) (tk : Token), ts[j]? = some tk → tokenTextAt tk (lzLength (ts.take j) n) xs

theorem tokensTextAt_nil (n : Nat) (xs : List Sym) : tokensTextAt [] n xs := fun _ _ h => nomatch h

theorem tokensTextAt_cons {t : Token} {ts : List Token} {n : Nat} {xs : List Sym} :
    tokensTextAt (t :: ts) n xs ↔ tokenTextAt t n xs ∧ tokensTextAt ts (tokenEnd t n) xs := by
  refine ⟨fun h => ⟨h 0 t rfl, fun j tk hj => h (j + 1) tk hj⟩, fun h j tk hj => ?_⟩
  obtain ⟨ht, hts⟩ := h
  cases j with
  | zero => exact Option.some.inj hj ▸ ht
  | succ j => exact hts j tk hj

/-- Tokens whose text fits are appended one after the other, and the loop goes on with the rest. -/
theorem lzDecLoop_append {nMax : Nat} {ts : List Token} : ∀ {out : List Sym}, lzLength ts out.length ≤ nMax →
    ∃ out', out <+: out' ∧ out'.length = lzLength ts out.length ∧ tokensTextAt ts out.length out' ∧
      ∀ i us, lzDecLoop nMax i (ts ++ us) out = lzDecLoop nMax (i + ts.length) us out' := by
  induction ts with
  | nil => exact fun {out} _ => ⟨out, List.prefix_refl out, rfl, tokensTextAt_nil _ _, fun _ _ => rfl⟩
  | cons t ts ih =>
    intro out hroom
    rw [lzLength_cons] at hroom ⊢
    obtain ⟨out1, hpre1, hlen1, ht, hloop1⟩ := lzDecLoop_token ((le_lzLength ts _).trans hroom)
    rw [← hlen1] at hroom ⊢
    obtain ⟨out2, hpre2, hlen2, hts, hloop2⟩ := ih hroom
    refine ⟨out2, hpre1.trans hpre2, hlen2, tokensTextAt_cons.2 ⟨ht.mono hpre2 hlen1.ge, hlen1 ▸ hts⟩, fun i us => ?_⟩
    rw [List.cons_append, hloop1, hloop2, List.length_cons, Nat.add_assoc, Nat.add_comm 1]

/-- `LZ_DEC` of tokens whose text fits delivers a text made of what each of them appends. -/
theorem result_lzDec {s : State} (hN : s.nIn ≤ s.cfg.tMax) (hroom : lzLength (s.toksIn s.nIn) 0 ≤ s.cfg.nMax) :
    ∃ xs, s.result .lzDec = .ok (.text xs) ∧ xs.length = lzLength (s.toksIn s.nIn) 0 ∧ tokensTextAt (s.toksIn s.nIn) 0 xs := by
  obtain ⟨xs, -, hlen, hxs, hloop⟩ := lzDecLoop_append (out := []) hroom
  have hok := hloop 0 []
  rw [List.append_nil] at hok
  refine ⟨xs, ?_, hlen, hxs⟩
  rw [State.result, if_neg (Nat.not_lt.2 hN), lzDecode, hok]
  rfl

/-- A command that delivers a text ends well, with it in `TEXT`. -/
theorem exec_text {c : Instr} {s : State} {xs : List Sym} (h : s.result c = .ok (.text xs)) :
    ∃ t : State, exec c s = .next t ∧ EndsWell c s t xs.length 0 ∧ bufHolds t.mem.text xs := by
  obtain ⟨hfit, hsp⟩ := result_fits h
  refine ⟨s.finish c (.ok (.text xs)), ?_, finish_ok_ends hsp s, storeText_holds s xs hfit⟩
  rw [exec_eq_finish, h]

/-- Settles O41: the loop appends what each token stands for. -/
theorem lzDecResult : Obligations.LzDecResult := by
  intro s hN hroom
  obtain ⟨xs, hres, hlen, hxs⟩ := result_lzDec hN hroom
  obtain ⟨t, hexec, hends, hholds⟩ := exec_text hres
  exact ⟨t, xs, hexec, hlen ▸ hends, hlen, hholds, fun j tk hj => ⟨_, rfl, hxs j tk hj⟩⟩

theorem toksIn_length (s : State) (n : Nat) : (s.toksIn n).length = n := by simp [State.toksIn]

/-- Settles O42: the loop passes the tokens before `j`, and stops in token `j`. -/
theorem lzDecCapacity : Obligations.LzDecCapacity := by
  intro s j hN hj hfit hfull
  have hj' : j < (s.toksIn s.nIn).length := by rwa [toksIn_length]
  obtain ⟨out, -, hlen, -, hloop⟩ := lzDecLoop_append (out := []) hfit
  rw [List.length_nil] at hlen
  rw [List.take_succ_eq_append_getElem hj', lzLength_append, ← hlen] at hfull
  have herr := hloop 0 ((s.toksIn s.nIn).drop j)
  rw [List.take_append_drop, List.drop_eq_getElem_cons hj', lzDecLoop_full (hlen.trans_le hfit) hfull, List.length_take_of_le hj'.le,
    Nat.zero_add] at herr
  refine exec_error (r := ⟨.capacityExceeded, j⟩) ?_
  rw [State.result, if_neg (Nat.not_lt.2 hN), lzDecode, herr]
  rfl

end Sys2Proof.Machine
end

section
/-! SUPPORT. `LZ_DEC` after `LZ_ENC` (42_lz77.md R191): the text has what each of its greedy tokens appends, and tokens determine their text. -/

namespace Sys2Proof.Machine

/-- Two texts that have what a token appends, and agree before it, agree up to its end. -/
theorem tokenTextAt.agree {t : Token} {n : Nat} {xs ys : List Sym} (hx : tokenTextAt t n xs) (hy : tokenTextAt t n ys)
    (h : ∀ k, k < n → xs[k]? = ys[k]?) {k : Nat} (hk : k < tokenEnd t n) : xs[k]? = ys[k]? := by
  obtain ⟨hcopyx, hlitx⟩ := hx
  obtain ⟨hcopyy, hlity⟩ := hy
  have hcopied : ∀ m, m < copied t n → xs[n + m]? = ys[n + m]? := by
    intro m
    induction m using Nat.strongRecOn with
    | ind m ih =>
      intro hm
      have hstart := copyStart_lt_of_copied (t := t) (n := n) (by omega)
      rw [hcopyx m hm, hcopyy m hm]
      by_cases hbefore : copyStart t.dist.toNat n + m < n
      · exact h _ hbefore
      · obtain ⟨d, hd⟩ := Nat.exists_eq_add_of_le (Nat.le_of_not_lt hbefore)
        rw [hd]
        exact ih d (by omega) (by omega)
  unfold tokenEnd at hk
  rcases Nat.lt_or_ge k n with hlt | hge
  · exact h k hlt
  · obtain ⟨m, rfl⟩ := Nat.exists_eq_add_of_le hge
    by_cases hm : m < copied t n
    · exact hcopied m hm
    · cases hb : t.hasNext with
      | false =>
        rw [hb, Bool.toNat_false] at hk
        omega
      | true =>
        rw [hb, Bool.toNat_true] at hk
        obtain rfl : m = copied t n := by omega
        rw [hlitx hb, hlity hb]

/-- Tokens determine the text up to their end. -/
theorem tokensTextAt.agree {ts : List Token} {xs ys : List Sym} : ∀ {n : Nat}, tokensTextAt ts n xs → tokensTextAt ts n ys →
    (∀ k, k < n → xs[k]? = ys[k]?) → ∀ k, k < lzLength ts n → xs[k]? = ys[k]? := by
  induction ts with
  | nil => exact fun _ _ h => h
  | cons t ts ih =>
    intro n hx hy h
    obtain ⟨htx, htsx⟩ := tokensTextAt_cons.1 hx
    obtain ⟨hty, htsy⟩ := tokensTextAt_cons.1 hy
    exact ih htsx htsy fun k hk => htx.agree hty h hk

/-- An owed token is copied in full: it has a distance wherever it has a match (R183, R199). -/
theorem greedyAt.copied_eq {w p : Nat} {text : List Sym} {t : Token} (h : greedyAt w text p t) : copied t p = t.len.toNat := by
  unfold copied
  split_ifs with hguard
  · by_contra h0
    have hle := h.dist_le_min
    obtain ⟨-, -, -, hmatch, -⟩ := h
    obtain ⟨hpos, -⟩ := hmatch fun hz => h0 (by rw [hz, BitVec.toNat_zero])
    rcases hguard with hd | hp
    · rw [hd, BitVec.toNat_zero] at hpos
      omega
    · omega
  · rfl

theorem greedyAt.tokenEnd_eq {w p : Nat} {text : List Sym} {t : Token} (h : greedyAt w text p t) : tokenEnd t p = p + t.span := by
  rw [tokenEnd, h.copied_eq, Token.span, Nat.add_assoc]

/-- A text has, at the position of an owed token, what the token appends. -/
theorem tokenTextAt_of_greedyAt {w p : Nat} {text : List Sym} {t : Token} (h : greedyAt w text p t) : tokenTextAt t p text := by
  have hle := h.dist_le_min
  have hcopied := h.copied_eq
  obtain ⟨-, -, -, hmatch, hlit, -⟩ := h
  refine ⟨fun m hm => ?_, fun hb => ?_⟩
  · rw [hcopied] at hm
    obtain ⟨-, -, ⟨-, hagree⟩, -⟩ := hmatch fun h0 => by
      rw [h0] at hm
      exact Nat.not_lt_zero _ hm
    rw [copyStart, if_neg (by omega)]
    exact (hagree m hm).symm
  · rw [hcopied, hlit, if_pos hb]

/-- The greedy encoding of a text ends where the text does, and the text has what each of its tokens appends. -/
theorem tokensTextAt_of_greedyFrom {w : Nat} {text : List Sym} {ts : List Token} : ∀ {p : Nat}, greedyFrom w text p ts →
    lzLength ts p = text.length ∧ tokensTextAt ts p text := by
  induction ts with
  | nil => exact fun h => ⟨h, tokensTextAt_nil _ _⟩
  | cons t ts ih =>
    rintro p ⟨ht, hts⟩
    rw [← ht.tokenEnd_eq] at hts
    obtain ⟨hlen, htext⟩ := ih hts
    exact ⟨hlen, tokensTextAt_cons.2 ⟨tokenTextAt_of_greedyAt ht, htext⟩⟩

/-- Tokens that stand in `TOK` are what a command reads there. -/
theorem toksIn_of_holds {u : State} {ts : List Token} (h : tokHolds u.mem ts) : u.toksIn ts.length = ts := by
  obtain ⟨hdist, hlen, hlit⟩ := h
  refine List.ext_getElem (toksIn_length ..) fun i _ hi => ?_
  simp only [State.toksIn, List.getElem_map, List.getElem_range, State.tokAt, State.litAt]
  rw [hdist i (by rwa [List.length_map]), hlen i (by rwa [List.length_map]), hlit i (by rwa [List.length_map])]
  simp only [List.getElem?_map, List.getElem?_eq_getElem hi, Option.map_some, Option.getD_some]

/-- Settles O43: the tokens read back are the greedy encoding of the text, and no other text has what they append. -/
theorem lzRoundTrip : Obligations.LzRoundTrip := by
  intro s t _ _ hexec herr
  obtain ⟨ts, h⟩ := exists_lzEncLeaves hexec herr
  obtain ⟨hlen, htext⟩ := tokensTextAt_of_greedyFrom h.greedy
  have hn : (t.chain .lzDec).nIn = ts.length := by
    show t.outLen.toNat = ts.length
    rw [h.outLen_eq, wd_toNat _ (h.greedy.length_le_nIn.trans_lt (nIn_lt s))]
  have htoks : (t.chain .lzDec).toksIn (t.chain .lzDec).nIn = ts := by
    rw [hn]
    exact toksIn_of_holds h.toks
  have hcfg : (t.chain .lzDec).cfg = s.cfg := h.cfg_eq
  have hdec := result_lzDec (s := t.chain .lzDec)
  rw [htoks, hn, hcfg, hlen, textIn_length] at hdec
  obtain ⟨xs, hres, hxlen, hxs⟩ := hdec h.toks_le h.nIn_le
  have hsame := hxs.agree htext (fun k hk => absurd hk (Nat.not_lt_zero k))
  have heq : xs = s.textIn s.nIn := by
    refine List.ext_getElem?' fun k hk => hsame k ?_
    rwa [hxlen, textIn_length, Nat.max_self, ← textIn_length s s.nIn, ← hlen] at hk
  subst heq
  obtain ⟨v, hv, hends, hholds⟩ := exec_text hres
  exact ⟨v, hv, hxlen ▸ hends, hholds⟩

end Sys2Proof.Machine
end

section
/-! SUPPORT. Where `PACK_BITS` runs out of bytes (43_binary_packing.md R211), and `UNPACK_BITS` (R216): eight bits per byte, up to the first byte without
room. -/

namespace Sys2Proof.Machine

/-- The packer stops at the first bit with no byte to go to: as many bits pass as the accumulator and the bytes left can take. -/
theorem packLoop_full {yMax : Nat} {bs : List Bool} {i : Nat} {acc : BitVec 8} {accN : Nat} {out : List Byte} (hacc : accN < 8)
    (hout : out.length ≤ yMax) (hpartial : accN ≠ 0 → out.length < yMax) (hfull : 8 * (yMax - out.length) < accN + bs.length) :
    packLoop yMax i bs acc accN out = .error ⟨.capacityExceeded, i + (8 * (yMax - out.length) - accN)⟩ := by
  induction bs generalizing i acc accN out with
  | nil =>
    rw [List.length_nil] at hfull
    omega
  | cons b bs ih =>
    rw [List.length_cons] at hfull
    rw [packLoop_cons]
    split_ifs with hstop hbyte
    · have hnone : 8 * (yMax - out.length) - accN = 0 := by omega
      rw [hnone, Nat.add_zero]
    · have hlen : (out ++ [accPush acc b]).length = out.length + 1 := List.length_append
      rw [ih (by omega) (by omega) (fun h => absurd rfl h) (by omega), hlen]
      have hpos : i + 1 + (8 * (yMax - (out.length + 1)) - 0) = i + (8 * (yMax - out.length) - accN) := by omega
      rw [hpos]
    · rw [ih (by omega) hout (by omega) (by omega)]
      have hpos : i + 1 + (8 * (yMax - out.length) - (accN + 1)) = i + (8 * (yMax - out.length) - accN) := by omega
      rw [hpos]

theorem packBits_full {p : Config.Params} {bs : List Bool} (hfull : 8 * p.yMax < bs.length) :
    packBits p bs = .error ⟨.capacityExceeded, 8 * p.yMax⟩ := by
  have h := packLoop_full (i := 0) (acc := 0#8) (out := []) (Nat.two_pow_pos 3) (Nat.zero_le p.yMax) (fun h => absurd rfl h)
    (show _ < 0 + bs.length by rwa [Nat.zero_add])
  rwa [Nat.zero_add] at h

/-- The loop passes bytes whose bits fit, eight bits each, and goes on with the rest. -/
theorem unpackLoop_append {bMax : Nat} {ys : List Byte} (zs : List Byte) (i : Nat) (out : List Bool) (hroom : out.length + 8 * ys.length ≤ bMax) :
    unpackLoop bMax i (ys ++ zs) out = unpackLoop bMax (i + ys.length) zs (out ++ ys.flatMap byteBits) := by
  induction ys generalizing i out with
  | nil => rw [List.nil_append, List.flatMap_nil, List.append_nil, List.length_nil, Nat.add_zero]
  | cons y ys ih =>
    rw [List.length_cons] at hroom
    rw [List.cons_append, unpackLoop, if_neg (by omega), ih _ _ (by rw [List.length_append, byteBits_length]; omega), List.flatMap_cons,
      List.append_assoc, List.length_cons, Nat.add_assoc, Nat.add_comm 1]

theorem unpackBits_ok {p : Config.Params} {ys : List Byte} (hroom : 8 * ys.length ≤ p.bMax) : unpackBits p ys = .ok (ys.flatMap byteBits) := by
  have h := unpackLoop_append [] 0 [] (show [].length + 8 * ys.length ≤ p.bMax by rwa [List.length_nil, Nat.zero_add])
  rwa [List.append_nil] at h

/-- The first byte whose eight bits do not fit is the one after `B_MAX / 8` bytes. -/
theorem unpackBits_full {p : Config.Params} {ys : List Byte} (hfull : p.bMax < 8 * ys.length) :
    unpackBits p ys = .error ⟨.capacityExceeded, p.bMax / 8⟩ := by
  have hlt : p.bMax / 8 < ys.length := by omega
  have hlen : (ys.take (p.bMax / 8)).length = p.bMax / 8 := List.length_take_of_le hlt.le
  have h := unpackLoop_append (bMax := p.bMax) (ys := ys.take (p.bMax / 8)) (ys.drop (p.bMax / 8)) 0 [] (by rw [hlen, List.length_nil]; omega)
  rw [List.take_append_drop, List.drop_eq_getElem_cons hlt, unpackLoop,
    if_pos (by rw [List.nil_append, flatMap_byteBits_length, hlen]; omega), hlen, Nat.zero_add] at h
  exact h

theorem bytesIn_length (s : State) (n : Nat) : (s.bytesIn n).length = n := by simp [State.bytesIn]

/-- Settles O27: the packer has eight bits to a byte, and the unpacker eight bits from a byte. -/
theorem bitPackingCapacity : Obligations.BitPackingCapacity := by
  refine fun s => ⟨fun hN hfull => ?_, fun hN hfull => ?_⟩
  · unfold ceilDiv at hfull
    refine exec_error (r := ⟨.capacityExceeded, 8 * s.cfg.yMax⟩) ?_
    rw [State.result, if_neg (Nat.not_lt.2 hN), packBits_full (by rw [bitsIn_length]; omega)]
    rfl
  · refine exec_error (r := ⟨.capacityExceeded, s.cfg.bMax / 8⟩) ?_
    rw [State.result, if_neg (Nat.not_lt.2 hN), unpackBits_full (by rwa [bytesIn_length])]
    rfl

/-- A command that delivers bits ends well, with them in `BITS`. -/
theorem exec_bits {c : Instr} {s : State} {bs : List Bool} (h : s.result c = .ok (.bits bs)) :
    ∃ t : State, exec c s = .next t ∧ EndsWell c s t bs.length 0 ∧ bufHolds t.mem.bits bs := by
  obtain ⟨hfit, hsp⟩ := result_fits h
  refine ⟨s.finish c (.ok (.bits bs)), ?_, finish_ok_ends hsp s, storeBits_holds s bs hfit⟩
  rw [exec_eq_finish, h]

/-- Settles O28: bit `8 i + b` of the bits of the bytes is in byte `i`. -/
theorem unpackBitsResult : Obligations.UnpackBitsResult := by
  intro s hN hroom
  have hres : s.result .unpackBits = .ok (.bits ((s.bytesIn s.nIn).flatMap byteBits)) := by
    rw [State.result, if_neg (Nat.not_lt.2 hN), unpackBits_ok (by rwa [bytesIn_length])]
    rfl
  obtain ⟨t, hexec, hends, hholds⟩ := exec_bits hres
  have hlen : ((s.bytesIn s.nIn).flatMap byteBits).length = 8 * s.nIn := by rw [flatMap_byteBits_length, bytesIn_length]
  refine ⟨t, hexec, hlen ▸ hends, fun i b hi hb => ?_⟩
  rw [hholds _ (by omega), flatMap_byteBits_getElem? _ _ hb, State.bytesIn, List.getElem?_map, List.getElem?_range hi]
  rfl

end Sys2Proof.Machine
end

section
/-! SUPPORT. Where `PACK_TOK` stops (43_binary_packing.md R221): a token's checks in their order, and the first token that fails one. -/

namespace Sys2Proof.Machine

theorem tokCheck_of_overflow {t : Token} (h : 0xFFFF < t.dist.toNat ∨ 0xFF < t.len.toNat) : tokCheck t = some .encodingOverflow := by
  unfold tokCheck Config.packDistMax Config.packLenMax
  rcases h with hdist | hlen
  · rw [if_pos hdist]
  · rw [if_pos hlen, ite_self]

theorem tokCheck_of_not_scalar {t : Token} (hdist : t.dist.toNat ≤ 0xFFFF) (hlen : t.len.toNat ≤ 0xFF) (hlit : t.hasNext = true)
    (hscalar : isScalar t.next = false) : tokCheck t = some .invalidInput := by
  unfold tokCheck Config.packDistMax Config.packLenMax
  rw [if_neg (Nat.not_lt.2 hdist), if_neg (Nat.not_lt.2 hlen), if_pos ⟨hlit, hscalar⟩]

theorem packTok1_of_check {t : Token} {e : ErrCode} (h : tokCheck t = some e) (yMax i out : Nat) : packTok1 yMax i t out = .error ⟨e, i⟩ := by
  rw [packTok1, h]

/-- A packable token without room for its bytes. -/
theorem packTok1_full {yMax i out : Nat} {t : Token} (ht : packable t) (hfull : yMax < out + (tokenStreamBytes t).length) :
    packTok1 yMax i t out = .error ⟨.capacityExceeded, i⟩ := by
  rw [tokenStreamBytes_length] at hfull
  rw [packTok1, (tokCheck_eq_none_iff t).2 ht]
  exact if_pos (by omega)

/-- The serializer passes the tokens before token `i`, and ends with the error of token `i`. -/
theorem packToks_error {p : Config.Params} {ts : List Token} {i : Nat} (hi : i < ts.length) {r : Raise} (hts : ∀ u ∈ ts.take i, packable u)
    (hroom : ((ts.take i).flatMap tokenStreamBytes).length ≤ p.yMax)
    (h : packTok1 p.yMax i ts[i] ((ts.take i).flatMap tokenStreamBytes).length = .error r) : packToks p ts = .error r := by
  have hloop := packTokLoop_append (yMax := p.yMax) (ts.drop i) 0 [] hts (by rwa [List.length_nil, Nat.zero_add])
  rw [List.take_append_drop, List.drop_eq_getElem_cons hi, List.length_take_of_le hi.le, Nat.zero_add, List.nil_append, packTokLoop, h] at hloop
  exact hloop

/-- Settles O32: the error of token `i` is that of its first failing check. -/
theorem packTokFirstBadToken : Obligations.PackTokFirstBadToken := by
  intro s i tk hN hget hts hroom
  obtain ⟨hi, rfl⟩ := List.getElem?_eq_some_iff.1 hget
  have hends {r : Raise} (h : packTok1 s.cfg.yMax i (s.toksIn s.nIn)[i] (((s.toksIn s.nIn).take i).flatMap tokenStreamBytes).length = .error r) :
      EndsInError .packTok s (s.finish .packTok (s.result .packTok)) r.code r.info := by
    refine finish_error_ends ?_
    rw [State.result, if_neg (Nat.not_lt.2 hN), packToks_error hi hts hroom h]
    rfl
  refine ⟨_, exec_eq_finish .packTok s, fun hover => ?_, fun hdist hlen hlit hscalar => ?_, fun hpack hfull => ?_⟩
  · exact hends (packTok1_of_check (tokCheck_of_overflow hover) _ _ _)
  · exact hends (packTok1_of_check (tokCheck_of_not_scalar hdist hlen hlit hscalar) _ _ _)
  · rw [List.take_succ_eq_append_getElem hi, List.flatMap_append, List.flatMap_singleton, List.length_append] at hfull
    exact hends (packTok1_full hpack hfull)

end Sys2Proof.Machine
end

section
/-! SUPPORT. One token of `UNPACK_TOK` (43_binary_packing.md R226): which bytes parse, and to what. -/

namespace Sys2Proof.Machine

/-- A token whose bytes parse back: `PACK_TOK` accepts it, and its literal has no delimiter among its bytes (43_binary_packing.md R223). -/
def Token.Streamable (t : Token) : Prop := packable t ∧ (t.hasNext = true → t.next ≠ 0#21)

/-- The split is at the first delimiter: none is in the part before it. -/
theorem splitDelim_append {lit : List Byte} (h : (0x00#8 : Byte) ∉ lit) (rest : List Byte) : splitDelim (lit ++ 0x00#8 :: rest) = some (lit, rest) := by
  induction lit with
  | nil => rfl
  | cons y lit ih =>
    obtain ⟨hy, hlit⟩ := not_or.1 (List.mem_cons.not.1 h)
    rw [List.cons_append, splitDelim, if_neg (show ¬ y = Config.delim from Ne.symm hy), ih hlit]
    rfl

theorem not_mem_of_splitDelim {ys lit rest : List Byte} (h : splitDelim ys = some (lit, rest)) : (0x00#8 : Byte) ∉ lit := by
  induction ys generalizing lit with
  | nil => cases h
  | cons y ys ih =>
    unfold splitDelim at h
    split_ifs at h with hy
    · cases h
      exact List.not_mem_nil
    · obtain ⟨⟨lit', rest'⟩, hsplit, heq⟩ := Option.map_eq_some_iff.1 h
      cases heq
      exact List.mem_cons.not.2 (not_or.2 ⟨Ne.symm hy, ih hsplit⟩)

theorem splitDelim_eq_none {ys : List Byte} (h : (0x00#8 : Byte) ∉ ys) : splitDelim ys = none := by
  cases hsplit : splitDelim ys with
  | none => rfl
  | some lr => exact absurd (by rw [eq_of_splitDelim hsplit]; exact List.mem_append_right _ List.mem_cons_self) h

/-- Every encoding has a byte, so an empty literal is an absent one (30_encoding.md R99). -/
theorem utf8Enc_ne_nil (c : Sym) : utf8Enc c ≠ [] := by
  unfold utf8Enc
  split_ifs <;> exact List.cons_ne_nil _ _

/-- The token of a header with a literal that is there. -/
theorem mkUnpacked_of_ne_nil (b0 b1 b2 : Byte) {lit : List Byte} (h : lit ≠ []) :
    mkUnpacked b0 b1 b2 lit = (utf8Dec lit).map fun c => { dist := 0#16 ++ b0 ++ b1, len := 0#24 ++ b2, hasNext := true, next := c } := by
  cases lit with
  | nil => exact absurd rfl h
  | cons y ys => rfl

/-- A header's distance, its high byte first (30_encoding.md R99). -/
theorem header_dist_toNat (b0 b1 : Byte) : (0#16 ++ b0 ++ b1 : Word).toNat = b0.toNat * 256 + b1.toNat := by
  simp only [toNat_append_eq_add, BitVec.toNat_ofNat]
  omega

theorem header_len_toNat (b2 : Byte) : (0#24 ++ b2 : Word).toNat = b2.toNat := by
  simp only [toNat_append_eq_add, BitVec.toNat_ofNat]
  omega

/-- A distance of 16 bits is made up again of its two header bytes. -/
theorem header_dist_eq {d : Word} (h : d.toNat ≤ 0xFFFF) :
    (0#16 ++ BitVec.ofNat 8 (d.toNat / 256) ++ BitVec.ofNat 8 (d.toNat % 256) : Word) = d := by
  refine BitVec.eq_of_toNat_eq ((header_dist_toNat _ _).trans ?_)
  simp only [BitVec.toNat_ofNat]
  omega

theorem header_len_eq {l : Word} (h : l.toNat ≤ 0xFF) : (0#24 ++ BitVec.ofNat 8 l.toNat : Word) = l := by
  refine BitVec.eq_of_toNat_eq ((header_len_toNat _).trans ?_)
  rw [BitVec.toNat_ofNat]
  omega

/-- The header and the literal of a packable token make up the token. -/
theorem mkUnpacked_litBytes {t : Token} (h : packable t) :
    mkUnpacked (BitVec.ofNat 8 (t.dist.toNat / 256)) (BitVec.ofNat 8 (t.dist.toNat % 256)) (BitVec.ofNat 8 t.len.toNat) (litBytes t) =
      some t.norm := by
  obtain ⟨dist, len, hasNext, next⟩ := t
  obtain ⟨hdist, hlen, hscalar⟩ := h
  cases hasNext with
  | false => simp only [litBytes, mkUnpacked, Token.norm, header_dist_eq hdist, header_len_eq hlen, Bool.false_eq_true, if_false]
  | true =>
    have hdec : utf8Dec (utf8Enc next) = some next := (utf8Dec_eq_some_iff _ _).2 ⟨hscalar rfl, rfl⟩
    simp only [litBytes, if_true, mkUnpacked_of_ne_nil _ _ _ (utf8Enc_ne_nil next), hdec, header_dist_eq hdist, header_len_eq hlen, Token.norm,
      Option.map_some]

theorem Token.Streamable.delim_not_mem {t : Token} (h : t.Streamable) : (0x00#8 : Byte) ∉ litBytes t := by
  obtain ⟨-, hnul⟩ := h
  unfold litBytes
  split_ifs with hlit
  · exact (zero_mem_utf8Enc t.next).not.2 (hnul hlit)
  · exact List.not_mem_nil

/-- A token's bytes parse to the token, and the parser goes on behind them. -/
theorem parseTok_tokenStreamBytes {t : Token} (h : t.Streamable) (rest : List Byte) : parseTok (tokenStreamBytes t ++ rest) = some (t.norm, rest) := by
  have hbytes : tokenStreamBytes t ++ rest = BitVec.ofNat 8 (t.dist.toNat / 256) :: BitVec.ofNat 8 (t.dist.toNat % 256) ::
      BitVec.ofNat 8 t.len.toNat :: (litBytes t ++ 0x00#8 :: rest) := by
    simp [tokenStreamBytes, litBytes]
  have hpack : packable t := h.1
  rw [hbytes, parseTok, splitDelim_append h.delim_not_mem]
  simp only [mkUnpacked_litBytes hpack, Option.map_some]

/-- Bytes with no delimiter from the fourth on do not parse; the header can be cut short or not. -/
theorem parseTok_of_not_mem {ys : List Byte} (h : (0x00#8 : Byte) ∉ ys.drop 3) : parseTok ys = none := by
  unfold parseTok
  split
  · next b0 b1 b2 r => rw [splitDelim_eq_none (ys := r) h]
  · rfl

/-- Bytes with an ill-formed literal do not parse (30_encoding.md R101). -/
theorem parseTok_of_illFormed {ys lit rest : List Byte} (hys : ys.drop 3 = lit ++ 0x00#8 :: rest) (hne : lit ≠ []) (hlit : (0x00#8 : Byte) ∉ lit)
    (hill : ∀ c : Sym, isScalar c = true → utf8Enc c ≠ lit) : parseTok ys = none := by
  have hdec : utf8Dec lit = none := by
    refine Option.eq_none_iff_forall_ne_some.2 fun c hc => ?_
    obtain ⟨hscalar, henc⟩ := (utf8Dec_eq_some_iff lit c).1 hc
    exact hill c hscalar henc
  unfold parseTok
  split
  · next b0 b1 b2 r =>
    obtain rfl : r = lit ++ 0x00#8 :: rest := hys
    simp only [splitDelim_append hlit, mkUnpacked_of_ne_nil _ _ _ hne, hdec, Option.map_none]
  · rfl

/-- A token that parses is within the range of 43_binary_packing.md R227. -/
theorem parseTok_range {ys rest : List Byte} {t : Token} (h : parseTok ys = some (t, rest)) :
    t.Streamable ∧ (t.hasNext = false → t.next = 0#21) := by
  unfold parseTok at h
  split at h
  · next b0 b1 b2 r =>
    split at h
    · cases h
    · next lit rest' hsplit =>
      obtain ⟨t', hmk, heq⟩ := Option.map_eq_some_iff.1 h
      cases heq
      have hdist : (0#16 ++ b0 ++ b1 : Word).toNat ≤ 0xFFFF := by rw [header_dist_toNat]; omega
      have hlen : (0#24 ++ b2 : Word).toNat ≤ 0xFF := by rw [header_len_toNat]; omega
      by_cases hnil : lit = []
      · subst hnil
        cases hmk
        exact ⟨⟨⟨hdist, hlen, nofun⟩, nofun⟩, fun _ => rfl⟩
      · rw [mkUnpacked_of_ne_nil _ _ _ hnil] at hmk
        obtain ⟨c, hdec, rfl⟩ := Option.map_eq_some_iff.1 hmk
        obtain ⟨hscalar, rfl⟩ := (utf8Dec_eq_some_iff _ _).1 hdec
        exact ⟨⟨⟨hdist, hlen, fun _ => hscalar⟩, fun _ => (zero_mem_utf8Enc c).not.1 (not_mem_of_splitDelim hsplit)⟩, nofun⟩
  · cases h

end Sys2Proof.Machine
end

section
/-! SUPPORT. `UNPACK_TOK` (43_binary_packing.md R225 to R228): the loop over a stream of tokens, and the first bytes that are no token or have no room. -/

namespace Sys2Proof.Machine

theorem unpackTokLoop_nil (tMax f p : Nat) (out : List Token) : unpackTokLoop tMax f p [] out = .ok out := by
  cases f <;> rfl

theorem unpackTokLoop_of_parse {tMax f p : Nat} {ys rest : List Byte} {t : Token} {out : List Token} (h : parseTok ys = some (t, rest)) :
    unpackTokLoop tMax (f + 1) p ys out =
      if out.length = tMax then .error ⟨.capacityExceeded, p⟩ else unpackTokLoop tMax f (p + (ys.length - rest.length)) rest (out ++ [t]) := by
  cases ys with
  | nil => cases h
  | cons y ys => rw [unpackTokLoop, h]

theorem unpackTokLoop_of_no_parse {tMax f p : Nat} {ys : List Byte} {out : List Token} (hne : ys ≠ []) (h : parseTok ys = none) :
    unpackTokLoop tMax (f + 1) p ys out = .error ⟨.malformedTokenStream, p⟩ := by
  cases ys with
  | nil => exact absurd rfl hne
  | cons y ys => rw [unpackTokLoop, h]

/-- The loop passes the bytes of tokens that fit, one iteration for each token, and goes on with the rest. -/
theorem unpackTokLoop_append {tMax f : Nat} {ts : List Token} (rest : List Byte) (p : Nat) (out : List Token) (hts : ∀ t ∈ ts, t.Streamable)
    (hroom : out.length + ts.length ≤ tMax) :
    unpackTokLoop tMax (ts.length + f) p (ts.flatMap tokenStreamBytes ++ rest) out =
      unpackTokLoop tMax f (p + (ts.flatMap tokenStreamBytes).length) rest (out ++ ts.map Token.norm) := by
  induction ts generalizing p out with
  | nil => simp
  | cons t ts ih =>
    rw [List.length_cons] at hroom
    have hparse := parseTok_tokenStreamBytes (hts t List.mem_cons_self) (ts.flatMap tokenStreamBytes ++ rest)
    rw [List.flatMap_cons, List.append_assoc, List.length_cons, Nat.add_right_comm, unpackTokLoop_of_parse hparse, if_neg (by omega),
      List.length_append, Nat.add_sub_cancel, ih _ _ (fun u hu => hts u (List.mem_cons_of_mem _ hu))
        (by rw [List.length_append, List.length_singleton]; omega),
      List.length_append, Nat.add_assoc, List.append_assoc, List.map_cons, List.singleton_append]

/-- Each token has at least one byte, so the iterations suffice. -/
theorem length_le_flatMap_tokenStreamBytes (ts : List Token) : ts.length ≤ (ts.flatMap tokenStreamBytes).length := by
  induction ts with
  | nil => exact Nat.le_refl 0
  | cons t ts ih =>
    rw [List.flatMap_cons, List.length_append, List.length_cons, tokenStreamBytes_length]
    omega

/-- The parser of a stream of tokens that fit, before what follows them; there is an iteration left for each byte that follows. -/
theorem unpackToks_append {p : Config.Params} {ts : List Token} (rest : List Byte) (hts : ∀ t ∈ ts, t.Streamable) (hroom : ts.length ≤ p.tMax) :
    ∃ f, rest.length ≤ f ∧ unpackToks p (ts.flatMap tokenStreamBytes ++ rest) =
      unpackTokLoop p.tMax f (ts.flatMap tokenStreamBytes).length rest (ts.map Token.norm) := by
  obtain ⟨f, hf⟩ := Nat.exists_eq_add_of_le (length_le_flatMap_tokenStreamBytes ts)
  refine ⟨f + rest.length, Nat.le_add_left _ _, ?_⟩
  have h := unpackTokLoop_append (tMax := p.tMax) (f := f + rest.length) rest 0 [] hts (by rwa [List.length_nil, Nat.zero_add])
  rw [← Nat.add_assoc, ← hf, ← List.length_append, Nat.zero_add, List.nil_append] at h
  exact h

theorem result_unpackTok {s : State} (hN : s.nIn ≤ s.cfg.yMax) : s.result .unpackTok = (unpackToks s.cfg (s.bytesIn s.nIn)).map .toks := by
  rw [State.result, if_neg (Nat.not_lt.2 hN)]

/-- Settles O33: the loop passes every token, and no byte is left. -/
theorem unpackTokResult : Obligations.UnpackTokResult := by
  intro s ts hN hbytes hpack hnul hroom
  obtain ⟨f, -, hloop⟩ := unpackToks_append (p := s.cfg) [] (fun t ht => ⟨hpack t ht, hnul t ht⟩) hroom
  rw [List.append_nil, unpackTokLoop_nil] at hloop
  have hres : s.result .unpackTok = .ok (.toks (ts.map Token.norm)) := by
    rw [result_unpackTok hN, hbytes, hloop]
    rfl
  obtain ⟨t, hexec, hends, hholds⟩ := exec_toks hres
  rw [List.length_map] at hends
  exact ⟨t, hexec, hends, hholds⟩

/-- Settles O34: the loop passes the tokens before, and the bytes that follow are no token, or one without room. -/
theorem unpackTokFirstBadToken : Obligations.UnpackTokFirstBadToken := by
  intro s ts rest hN hbytes hpack hnul hroom hne
  obtain ⟨f, hf, hloop⟩ := unpackToks_append (p := s.cfg) rest (fun t ht => ⟨hpack t ht, hnul t ht⟩) hroom
  have hpos := List.length_pos_of_ne_nil hne
  obtain ⟨f, rfl⟩ := Nat.exists_eq_add_of_lt (hpos.trans_le hf)
  have hres := result_unpackTok hN
  rw [hbytes, hloop] at hres
  refine ⟨_, exec_eq_finish .unpackTok s, fun hbad => ?_, fun tk r2 hfull htk htknul hrest => ?_⟩
  · have hnone : parseTok rest = none := by
      rcases hbad with hshort | hdelim | ⟨lit, r2, hlit, hlitne, hlitdelim, hill⟩
      · exact parseTok_of_not_mem (by rw [List.drop_eq_nil_of_le hshort.le]; exact List.not_mem_nil)
      · exact parseTok_of_not_mem hdelim
      · exact parseTok_of_illFormed hlit hlitne hlitdelim hill
    rw [unpackTokLoop_of_no_parse hne hnone] at hres
    exact finish_error_ends hres
  · have hparse := parseTok_tokenStreamBytes ⟨htk, htknul⟩ r2
    rw [← hrest] at hparse
    rw [unpackTokLoop_of_parse hparse, if_pos (by rwa [List.length_map])] at hres
    exact finish_error_ends hres

/-- Every token the loop appends has parsed. -/
theorem unpackTokLoop_parsed {tMax f p : Nat} {ys : List Byte} {out ts : List Token} (hout : ∀ t ∈ out, ∃ zs rest, parseTok zs = some (t, rest))
    (h : unpackTokLoop tMax f p ys out = .ok ts) : ∀ t ∈ ts, ∃ zs rest, parseTok zs = some (t, rest) := by
  induction f generalizing p ys out with
  | zero => cases ys <;> cases h <;> exact hout
  | succ f ih =>
    cases hparse : parseTok ys with
    | none =>
      by_cases hne : ys = []
      · rw [hne, unpackTokLoop_nil] at h
        cases h
        exact hout
      · rw [unpackTokLoop_of_no_parse hne hparse] at h
        cases h
    | some tr =>
      obtain ⟨t, rest⟩ := tr
      rw [unpackTokLoop_of_parse hparse] at h
      split_ifs at h
      exact ih (List.forall_mem_append.2 ⟨hout, List.forall_mem_singleton.2 ⟨ys, rest, hparse⟩⟩) h

/-- What a successful `UNPACK_TOK` leaves: `OUT_LEN` counts tokens that parsed, which stand in `TOK`. -/
structure UnpackTokLeaves (s t : State) (ts : List Token) : Prop where
  toks_le : ts.length ≤ s.cfg.tMax
  parsed : ∀ tk ∈ ts, ∃ ys rest, parseTok ys = some (tk, rest)
  outLen_eq : t.outLen = wd ts.length
  toks : tokHolds t.mem ts

theorem exists_unpackTokLeaves {s t : State} (h : exec .unpackTok s = .next t) (herr : t.err = false) : ∃ ts, UnpackTokLeaves s t ts := by
  rw [exec_eq_finish] at h
  cases h
  cases hr : s.result .unpackTok with
  | error r =>
    rw [hr] at herr
    cases herr
  | ok o =>
    obtain ⟨hfit, -⟩ := result_fits hr
    rw [State.result] at hr
    split_ifs at hr
    obtain ⟨ts, hts, rfl⟩ := exists_ok_of_map_ok hr
    exact ⟨ts, { toks_le := hfit, parsed := unpackTokLoop_parsed (List.forall_mem_nil _) hts, outLen_eq := rfl, toks := storeToks_holds s ts hfit }⟩

/-- Settles O35: the tokens have parsed, and so are within their range. -/
theorem unpackTokOutputRange : Obligations.UnpackTokOutputRange := by
  intro s t hcap _ hexec herr j hj
  obtain ⟨ts, h⟩ := exists_unpackTokLeaves hexec herr
  obtain ⟨-, -, -, -, hT⟩ := caps_lt hcap
  rw [h.outLen_eq, wd_toNat _ (h.toks_le.trans_lt hT)] at hj
  obtain ⟨hdist, hlen, hlit⟩ := h.toks
  obtain ⟨ys, rest, hparse⟩ := h.parsed ts[j] (List.getElem_mem hj)
  obtain ⟨⟨⟨hd, hl, hscalar⟩, hnul⟩, habsent⟩ := parseTok_range hparse
  refine ⟨ts[j].dist, ts[j].len, { hasNext := ts[j].hasNext, next := ts[j].next }, ?_, ?_, ?_, hd, hl, fun hb => ⟨hscalar hb, hnul hb⟩, habsent⟩
  · rw [hdist j (by rwa [List.length_map]), List.getElem?_map, List.getElem?_eq_getElem hj, Option.map_some]
  · rw [hlen j (by rwa [List.length_map]), List.getElem?_map, List.getElem?_eq_getElem hj, Option.map_some]
  · rw [hlit j (by rwa [List.length_map]), List.getElem?_map, List.getElem?_eq_getElem hj, Option.map_some]

end Sys2Proof.Machine
end

section
/-! SUPPORT. `UNPACK_TOK` after `PACK_TOK` (43_binary_packing.md R227, 70_reset_and_hazards.md R296). -/

namespace Sys2Proof.Machine

/-- A serializer that succeeds had packable tokens only, and delivers their stream. -/
theorem packTokLoop_eq_ok {yMax i : Nat} {ts : List Token} {out ys : List Byte} (h : packTokLoop yMax i ts out = .ok ys) :
    (∀ t ∈ ts, packable t) ∧ ys = out ++ ts.flatMap tokenStreamBytes := by
  induction ts generalizing i out with
  | nil =>
    cases h
    exact ⟨nofun, (List.append_nil _).symm⟩
  | cons t ts ih =>
    rw [packTokLoop, packTok1] at h
    cases hcheck : tokCheck t with
    | some e =>
      rw [hcheck] at h
      cases h
    | none =>
      rw [hcheck] at h
      split_ifs at h with hfull
      obtain ⟨hts, rfl⟩ := ih h
      refine ⟨List.forall_mem_cons.2 ⟨(tokCheck_eq_none_iff t).1 hcheck, hts⟩, ?_⟩
      rw [tokBytes_eq, List.append_assoc, List.flatMap_cons]

/-- What a successful `PACK_TOK` leaves: `OUT_LEN` counts the bytes of the tokens' stream, which stand in `BYTES`. -/
structure PackTokLeaves (s t : State) : Prop where
  nIn_le : s.nIn ≤ s.cfg.tMax
  accepted : ∀ tk ∈ s.toksIn s.nIn, packable tk
  room : ((s.toksIn s.nIn).flatMap tokenStreamBytes).length ≤ s.cfg.yMax
  cfg_eq : t.cfg = s.cfg
  outLen_eq : t.outLen = wd ((s.toksIn s.nIn).flatMap tokenStreamBytes).length
  bytes : bufHolds t.mem.bytes ((s.toksIn s.nIn).flatMap tokenStreamBytes)

theorem packTokLeaves_of_exec {s t : State} (h : exec .packTok s = .next t) (herr : t.err = false) : PackTokLeaves s t := by
  rw [exec_eq_finish] at h
  cases h
  cases hr : s.result .packTok with
  | error r =>
    rw [hr] at herr
    cases herr
  | ok o =>
    obtain ⟨hfit, -⟩ := result_fits hr
    rw [State.result] at hr
    split_ifs at hr with hN
    obtain ⟨ys, hys, rfl⟩ := exists_ok_of_map_ok hr
    obtain ⟨hpack, rfl⟩ := packTokLoop_eq_ok hys
    exact { nIn_le := Nat.le_of_not_lt hN, accepted := hpack, room := hfit, cfg_eq := rfl, outLen_eq := rfl,
            bytes := storeBytes_holds s _ hfit }

/-- Bytes that stand in `BYTES` are what a command reads there. -/
theorem bytesIn_of_holds {u : State} {ys : List Byte} (h : bufHolds u.mem.bytes ys) : u.bytesIn ys.length = ys := by
  refine List.ext_getElem (bytesIn_length ..) fun i _ hi => ?_
  simp only [State.bytesIn, List.getElem_map, List.getElem_range, State.byteAt]
  rw [h i hi, List.getElem?_eq_getElem hi, Option.getD_some]

/-- Settles O36: the bytes read back are the stream of the tokens, which O33 parses. -/
theorem packUnpackTokRoundTrip : Obligations.PackUnpackTokRoundTrip := by
  intro s t hcap _ hexec herr hnul
  have h := packTokLeaves_of_exec hexec herr
  obtain ⟨-, -, -, hY, -⟩ := caps_lt hcap
  have hcfg : (t.chain .unpackTok).cfg = s.cfg := h.cfg_eq
  have hn : (t.chain .unpackTok).nIn = ((s.toksIn s.nIn).flatMap tokenStreamBytes).length := by
    show t.outLen.toNat = _
    rw [h.outLen_eq, wd_toNat _ (h.room.trans_lt hY)]
  have hparse := unpackTokResult (t.chain .unpackTok) (s.toksIn s.nIn)
  rw [hn, hcfg, toksIn_length] at hparse
  exact hparse h.room (bytesIn_of_holds h.bytes) h.accepted hnul h.nIn_le

end Sys2Proof.Machine
end

section
/-! SUPPORT. How a command starts and ends: the step that accepts it and the step that runs it (60_exceptions.md R254, 30_encoding.md R95, R96), its
prechecks (R252, R257) and its two completions (R255, R256). -/

namespace Sys2Proof.Machine

/-! The two completions. -/

theorem EndsWell.err_eq {c : Instr} {s t : State} {n k : Nat} (h : EndsWell c s t n k) : t.err = s.err := by
  obtain ⟨-, -, herr, -⟩ := h
  exact herr

theorem EndsInError.done_eq {c : Instr} {s t : State} {e : ErrCode} {info : Nat} (h : EndsInError c s t e info) : t.done = s.done := by
  obtain ⟨-, hdone, -⟩ := h
  exact hdone

/-- Settles O21: a command's result is an error that R251 lists or fits the output buffers, and each has its completion. -/
theorem commandEndsInOneOfTwoWays : Obligations.CommandEndsInOneOfTwoWays := by
  intro c s hcap ⟨_, hdone, herr, _⟩
  cases hr : s.result c with
  | error r =>
    obtain ⟨hreserved, hillegal⟩ := result_code hr
    obtain ⟨t, hexec, hends⟩ := exec_error hr
    exact ⟨t, hexec, .inr ⟨hends.done_eq.trans hdone, r.code, r.info, hreserved, hillegal, hends⟩⟩
  | ok o =>
    obtain ⟨hfit, hsp⟩ := result_fits hr
    obtain ⟨hlen, htable⟩ := fits_lt hcap hfit
    have hexec : exec c s = .next (s.finish c (.ok o)) := by rw [exec_eq_finish, hr]
    have hends := finish_ok_ends hsp s
    exact ⟨_, hexec, .inl ⟨hends.err_eq.trans herr, o.len, o.tableLen, hlen, htable, hends⟩⟩

/-! The prechecks. -/

/-- The capacity of the buffer a command reads its `N` elements from (30_encoding.md R93). -/
def inputCapacity (p : Config.Params) : Instr → Nat
  | .hufEnc | .lzEnc => p.nMax
  | .hufDec | .packBits => p.bMax
  | .unpackBits | .unpackTok => p.yMax
  | .lzDec | .packTok => p.tMax

theorem result_lzEnc_windowZero {s : State} (hw : s.wIn = 0) : s.result .lzEnc = .error ⟨.badParameter, 0⟩ := if_pos hw

/-- The length is checked before everything but the window of `LZ_ENC`. -/
theorem result_inputTooLong {s : State} (c : Instr) (hw : c = .lzEnc → s.wIn ≠ 0) (hN : inputCapacity s.cfg c < s.nIn) :
    s.result c = .error ⟨.invalidInput, 0⟩ := by
  cases c with
  | lzEnc => exact (if_neg (hw rfl)).trans (if_pos hN)
  | _ => exact if_pos hN

theorem exec_inputTooLong {s : State} (c : Instr) (hw : c = .lzEnc → s.wIn ≠ 0) (hN : inputCapacity s.cfg c < s.nIn) :
    ∃ t : State, exec c s = .next t ∧ EndsInError c s t .invalidInput 0 :=
  exec_error (result_inputTooLong c hw hN)

/-- Settles O24: a failed precheck is the command's result. -/
theorem prechecksOfEveryCommand : Obligations.PrechecksOfEveryCommand := fun _ =>
  ⟨exec_inputTooLong .hufEnc nofun, exec_inputTooLong .hufDec nofun, fun hw => exec_error (result_lzEnc_windowZero hw),
    fun hw => exec_inputTooLong .lzEnc fun _ => hw, exec_inputTooLong .lzDec nofun, exec_inputTooLong .packBits nofun,
    exec_inputTooLong .unpackBits nofun, exec_inputTooLong .packTok nofun, exec_inputTooLong .unpackTok nofun⟩

/-! Acceptance. -/

theorem acceptPhase_of_decode {w : Word} {c : Instr} (h : decode w = .ok c) : acceptPhase w = firstPhase c := by
  simp only [acceptPhase, decode?, h]

/-- Settles O3: with `BUSY = 0` a write of `CMD` is acceptance, whose phase the decoder selects. -/
theorem acceptanceEffect : Obligations.AcceptanceEffect := by
  intro s w hb
  refine ⟨s.accept w, by rw [memWrite_reg, regWrite_cmd hb], rfl, rfl, rfl, rfl, rfl, rfl, rfl, rfl, fun c hc => acceptPhase_of_decode hc,
    fun e he hrst => ?_, rfl, rfl, rfl, rfl, rfl, rfl, rfl, rfl⟩
  have hillegal : ∀ c, decode w ≠ .ok c := fun c hc => nomatch he.symm.trans hc
  exact coreStep_illegal hrst (acceptPhase_of_illegal hillegal)

/-! The core's step at an accepted command. -/

/-- The opcode in `OP`, widened to a command word, decodes to its command (30_encoding.md R90, R91). -/
theorem decode?_opcode (c : Instr) : decode? (c.opcode.setWidth 32) = some c := by cases c <;> rfl

theorem fetched_of_firstPhase {s : State} {c : Instr} (hop : s.op = c.opcode) (hph : s.phase = firstPhase c) : s.fetched = some c := by
  simp only [State.fetched, hop, decode?_opcode, hph, if_true]

theorem coreStep_fetched {s : State} {c : Instr} (hrst : s.rst = false) (h : s.fetched = some c) : coreStep s = exec c s := by
  simp only [coreStep, hrst, Bool.false_eq_true, if_false, h]

/-- Settles O4: the core fetches the command from `OP` and `PHASE`, which the schedule does not touch. -/
theorem stepRunsAcceptedCommand : Obligations.StepRunsAcceptedCommand := by
  intro s c hrst hmover hop hph
  rw [step, hmover]
  exact coreStep_fetched (s := s.popSched) hrst (fetched_of_firstPhase hop hph)

/-! The host's step. -/

theorem hostStep_of_script {s : State} {op : HostOp} {rest : List HostOp} (h : s.script = op :: rest) :
    hostStep s = hostOp op { s with script := rest } := by
  rw [hostStep, h]

theorem step_host {s : State} {op : HostOp} {rest : List HostOp} (hmover : s.mover = .host) (h : s.script = op :: rest) :
    step s = .next (hostOp op { s.popSched with script := rest }) := by
  rw [step, hmover]
  exact congrArg Host.Outcome.next (hostStep_of_script (s := s.popSched) h)

theorem hostOp_write {s : State} (hrst : s.rst = false) (sp : Space) (idx : Nat) (v : Word) :
    hostOp (.write sp idx v) s = s.memWrite sp idx v :=
  if_neg (ne_true_of_eq_false hrst)

/-- With `BUSY = 0` the write line of a command word is acceptance. -/
theorem hostOp_cmd {s : State} (hrst : s.rst = false) (hb : s.busy = false) (w : Word) : hostOp (.write .reg 0 w) s = s.accept w := by
  rw [hostOp_write hrst, memWrite_reg, regWrite_cmd hb]

/-- Without a schedule the host moves while no command runs, and the core while one does (70_reset_and_hazards.md R303). -/
theorem mover_unscheduled {s : State} (hrst : s.rst = false) (hsched : s.sched = []) : s.mover = if s.busy then .core else .host := by
  rw [mover_eq, hsched, hrst, Bool.not_false, Bool.and_true]

/-- Without a schedule the step after acceptance runs the command. -/
theorem step_accept {s : State} {w : Word} {c : Instr} (hrst : s.rst = false) (hsched : s.sched = []) (hc : decode w = .ok c) :
    step (s.accept w) = exec c (s.accept w) := by
  obtain ⟨-, hop⟩ := decode_eq_ok_iff.1 hc
  have hcore : (s.accept w).mover = .core := mover_unscheduled (s := s.accept w) hrst hsched
  rw [stepRunsAcceptedCommand (s.accept w) c hrst hcore hop (acceptPhase_of_decode hc), popSched_of_nil (s.accept w) hsched]

/-- Settles O5: the host performs its script line by line, and a write of a command's word gives the core the next move, at that command. -/
theorem hostCommandRuns : Obligations.HostCommandRuns := by
  refine ⟨fun s op rest => step_host, fun s hrst => ?_, fun s w c rest hrst hb hsched hscript hc => ?_⟩
  · have hne : ¬ s.rst = true := ne_true_of_eq_false hrst
    exact ⟨fun sp idx => if_neg hne, hostOp_write hrst, if_neg hne⟩
  · have hhost : s.mover = .host := by
      rw [mover_unscheduled hrst hsched, hb]
      rfl
    refine ⟨State.accept w { s with script := rest }, ?_, rfl, step_accept (s := { s with script := rest }) hrst hsched hc⟩
    rw [step_host hhost hscript, popSched_of_nil s hsched]
    exact congrArg Host.Outcome.next (hostOp_cmd (s := { s with script := rest }) hrst hb w)

end Sys2Proof.Machine
end

section
/-! SUPPORT. `UNPACK_BITS` after `PACK_BITS` (43_binary_packing.md R216, 70_reset_and_hazards.md R296). -/

namespace Sys2Proof.Machine

/-- What a successful `PACK_BITS` leaves: `OUT_LEN` counts the packed bytes, which stand in `BYTES` and read as the input bits with fewer than eight zeros
behind them. -/
structure PackBitsLeaves (s t : State) (ys : List Byte) : Prop where
  room : ys.length ≤ s.cfg.yMax
  padded : ∃ pad < 8, ys.flatMap byteBits = s.bitsIn s.nIn ++ List.replicate pad false
  cfg_eq : t.cfg = s.cfg
  outLen_eq : t.outLen = wd ys.length
  bytes : bufHolds t.mem.bytes ys

theorem exists_packBitsLeaves {s t : State} (h : exec .packBits s = .next t) (herr : t.err = false) : ∃ ys, PackBitsLeaves s t ys := by
  rw [exec_eq_finish] at h
  cases h
  cases hr : s.result .packBits with
  | error r =>
    rw [hr] at herr
    cases herr
  | ok o =>
    obtain ⟨hfit, -⟩ := result_fits hr
    rw [State.result] at hr
    split_ifs at hr with hN
    obtain ⟨ys, hys, rfl⟩ := exists_ok_of_map_ok hr
    exact ⟨ys, { room := hfit, padded := packLoop_bits (Nat.two_pow_pos 3) hys, cfg_eq := rfl, outLen_eq := rfl,
                 bytes := storeBytes_holds s ys hfit }⟩

/-- `n` bits and fewer than eight zeros are a whole number of bytes for one number of zeros only: there are `ceil(n / 8)` bytes (30_encoding.md R98). -/
theorem PackBitsLeaves.length_eq {s t : State} {ys : List Byte} (h : PackBitsLeaves s t ys) : ys.length = ceilDiv s.nIn 8 := by
  obtain ⟨pad, hpad, hbits⟩ := h.padded
  have hlen := congrArg List.length hbits
  rw [flatMap_byteBits_length, List.length_append, bitsIn_length, List.length_replicate] at hlen
  unfold ceilDiv
  omega

/-- The bits of the packed bytes are the input bits, and zeros behind them. -/
theorem PackBitsLeaves.bits_getElem? {s t : State} {ys : List Byte} (h : PackBitsLeaves s t ys) {i : Nat} (hi : i < 8 * ceilDiv s.nIn 8) :
    (ys.flatMap byteBits)[i]? = some (if i < s.nIn then s.bitAt i else false) := by
  obtain ⟨pad, -, hbits⟩ := h.padded
  have hlen := congrArg List.length hbits
  rw [flatMap_byteBits_length, List.length_append, bitsIn_length, List.length_replicate, h.length_eq] at hlen
  rw [hbits, bitsIn_padded_getElem? s (hlen ▸ hi)]

/-- Settles O29: the bytes read back are the packed ones, whose bits are the input and its padding. -/
theorem packUnpackBitsRoundTrip : Obligations.PackUnpackBitsRoundTrip := by
  intro s t hcap _ hexec herr hroom
  obtain ⟨ys, h⟩ := exists_packBitsLeaves hexec herr
  obtain ⟨-, -, -, hY, -⟩ := caps_lt hcap
  have hcfg : (t.chain .unpackBits).cfg = s.cfg := h.cfg_eq
  have hn : (t.chain .unpackBits).nIn = ys.length := by
    show t.outLen.toNat = _
    rw [h.outLen_eq, wd_toNat _ (h.room.trans_lt hY)]
  have hres : (t.chain .unpackBits).result .unpackBits = .ok (.bits (ys.flatMap byteBits)) := by
    rw [State.result, hn, hcfg, if_neg (Nat.not_lt.2 h.room), bytesIn_of_holds (u := t.chain .unpackBits) h.bytes, unpackBits_ok (h.length_eq.symm ▸ hroom)]
    rfl
  obtain ⟨v, hv, hends, hholds⟩ := exec_bits hres
  rw [flatMap_byteBits_length, h.length_eq] at hends
  refine ⟨v, hv, hends, by unfold ceilDiv; omega, fun i hi => ?_⟩
  rw [hholds i (by rwa [flatMap_byteBits_length, h.length_eq]), h.bits_getElem? hi]

end Sys2Proof.Machine
end

section
/-! SUPPORT. No step changes a capacity (70_reset_and_hazards.md R293): a visit of a phase, a whole command and a host operation each keep them. -/

namespace Sys2Proof.Machine

/-- A choice keeps the capacities when both sides do. -/
theorem ite_cfg {p : Config.Params} {c : Prop} [Decidable c] {t u : State} (ht : t.cfg = p) (hu : u.cfg = p) : (if c then t else u).cfg = p := by
  split
  · exact ht
  · exact hu

/-! The visits, whatever the buffers hold: each branch is a completion or a change of phase. -/

section
variable (s : State)

theorem visitHCount_cfg : (visitHCount s).cfg = s.cfg := ite_cfg rfl (by split <;> rfl)

theorem visitHMerge_cfg : (visitHMerge s).cfg = s.cfg := ite_cfg (by split <;> rfl) rfl

theorem visitHWalk_cfg : (visitHWalk s).cfg = s.cfg := by
  unfold visitHWalk
  split
  · rfl
  · rfl
  · split
    · rfl
    · exact ite_cfg rfl rfl

theorem visitHEmit_cfg : (visitHEmit s).cfg = s.cfg := by
  refine ite_cfg ?_ rfl
  split
  · rfl
  · exact ite_cfg rfl rfl

theorem visitDCheck_cfg : (visitDCheck s).cfg = s.cfg := ite_cfg rfl (ite_cfg rfl (by split <;> rfl))

theorem visitDScan_cfg : (visitDScan s).cfg = s.cfg := ite_cfg (by split <;> rfl) rfl

theorem visitDEnd_cfg : (visitDEnd s).cfg = s.cfg := ite_cfg rfl rfl

theorem visitLInit_cfg : (visitLInit s).cfg = s.cfg := ite_cfg rfl (ite_cfg rfl (ite_cfg rfl rfl))

theorem visitLSearch_cfg : (visitLSearch s).cfg = s.cfg := ite_cfg rfl rfl

theorem visitLCompare_cfg : (visitLCompare s).cfg = s.cfg := ite_cfg rfl rfl

theorem visitLEmit_cfg : (visitLEmit s).cfg = s.cfg := ite_cfg rfl (ite_cfg rfl rfl)

theorem visitZInit_cfg : (visitZInit s).cfg = s.cfg := ite_cfg rfl (ite_cfg rfl rfl)

theorem visitZCopy_cfg : (visitZCopy s).cfg = s.cfg := ite_cfg (ite_cfg rfl rfl) rfl

theorem nextTok_cfg (out : Nat) : (nextTok out s).cfg = s.cfg := ite_cfg rfl rfl

theorem visitZLit_cfg : (visitZLit s).cfg = s.cfg := ite_cfg (ite_cfg rfl (nextTok_cfg _ _)) (nextTok_cfg s _)

theorem visitPbCheck_cfg : (visitPbCheck s).cfg = s.cfg := ite_cfg rfl rfl

theorem visitPbLoop_cfg : (visitPbLoop s).cfg = s.cfg := ite_cfg (by split <;> rfl) rfl

theorem visitUbCheck_cfg : (visitUbCheck s).cfg = s.cfg := ite_cfg rfl rfl

theorem visitUbLoop_cfg : (visitUbLoop s).cfg = s.cfg := ite_cfg (ite_cfg rfl rfl) rfl

theorem visitPtCheck_cfg : (visitPtCheck s).cfg = s.cfg := ite_cfg rfl rfl

theorem visitPtLoop_cfg : (visitPtLoop s).cfg = s.cfg := ite_cfg (by split <;> rfl) rfl

theorem visitUtCheck_cfg : (visitUtCheck s).cfg = s.cfg := ite_cfg rfl rfl

theorem visitUtLoop_cfg : (visitUtLoop s).cfg = s.cfg := by
  refine ite_cfg ?_ rfl
  split
  · rfl
  · exact ite_cfg rfl rfl

theorem phaseVisit_cfg : (phaseVisit s).cfg = s.cfg := by
  unfold phaseVisit
  cases s.phase with
  | idle | illegal | hLeaves | pbFlush => rfl
  | hCount => exact visitHCount_cfg s
  | hMerge => exact visitHMerge_cfg s
  | hWalk => exact visitHWalk_cfg s
  | hEmit => exact visitHEmit_cfg s
  | dCheck => exact visitDCheck_cfg s
  | dScan => exact visitDScan_cfg s
  | dEnd => exact visitDEnd_cfg s
  | lInit => exact visitLInit_cfg s
  | lSearch => exact visitLSearch_cfg s
  | lCompare => exact visitLCompare_cfg s
  | lEmit => exact visitLEmit_cfg s
  | zInit => exact visitZInit_cfg s
  | zCopy => exact visitZCopy_cfg s
  | zLit => exact visitZLit_cfg s
  | pbCheck => exact visitPbCheck_cfg s
  | pbLoop => exact visitPbLoop_cfg s
  | ubCheck => exact visitUbCheck_cfg s
  | ubLoop => exact visitUbLoop_cfg s
  | ptCheck => exact visitPtCheck_cfg s
  | ptLoop => exact visitPtLoop_cfg s
  | utCheck => exact visitUtCheck_cfg s
  | utLoop => exact visitUtLoop_cfg s

/-! The host's operations. -/

theorem regWrite_cfg (i : Nat) (v : Word) : (s.regWrite i v).cfg = s.cfg := by
  unfold State.regWrite
  split
  · exact ite_cfg rfl rfl
  · rfl
  · exact ite_cfg rfl rfl
  · exact ite_cfg rfl rfl
  · exact ite_cfg rfl rfl
  · exact ite_cfg rfl rfl
  · rfl

theorem memRead_cfg (sp : Space) (idx : Nat) : (s.memRead sp idx).cfg = s.cfg := ite_cfg rfl (ite_cfg rfl rfl)

theorem memWrite_cfg (sp : Space) (idx : Nat) (v : Word) : (s.memWrite sp idx v).cfg = s.cfg :=
  ite_cfg (regWrite_cfg s idx v) (ite_cfg rfl rfl)

theorem hostOp_cfg (op : HostOp) : (hostOp op s).cfg = s.cfg := by
  cases op with
  | read sp idx => exact ite_cfg rfl (memRead_cfg s sp idx)
  | write sp idx v => exact ite_cfg rfl (memWrite_cfg s sp idx v)
  | badRead => exact ite_cfg rfl rfl
  | badWrite => exact ite_cfg rfl rfl
  | wait => exact ite_cfg rfl (ite_cfg rfl rfl)
  | assertReset => rfl
  | releaseReset => exact ite_cfg rfl rfl

theorem hostStep_cfg : (hostStep s).cfg = s.cfg := by
  unfold hostStep
  split
  · rfl
  · exact hostOp_cfg _ _

/-! The agents. -/

theorem coreStep_answers : ∃ t : State, coreStep s = .next t ∧ t.cfg = s.cfg := by
  unfold coreStep
  split
  · exact ⟨s, rfl, rfl⟩
  · split
    next c _ =>
      have hexec := exec_eq_finish c s
      obtain ⟨hcfg, -⟩ := commandLeavesTheRestAlone c s _ hexec
      exact ⟨_, hexec, hcfg⟩
    next => exact ⟨_, rfl, phaseVisit_cfg s⟩

theorem phaseStep_answers : ∃ t : State, phaseStep s = .next t ∧ t.cfg = s.cfg := by
  unfold phaseStep
  split
  · exact ⟨s, rfl, rfl⟩
  · exact ⟨_, rfl, phaseVisit_cfg s⟩

theorem agentStep_answers (a : Agent) : ∃ t : State, agentStep a s = .next t ∧ t.cfg = s.cfg := by
  cases a with
  | host => exact ⟨_, rfl, hostStep_cfg s⟩
  | core => exact coreStep_answers s
  | phase => exact phaseStep_answers s

end

/-- Settles O6: each of the three agents has a next state, and the schedule holds no capacity. -/
theorem stepAlwaysAnswers : Obligations.StepAlwaysAnswers := fun s => agentStep_answers s.popSched s.mover

end Sys2Proof.Machine
end

section
/-! SUPPORT. The two resets (70_reset_and_hazards.md R290, R292): what they leave of the registers and of the buffers. -/

namespace Sys2Proof.Machine

/-! The registers. -/

theorem resetRegs_statusWord (s : State) : s.resetRegs.statusWord = 0#32 := BitVec.eq_of_toNat_eq (statusWord_toNat s.resetRegs)

theorem resetRegs_ctrlWord (s : State) : s.resetRegs.ctrlWord = 0#32 := BitVec.eq_of_toNat_eq (ctrlWord_toNat s.resetRegs)

/-- `CTRL` holds `IRQ_EN` in bit 0 and nothing above it (10_state.md R24), so the request of a soft reset never reads back. -/
theorem ctrlWord_getLsbD_one (s : State) : s.ctrlWord.getLsbD 1 = false := by
  unfold State.ctrlWord
  cases s.irqEn <;> rfl

/-! The buffers after a soft reset. -/

theorem softReset_mem_of_idle {s : State} (hb : s.busy = false) : s.softReset.mem = s.mem := by
  rw [State.softReset_mem, hb, if_neg Bool.false_ne_true]

theorem softReset_mem_of_noOwner {s : State} (ho : s.phase.owner = none) : s.softReset.mem = s.mem := by
  rw [State.softReset_mem, ho]
  exact ite_self _

theorem softReset_mem_of_running {s : State} {c : Instr} (hb : s.busy = true) (ho : s.phase.owner = some c) :
    s.softReset.mem = s.mem.clearOutputs c := by
  rw [State.softReset_mem, hb, ho]
  rfl

/-- A word of a buffer after a soft reset that abandons a command is that word after the command's error completion. -/
theorem softReset_word {s : State} {c : Instr} (hb : s.busy = true) (ho : s.phase.owner = some c) (sp : Space) (idx : Nat) :
    s.softReset.word sp idx = (s.mem.clearOutputs c).peek s.cfg sp idx := by
  rw [State.word, softReset_mem_of_running hb ho, State.softReset_cfg]

/-- Settles O10: the registers are reset whatever they held, and the abandoned command's output buffers are cleared as an error clears them. -/
theorem softResetEffect : Obligations.SoftResetEffect := by
  intro s v hv
  refine ⟨s.softReset, by rw [memWrite_reg, regWrite_ctrl_reset s hv], resetRegs_statusWord _, rfl, resetRegs_ctrlWord _, rfl, rfl, rfl, rfl, rfl, rfl, rfl, rfl, rfl, ?_, ?_,
    ctrlWord_getLsbD_one⟩
  · rintro (hb | ho)
    · exact softReset_mem_of_idle hb
    · exact softReset_mem_of_noOwner ho
  · intro c hb ho
    refine ⟨fun sp idx hsp => ?_, fun sp idx hsp hidx => ?_⟩
    · rw [softReset_word hb ho]
      exact (peek_clearOutputs s.cfg c s.mem sp idx).1 hsp
    · rw [softReset_word hb ho]
      exact (peek_clearOutputs s.cfg c s.mem sp idx).2 hsp hidx

/-! The reset input. -/

section
variable {s : State} (hrst : s.rst = true)
include hrst

/-- While the reset input is asserted the default schedule gives the host the move, so that the release is not held up by a command. -/
theorem mover_inReset (hsched : s.sched = []) : s.mover = .host := by
  rw [mover_eq, hsched, hrst, Bool.not_true, Bool.and_false]
  rfl

theorem hostOp_release : hostOp .releaseReset s = s.powerOn := if_pos hrst

/-- A release that is the host's next operation is performed by the next step. -/
theorem step_release {rest : List HostOp} (hsched : s.sched = []) (hscript : s.script = .releaseReset :: rest) :
    step s = .next (State.powerOn { s with script := rest }) := by
  rw [step_host (mover_inReset hrst hsched) hscript, popSched_of_nil s hsched]
  exact congrArg Host.Outcome.next (hostOp_release (s := { s with script := rest }) hrst)

end

/-- Settles O11: every operation asks for the reset input first, and the release resets the registers and empties the buffers. -/
theorem resetInputEffect : Obligations.ResetInputEffect := by
  intro s hrst
  exact ⟨fun _ _ => if_pos hrst, fun _ _ _ => if_pos hrst, if_pos hrst, if_pos hrst, if_pos hrst, if_pos hrst, fun _ => step_release hrst,
    s.powerOn, hostOp_release hrst, rfl, resetRegs_statusWord _, resetRegs_ctrlWord _, rfl, rfl, rfl, rfl, rfl, rfl, rfl, rfl, rfl, fun _ _ => peek_empty s.cfg⟩

end Sys2Proof.Machine
end

section
/-! SUPPORT. The empty input (70_reset_and_hazards.md R306 (e)): every transform delivers nothing, and storing nothing changes nothing. -/

namespace Sys2Proof.Machine

theorem store_of_empty {o : Output} (hlen : o.len = 0) (htable : o.tableLen = 0) (s : State) : o.store s = s := by
  cases o with
  | text xs =>
    obtain rfl := List.eq_nil_of_length_eq_zero hlen
    rfl
  | bits bs =>
    obtain rfl := List.eq_nil_of_length_eq_zero hlen
    rfl
  | bytes ys =>
    obtain rfl := List.eq_nil_of_length_eq_zero hlen
    rfl
  | toks ts =>
    obtain rfl := List.eq_nil_of_length_eq_zero hlen
    rfl
  | coded o =>
    obtain ⟨bs, cs⟩ := o
    obtain rfl : bs = [] := List.eq_nil_of_length_eq_zero hlen
    obtain rfl : cs = [] := List.eq_nil_of_length_eq_zero htable
    rfl

/-- With no input the prechecks on it pass, and no loop makes an iteration; the table of `HUF_DEC` is still checked (41_huffman.md R156). -/
theorem result_of_empty {c : Instr} {s : State} (hN : s.nIn = 0) (htable : c = .hufDec → s.kIn ≤ s.cfg.kMax ∧ validTable s.cfg.lMax (s.ctIn s.kIn))
    (hwindow : c = .lzEnc → s.wIn ≠ 0) : ∃ o, s.result c = .ok o ∧ o.len = 0 ∧ o.tableLen = 0 := by
  have hfits : ∀ cap, ¬ s.nIn > cap := fun cap => by omega
  cases c with
  | hufEnc => exact ⟨.coded { bits := [], codes := [] }, by rw [State.result, if_neg (hfits _), hN]; rfl, rfl, rfl⟩
  | hufDec =>
    obtain ⟨hK, hvalid⟩ := htable rfl
    exact ⟨.text [], by rw [result_hufDec (Nat.le_of_not_lt (hfits _)) hK, hN, hufDecode, checkTable_of_valid hvalid]; rfl, rfl, rfl⟩
  | lzEnc => exact ⟨.toks [], by rw [State.result, if_neg (hwindow rfl), if_neg (hfits _), hN]; rfl, rfl, rfl⟩
  | lzDec => exact ⟨.text [], by rw [State.result, if_neg (hfits _), hN]; rfl, rfl, rfl⟩
  | packBits => exact ⟨.bytes [], by rw [State.result, if_neg (hfits _), hN]; rfl, rfl, rfl⟩
  | unpackBits => exact ⟨.bits [], by rw [State.result, if_neg (hfits _), hN]; rfl, rfl, rfl⟩
  | packTok => exact ⟨.bytes [], by rw [State.result, if_neg (hfits _), hN]; rfl, rfl, rfl⟩
  | unpackTok => exact ⟨.toks [], by rw [State.result, if_neg (hfits _), hN]; rfl, rfl, rfl⟩

/-- Settles O25: the command delivers nothing, and its success completion leaves the buffers alone. -/
theorem emptyInputSucceeds : Obligations.EmptyInputSucceeds := by
  intro c s hN htable hwindow
  obtain ⟨o, hres, hlen, hnone⟩ := result_of_empty hN htable hwindow
  obtain ⟨-, hsp⟩ := result_fits hres
  have hends := finish_ok_ends hsp s
  rw [hlen, hnone] at hends
  refine ⟨s.finish c (.ok o), by rw [exec_eq_finish, hres], ?_, hends⟩
  rw [State.finish, store_of_empty hlen hnone, State.complete_mem]

end Sys2Proof.Machine
end
